-- ==== Sys2Proof/Word.lean ====
section
/-! DEFINITION. The word types of FCCORE: bytes, 32-bit register words, LZW codes, bus directions. -/

namespace Sys2Proof

/-- A symbol, a byte of buffer memory (R6, R71). -/
abbrev Byte := BitVec 8

/-- A register of the register block, a buffer-memory address (R10). -/
abbrev Word := BitVec 32

/-- An LZW code, 4 bytes (R9, R116). -/
abbrev Code := BitVec 32

/-- The direction of a bus access or of a buffer-memory access (R78, R104). -/
inductive Dir where
  | read
  | write
deriving DecidableEq, Repr

end Sys2Proof
end

