-- ==== Sys2Proof/Syntax.lean ====
section
/-! DEFINITION. The instructions of FCCORE, one constructor for each row of spec/opcode_table.json, and
the bus transactions that encode those a host can issue (R104). -/

namespace Sys2Proof

/-- One constructor per row of the opcode table. The first eight are the CMD words (R101, R102), the next
three the control actions (R103), then the internal operations of the engine, which no host word
encodes, and last the host's pseudo-instructions (R105 to R108). -/
inductive Instr where
  /-- CMD.OP = 1 (R202). -/
  | huffCompress
  /-- CMD.OP = 2 (R211). -/
  | huffDecompress
  /-- CMD.OP = 3 (R257). -/
  | lzwCompress
  /-- CMD.OP = 4 (R263). -/
  | lzwDecompress
  /-- CMD.OP = 0, reserved (R148). -/
  | reserved0
  /-- CMD.OP = 5, reserved (R148). -/
  | reserved5
  /-- CMD.OP = 6, reserved (R148). -/
  | reserved6
  /-- CMD.OP = 7, reserved (R148). -/
  | reserved7
  /-- A CTRL write with START = 1 and SOFT_RESET = 0 (R141), and its IRQ_EN and LZW_STRICT bits. -/
  | start (irqEn lzwStrict : Bool)
  /-- A CTRL write with SOFT_RESET = 1 (R146). -/
  | softReset
  /-- A STATUS write with bit 1 = 1 (R145). -/
  | clearDone
  /-- Pack one bit (R171). -/
  | packBit (b : Bool)
  /-- Write the last, partial byte (R172). -/
  | packFlush
  /-- Bit t of the code stream that starts at input offset S (R174). -/
  | unpackBit (S t : Nat)
  /-- Pass 1 of HUFF_COMPRESS (R190). -/
  | buildFrequencyTable
  /-- Every frequency fits the header's int32 (R191). -/
  | checkFrequencyRange
  /-- One leaf for each distinct byte value (R192). -/
  | seedLeaves
  /-- Take the least node out of QUEUE (R193). -/
  | popMin
  /-- Merge until one node is left (R194). -/
  | buildTree
  /-- The codes from the tree (R197). -/
  | buildEncodingTable
  /-- The total bit count T (R200). -/
  | totalBits
  /-- Write the Huffman header (R201). -/
  | serializeHeader (T : BitVec 64)
  /-- Read and check the Huffman header (R205). -/
  | parseHeader
  /-- The code stream holds T bits (R206). -/
  | checkPayloadLength (u : Nat) (T : BitVec 64)
  /-- Decode T bits, two or more symbols (R208). -/
  | decodeStream (S : Nat) (T : BitVec 64)
  /-- Decode T bits, one symbol (R209). -/
  | decodeStream1 (S : Nat) (T : BitVec 64)
  /-- The 256 seed entries (R251). -/
  | seed
  /-- Insert string(p) ++ [c] at NEXT (R252). -/
  | insert (p : Code) (c : Byte)
  /-- The code of string(w) ++ [c] (R253). -/
  | find (w : Code) (c : Byte)
  /-- One input byte of LZW_COMPRESS (R254). -/
  | encodeByte (c : Byte)
  /-- The last code of LZW_COMPRESS (R255). -/
  | encodeEnd
  /-- IN_LEN is a multiple of 4 (R258). -/
  | lengthCheck
  /-- The first code of LZW_DECOMPRESS (R259). -/
  | decodeFirst
  /-- Code j, j >= 1, of LZW_DECOMPRESS (R261). -/
  | decodeNext (j : Nat)
  /-- Write string(k) (R262). -/
  | emitString (k : Code)
  /-- Program the regions, CMD and CTRL with START (R105). -/
  | run (op inBase inLen outBase outCap cfg : Word)
  /-- POLL STATUS, 2, 2 (R106). -/
  | waitdone
  /-- WR STATUS, 2 (R107). -/
  | clrdone
  /-- WR CTRL, 2 (R108). -/
  | sreset
deriving DecidableEq, Repr

/-- A host bus transaction: direction, 8-bit register offset, 32-bit data (R104). The data of a read is
not used. -/
structure Transaction where
  dir  : Dir
  off  : Byte
  data : Word
deriving DecidableEq, Repr

/-- Why the decoder gives no instruction for a transaction. -/
inductive Reject where
  /-- A read: `RD`, no row of the opcode table. -/
  | registerRead
  /-- A write to a register whose writes are no control action and select no command (R147). -/
  | plainWrite
  /-- A CTRL write with START = 0 and SOFT_RESET = 0: it only sets IRQ_EN and LZW_STRICT (R140). -/
  | ctrlWithoutAction
  /-- A STATUS write with bit 1 = 0: no effect (R145). -/
  | statusWithoutDone
  /-- A list of transactions that is neither one transaction nor the six of RUN (R105). -/
  | noSuchSequence
deriving DecidableEq, Repr

/-- The instruction is a CMD word: a row of the table with format CMD. -/
def Instr.isCommand : Instr → Bool
  | .huffCompress | .huffDecompress | .lzwCompress | .lzwDecompress => true
  | .reserved0 | .reserved5 | .reserved6 | .reserved7 => true
  | _ => false

/-- The instruction is a control action: one register write with a side effect (R103). -/
def Instr.isControl : Instr → Bool
  | .start _ _ | .softReset | .clearDone => true
  | _ => false

/-- The instruction is a host pseudo-instruction (R105 to R108). -/
def Instr.isPseudo : Instr → Bool
  | .run _ _ _ _ _ _ | .waitdone | .clrdone | .sreset => true
  | _ => false

/-- A host program can hold the instruction as one entry: a control action or a pseudo-instruction. A
command is issued by writing CMD and then CTRL (R100); an internal operation is not host-encodable. -/
def Instr.hostIssuable (i : Instr) : Bool := i.isControl || i.isPseudo

end Sys2Proof
end

