-- ==== Sys2Proof/WellFormed.lean ====
section
/-! DEFINITION. The operand ranges of the instructions: what the rules say an operand can be. -/

namespace Sys2Proof

/-- Every operand is in the range its rule gives it. -/
def Instr.wf : Instr → Bool
  -- R174: the bit index is below 2^63; a stream start is an input offset
  | .unpackBit S t => S < 2 ^ 32 && t < 2 ^ 63
  -- R110: 0 <= T < 2^40 for every header the serializer writes
  | .serializeHeader T => T.toNat < 2 ^ 40
  -- R205: 0 <= u <= 256 and T >= 0 as s64
  | .checkPayloadLength u T => u ≤ 256 && T.toNat < 2 ^ 63
  -- R208, R209: S = 12 + 5u is an input offset, T >= 0 as s64
  | .decodeStream S T => S < 2 ^ 32 && T.toNat < 2 ^ 63
  | .decodeStream1 S T => S < 2 ^ 32 && T.toNat < 2 ^ 63
  -- R116: a code of the dictionary is below LZW_CAP <= 2^31
  | .insert p _ => p.toNat < 2 ^ 31
  | .find w _ => w.toNat < 2 ^ 31
  | .emitString k => k.toNat < 2 ^ 31
  -- R261: j >= 1, and the four bytes of code j lie inside an input of less than 2^32 bytes
  | .decodeNext j => 1 ≤ j && 4 * j + 4 < 2 ^ 32
  -- R105, R101: an OP value has 3 bits
  | .run op _ _ _ _ _ => op.toNat < 8
  | .huffCompress | .huffDecompress | .lzwCompress | .lzwDecompress => true
  | .reserved0 | .reserved5 | .reserved6 | .reserved7 => true
  | .start _ _ | .softReset | .clearDone => true
  | .packBit _ | .packFlush | .buildFrequencyTable | .checkFrequencyRange | .seedLeaves => true
  | .popMin | .buildTree | .buildEncodingTable | .totalBits | .parseHeader => true
  | .seed | .encodeByte _ | .encodeEnd | .lengthCheck | .decodeFirst => true
  | .waitdone | .clrdone | .sreset => true

end Sys2Proof
end

