-- ==== Sys2Proof/Decode.lean ====
section
/-! DEFINITION. The decoder of CMD words and of host register writes, total on any bits and rejecting by
name, and after it the encoder, both from the tables of 30_encoding.md. -/

namespace Sys2Proof

/-- Offset of CTRL in the register block (R25). -/
def offCtrl : Byte := 0x08#8
/-- Offset of CMD (R26). -/
def offCmd : Byte := 0x0C#8
/-- Offset of STATUS (R27). -/
def offStatus : Byte := 0x10#8
/-- Offset of IN_BASE (R28). -/
def offInBase : Byte := 0x14#8
/-- Offset of IN_LEN (R29). -/
def offInLen : Byte := 0x18#8
/-- Offset of OUT_BASE (R30). -/
def offOutBase : Byte := 0x1C#8
/-- Offset of OUT_CAP (R31). -/
def offOutCap : Byte := 0x20#8
/-- Offset of SYM_SEL (R40). -/
def offSymSel : Byte := 0x48#8

/-- CMD.OP, bits 2:0 of a CMD word (R26, R100). -/
def opField (w : Word) : BitVec 3 := w.extractLsb' 0 3

/-- The command an OP value selects (R101, R102). -/
def decodeOp (op : BitVec 3) : Instr :=
  match op.toNat with
  | 0 => .reserved0
  | 1 => .huffCompress
  | 2 => .huffDecompress
  | 3 => .lzwCompress
  | 4 => .lzwDecompress
  | 5 => .reserved5
  | 6 => .reserved6
  | _ => .reserved7

/-- The decoder of the one instruction format: it matches CMD bits 2:0 only (R100, R101). -/
def decodeCmd (w : Word) : Instr := decodeOp (opField w)

/-- The control action that a host write of v at offset off is (R103): SOFT_RESET wins over START
(R140). -/
def decodeAction (off : Byte) (v : Word) : Except Reject Instr :=
  if off = offCtrl then
    if v.getLsbD 1 then .ok .softReset
    else if v.getLsbD 0 then .ok (.start (v.getLsbD 2) (v.getLsbD 3))
    else .error .ctrlWithoutAction
  else if off = offStatus then
    if v.getLsbD 1 then .ok .clearDone else .error .statusWithoutDone
  else .error .plainWrite

/-- The instruction a transaction encodes: a CMD write selects a command, a CTRL or STATUS write is a
control action. -/
def decode (t : Transaction) : Except Reject Instr :=
  match t.dir with
  | .read => .error .registerRead
  | .write => if t.off = offCmd then .ok (decodeCmd t.data) else decodeAction t.off t.data

/-- The instruction a list of transactions encodes: one transaction, or the six writes of RUN in their
order (R105). -/
def decodeList : List Transaction → Except Reject Instr
  | [t] => decode t
  | [⟨.write, o0, ib⟩, ⟨.write, o1, il⟩, ⟨.write, o2, ob⟩, ⟨.write, o3, oc⟩, ⟨.write, o4, op⟩,
      ⟨.write, o5, c⟩] =>
    if o0 = offInBase && o1 = offInLen && o2 = offOutBase && o3 = offOutCap && o4 = offCmd
        && o5 = offCtrl && (c &&& 0xFFFFFFF3#32) = 1#32 then
      .ok (.run op ib il ob oc (c &&& 0x0000000C#32))
    else .error .noSuchSequence
  | _ => .error .noSuchSequence

/-! The encoder. -/

/-- The CTRL word of START: bit 0 = 1, bit 1 = 0, IRQ_EN in bit 2, LZW_STRICT in bit 3; the bits 31:4 are
ignored and written 0 (R25, R103; log 25). -/
def startWord (irqEn lzwStrict : Bool) : Word :=
  1#32 ||| (if irqEn then 4#32 else 0#32) ||| (if lzwStrict then 8#32 else 0#32)

/-- The last write of RUN: `(cfg AND 0xC) OR 1` (R105). -/
def runCtrlWord (cfg : Word) : Word := (cfg &&& 0x0000000C#32) ||| 1#32

/-- A register write. -/
def wr (off : Byte) (v : Word) : Transaction := ⟨.write, off, v⟩

/-- The transactions of an instruction a host can issue: one CMD write for a command (R101), one write
for a control action (R103), the expansion of a pseudo-instruction (R105 to R108; WAITDONE is a loop of
the one read shown). An internal operation has no encoding. -/
def encode : Instr → List Transaction
  | .reserved0 => [wr offCmd 0#32]
  | .huffCompress => [wr offCmd 1#32]
  | .huffDecompress => [wr offCmd 2#32]
  | .lzwCompress => [wr offCmd 3#32]
  | .lzwDecompress => [wr offCmd 4#32]
  | .reserved5 => [wr offCmd 5#32]
  | .reserved6 => [wr offCmd 6#32]
  | .reserved7 => [wr offCmd 7#32]
  | .start a b => [wr offCtrl (startWord a b)]
  | .softReset => [wr offCtrl 2#32]
  | .clearDone => [wr offStatus 2#32]
  | .run op ib il ob oc cfg =>
    [wr offInBase ib, wr offInLen il, wr offOutBase ob, wr offOutCap oc, wr offCmd op,
      wr offCtrl (runCtrlWord cfg)]
  | .waitdone => [⟨.read, offStatus, 0#32⟩]
  | .clrdone => [wr offStatus 2#32]
  | .sreset => [wr offCtrl 2#32]
  | .packBit _ | .packFlush | .unpackBit _ _ | .buildFrequencyTable | .checkFrequencyRange => []
  | .seedLeaves | .popMin | .buildTree | .buildEncodingTable | .totalBits | .serializeHeader _ => []
  | .parseHeader | .checkPayloadLength _ _ | .decodeStream _ _ | .decodeStream1 _ _ => []
  | .seed | .insert _ _ | .find _ _ | .encodeByte _ | .encodeEnd => []
  | .lengthCheck | .decodeFirst | .decodeNext _ | .emitString _ => []

/-- A word wider than 32 bits, read as a transaction: data in bits 31:0, offset in bits 39:32, direction
in bit 40 (1 = write). The layout is the model's (log 13). -/
def transactionOfBits (w : Nat) : Transaction :=
  ⟨if w.testBit 40 then .write else .read, BitVec.ofNat 8 (w >>> 32), BitVec.ofNat 32 w⟩

/-- What the decoder reads from an opcode-table word: a word of at most 32 bits is a CMD word, the one
instruction format (R100), a wider one a transaction (log 13). -/
def decodeTableWord (nbits w : Nat) : Option Instr :=
  if nbits ≤ 32 then some (decodeCmd (BitVec.ofNat 32 w))
  else (decode (transactionOfBits w)).toOption

end Sys2Proof
end

