-- ==== Sys2Proof/Config.lean ====
section
/-! DEFINITION. What is fixed for the machine (constant registers, default parameters) and the free
values: opaque constants with no body, so that no proof can rest on what they are. -/

namespace Sys2Proof

/-- Register ID reads this constant at all times (R23). -/
def Config.idValue : Word := 0x46434352#32

/-- Register VERSION: MAJOR 1 in bits 31:16, MINOR 0 in bits 15:0 (R24). -/
def Config.versionValue : Word := 0x00010000#32

/-- The default of the build parameter LZW_CAP (R8). -/
def Config.lzwCapDefault : Word := 4096#32

/-- FREE VALUE (R78, I-2; log 1): does an unknown platform answer draw number n, the byte access at
address a in direction d, with an error? -/
opaque Config.busErrorDraw : (n a : Nat) → Dir → Bool

/-- FREE VALUE (R46, I-4; log 3): what a host read of a result register returns while BUSY. -/
opaque Config.busyRead : Nat → Word

/-- FREE VALUE (R34, R315, I-3; log 2): ELAPSED when a command ends. -/
opaque Config.elapsedTicks : Nat → Word

/-- FREE VALUE (R342, I-12; log 4): how many of its output bytes a command that a reset aborts had
written; the model takes it no larger than the number the command would have written. -/
opaque Config.abortWrites : Nat → Nat

/-- FREE VALUE (R60, I-11; log 6): the byte that an address of buffer memory holds at power-on. -/
opaque Config.powerOnByte : Nat → Byte

/-- FREE VALUE (R193 names no least member of an empty set; log 18): what PopMin returns then. -/
opaque Config.emptyQueueNode : Nat → Nat

end Sys2Proof
end

