-- ==== Sys2Proof/Machine/State.lean ====
section
/-! DEFINITION. The state of FCCORE, its platform and its host as plain data, the reasons a step can
stop, and the state after reset (10_state.md, 70_reset_and_hazards.md R343). -/

namespace Sys2Proof.Machine

/-- Where the engine is in a command (R58). -/
inductive Phase where
  | idle
  | check
  | hCount | hTree | hTable | hHeader | hEncode | hFlush
  | hParse | hDecode
  | lEncode
  | lDecode
deriving DecidableEq, Repr

/-- The six error kinds of a command (R300). -/
inductive ErrKind where
  | ioOpen
  | ioRead
  | ioWrite
  | corruptHeader
  | corruptData
  | unsupportedConfiguration
deriving DecidableEq, Repr

/-- `raise E(info)` (R14). -/
structure Raise where
  kind : ErrKind
  info : Word
deriving DecidableEq, Repr

/-- The register block (10_state.md section 2). Constant registers, views and reserved bits have no
storage here. -/
structure Regs where
  /-- CTRL.IRQ_EN (R25). -/
  irqEn      : Bool
  /-- CTRL.LZW_STRICT (R25). -/
  lzwStrict  : Bool
  /-- CMD.OP (R26). -/
  op         : BitVec 3
  /-- STATUS.BUSY (R27). -/
  busy       : Bool
  /-- STATUS.DONE (R27). -/
  done       : Bool
  /-- STATUS.ERROR (R27). -/
  error      : Bool
  /-- STATUS.ERR_CODE (R27). -/
  errCode    : BitVec 3
  /-- IN_BASE (R28). -/
  inBase     : Word
  /-- IN_LEN (R29). -/
  inLen      : Word
  /-- OUT_BASE (R30). -/
  outBase    : Word
  /-- OUT_CAP (R31). -/
  outCap     : Word
  /-- OUT_LEN (R32). -/
  outLen     : Word
  /-- ERR_INFO (R33). -/
  errInfo    : Word
  /-- ELAPSED (R34). -/
  elapsed    : Word
  /-- HUFF_UNIQUE bits 8:0 (R35). -/
  huffUnique : BitVec 9
  /-- HUFF_BITS_LO (R36). -/
  huffBitsLo : Word
  /-- HUFF_BITS_HI (R36). -/
  huffBitsHi : Word
  /-- LZW_CODES (R37). -/
  lzwCodes   : Word
  /-- LZW_NEXT (R38). -/
  lzwNext    : Word
  /-- SYM_SEL.SYM (R40). -/
  symSel     : Byte
deriving DecidableEq, Repr

/-- A node of the Huffman tree (R51). A weight is an exact count (R10: no sum overflows 64 bits); `left`
and `right` are arena indices. -/
inductive Node where
  | leaf (sym : Byte) (weight : Nat)
  | internal (left right weight : Nat)
deriving DecidableEq, Repr

/-- The Huffman state (R49 to R53). -/
structure Huff where
  /-- FREQ (R49). -/
  freq     : Vector Word 256
  /-- U (R50). -/
  u        : Nat
  /-- ORDER (R50). -/
  order    : Vector Byte 256
  /-- RANK (R50). -/
  rank     : Vector Byte 256
  /-- NODE: the arena entries that hold a node, by rising index (R51; log 21). -/
  node     : List (Nat × Node)
  /-- NNODES (R51). -/
  nnodes   : Nat
  /-- ROOT (R51). -/
  root     : Nat
  /-- QUEUE: the members of the set, rising (R52; log 21). -/
  queue    : List Nat
  /-- CODELEN (R53). -/
  codeLen  : Vector Byte 256
  /-- CODEBITS: bit i is code bit i (R53). -/
  codeBits : Vector (BitVec 255) 256
deriving DecidableEq, Repr

/-- The bit packer (R54). -/
structure Packer where
  /-- PACC: the byte being assembled. -/
  pacc  : Byte
  /-- PCNT: bits already placed in PACC. -/
  pcnt  : BitVec 3
  /-- NBITS: bits packed so far. -/
  nbits : Nat
deriving DecidableEq, Repr

/-- An LZW dictionary entry (R55): `pre` is its prefix code, none for a seed; `first` the first byte and
`len` the length of its string. An entry is valid when the dictionary lists it. -/
structure DictEntry where
  pre   : Option Code
  byte  : Byte
  first : Byte
  len   : Nat
deriving DecidableEq, Repr

/-- The LZW state (R55, R56). -/
structure Lzw where
  /-- DICT: the valid entries, by rising code (R55; log 21). -/
  dict   : List (Nat × DictEntry)
  /-- NEXT (R56). -/
  next   : Code
  /-- W (R56). -/
  w      : Code
  /-- W_VALID (R56). -/
  wValid : Bool
  /-- PREV (R56). -/
  prev   : Code
deriving DecidableEq, Repr

/-- The cursors (R57). -/
structure Cursors where
  /-- IN_POS: the offset of the next input byte to read. -/
  inPos  : Nat
  /-- BITPOS: the index of the next code-stream bit to unpack. -/
  bitPos : Nat
  /-- PASS: false count, true encode. -/
  pass   : Bool
deriving DecidableEq, Repr

/-- Addresses lo to hi whose accesses in one direction the platform answers with an error. -/
structure ErrRange where
  lo  : Word
  hi  : Word
  dir : Dir
deriving DecidableEq, Repr

/-- The parameters the platform fixes (R11). -/
structure Platform where
  /-- LZW_CAP (R8, R39; log 8). -/
  lzwCap  : Word
  /-- REG_BASE (R85; log 9). -/
  regBase : Word
  /-- BusError (R78; log 1): the ranges a known platform answers with an error; none for an unknown
  platform, whose answer is a free draw at every access. -/
  busErr  : Option (List ErrRange)
deriving DecidableEq, Repr

/-- What the outside world does next: the forms of a host program (R104), raw bus accesses (R22), the
host's accesses to buffer memory (R70), the reset input (R340) and the passing of time. -/
inductive HostOp where
  /-- `WR reg, v`. -/
  | wr (off : Byte) (v : Word)
  /-- `RD reg -> name`; the word goes to `results`. -/
  | rd (off : Byte)
  /-- `POLL reg, mask, val`. -/
  | poll (off : Byte) (mask val : Word)
  /-- `WAITIRQ`. -/
  | waitIrq
  /-- `MEM addr: bytes`. -/
  | mem (addr : Word) (bytes : List Byte)
  /-- The host reads one byte of buffer memory; the byte goes to `results`. -/
  | memRd (addr : Word)
  /-- A bus write of the given bytes, lowest address first, at a bus address. -/
  | busWrite (addr : Word) (bytes : List Byte)
  /-- A bus read of `width` bytes at a bus address. -/
  | busRead (addr : Word) (width : Nat)
  /-- The platform drives the hardware reset input: true asserts, false releases. -/
  | hwReset (asserted : Bool)
  /-- The world decides how many of the host's entries the command in flight, or the next one, lets pass
  before it ends (R351: any finite duration). -/
  | latency (n : Nat)
  /-- A control action or pseudo-instruction of the opcode table. -/
  | instr (i : Instr)
deriving DecidableEq, Repr

/-- What an internal operation returned to its caller (log 20). -/
inductive Ret where
  | none
  /-- UnpackBit (R174). -/
  | bit (b : Bool)
  /-- PopMin (R193). -/
  | node (n : Nat)
  /-- TotalBits (R200). -/
  | bits (T : BitVec 64)
  /-- ParseHeader (R205). -/
  | header (u : Nat) (T : BitVec 64)
  /-- CheckPayloadLength (R206). -/
  | offset (S : Nat)
  /-- Find (R253): none is NONE. -/
  | code (k : Option Code)
deriving DecidableEq, Repr

/-- The whole state. The fields from `host` on are the model's own (log 7). -/
structure State where
  regs    : Regs
  /-- PHASE (R58). -/
  phase   : Phase
  huff    : Huff
  pack    : Packer
  lzw     : Lzw
  cur     : Cursors
  /-- Buffer memory (R60, R71): the bytes written so far, by rising address (log 6). -/
  mem     : List Host.Cell
  cfg     : Platform
  /-- The hardware reset input is asserted (R340). -/
  hwReset : Bool
  /-- What the host will still do, in order. -/
  host    : List HostOp
  /-- What the host's reads returned, newest first. -/
  results : List Word
  /-- How many of the host's entries the command in flight lets pass before it ends (log 22). -/
  latency : Nat
  /-- What the last internal operation run as an instruction returned. -/
  ret     : Ret
  /-- How many free values were drawn. -/
  draws   : Nat
deriving DecidableEq, Repr

/-- Why the machine stops with a fault. -/
inductive Fault where
  /-- Raised by a host memory entry (`mem`) whose bytes run past address 2^32 - 1: the byte store has no
  such address (R71; log 28). Safe: the model stops. -/
  | outsideBufferMemory
deriving DecidableEq, Repr

/-- Why a step has no meaning. All are safe: the model stops where the spec gives no move. -/
inductive Refusal where
  /-- No meaning yet for the instruction. Raised by no arm: every instruction has its meaning. -/
  | notModelled (mnemonic : String)
  /-- Raised by a register access of another width than 32 bits or at an offset that is no multiple of 4:
  "a model refuses it" (R22, I-6). -/
  | badRegisterAccess
  /-- Raised by a bus access outside the register block: another device of the platform (log 24). -/
  | notRegisterBlock
  /-- Raised by a register access while the hardware reset is asserted: "a model refuses them" (R340,
  I-13). -/
  | accessDuringReset
  /-- Raised by a host access to the input or output region of a running command: "the model gives the
  host no such move" (R92, I-5; log 11). -/
  | hostDutyBroken
  /-- Raised by a host-program entry that no host can issue: an internal operation or a bare CMD word. -/
  | notHostIssuable
deriving DecidableEq, Repr

/-- The register block after reset (R341, R343). -/
def Regs.reset : Regs where
  irqEn := false
  lzwStrict := false
  op := 0#3
  busy := false
  done := false
  error := false
  errCode := 0#3
  inBase := 0#32
  inLen := 0#32
  outBase := 0#32
  outCap := 0#32
  outLen := 0#32
  errInfo := 0#32
  elapsed := 0#32
  huffUnique := 0#9
  huffBitsLo := 0#32
  huffBitsHi := 0#32
  lzwCodes := 0#32
  lzwNext := 0#32
  symSel := 0#8

/-- FREQ, U, ORDER, RANK, NODE, NNODES, ROOT, QUEUE, CODELEN, CODEBITS cleared (R141, R341). -/
def Huff.cleared : Huff where
  freq := Vector.replicate 256 0#32
  u := 0
  order := Vector.replicate 256 0#8
  rank := Vector.replicate 256 0#8
  node := []
  nnodes := 0
  root := 0
  queue := []
  codeLen := Vector.replicate 256 0#8
  codeBits := Vector.replicate 256 0#255

/-- PACC, PCNT, NBITS cleared (R141, R341). -/
def Packer.cleared : Packer where
  pacc := 0#8
  pcnt := 0#3
  nbits := 0

/-- DICT, NEXT, W, W_VALID, PREV cleared (R141, R341). -/
def Lzw.cleared : Lzw where
  dict := []
  next := 0#32
  w := 0#32
  wValid := false
  prev := 0#32

/-- IN_POS, BITPOS, PASS cleared (R141, R341). -/
def Cursors.cleared : Cursors where
  inPos := 0
  bitPos := 0
  pass := false

/-- The platform of the reset state: the default capacity (R8; log 8), the block at address 0 (log 9), an
unknown BusError (R78; log 1). -/
def Platform.default : Platform where
  lzwCap := Config.lzwCapDefault
  regBase := 0#32
  busErr := none

/-- FCCORE just after reset (R343), nothing known of buffer memory, a host with nothing to do. -/
def State.reset : State where
  regs := Regs.reset
  phase := .idle
  huff := Huff.cleared
  pack := Packer.cleared
  lzw := Lzw.cleared
  cur := Cursors.cleared
  mem := []
  cfg := Platform.default
  hwReset := false
  host := []
  results := []
  latency := 0
  ret := .none
  draws := 0

/-- The engine's computations: they change the state and may raise an error, which keeps the state as it
stands at the raise (R14, R307). -/
abbrev Eng := EStateM Raise State

end Sys2Proof.Machine
end

