-- ==== Sys2Proof/Machine/Flags.lean ====
section
/-! DEFINITION. The status flags, the words that STATUS, CTRL and CMD read as, the error codes and the
interrupt line (10_state.md R25 to R27, R47, R48; 60_exceptions.md R300). -/

namespace Sys2Proof.Machine

/-- A flag as a bit of a register word. -/
def flagAt (b : Bool) (i : Nat) : Word := if b then 1#32 <<< i else 0#32

/-- What STATUS reads: BUSY bit 0, DONE bit 1, ERROR bit 2, ERR_CODE bits 10:8, the rest 0 (R27). -/
def Regs.statusWord (r : Regs) : Word :=
  flagAt r.busy 0 ||| flagAt r.done 1 ||| flagAt r.error 2 ||| (r.errCode.setWidth 32 <<< 8)

/-- What CTRL reads: IRQ_EN bit 2, LZW_STRICT bit 3, the action bits and the rest 0 (R25). -/
def Regs.ctrlWord (r : Regs) : Word := flagAt r.irqEn 2 ||| flagAt r.lzwStrict 3

/-- What CMD reads: OP in bits 2:0, the rest 0 (R26). -/
def Regs.cmdWord (r : Regs) : Word := r.op.setWidth 32

/-- The ERR_CODE of an error kind (R300). -/
def ErrKind.code : ErrKind → BitVec 3
  | .ioOpen => 1#3
  | .ioRead => 2#3
  | .ioWrite => 3#3
  | .corruptHeader => 4#3
  | .corruptData => 5#3
  | .unsupportedConfiguration => 6#3

/-- IRQ = CTRL.IRQ_EN AND STATUS.DONE at all times (R47, R310). -/
def State.irq (s : State) : Bool := s.regs.irqEn && s.regs.done

/-- The flags START writes: BUSY <- 1, DONE <- 0, ERROR <- 0, ERR_CODE <- 0 (R48, R141). -/
def Regs.flagsStart (r : Regs) : Regs :=
  { r with busy := true, done := false, error := false, errCode := 0#3 }

/-- The flags completion writes: BUSY <- 0, DONE <- 1 (R48, R144). -/
def Regs.flagsComplete (r : Regs) : Regs := { r with busy := false, done := true }

/-- The flags error termination writes (R48, R307). -/
def Regs.flagsError (r : Regs) (k : ErrKind) : Regs :=
  { r with errCode := k.code, error := true, busy := false, done := true }

end Sys2Proof.Machine
end

