-- ==== Sys2Proof/Machine/Ops.lean ====
section
/-! DEFINITION. The named operations over the state: sparse maps and buffer memory, the 256-entry
tables, loops, START's clearing, completion, ending a command on an error, and reset. -/

namespace Sys2Proof.Machine

/-! Sparse maps: a list of (key, value) pairs with rising keys. -/

/-- The value listed for a key. -/
def sparseGet? {α : Type} : List (Nat × α) → Nat → Option α
  | [], _ => none
  | (a, v) :: rest, k => if k = a then some v else sparseGet? rest k

/-- List a value for a key, in its place. -/
def sparseSet {α : Type} : List (Nat × α) → Nat → α → List (Nat × α)
  | [], k, v => [(k, v)]
  | (a, w) :: rest, k, v =>
    if k < a then (k, v) :: (a, w) :: rest
    else if k = a then (k, v) :: rest
    else (a, w) :: sparseSet rest k v

/-- The keys rise strictly from lo on. -/
def sparseRising {α : Type} : (lo : Nat) → List (Nat × α) → Bool
  | _, [] => true
  | lo, (a, _) :: rest => lo ≤ a && sparseRising (a + 1) rest

/-! Buffer memory (R71). -/

/-- The canonical form of buffer memory: rising addresses, each below 2^32 (log 6). -/
def Memory.wf (m : List Host.Cell) : Bool := sparseRising 0 m && m.all fun c => c.1 < 2 ^ 32

/-- `Mem[a]`: the byte written last, or what the address held at power-on (R71, R60; log 6). -/
def Memory.read (m : List Host.Cell) (a : Nat) : Byte := (sparseGet? m a).getD (Config.powerOnByte a)

/-- `Mem[a] <- v` (R71). -/
def Memory.write (m : List Host.Cell) (a : Nat) (v : Byte) : List Host.Cell := sparseSet m a v

/-- Write a string of bytes at rising addresses. -/
def Memory.writeBytes (m : List Host.Cell) (a : Nat) : List Byte → List Host.Cell
  | [] => m
  | b :: rest => Memory.writeBytes (Memory.write m a b) (a + 1) rest

/-- `count` bytes from address a up. -/
def Memory.readBytes (m : List Host.Cell) (a : Nat) : (count : Nat) → List Byte
  | 0 => []
  | n + 1 => Memory.read m a :: Memory.readBytes m (a + 1) n

/-- Memory `m` with the n bytes from address a replaced by those of `m'`. -/
def Memory.copyFrom (m' m : List Host.Cell) (a : Nat) (n : Nat) : List Host.Cell :=
  Memory.writeBytes m a (Memory.readBytes m' a n)

/-! The tables indexed by a byte value (R49, R50, R53). -/

/-- Entry b of a table. -/
def tget {α : Type} (t : Vector α 256) (b : Byte) : α := t[b.toNat]'b.isLt

/-- The table with entry b set. -/
def tset {α : Type} (t : Vector α 256) (b : Byte) (v : α) : Vector α 256 := t.set b.toNat v b.isLt

/-! The arena and the dictionary. An entry that is not in use reads as a cleared one (log 21). -/

/-- `NODE[n]` (R51). -/
def nodeAt (h : Huff) (n : Nat) : Node := (sparseGet? h.node n).getD (.leaf 0#8 0)

/-- The weight of a node (R51). -/
def Node.weight : Node → Nat
  | .leaf _ w => w
  | .internal _ _ w => w

/-- `DICT[k]` (R55). -/
def dictAt (l : Lzw) (k : Code) : DictEntry := (sparseGet? l.dict k.toNat).getD ⟨none, 0#8, 0#8, 0⟩

/-! Engine primitives (R14, R15). -/

/-- `raise E(info)`: no statement after it is executed (R14). -/
def raise {α : Type} (k : ErrKind) (info : Nat) : Eng α := throw ⟨k, BitVec.ofNat 32 info⟩

/-- Run body for i, i + 1, ..., i + n - 1. -/
def forFrom (body : Nat → Eng Unit) : (i n : Nat) → Eng Unit
  | _, 0 => pure ()
  | i, n + 1 => do
    body i
    forFrom body (i + 1) n

/-- `for i in 0 .. n-1` (R15). -/
def forRange (n : Nat) (body : Nat → Eng Unit) : Eng Unit := forFrom body 0 n

/-- `PHASE <- p` (R58). -/
def setPhase (p : Phase) : Eng Unit := modify fun s => { s with phase := p }

/-! START, completion and the end of a command on an error. -/

/-- What START does before its checks (R141): the flags, the result registers and all internal state are
cleared, PHASE is CHECK. SYM_SEL is not cleared. A command starts from nothing an earlier one left
(R59, R311). -/
def launch (s : State) : State :=
  { s with
    regs := { s.regs.flagsStart with
      outLen := 0#32, errInfo := 0#32, elapsed := 0#32, huffUnique := 0#9, huffBitsLo := 0#32,
      huffBitsHi := 0#32, lzwCodes := 0#32, lzwNext := 0#32 }
    phase := .check
    huff := Huff.cleared
    pack := Packer.cleared
    lzw := Lzw.cleared
    cur := Cursors.cleared }

/-- ELAPSED at the end of a command: a free value (R315, I-3; log 2). -/
def withElapsed (s : State) : State :=
  { s with regs := { s.regs with elapsed := Config.elapsedTicks s.draws }, draws := s.draws + 1 }

/-- Completion without error (R144). -/
def completed (s : State) : State :=
  withElapsed { s with phase := .idle, regs := s.regs.flagsComplete }

/-- Ending a command on an error, the whole of trap entry: ERR_CODE, ERROR, ERR_INFO, PHASE, BUSY and
DONE; every other register and all internal state stay as they were at the raise (R307). -/
def raiseError (e : Raise) (s : State) : State :=
  withElapsed
    { s with phase := .idle, regs := { s.regs.flagsError e.kind with errInfo := e.info } }

/-- There is no trap return: the host acknowledges the end of a command, with or without error, by
clearing DONE; nothing is restored (R311, R145). -/
def acknowledge (s : State) : State := { s with regs := { s.regs with done := false } }

/-- The state an engine computation leaves: a raise in it ends the command (R307). -/
def endState {α : Type} (r : EStateM.Result Raise State α) : State :=
  match r with
  | .ok _ s => s
  | .error e s => raiseError e s

/-- Run an internal operation as an instruction: its result goes to `ret` (log 20), a raise ends the
command (log 29). -/
def runOp {α : Type} (op : Eng α) (toRet : α → Ret) (s : State) :
    Host.Outcome State Fault Refusal :=
  match op s with
  | .ok a s' => .next { s' with ret := toRet a }
  | .error e s' => .next { raiseError e s' with ret := .none }

/-- Reset's effect on every register and all internal state (R341). Buffer memory, the parameters and
the model's own fields stay. -/
def resetCore (s : State) : State :=
  { s with
    regs := Regs.reset
    phase := .idle
    huff := Huff.cleared
    pack := Packer.cleared
    lzw := Lzw.cleared
    cur := Cursors.cleared }

end Sys2Proof.Machine
end

