-- ==== Sys2Proof/Machine/Operands.lean ====
section
/-! DEFINITION. How the engine reaches its operands: the input and output regions (20_memory.md), the
field primitives of the containers (30_encoding.md), and the registers as the host reads them
(10_state.md R22 to R46). -/

namespace Sys2Proof.Machine

/-! The regions (R72). -/

/-- Address a lies in the region of len bytes at base. -/
def inRegion (base len : Word) (a : Nat) : Bool :=
  base.toNat ≤ a && a < base.toNat + len.toNat

/-- Address a lies in the input region. -/
def State.inInput (s : State) (a : Nat) : Bool := inRegion s.regs.inBase s.regs.inLen a

/-- Address a lies in the output region. -/
def State.inOutput (s : State) (a : Nat) : Bool := inRegion s.regs.outBase s.regs.outCap a

/-- The regions overlap (R142). -/
def Regs.overlap (r : Regs) : Bool :=
  0 < r.inLen.toNat && 0 < r.outCap.toNat
    && r.inBase.toNat < r.outBase.toNat + r.outCap.toNat
    && r.outBase.toNat < r.inBase.toNat + r.inLen.toNat

/-- The address of input byte i (R74). -/
def inAddr (s : State) (i : Nat) : Nat := s.regs.inBase.toNat + i

/-- The address of the next output byte (R75). -/
def outAddr (s : State) : Nat := s.regs.outBase.toNat + s.regs.outLen.toNat

/-! The primitives of the engine. -/

/-- A known platform's answer (R78; log 1). -/
def knownBusError (rs : List ErrRange) (a : Nat) (d : Dir) : Bool :=
  rs.any fun r => r.dir = d && r.lo.toNat ≤ a && a ≤ r.hi.toNat

/-- `BusError(addr, dir)`: the platform's parameter, or a free draw for an unknown platform (R78; log 1).
An address past 2^32 - 1 holds no byte, so its access is answered with an error (log 17). -/
def busError (a : Nat) (d : Dir) : Eng Bool := fun s =>
  if 2 ^ 32 ≤ a then .ok true s
  else
    match s.cfg.busErr with
    | some rs => .ok (knownBusError rs a d) s
    | none => .ok (Config.busErrorDraw s.draws a d) { s with draws := s.draws + 1 }

/-- `InByte(i)` (R74). IN_POS is then the offset after the one read (R57; log 15). An i at or past IN_LEN, which
every caller in a command excludes, reads the byte at IN_BASE + i: the model's choice (log 31). -/
def inByte (i : Nat) : Eng Byte := do
  let s ← get
  if ← busError (inAddr s i) .read then raise .ioRead i
  else
    modify fun s => { s with cur := { s.cur with inPos := i + 1 } }
    return Memory.read s.mem (inAddr s i)

/-- The write and the count of `OutByte(v)` (R75). -/
def storeOut (v : Byte) (s : State) : State :=
  { s with
    mem := Memory.write s.mem (outAddr s) v
    regs := { s.regs with outLen := s.regs.outLen + 1#32 } }

/-- `OutByte(v)`: output full comes before the platform's write error (R75, R309). -/
def outByte (v : Byte) : Eng Unit := do
  let s ← get
  if s.regs.outLen = s.regs.outCap then raise .ioWrite s.regs.outLen.toNat
  else if ← busError (outAddr s) .write then raise .ioWrite s.regs.outLen.toNat
  else modify (storeOut v)

/-- Write a byte string in order. -/
def outBytes : List Byte → Eng Unit
  | [] => pure ()
  | b :: rest => do
    outByte b
    outBytes rest

/-- The n bytes of v, least significant first (R79, R109). -/
def leBytes (v : Nat) : (n : Nat) → List Byte
  | 0 => []
  | n + 1 => BitVec.ofNat 8 v :: leBytes (v / 256) n

/-- The number that bytes stand for, least significant first (R79, R109). -/
def leValue : List Byte → Nat
  | [] => 0
  | b :: rest => b.toNat + 256 * leValue rest

/-- `Put8(v)` (R109). -/
def put8 (v : Byte) : Eng Unit := outByte v

/-- `Put32LE(v)` (R109). -/
def put32 (v : Word) : Eng Unit := outBytes (leBytes v.toNat 4)

/-- `Put64LE(v)` (R109). -/
def put64 (v : BitVec 64) : Eng Unit := outBytes (leBytes v.toNat 8)

/-- The n input bytes from offset p, in rising order (R109). -/
def inBytes (p : Nat) : (n : Nat) → Eng (List Byte)
  | 0 => pure []
  | n + 1 => do
    let b ← inByte p
    let rest ← inBytes (p + 1) n
    return b :: rest

/-- `Get8(p)` (R109). -/
def get8 (p : Nat) : Eng Byte := inByte p

/-- `Get32LE(p)` (R109). -/
def get32 (p : Nat) : Eng Word := do
  let bs ← inBytes p 4
  return BitVec.ofNat 32 (leValue bs)

/-- `Get64LE(p)` (R109). -/
def get64 (p : Nat) : Eng (BitVec 64) := do
  let bs ← inBytes p 8
  return BitVec.ofNat 64 (leValue bs)

/-! The register block as the host reads it. -/

/-- SYM_CODEm: code bit i = 32m + j is bit 31 - j, for i < CODELEN; every other bit reads 0 (R44). -/
def symCodeBits (len : Nat) (bits : BitVec 255) (m : Nat) : (j : Nat) → Word
  | 0 => 0#32
  | j + 1 =>
    symCodeBits len bits m j ||| flagAt (32 * m + j < len && bits.getLsbD (32 * m + j)) (31 - j)

/-- SYM_CODEm for the selected byte value (R44). -/
def State.symCode (s : State) (m : Nat) : Word :=
  symCodeBits (tget s.huff.codeLen s.regs.symSel).toNat (tget s.huff.codeBits s.regs.symSel) m 32

/-- SYM_FREQ (R41). -/
def State.symFreq (s : State) : Word := tget s.huff.freq s.regs.symSel

/-- SYM_LEN (R42). -/
def State.symLen (s : State) : Word := (tget s.huff.codeLen s.regs.symSel).setWidth 32

/-- SYM_RANK: the rank of a byte value that is present, 0 otherwise (R43). -/
def State.symRank (s : State) : Word :=
  if tget s.huff.freq s.regs.symSel = 0#32 then 0#32
  else (tget s.huff.rank s.regs.symSel).setWidth 32

/-- The word at an offset of the register block (R22 to R44): an offset that no rule names reads 0. -/
def State.regWord (s : State) (off : Byte) : Word :=
  match off.toNat with
  | 0x00 => Config.idValue
  | 0x04 => Config.versionValue
  | 0x08 => s.regs.ctrlWord
  | 0x0C => s.regs.cmdWord
  | 0x10 => s.regs.statusWord
  | 0x14 => s.regs.inBase
  | 0x18 => s.regs.inLen
  | 0x1C => s.regs.outBase
  | 0x20 => s.regs.outCap
  | 0x24 => s.regs.outLen
  | 0x28 => s.regs.errInfo
  | 0x2C => s.regs.elapsed
  | 0x30 => s.regs.huffUnique.setWidth 32
  | 0x34 => s.regs.huffBitsLo
  | 0x38 => s.regs.huffBitsHi
  | 0x3C => s.regs.lzwCodes
  | 0x40 => s.regs.lzwNext
  | 0x44 => s.cfg.lzwCap
  | 0x48 => s.regs.symSel.setWidth 32
  | 0x4C => s.symFreq
  | 0x50 => s.symLen
  | 0x54 => s.symRank
  | 0x60 => s.symCode 0
  | 0x64 => s.symCode 1
  | 0x68 => s.symCode 2
  | 0x6C => s.symCode 3
  | 0x70 => s.symCode 4
  | 0x74 => s.symCode 5
  | 0x78 => s.symCode 6
  | 0x7C => s.symCode 7
  | _ => 0#32

/-- The registers that read an unspecified value while BUSY (R46): OUT_LEN to LZW_NEXT, SYM_FREQ to
SYM_RANK, SYM_CODE0 to SYM_CODE7. -/
def hiddenWhileBusy (off : Byte) : Bool :=
  (0x24 ≤ off.toNat && off.toNat ≤ 0x40) || (0x4C ≤ off.toNat && off.toNat ≤ 0x54)
    || (0x60 ≤ off.toNat && off.toNat ≤ 0x7C)

/-- What a host read of an aligned offset returns, and the state after it: a read has no side effect (R22);
while BUSY a hidden register reads a free draw (R46; log 3). -/
def readReg (off : Byte) (s : State) : Word × State :=
  if s.regs.busy && hiddenWhileBusy off then
    (Config.busyRead s.draws, { s with draws := s.draws + 1 })
  else (s.regWord off, s)

/-- Why a register access at an offset has no meaning: not aligned (R22), or while the hardware reset is
asserted (R340, I-13; log 10). -/
def accessRefusal (off : Byte) (s : State) : Option Refusal :=
  if off.toNat % 4 ≠ 0 then some .badRegisterAccess
  else if s.hwReset then some .accessDuringReset
  else none

end Sys2Proof.Machine
end

