-- ==== Sys2Proof/Machine/BitPacker.lean ====
section
/-! DEFINITION. The BitPacker: PackBit, PackFlush, UnpackBit (41_bitpacker.md). -/

namespace Sys2Proof.Machine

/-- PACC with bit b placed at position 7 - PCNT, the most significant free one (R170, R171). -/
def placeBit (p : Packer) (b : Bool) : Byte :=
  if b then p.pacc ||| (1#8 <<< (7 - p.pcnt.toNat)) else p.pacc &&& ~~~(1#8 <<< (7 - p.pcnt.toNat))

/-- PackBit's assignments to PACC and NBITS (R171). -/
def packerPlace (b : Bool) (p : Packer) : Packer :=
  { p with pacc := placeBit p b, nbits := p.nbits + 1 }

/-- `PACC <- 0; PCNT <- 0` (R171, R172). -/
def packerEmpty (p : Packer) : Packer := { p with pacc := 0#8, pcnt := 0#3 }

/-- PackBit (R171). -/
def packBit (b : Bool) : Eng Unit := do
  modify fun s => { s with pack := packerPlace b s.pack }
  let s ← get
  if s.pack.pcnt = 7#3 then
    outByte s.pack.pacc
    modify fun s => { s with pack := packerEmpty s.pack }
  else
    modify fun s => { s with pack := { s.pack with pcnt := s.pack.pcnt + 1#3 } }

/-- PackFlush (R172). -/
def packFlush : Eng Unit := do
  let s ← get
  if s.pack.pcnt = 0#3 then pure ()
  else
    outByte s.pack.pacc
    modify fun s => { s with pack := packerEmpty s.pack }

/-- UnpackBit(S, t): bit 7 - (t mod 8) of code-stream byte t div 8 (R170, R174). BITPOS is then the index
after the one unpacked (R57; log 15). A byte at or past IN_LEN is InByte's case (log 31). -/
def unpackBit (S t : Nat) : Eng Bool := do
  let byte ← inByte (S + t / 8)
  modify fun s => { s with cur := { s.cur with bitPos := t + 1 } }
  return byte.getLsbD (7 - t % 8)

/-- The meaning of PackBit as an instruction (R171). -/
def execPackBit (b : Bool) (s : State) : Host.Outcome State Fault Refusal :=
  runOp (packBit b) (fun _ => .none) s

/-- The meaning of PackFlush (R172). -/
def execPackFlush (s : State) : Host.Outcome State Fault Refusal :=
  runOp packFlush (fun _ => .none) s

/-- The meaning of UnpackBit (R174). -/
def execUnpackBit (S t : Nat) (s : State) : Host.Outcome State Fault Refusal :=
  runOp (unpackBit S t) .bit s

end Sys2Proof.Machine
end

