-- ==== Sys2Proof/Machine/Huffman.lean ====
section
/-! DEFINITION. The HuffmanCodec: frequency table, tree builder, encoding table, header serializer and
parser, and the bodies of HUFF_COMPRESS and HUFF_DECOMPRESS (42_huffman.md). -/

namespace Sys2Proof.Machine

/-! buildFrequencyTable -/

/-- The bookkeeping of one input byte: its rank at the first appearance, its count (R190). -/
def countSymbol (b : Byte) (h : Huff) : Huff :=
  if tget h.freq b = 0#32 then
    { h with
      rank := tset h.rank b (BitVec.ofNat 8 h.u)
      order := tset h.order (BitVec.ofNat 8 h.u) b
      u := h.u + 1
      freq := tset h.freq b 1#32 }
  else { h with freq := tset h.freq b (tget h.freq b + 1#32) }

/-- The body of BuildFrequencyTable's loop (R190). -/
def countByte (i : Nat) : Eng Unit := do
  let b ← inByte i
  modify fun s => { s with huff := countSymbol b s.huff }

/-- BuildFrequencyTable (R190). -/
def buildFrequencyTable : Eng Unit := do
  let s ← get
  forRange s.regs.inLen.toNat countByte
  modify fun s => { s with regs := { s.regs with huffUnique := BitVec.ofNat 9 s.huff.u } }

/-- Some frequency is above 2^31 - 1 (R191). -/
def frequencyTooLarge (h : Huff) : Bool := h.freq.toList.any fun f => 2 ^ 31 - 1 < f.toNat

/-- CheckFrequencyRange (R191). -/
def checkFrequencyRange : Eng Unit := do
  let s ← get
  if frequencyTooLarge s.huff then raise .unsupportedConfiguration 2 else pure ()

/-! buildTree -/

/-- `QUEUE <- QUEUE ∪ {n}`: the rising list with n in its place (R52; log 21). -/
def queueInsert (n : Nat) : List Nat → List Nat
  | [] => [n]
  | m :: rest => if n < m then n :: m :: rest else if n = m then m :: rest else m :: queueInsert n rest

/-- `ORDER[j]` (R50). -/
def orderAt (h : Huff) (j : Nat) : Byte := tget h.order (BitVec.ofNat 8 j)

/-- One leaf: the byte value of rank j with its frequency, arena index j, in QUEUE (R192). -/
def seedLeaf (j : Nat) (h : Huff) : Huff :=
  { h with
    node := sparseSet h.node j (.leaf (orderAt h j) (tget h.freq (orderAt h j)).toNat)
    queue := queueInsert j h.queue }

/-- SeedLeaves (R192). -/
def seedLeaves : Eng Unit := do
  let s ← get
  forRange s.huff.u fun j => modify fun s => { s with huff := seedLeaf j s.huff }
  modify fun s => { s with huff := { s.huff with nnodes := s.huff.u } }

/-- key(n) = (weight, arena index) is below key(m), lexicographically (R193). -/
def keyLt (h : Huff) (n m : Nat) : Bool :=
  (nodeAt h n).weight < (nodeAt h m).weight || ((nodeAt h n).weight = (nodeAt h m).weight && n < m)

/-- The member with the least key (R193). -/
def argminKey (h : Huff) : List Nat → Option Nat
  | [] => none
  | n :: rest =>
    match argminKey h rest with
    | none => some n
    | some m => if keyLt h m n then some m else some n

/-- PopMin (R193). The least member of an empty set is a free value (log 18). -/
def popMin : Eng Nat := do
  let s ← get
  match argminKey s.huff s.huff.queue with
  | some n =>
    modify fun s => { s with huff := { s.huff with queue := s.huff.queue.erase n } }
    return n
  | none =>
    modify fun s => { s with draws := s.draws + 1 }
    return Config.emptyQueueNode s.draws

/-- The new internal node over a (left, the first popped) and b (right), in QUEUE (R194). -/
def addInternal (a b : Nat) (h : Huff) : Huff :=
  { h with
    node := sparseSet h.node h.nnodes (.internal a b ((nodeAt h a).weight + (nodeAt h b).weight))
    nnodes := h.nnodes + 1
    queue := queueInsert h.nnodes h.queue }

/-- The body of BuildTree's loop: one merge (R194). -/
def mergeTwo : Eng Unit := do
  let a ← popMin
  let b ← popMin
  modify fun s => { s with huff := addInternal a b s.huff }

/-- `while |QUEUE| >= 2`: a merge leaves QUEUE at least one member shorter, so its length bounds the
number of merges (R194; log 19). -/
def mergeLoop : Nat → Eng Unit
  | 0 => pure ()
  | n + 1 => do
    let s ← get
    if 2 ≤ s.huff.queue.length then
      mergeTwo
      mergeLoop n
    else pure ()

/-- BuildTree (R194, R195). -/
def buildTree : Eng Unit := do
  seedLeaves
  let s ← get
  mergeLoop s.huff.queue.length
  modify fun s =>
    if 1 ≤ s.huff.u then { s with huff := { s.huff with root := s.huff.queue.headD s.huff.root } } else s

/-! buildEncodingTable -/

/-- A path as a number, its first bit at position 0. -/
def pathBits : List Bool → Nat
  | [] => 0
  | b :: rest => b.toNat + 2 * pathBits rest

/-- The code of a byte value: CODELEN and CODEBITS, bit 0 the first bit of the path (R53, R197). -/
def setCode (sym : Byte) (p : List Bool) (h : Huff) : Huff :=
  { h with
    codeLen := tset h.codeLen sym (BitVec.ofNat 8 p.length)
    codeBits := tset h.codeBits sym (BitVec.ofNat 255 (pathBits p)) }

/-- `Assign(n, p)` (R197), to a depth that no tree passes (R7; log 19). -/
def assign : (depth : Nat) → (n : Nat) → (p : List Bool) → Huff → Huff
  | 0, _, _, h => h
  | d + 1, n, p, h =>
    match nodeAt h n with
    | .leaf sym _ => setCode sym p h
    | .internal l r _ => assign d r (p ++ [true]) (assign d l (p ++ [false]) h)

/-- The encoding table of a tree: none for U = 0, the code "0" for one symbol, the paths of the leaves
otherwise (R197, R198). -/
def encodingTable (h : Huff) : Huff :=
  if h.u = 0 then h
  else if h.u = 1 then setCode (orderAt h 0) [false] h
  else assign 256 h.root [] h

/-- BuildEncodingTable (R197). -/
def buildEncodingTable : Eng Unit := modify fun s => { s with huff := encodingTable s.huff }

/-- The sum over all byte values of frequency x code length, exact (R200). -/
def bitCount (h : Huff) : Nat :=
  ((h.freq.toList.zip h.codeLen.toList).map fun p => p.1.toNat * p.2.toNat).sum

/-- `R.HUFF_BITS_LO <- T[31:0]; R.HUFF_BITS_HI <- T[63:32]` (R36). -/
def setHuffBits (T : BitVec 64) (s : State) : State :=
  { s with regs := { s.regs with huffBitsLo := T.extractLsb' 0 32, huffBitsHi := T.extractLsb' 32 32 } }

/-- TotalBits (R200). -/
def totalBits : Eng (BitVec 64) := do
  let s ← get
  modify (setHuffBits (BitVec.ofNat 64 (bitCount s.huff)))
  return BitVec.ofNat 64 (bitCount s.huff)

/-! The header -/

/-- Pair j of the header: the byte value of rank j and its frequency (R111, R201). -/
def putPair (j : Nat) : Eng Unit := do
  let s ← get
  put8 (orderAt s.huff j)
  put32 (tget s.huff.freq (orderAt s.huff j))

/-- SerializeHeader(T) (R201). -/
def serializeHeader (T : BitVec 64) : Eng Unit := do
  let s ← get
  put32 (BitVec.ofNat 32 s.huff.u)
  forRange s.huff.u putPair
  put64 T

/-- `FREQ[s] <- f; RANK[s] <- j; ORDER[j] <- s; U <- j + 1` (R205). -/
def acceptPair (j : Nat) (sym : Byte) (f : Word) (h : Huff) : Huff :=
  { h with
    freq := tset h.freq sym f
    rank := tset h.rank sym (BitVec.ofNat 8 j)
    order := tset h.order (BitVec.ofNat 8 j) sym
    u := j + 1 }

/-- One pair of the header and its two checks (R205). -/
def parsePair (j : Nat) : Eng Unit := do
  let sym ← get8 (4 + 5 * j)
  let s ← get
  if tget s.huff.freq sym ≠ 0#32 then raise .corruptHeader (4 + 5 * j)
  else
    let f ← get32 (5 + 5 * j)
    if f.toInt < 1 then raise .corruptHeader (5 + 5 * j)
    else modify fun s => { s with huff := acceptPair j sym f s.huff }

/-- ParseHeader, the checks in the order of R205 (R110: u, f and T are two's-complement). -/
def parseHeader : Eng (Nat × BitVec 64) := do
  let s ← get
  if s.regs.inLen.toNat < 4 then raise .corruptHeader 0
  else
    let uw ← get32 0
    if uw.toInt < 0 ∨ 256 < uw.toInt then raise .corruptHeader 0
    else if s.regs.inLen.toNat < 12 + 5 * uw.toNat then raise .corruptHeader 0
    else
      let u := uw.toNat
      modify fun s => { s with regs := { s.regs with huffUnique := BitVec.ofNat 9 u } }
      forRange u parsePair
      let T ← get64 (4 + 5 * u)
      if T.toInt < 0 then raise .corruptHeader (4 + 5 * u)
      else if u = 0 ∧ T ≠ 0#64 then raise .corruptHeader (4 + 5 * u)
      else
        modify (setHuffBits T)
        return (u, T)

/-- CheckPayloadLength(u, T) (R206): all numbers are exact integers. -/
def checkPayloadLength (u : Nat) (T : BitVec 64) : Eng Nat := do
  let s ← get
  if 8 * ((s.regs.inLen.toNat : Int) - (12 + 5 * u : Nat)) < T.toInt then
    raise .corruptData (4 + 5 * u)
  else return 12 + 5 * u

/-! HUFF_COMPRESS -/

/-- CheckPass2(i, b) (R203). -/
def checkPass2 (T : BitVec 64) (i : Nat) (b : Byte) : Eng Unit := do
  let s ← get
  if tget s.huff.codeLen b = 0#8 ∨ T.toNat < s.pack.nbits + (tget s.huff.codeLen b).toNat then
    raise .ioRead i
  else pure ()

/-- CheckPass2End() (R203). -/
def checkPass2End (T : BitVec 64) : Eng Unit := do
  let s ← get
  if s.pack.nbits ≠ T.toNat then raise .ioRead s.regs.inLen.toNat else pure ()

/-- Pack bit k of the code of b (R202). -/
def packCodeBit (b : Byte) (k : Nat) : Eng Unit := do
  let s ← get
  packBit ((tget s.huff.codeBits b).getLsbD k)

/-- The body of the second pass (R202). -/
def encodeInput (T : BitVec 64) (i : Nat) : Eng Unit := do
  let b ← inByte i
  checkPass2 T i b
  let s ← get
  forRange (tget s.huff.codeLen b).toNat (packCodeBit b)

/-- `PASS <- p`; IN_POS is 0 at the start of a pass (R57, R76; log 15). -/
def startPass (p : Bool) : Eng Unit :=
  modify fun s => { s with cur := { s.cur with pass := p, inPos := 0 } }

/-- HuffCompress() (R202). -/
def huffCompress : Eng Unit := do
  setPhase .hCount
  startPass false
  buildFrequencyTable
  checkFrequencyRange
  setPhase .hTree
  buildTree
  setPhase .hTable
  buildEncodingTable
  let T ← totalBits
  setPhase .hHeader
  serializeHeader T
  setPhase .hEncode
  startPass true
  let s ← get
  forRange s.regs.inLen.toNat (encodeInput T)
  checkPass2End T
  setPhase .hFlush
  packFlush

/-! HUFF_DECOMPRESS -/

/-- One step of the walk: left on 0, right on 1 (R208). A leaf has no child; the walk stays at it (only
a tree that is one leaf, which R208 excludes, is walked from a leaf; the model's choice, log 31). -/
def child (h : Huff) (n : Nat) (bit : Bool) : Nat :=
  match nodeAt h n with
  | .leaf _ _ => n
  | .internal l r _ => if bit then r else l

/-- The loop of DecodeStream from bit t with n bits to go, at a node; the node it ends at (R208). -/
def walk (S : Nat) : (t n : Nat) → (node : Nat) → Eng Nat
  | _, 0, node => pure node
  | t, n + 1, node => do
    let bit ← unpackBit S t
    let s ← get
    match nodeAt s.huff (child s.huff node bit) with
    | .leaf sym _ =>
      outByte sym
      walk S (t + 1) n s.huff.root
    | .internal _ _ _ => walk S (t + 1) n (child s.huff node bit)

/-- DecodeStream(S, T) for U >= 2 (R208). -/
def decodeStream (S : Nat) (T : BitVec 64) : Eng Unit := do
  let s ← get
  let node ← walk S 0 T.toNat s.huff.root
  let s ← get
  if node ≠ s.huff.root then raise .corruptData (S + (T.toNat - 1) / 8) else pure ()

/-- The body of DecodeStream1's loop: each bit 0 is one symbol (R209). -/
def decodeBit1 (S t : Nat) : Eng Unit := do
  let bit ← unpackBit S t
  if bit then raise .corruptData (S + t / 8)
  else
    let s ← get
    outByte (orderAt s.huff 0)

/-- DecodeStream1(S, T) for U = 1 (R209). -/
def decodeStream1 (S : Nat) (T : BitVec 64) : Eng Unit := forRange T.toNat (decodeBit1 S)

/-- HuffDecompress() (R211, R212). -/
def huffDecompress : Eng Unit := do
  let s ← get
  if s.regs.inLen = 0#32 then pure ()
  else
    setPhase .hParse
    let (u, T) ← parseHeader
    let S ← checkPayloadLength u T
    buildTree
    buildEncodingTable
    setPhase .hDecode
    let s ← get
    if 2 ≤ s.huff.u then decodeStream S T
    else if s.huff.u = 1 then decodeStream1 S T
    else pure ()

/-! The meanings of the internal operations as instructions. -/

/-- The meaning of BuildFrequencyTable (R190). -/
def execBuildFrequencyTable (s : State) : Host.Outcome State Fault Refusal :=
  runOp buildFrequencyTable (fun _ => .none) s

/-- The meaning of CheckFrequencyRange (R191). -/
def execCheckFrequencyRange (s : State) : Host.Outcome State Fault Refusal :=
  runOp checkFrequencyRange (fun _ => .none) s

/-- The meaning of SeedLeaves (R192). -/
def execSeedLeaves (s : State) : Host.Outcome State Fault Refusal :=
  runOp seedLeaves (fun _ => .none) s

/-- The meaning of PopMin (R193). -/
def execPopMin (s : State) : Host.Outcome State Fault Refusal := runOp popMin .node s

/-- The meaning of BuildTree (R194). -/
def execBuildTree (s : State) : Host.Outcome State Fault Refusal :=
  runOp buildTree (fun _ => .none) s

/-- The meaning of BuildEncodingTable (R197). -/
def execBuildEncodingTable (s : State) : Host.Outcome State Fault Refusal :=
  runOp buildEncodingTable (fun _ => .none) s

/-- The meaning of TotalBits (R200). -/
def execTotalBits (s : State) : Host.Outcome State Fault Refusal := runOp totalBits .bits s

/-- The meaning of SerializeHeader (R201). -/
def execSerializeHeader (T : BitVec 64) (s : State) : Host.Outcome State Fault Refusal :=
  runOp (serializeHeader T) (fun _ => .none) s

/-- The meaning of ParseHeader (R205). -/
def execParseHeader (s : State) : Host.Outcome State Fault Refusal :=
  runOp parseHeader (fun r => .header r.1 r.2) s

/-- The meaning of CheckPayloadLength (R206). -/
def execCheckPayloadLength (u : Nat) (T : BitVec 64) (s : State) :
    Host.Outcome State Fault Refusal :=
  runOp (checkPayloadLength u T) .offset s

/-- The meaning of DecodeStream (R208). -/
def execDecodeStream (S : Nat) (T : BitVec 64) (s : State) : Host.Outcome State Fault Refusal :=
  runOp (decodeStream S T) (fun _ => .none) s

/-- The meaning of DecodeStream1 (R209). -/
def execDecodeStream1 (S : Nat) (T : BitVec 64) (s : State) : Host.Outcome State Fault Refusal :=
  runOp (decodeStream1 S T) (fun _ => .none) s

end Sys2Proof.Machine
end

