-- ==== Sys2Proof/Machine/Lzw.lean ====
section
/-! DEFINITION. The LZWCodec: dictionary, encoder, decoder, and the bodies of LZW_COMPRESS and
LZW_DECOMPRESS (43_lzw.md). -/

namespace Sys2Proof.Machine

/-! The dictionary -/

/-- string(k) of R250, the entry's length in bytes long (log 19). -/
def entryString (l : Lzw) : (len : Nat) → Code → List Byte
  | 0, _ => []
  | n + 1, k =>
    match (dictAt l k).pre with
    | none => [(dictAt l k).byte]
    | some p => entryString l n p ++ [(dictAt l k).byte]

/-- string(k), the string that entry k stands for (R250). -/
def stringOf (l : Lzw) (k : Code) : List Byte := entryString l (dictAt l k).len k

/-- The seed entries k, k + 1, ..., k + n - 1 (R251). -/
def seedEntries : (k n : Nat) → List (Nat × DictEntry)
  | _, 0 => []
  | k, n + 1 => (k, ⟨none, BitVec.ofNat 8 k, BitVec.ofNat 8 k, 1⟩) :: seedEntries (k + 1) n

/-- Make the seed entries 0 to 255 what they are, whatever the dictionary held (R251). -/
def seedDict (d : List (Nat × DictEntry)) : List (Nat × DictEntry) :=
  seedEntries 0 256 ++ d.filter fun e => 256 ≤ e.1

/-- Seed (R251). -/
def seed : Eng Unit :=
  modify fun s => { s with
    lzw := { s.lzw with dict := seedDict s.lzw.dict, next := 256#32 }
    regs := { s.regs with lzwNext := 256#32 } }

/-- The entry that Insert(p, c) makes (R252). -/
def extendEntry (l : Lzw) (p : Code) (c : Byte) : DictEntry :=
  ⟨some p, c, (dictAt l p).first, (dictAt l p).len + 1⟩

/-- Insert(p, c) with room left: the entry at NEXT, NEXT + 1 (R252). -/
def insertEntry (p : Code) (c : Byte) (l : Lzw) : Lzw :=
  { l with dict := sparseSet l.dict l.next.toNat (extendEntry l p c), next := l.next + 1#32 }

/-- Insert and the freeze policy (R252). -/
def dictInsert (p : Code) (c : Byte) : Eng Unit :=
  modify fun s =>
    if s.lzw.next.toNat < s.cfg.lzwCap.toNat then
      { s with
        lzw := insertEntry p c s.lzw
        regs := { s.regs with lzwNext := s.lzw.next + 1#32 } }
    else s

/-- Entry k is string(w) ++ [c], between 256 and NEXT (R253). -/
def entryMatches (l : Lzw) (w : Code) (c : Byte) (e : Nat × DictEntry) : Bool :=
  256 ≤ e.1 && e.1 < l.next.toNat && e.2.pre = some w && e.2.byte = c

/-- Find(w, c) (R253): at most one entry matches; the lowest is taken (log 26). -/
def findCode (l : Lzw) (w : Code) (c : Byte) : Option Code :=
  (l.dict.find? (entryMatches l w c)).map fun e => BitVec.ofNat 32 e.1

/-- Find (R253). -/
def dictFind (w : Code) (c : Byte) : Eng (Option Code) := do
  let s ← get
  return findCode s.lzw w c

/-- The dictionary is full and CTRL.LZW_STRICT = 1 (R256). -/
def strictFull (s : State) : Bool := s.lzw.next = s.cfg.lzwCap && s.regs.lzwStrict

/-- `R.LZW_CODES <- R.LZW_CODES + 1`. -/
def countCode : Eng Unit :=
  modify fun s => { s with regs := { s.regs with lzwCodes := s.regs.lzwCodes + 1#32 } }

/-! LZW_COMPRESS -/

/-- EmitCode(k) (R254). -/
def emitCode (k : Code) : Eng Unit := do
  put32 k
  countCode

/-- `W <- k` (R254). -/
def setW (k : Code) : Eng Unit := modify fun s => { s with lzw := { s.lzw with w := k } }

/-- EncodeByte(c) (R254, R256). -/
def encodeByte (c : Byte) : Eng Unit := do
  let s ← get
  if s.lzw.wValid = false then
    modify fun s => { s with lzw := { s.lzw with w := c.setWidth 32, wValid := true } }
  else
    match ← dictFind s.lzw.w c with
    | some k => setW k
    | none =>
      if strictFull s then raise .unsupportedConfiguration 3
      else
        emitCode s.lzw.w
        dictInsert s.lzw.w c
        setW (c.setWidth 32)

/-- EncodeEnd (R255). -/
def encodeEnd : Eng Unit := do
  let s ← get
  if s.lzw.wValid then emitCode s.lzw.w else pure ()

/-- The body of LzwCompress's loop (R257). -/
def compressByte (i : Nat) : Eng Unit := do
  let c ← inByte i
  encodeByte c

/-- LzwCompress() (R257). -/
def lzwCompress : Eng Unit := do
  setPhase .lEncode
  seed
  let s ← get
  forRange s.regs.inLen.toNat compressByte
  encodeEnd

/-! LZW_DECOMPRESS -/

/-- LengthCheck (R258). -/
def lengthCheck : Eng Unit := do
  let s ← get
  if s.regs.inLen.toNat % 4 ≠ 0 then
    raise .corruptData (s.regs.inLen.toNat - s.regs.inLen.toNat % 4)
  else pure ()

/-- EmitString(k) (R262). -/
def emitString (k : Code) : Eng Unit := do
  let s ← get
  outBytes (stringOf s.lzw k)

/-- `PREV <- k`. -/
def setPrev (k : Code) : Eng Unit := modify fun s => { s with lzw := { s.lzw with prev := k } }

/-- DecodeFirst (R259). -/
def decodeFirst : Eng Unit := do
  let k ← get32 0
  if 256 ≤ k.toNat then raise .corruptData 0
  else
    emitString k
    modify fun s => { s with regs := { s.regs with lzwCodes := 1#32 } }
    setPrev k

/-- The class of a later code (R260). -/
inductive CodeClass where
  | defined
  | kwkwk
  | undefined
deriving DecidableEq, Repr

/-- Classifying code k (R260). -/
def classify (s : State) (k : Code) : CodeClass :=
  if k.toNat < s.lzw.next.toNat then .defined
  else if k = s.lzw.next ∧ s.lzw.next.toNat < s.cfg.lzwCap.toNat then .kwkwk
  else .undefined

/-- What follows the output of a code: LZW_CODES, Insert(PREV, f), PREV <- k (R261). -/
def afterCode (k : Code) (f : Byte) : Eng Unit := do
  countCode
  let s ← get
  dictInsert s.lzw.prev f
  setPrev k

/-- DecodeNext(j) (R261). -/
def decodeNext (j : Nat) : Eng Unit := do
  let k ← get32 (4 * j)
  let s ← get
  match classify s k with
  | .undefined => raise .corruptData (4 * j)
  | .defined =>
    if strictFull s then raise .unsupportedConfiguration 3
    else
      emitString k
      afterCode k (dictAt s.lzw k).first
  | .kwkwk =>
    if strictFull s then raise .unsupportedConfiguration 3
    else
      emitString s.lzw.prev
      outByte (dictAt s.lzw s.lzw.prev).first
      afterCode k (dictAt s.lzw s.lzw.prev).first

/-- LzwDecompress() (R263). -/
def lzwDecompress : Eng Unit := do
  setPhase .lDecode
  seed
  lengthCheck
  let s ← get
  if s.regs.inLen = 0#32 then pure ()
  else
    decodeFirst
    forFrom decodeNext 1 (s.regs.inLen.toNat / 4 - 1)

/-! The meanings of the internal operations as instructions. -/

/-- The meaning of Seed (R251). -/
def execSeed (s : State) : Host.Outcome State Fault Refusal := runOp seed (fun _ => .none) s

/-- The meaning of Insert (R252). -/
def execInsert (p : Code) (c : Byte) (s : State) : Host.Outcome State Fault Refusal :=
  runOp (dictInsert p c) (fun _ => .none) s

/-- The meaning of Find (R253). -/
def execFind (w : Code) (c : Byte) (s : State) : Host.Outcome State Fault Refusal :=
  runOp (dictFind w c) .code s

/-- The meaning of EncodeByte (R254). -/
def execEncodeByte (c : Byte) (s : State) : Host.Outcome State Fault Refusal :=
  runOp (encodeByte c) (fun _ => .none) s

/-- The meaning of EncodeEnd (R255). -/
def execEncodeEnd (s : State) : Host.Outcome State Fault Refusal :=
  runOp encodeEnd (fun _ => .none) s

/-- The meaning of LengthCheck (R258). -/
def execLengthCheck (s : State) : Host.Outcome State Fault Refusal :=
  runOp lengthCheck (fun _ => .none) s

/-- The meaning of DecodeFirst (R259). -/
def execDecodeFirst (s : State) : Host.Outcome State Fault Refusal :=
  runOp decodeFirst (fun _ => .none) s

/-- The meaning of DecodeNext (R261). -/
def execDecodeNext (j : Nat) (s : State) : Host.Outcome State Fault Refusal :=
  runOp (decodeNext j) (fun _ => .none) s

/-- The meaning of EmitString (R262). -/
def execEmitString (k : Code) (s : State) : Host.Outcome State Fault Refusal :=
  runOp (emitString k) (fun _ => .none) s

end Sys2Proof.Machine
end

