-- ==== Sys2Proof/Machine/Command.lean ====
section
/-! DEFINITION. Commands and control actions: the start checks, dispatch, a whole command, reset with its
abort of a running command, and the host's register writes (40_command.md, 70_reset_and_hazards.md). -/

namespace Sys2Proof.Machine

/-! A command -/

/-- StartChecks(), in the order of R142; the sums do not wrap. -/
def startChecks : Eng Unit := do
  let s ← get
  if s.regs.op.toNat = 0 ∨ 4 < s.regs.op.toNat then raise .unsupportedConfiguration 0
  else if 2 ^ 32 < s.regs.inBase.toNat + s.regs.inLen.toNat then raise .ioOpen 0
  else if 2 ^ 32 < s.regs.outBase.toNat + s.regs.outCap.toNat then raise .ioOpen 1
  else if s.regs.overlap then raise .unsupportedConfiguration 1
  else pure ()

/-- Dispatch(): the operation that an OP value runs (R143). No other value passes the start checks. -/
def commandOf (op : BitVec 3) : Eng Unit :=
  match op.toNat with
  | 1 => huffCompress
  | 2 => huffDecompress
  | 3 => lzwCompress
  | 4 => lzwDecompress
  | _ => pure ()

/-- StartChecks(); Dispatch(); Complete() (R141). -/
def commandBody (op : BitVec 3) : Eng Unit := do
  startChecks
  commandOf op
  modify completed

/-- One whole command with CMD.OP = op, from START to completion or to its error (R141, R307). Launching
again a machine that START has launched changes nothing, so the command in flight is this one (log 14). -/
def runCommand (op : BitVec 3) (s : State) : State :=
  endState (commandBody op (launch { s with regs := { s.regs with op := op } }))

/-- The meaning of HUFF_COMPRESS (R202). -/
def execHuffCompress (s : State) : Host.Outcome State Fault Refusal := .next (runCommand 1#3 s)

/-- The meaning of HUFF_DECOMPRESS (R211). -/
def execHuffDecompress (s : State) : Host.Outcome State Fault Refusal := .next (runCommand 2#3 s)

/-- The meaning of LZW_COMPRESS (R257). -/
def execLzwCompress (s : State) : Host.Outcome State Fault Refusal := .next (runCommand 3#3 s)

/-- The meaning of LZW_DECOMPRESS (R263). -/
def execLzwDecompress (s : State) : Host.Outcome State Fault Refusal := .next (runCommand 4#3 s)

/-- The meaning of RESERVED_0 (R148). -/
def execReserved0 (s : State) : Host.Outcome State Fault Refusal := .next (runCommand 0#3 s)

/-- The meaning of RESERVED_5 (R148). -/
def execReserved5 (s : State) : Host.Outcome State Fault Refusal := .next (runCommand 5#3 s)

/-- The meaning of RESERVED_6 (R148). -/
def execReserved6 (s : State) : Host.Outcome State Fault Refusal := .next (runCommand 6#3 s)

/-- The meaning of RESERVED_7 (R148). -/
def execReserved7 (s : State) : Host.Outcome State Fault Refusal := .next (runCommand 7#3 s)

/-! Reset -/

/-- How many bytes the command in flight would write (R342). -/
def inFlightWrites (s : State) : Nat := (runCommand s.regs.op s).regs.outLen.toNat

/-- Buffer memory after a reset aborts the command in flight: for a free n, the first n of the bytes it
would have written are written and nothing else (R342; log 4). -/
def abortedMem (s : State) : List Host.Cell :=
  Memory.copyFrom (runCommand s.regs.op s).mem s.mem s.regs.outBase.toNat
    (min (Config.abortWrites s.draws) (inFlightWrites s))

/-- Reset (R341): a command in flight is aborted without DONE (R342). The draws of the command it aborts are spent
(log 4). -/
def softReset (s : State) : State :=
  if s.regs.busy then
    resetCore { s with mem := abortedMem s, draws := (runCommand s.regs.op s).draws + 1 }
  else resetCore s

/-! Host register writes -/

/-- HostWriteCTRL(v) (R140): SOFT_RESET first, IRQ_EN at any time, LZW_STRICT and START only when idle. A
START leaves the machine launched, its command in flight (R151; log 5). -/
def hostWriteCtrl (v : Word) (s : State) : State :=
  if v.getLsbD 1 then softReset s
  else
    let s := { s with regs := { s.regs with irqEn := v.getLsbD 2 } }
    if s.regs.busy then s
    else
      let s := { s with regs := { s.regs with lzwStrict := v.getLsbD 3 } }
      if v.getLsbD 0 then launch s else s

/-- A write of v to STATUS: bit 1 = 1 clears DONE, nothing else (R145). -/
def hostWriteStatus (v : Word) (s : State) : State := if v.getLsbD 1 then acknowledge s else s

/-- A host write to a configuration register takes effect only when idle (R45, R147). -/
def writeConfig (f : Regs → Regs) (s : State) : State :=
  if s.regs.busy then s else { s with regs := f s.regs }

/-- A host write of v at an aligned offset (R140, R145, R147): a read-only register or a reserved offset
ignores it. -/
def writeReg (off : Byte) (v : Word) (s : State) : State :=
  if off = offCtrl then hostWriteCtrl v s
  else if off = offStatus then hostWriteStatus v s
  else if off = offCmd then writeConfig (fun r => { r with op := opField v }) s
  else if off = offInBase then writeConfig (fun r => { r with inBase := v }) s
  else if off = offInLen then writeConfig (fun r => { r with inLen := v }) s
  else if off = offOutBase then writeConfig (fun r => { r with outBase := v }) s
  else if off = offOutCap then writeConfig (fun r => { r with outCap := v }) s
  else if off = offSymSel then { s with regs := { s.regs with symSel := v.setWidth 8 } }
  else s

/-- A host register write, or why it has no meaning (R22, R340). -/
def hostWrite (off : Byte) (v : Word) (s : State) : Host.Outcome State Fault Refusal :=
  match accessRefusal off s with
  | some r => .refused r
  | none => .next (writeReg off v s)

/-- A list of host register writes, in order (R87 item 4). -/
def hostWrites : List (Byte × Word) → State → Host.Outcome State Fault Refusal
  | [], s => .next s
  | (off, v) :: rest, s =>
    match hostWrite off v s with
    | .next s' => hostWrites rest s'
    | .fault r => .fault r
    | .refused r => .refused r

/-- One round of `POLL reg, mask, val`: read the register; when the masked value differs, the poll comes
again as the host's next entry (R104; log 22). -/
def hostPoll (off : Byte) (mask val : Word) (s : State) : Host.Outcome State Fault Refusal :=
  match accessRefusal off s with
  | some r => .refused r
  | none =>
    if (readReg off s).1 &&& mask = val then .next (readReg off s).2
    else
      .next { (readReg off s).2 with host := .poll off mask val :: (readReg off s).2.host }

/-! The meanings of the control actions and of the pseudo-instructions. -/

/-- The meaning of START: the CTRL write that R103 gives it (R141). -/
def execStart (irqEn lzwStrict : Bool) (s : State) : Host.Outcome State Fault Refusal :=
  hostWrite offCtrl (startWord irqEn lzwStrict) s

/-- The meaning of SOFT_RESET: a CTRL write with bit 1 = 1 (R146). -/
def execSoftReset (s : State) : Host.Outcome State Fault Refusal := hostWrite offCtrl 2#32 s

/-- The meaning of CLEAR_DONE: a STATUS write with bit 1 = 1 (R145). -/
def execClearDone (s : State) : Host.Outcome State Fault Refusal := hostWrite offStatus 2#32 s

/-- The meaning of RUN: its six register writes in order (R105). That no command in flight ends between two of them
is the model's choice (log 30). -/
def execRun (op inBase inLen outBase outCap cfg : Word) (s : State) :
    Host.Outcome State Fault Refusal :=
  hostWrites
    [(offInBase, inBase), (offInLen, inLen), (offOutBase, outBase), (offOutCap, outCap), (offCmd, op),
      (offCtrl, runCtrlWord cfg)] s

/-- The meaning of WAITDONE: `POLL STATUS, 0x2, 0x2` (R106). -/
def execWaitdone (s : State) : Host.Outcome State Fault Refusal := hostPoll offStatus 2#32 2#32 s

/-- The meaning of CLRDONE: `WR STATUS, 0x2` (R107). -/
def execClrdone (s : State) : Host.Outcome State Fault Refusal := hostWrite offStatus 2#32 s

/-- The meaning of SRESET: `WR CTRL, 0x2` (R108). -/
def execSreset (s : State) : Host.Outcome State Fault Refusal := hostWrite offCtrl 2#32 s

end Sys2Proof.Machine
end

