-- ==== Sys2Proof/Machine/Dispatch.lean ====
section
/-! DEFINITION. One arm for each constructor of Instr. -/

namespace Sys2Proof.Machine

def exec (i : Instr) (s : State) : Host.Outcome State Fault Refusal :=
  match i with
  -- commands (R101) and reserved OP values (R102)
  | .huffCompress => Sys2Proof.Machine.execHuffCompress s
  | .huffDecompress => Sys2Proof.Machine.execHuffDecompress s
  | .lzwCompress => Sys2Proof.Machine.execLzwCompress s
  | .lzwDecompress => Sys2Proof.Machine.execLzwDecompress s
  | .reserved0 => Sys2Proof.Machine.execReserved0 s
  | .reserved5 => Sys2Proof.Machine.execReserved5 s
  | .reserved6 => Sys2Proof.Machine.execReserved6 s
  | .reserved7 => Sys2Proof.Machine.execReserved7 s
  -- control actions (R103)
  | .start irqEn lzwStrict => Sys2Proof.Machine.execStart irqEn lzwStrict s
  | .softReset => Sys2Proof.Machine.execSoftReset s
  | .clearDone => Sys2Proof.Machine.execClearDone s
  -- BitPacker
  | .packBit b => Sys2Proof.Machine.execPackBit b s
  | .packFlush => Sys2Proof.Machine.execPackFlush s
  | .unpackBit S t => Sys2Proof.Machine.execUnpackBit S t s
  -- HuffmanCodec
  | .buildFrequencyTable => Sys2Proof.Machine.execBuildFrequencyTable s
  | .checkFrequencyRange => Sys2Proof.Machine.execCheckFrequencyRange s
  | .seedLeaves => Sys2Proof.Machine.execSeedLeaves s
  | .popMin => Sys2Proof.Machine.execPopMin s
  | .buildTree => Sys2Proof.Machine.execBuildTree s
  | .buildEncodingTable => Sys2Proof.Machine.execBuildEncodingTable s
  | .totalBits => Sys2Proof.Machine.execTotalBits s
  | .serializeHeader T => Sys2Proof.Machine.execSerializeHeader T s
  | .parseHeader => Sys2Proof.Machine.execParseHeader s
  | .checkPayloadLength u T => Sys2Proof.Machine.execCheckPayloadLength u T s
  | .decodeStream S T => Sys2Proof.Machine.execDecodeStream S T s
  | .decodeStream1 S T => Sys2Proof.Machine.execDecodeStream1 S T s
  -- LZWCodec
  | .seed => Sys2Proof.Machine.execSeed s
  | .insert p c => Sys2Proof.Machine.execInsert p c s
  | .find w c => Sys2Proof.Machine.execFind w c s
  | .encodeByte c => Sys2Proof.Machine.execEncodeByte c s
  | .encodeEnd => Sys2Proof.Machine.execEncodeEnd s
  | .lengthCheck => Sys2Proof.Machine.execLengthCheck s
  | .decodeFirst => Sys2Proof.Machine.execDecodeFirst s
  | .decodeNext j => Sys2Proof.Machine.execDecodeNext j s
  | .emitString k => Sys2Proof.Machine.execEmitString k s
  -- host pseudo-instructions (R105 to R108)
  | .run op inBase inLen outBase outCap cfg => Sys2Proof.Machine.execRun op inBase inLen outBase outCap cfg s
  | .waitdone => Sys2Proof.Machine.execWaitdone s
  | .clrdone => Sys2Proof.Machine.execClrdone s
  | .sreset => Sys2Proof.Machine.execSreset s

end Sys2Proof.Machine
end

