-- ==== Sys2Proof/Machine/Host.lean ====
section
/-! DEFINITION. Whose turn it is and what it does: the host's next entry, the engine's turn, and how a
word is placed where the next step fetches its instruction (R104, R22, R92, R151, R340). -/

namespace Sys2Proof.Machine

/-- The engine's turn: the launched command is fetched from CMD, decoded and run (R143). -/
def engineTurn (s : State) : Host.Outcome State Fault Refusal := exec (decodeCmd s.regs.cmdWord) s

/-- The engine moves next: a command is in flight, the engine is not held in reset (R340), and the command
lets no further entry of the host pass, or there is none (log 22). -/
def engineDue (s : State) : Bool :=
  s.regs.busy && !s.hwReset && (s.latency = 0 || s.host.isEmpty)

/-- The host takes its next entry; an entry taken while a command runs is one that it lets pass. -/
def takeEntry (rest : List HostOp) (s : State) : State :=
  { s with host := rest, latency := if s.regs.busy then s.latency - 1 else s.latency }

/-- `WR reg, v`: a control action runs as its instruction (R103), any other write is R147's. -/
def hostWr (off : Byte) (v : Word) (s : State) : Host.Outcome State Fault Refusal :=
  match decodeAction off v with
  | .ok i => exec i s
  | .error _ => hostWrite off v s

/-- `RD reg -> name` (R104). -/
def hostRd (off : Byte) (s : State) : Host.Outcome State Fault Refusal :=
  match accessRefusal off s with
  | some r => .refused r
  | none => .next { (readReg off s).2 with results := (readReg off s).1 :: s.results }

/-- `WAITIRQ` (R104): the entry comes again until IRQ is 1 (log 22). -/
def hostWaitIrq (s : State) : Host.Outcome State Fault Refusal :=
  if s.irq then .next s else .next { s with host := .waitIrq :: s.host }

/-- An address from a, n bytes long, meets the input or output region of a running command. -/
def touchesRegions (s : State) (a n : Nat) : Bool :=
  (List.range n).any fun i => s.inInput (a + i) || s.inOutput (a + i)

/-- `MEM addr: bytes` (R104): refused in the regions of a running command (R92; log 11), a fault past the
last address (log 28). -/
def hostMem (addr : Word) (bytes : List Byte) (s : State) : Host.Outcome State Fault Refusal :=
  if 2 ^ 32 < addr.toNat + bytes.length then .fault .outsideBufferMemory
  else if s.regs.busy && touchesRegions s addr.toNat bytes.length then .refused .hostDutyBroken
  else .next { s with mem := Memory.writeBytes s.mem addr.toNat bytes }

/-- The host reads a byte of buffer memory: not in the output region of a running command (R92). -/
def hostMemRd (addr : Word) (s : State) : Host.Outcome State Fault Refusal :=
  if s.regs.busy && s.inOutput addr.toNat then .refused .hostDutyBroken
  else .next { s with results := (Memory.read s.mem addr.toNat).setWidth 32 :: s.results }

/-- The offset in the register block of a bus address, when it lies in the block (R22). -/
def blockOffset (s : State) (addr : Word) : Option Byte :=
  if (addr - s.cfg.regBase).toNat < 256 then some ((addr - s.cfg.regBase).setWidth 8) else none

/-- A bus write: only a 4-byte one is defined, its bytes in little-endian order (R22). -/
def hostBusWrite (addr : Word) (bytes : List Byte) (s : State) : Host.Outcome State Fault Refusal :=
  match blockOffset s addr with
  | none => .refused .notRegisterBlock
  | some off =>
    if bytes.length = 4 then hostWr off (BitVec.ofNat 32 (leValue bytes)) s
    else .refused .badRegisterAccess

/-- A bus read: only a 4-byte one is defined (R22). -/
def hostBusRead (addr : Word) (width : Nat) (s : State) : Host.Outcome State Fault Refusal :=
  match blockOffset s addr with
  | none => .refused .notRegisterBlock
  | some off => if width = 4 then hostRd off s else .refused .badRegisterAccess

/-- The hardware reset input: asserting it has the effect of R341; when it is released the machine is in
the state of R343 (R340). -/
def driveHwReset (asserted : Bool) (s : State) : State :=
  if asserted then { softReset s with hwReset := true }
  else if s.hwReset then { resetCore s with hwReset := false }
  else s

/-- A control action or pseudo-instruction of the table; nothing else is a host's to issue (R100). -/
def hostInstr (i : Instr) (s : State) : Host.Outcome State Fault Refusal :=
  if i.hostIssuable then exec i s else .refused .notHostIssuable

/-- One entry of the host's list. -/
def hostTurn (op : HostOp) (s : State) : Host.Outcome State Fault Refusal :=
  match op with
  | .wr off v => hostWr off v s
  | .rd off => hostRd off s
  | .poll off mask val => hostPoll off mask val s
  | .waitIrq => hostWaitIrq s
  | .mem addr bytes => hostMem addr bytes s
  | .memRd addr => hostMemRd addr s
  | .busWrite addr bytes => hostBusWrite addr bytes s
  | .busRead addr width => hostBusRead addr width s
  | .hwReset asserted => .next (driveHwReset asserted s)
  | .latency n => .next { s with latency := n }
  | .instr i => hostInstr i s

/-- The host program of an instruction a host can issue (R104 to R108). -/
def hostProgram : Instr → List HostOp
  | .waitdone => [.poll offStatus 2#32 2#32]
  | i => if i.hostIssuable then (encode i).map fun t => .wr t.off t.data else []

/-- CMD holds the word's OP and START has just launched its command, which lets no entry of the host
pass: the engine's turn, the next step, fetches that word (log 12). -/
def fetchCmd (w : Word) (s : State) : State :=
  launch { s with regs := { s.regs with op := opField w }, hwReset := false, latency := 0 }

/-- The host's next entry is that transaction, and it is the host's turn; a CMD write is the word of a
launched command, as above (log 12, log 13). -/
def fetchTransaction (t : Transaction) (s : State) : State :=
  match t.dir with
  | .read => { s with hwReset := false, latency := 1, host := .rd t.off :: s.host }
  | .write =>
    if t.off = offCmd then fetchCmd t.data s
    else { s with hwReset := false, latency := 1, host := .wr t.off t.data :: s.host }

/-- What step does: the engine's turn when it is due, else the host's next entry; an idle machine whose
host has nothing left to do stays as it is (R343). -/
def turn (s : State) : Host.Outcome State Fault Refusal :=
  if engineDue s then engineTurn s
  else
    match s.host with
    | [] => .next s
    | op :: rest => hostTurn op (takeEntry rest s)

end Sys2Proof.Machine
end

