-- ==== Sys2Proof/Machine/Step.lean ====
section
/-! DEFINITION. One step of the machine (Machine/Host.lean's turn), and where it fetches. -/

namespace Sys2Proof.Machine

def step (s : State) : Host.Outcome State Fault Refusal := turn s

/-- s with an opcode-table word where step fetches its next instruction: a word of at most 32 bits as the
CMD word of a launched command, a wider one as the host's next transaction (log 12, log 13). -/
def State.withFetchWord (s : State) (nbits w : Nat) : State :=
  if nbits ≤ 32 then fetchCmd (BitVec.ofNat 32 w) s else fetchTransaction (transactionOfBits w) s

end Sys2Proof.Machine
end

