-- ==== Sys2Proof/Safety.lean ====
section
/-! DEFINITION. The terms that claims about the machine use: the invariant of every state a run reaches,
what an engine operation never writes, the answers of the platform, and the reference formats and
sequences that the codecs are held against. -/

namespace Sys2Proof.Machine

/-! The invariant -/

/-- What every reachable state satisfies: buffer memory is in canonical form; BUSY = 1 exactly when PHASE is
not IDLE (R58); BUSY and DONE are never both 1 and ERROR equals (ERR_CODE ≠ 0) (R27); ERR_CODE 7 is never
produced (R300); ERR_INFO is 0 without an error (R33); LZW_CAP is legal (R8); an engine held in reset is
not busy (R340). -/
structure State.Inv (s : State) : Prop where
  mem     : Memory.wf s.mem = true
  busy    : s.regs.busy = true ↔ s.phase ≠ .idle
  done    : ¬(s.regs.busy = true ∧ s.regs.done = true)
  error   : s.regs.error = true ↔ s.regs.errCode ≠ 0#3
  code    : s.regs.errCode ≠ 7#3
  info    : s.regs.error = false → s.regs.errInfo = 0#32
  cap     : 256 ≤ s.cfg.lzwCap.toNat ∧ s.cfg.lzwCap.toNat ≤ 2 ^ 31
  inReset : s.hwReset = true → s.regs.busy = false

/-! What an engine operation never writes -/

/-- The registers that only the host, START, completion and error termination write, the registers an
engine operation writes being blanked. -/
def Regs.fixedPart (r : Regs) : Regs :=
  { r with
    outLen := 0#32, huffUnique := 0#9, huffBitsLo := 0#32, huffBitsHi := 0#32, lzwCodes := 0#32,
    lzwNext := 0#32 }

/-- Everything that no engine operation writes: the configuration and status registers, the parameters,
the host's side. What engine operations write is blanked. -/
def State.fixedPart (s : State) : State :=
  { s with
    regs := s.regs.fixedPart
    phase := .idle
    huff := Huff.cleared
    pack := Packer.cleared
    lzw := Lzw.cleared
    cur := Cursors.cleared
    mem := []
    ret := .none
    draws := 0 }

/-- The part of the state that stays through a whole command: as above, the status and ELAPSED, ERR_INFO
and OP blanked too. -/
def State.commandFixedPart (s : State) : State :=
  { s.fixedPart with
    regs := { s.regs.fixedPart with
      op := 0#3, busy := false, done := false, error := false, errCode := 0#3, errInfo := 0#32,
      elapsed := 0#32 } }

/-- Every byte of buffer memory reads the same. -/
def SameMem (s t : State) : Prop := ∀ a, Memory.read t.mem a = Memory.read s.mem a

/-- Every byte of buffer memory outside the n bytes from address a reads the same. -/
def SameMemBut (a n : Nat) (s t : State) : Prop :=
  ∀ x, ¬(a ≤ x ∧ x < a + n) → Memory.read t.mem x = Memory.read s.mem x

/-! The platform -/

/-- The platform answers an access in state s with an error (R78); an address past 2^32 - 1 holds no byte
(log 17). -/
def State.busAnswer (s : State) (a : Nat) (d : Dir) : Bool :=
  2 ^ 32 ≤ a ||
    match s.cfg.busErr with
    | some rs => knownBusError rs a d
    | none => Config.busErrorDraw s.draws a d

/-- The platform answers no access with an error: a known platform with no erring address, or an unknown
one all of whose draws are false. -/
def State.NoBusError (s : State) : Prop :=
  match s.cfg.busErr with
  | some rs => ∀ a d, a < 2 ^ 32 → knownBusError rs a d = false
  | none => ∀ n a d, a < 2 ^ 32 → Config.busErrorDraw n a d = false

/-- A known platform answers the reads of the input bytes below offset k, and every write, without an error, and the
read of input byte k with one (R74, R78). -/
def State.ReadFails (s : State) (k : Nat) : Prop :=
  ∃ rs, s.cfg.busErr = some rs ∧ (∀ a, a < 2 ^ 32 → knownBusError rs a .write = false)
    ∧ (∀ i, i < k → knownBusError rs (inAddr s i) .read = false)
    ∧ knownBusError rs (inAddr s k) .read = true ∧ inAddr s k < 2 ^ 32

/-- A known platform answers every read, and the writes of the output bytes below offset n, without an error, and the
write of output byte n with one (R75, R78). -/
def State.WriteFails (s : State) (n : Nat) : Prop :=
  ∃ rs, s.cfg.busErr = some rs ∧ (∀ a, a < 2 ^ 32 → knownBusError rs a .read = false)
    ∧ (∀ m, m < n → knownBusError rs (s.regs.outBase.toNat + m) .write = false)
    ∧ knownBusError rs (s.regs.outBase.toNat + n) .write = true

/-- The state after one answer of the platform: an unknown platform's answer is one draw (R78; log 1). -/
def State.answered (s : State) : State :=
  match s.cfg.busErr with
  | some _ => s
  | none => { s with draws := s.draws + 1 }

/-- The regions pass the start checks (R142). -/
def Regs.RegionsOk (r : Regs) : Prop :=
  r.inBase.toNat + r.inLen.toNat ≤ 2 ^ 32 ∧ r.outBase.toNat + r.outCap.toNat ≤ 2 ^ 32
    ∧ r.overlap = false

/-- The output region has n more bytes, all inside buffer memory. -/
def State.Room (s : State) (n : Nat) : Prop :=
  s.regs.outLen.toNat + n ≤ s.regs.outCap.toNat
    ∧ s.regs.outBase.toNat + s.regs.outLen.toNat + n ≤ 2 ^ 32

/-- The input bytes of a state (R72). -/
def State.input (s : State) : List Byte :=
  Memory.readBytes s.mem s.regs.inBase.toNat s.regs.inLen.toNat

/-- The output bytes of a state: OUT_LEN bytes from OUT_BASE. -/
def State.output (s : State) : List Byte :=
  Memory.readBytes s.mem s.regs.outBase.toNat s.regs.outLen.toNat

/-- Memory m is that of s with bs stored from the next output byte of s on, and no other byte changed. -/
def State.Appends (s : State) (m : List Host.Cell) (bs : List Byte) : Prop :=
  Memory.readBytes m (outAddr s) bs.length = bs
    ∧ ∀ a, ¬(outAddr s ≤ a ∧ a < outAddr s + bs.length) → Memory.read m a = Memory.read s.mem a

/-- s with memory m, d free values drawn and n more output bytes counted: all that OutByte changes (R75). -/
def State.afterOut (s : State) (m : List Host.Cell) (d n : Nat) : State :=
  { s with mem := m, draws := d, regs := { s.regs with outLen := s.regs.outLen + BitVec.ofNat 32 n } }

/-- What an internal operation leaves whose raise of k with detail info, in state s, ended the command
(R307). -/
def State.endedBy (s : State) (k : ErrKind) (info : Nat) : State :=
  { raiseError ⟨k, BitVec.ofNat 32 info⟩ s with ret := .none }

/-- HUFF_BITS as one 64-bit count (R36). -/
def Regs.huffBits (r : Regs) : Nat := r.huffBitsLo.toNat + 2 ^ 32 * r.huffBitsHi.toNat

/-- The command ended without an error (R144). -/
def State.Succeeded (s : State) : Prop :=
  s.phase = .idle ∧ s.regs.statusWord = 0x00000002#32 ∧ s.regs.errInfo = 0#32

/-- The command ended with an error (R307). -/
def State.Failed (s : State) (k : ErrKind) (info : Nat) : Prop :=
  s.phase = .idle ∧ s.regs.busy = false ∧ s.regs.done = true ∧ s.regs.error = true
    ∧ s.regs.errCode = k.code ∧ s.regs.errInfo = BitVec.ofNat 32 info

/-- The state that a command with OP value op leaves when a start check stops it: START's clearing, the
error, no memory access (R141, R142, R307). -/
def State.failedLaunch (s : State) (op : BitVec 3) (k : ErrKind) (info : Nat) (e : Word) (d : Nat) :
    State :=
  { launch s with
    phase := .idle
    regs := { (launch s).regs with
      op := op, busy := false, done := true, error := true, errCode := k.code,
      errInfo := BitVec.ofNat 32 info, elapsed := e }
    draws := d }

/-- Run instructions one after the other, each to its next state. -/
def execAll : List Instr → State → Host.Outcome State Fault Refusal
  | [], s => .next s
  | i :: rest, s =>
    match exec i s with
    | .next t => execAll rest t
    | .fault r => .fault r
    | .refused r => .refused r

/-- The host entry writes v to offset off of the register block, directly or over the bus (R22). -/
def HostOp.writes (s : State) (op : HostOp) (off : Byte) (v : Word) : Prop :=
  op = .wr off v ∨ ∃ addr bytes, op = .busWrite addr bytes ∧ bytes.length = 4
    ∧ blockOffset s addr = some off ∧ v = BitVec.ofNat 32 (leValue bytes)

/-- The host entry clears DONE or resets FCCORE (R145, R146, R340). -/
def HostOp.clearsDone (s : State) (op : HostOp) : Prop :=
  (∃ off v, HostOp.writes s op off v ∧ (off = offCtrl ∨ off = offStatus) ∧ v.getLsbD 1 = true)
    ∨ op = .instr .softReset ∨ op = .instr .sreset ∨ op = .instr .clearDone ∨ op = .instr .clrdone
    ∨ ∃ b, op = .hwReset b

/-! The fields of the input (R109, R111) -/

/-- The 32-bit field at input offset p (R109). -/
def State.inWord (s : State) (p : Nat) : Word :=
  BitVec.ofNat 32 (leValue (Memory.readBytes s.mem (inAddr s p) 4))

/-- The 64-bit field at input offset p (R109). -/
def State.inDouble (s : State) (p : Nat) : BitVec 64 :=
  BitVec.ofNat 64 (leValue (Memory.readBytes s.mem (inAddr s p) 8))

/-- The byte value of pair j of the header (R111). -/
def State.pairSym (s : State) (j : Nat) : Byte := Memory.read s.mem (inAddr s (4 + 5 * j))

/-- The frequency of pair j of the header (R111). -/
def State.pairFreq (s : State) (j : Nat) : Word := s.inWord (5 + 5 * j)

/-- The first n pairs of the header list distinct byte values, each with a frequency of 1 or more
(R205). -/
def State.PairsOk (s : State) (n : Nat) : Prop :=
  ∀ j, j < n → (∀ i, i < j → s.pairSym i ≠ s.pairSym j) ∧ 1 ≤ (s.pairFreq j).toInt

/-- The header of the input is accepted with the count u and the bit count T (R205, R206). -/
structure State.HeaderIs (s : State) (u : Nat) (T : BitVec 64) : Prop where
  count   : u ≤ 256
  length  : 12 + 5 * u ≤ s.regs.inLen.toNat
  field   : s.inWord 0 = BitVec.ofNat 32 u
  pairs   : s.PairsOk u
  bits    : T = s.inDouble (4 + 5 * u)
  signed  : T.toNat < 2 ^ 63
  empty   : u = 0 → T = 0#64
  payload : T.toNat ≤ 8 * (s.regs.inLen.toNat - (12 + 5 * u))

/-- h is HUFF of s with the first n pairs of the header accepted: their byte values are ORDER in turn, each with its
rank and its frequency, U is n, and every other entry is as in s (R205). -/
structure State.PairsTaken (s : State) (n : Nat) (h : Huff) : Prop where
  others : h = { s.huff with freq := h.freq, order := h.order, rank := h.rank, u := n }
  taken  : ∀ j, j < n → orderAt h j = s.pairSym j ∧ tget h.rank (s.pairSym j) = BitVec.ofNat 8 j
    ∧ tget h.freq (s.pairSym j) = s.pairFreq j
  bytes  : ∀ b, (∀ j, j < n → s.pairSym j ≠ b) →
    tget h.freq b = tget s.huff.freq b ∧ tget h.rank b = tget s.huff.rank b
  ranks  : ∀ j, n ≤ j → j < 256 → orderAt h j = orderAt s.huff j

/-- ParseHeader stops with error k and detail info after it accepted n pairs, whose tables stay; HUFF_UNIQUE is then
uniq (R205, R213, R307). -/
def State.ParseEnds (s : State) (k : ErrKind) (info : Nat) (uniq : BitVec 9) (n : Nat) : Prop :=
  ∃ v : State, exec .parseHeader s = .next (v.endedBy k info)
    ∧ s.PairsTaken n v.huff
    ∧ v.fixedPart = s.fixedPart ∧ v.regs = { s.regs with huffUnique := uniq } ∧ v.mem = s.mem
    ∧ v.phase = s.phase ∧ v.pack = s.pack ∧ v.lzw = s.lzw
    ∧ v.cur.bitPos = s.cur.bitPos ∧ v.cur.pass = s.cur.pass

/-- ParseHeader stops with CorruptHeaderError and detail info after it accepted n pairs (R205). -/
def State.ParseFails (s : State) (info : Nat) (uniq : BitVec 9) (n : Nat) : Prop :=
  s.ParseEnds .corruptHeader info uniq n

/-- The distinct byte values of a string, in the order of their first appearance (R190). -/
def firstAppearances (bs : List Byte) : List Byte :=
  bs.foldl (fun acc b => if b ∈ acc then acc else acc ++ [b]) []

/-! The Huffman tree (R193, R194) -/

/-- key(n) is below key(m): weight first, then arena index (R193). -/
def keyBelow (h : Huff) (n m : Nat) : Prop :=
  (nodeAt h n).weight < (nodeAt h m).weight ∨ ((nodeAt h n).weight = (nodeAt h m).weight ∧ n < m)

/-- Node m is a child of node n (R51). -/
def isChild (h : Huff) (m n : Nat) : Prop := ∃ l r w, nodeAt h n = .internal l r w ∧ (m = l ∨ m = r)

/-- The byte values that have a rank (R50). -/
def ranked (h : Huff) : List Byte := (List.range h.u).map (orderAt h)

/-- The node that a path from node n reaches, if it runs over internal nodes only before its end (R208). -/
def nodeOn (h : Huff) : (n : Nat) → List Bool → Option Nat
  | n, [] => some n
  | n, b :: p =>
    match nodeAt h n with
    | .leaf _ _ => none
    | .internal l r _ => nodeOn h (if b then r else l) p

/-- Every child of an internal node lies below its parent in the arena (R196). -/
def TreeOk (h : Huff) : Prop := ∀ n m, isChild h m n → m < n

/-! The Huffman formats -/

/-- The header of a Huffman file (R111): u, the pairs, T. -/
def headerBytes (pairs : List (Byte × Word)) (T : Nat) : List Byte :=
  leBytes pairs.length 4 ++ pairs.flatMap (fun p => p.1 :: leBytes p.2.toNat 4) ++ leBytes T 8

/-- The (byte value, frequency) pairs of a table, by rank (R113). -/
def headerPairs (h : Huff) : List (Byte × Word) :=
  (List.range h.u).map fun j => (orderAt h j, tget h.freq (orderAt h j))

/-- The code of a byte value as a bit string, first bit first (R53). -/
def codeOf (h : Huff) (b : Byte) : List Bool :=
  (List.range (tget h.codeLen b).toNat).map fun i => (tget h.codeBits b).getLsbD i

/-- A code stream packed most significant bit first, the last byte padded with zeros (R170, R173). -/
def packedBytes (bits : List Bool) : List Byte :=
  (List.range ((bits.length + 7) / 8)).map fun m =>
    BitVec.ofNat 8 (((List.range 8).map fun i => (bits.getD (8 * m + i) false).toNat * 2 ^ (7 - i)).sum)

/-- Bit t of the code stream that starts at input offset S of memory (R170). -/
def streamBit (s : State) (S t : Nat) : Bool :=
  (Memory.read s.mem (inAddr s (S + t / 8))).getLsbD (7 - t % 8)

/-- The first n bits of the code stream at input offset S (R170). -/
def streamBits (s : State) (S n : Nat) : List Bool := (List.range n).map (streamBit s S)

/-- The leaf that a path from node n reaches (R197, R208). -/
def leafAt (h : Huff) : (n : Nat) → List Bool → Option Byte
  | n, [] => match nodeAt h n with | .leaf sym _ => some sym | .internal _ _ _ => none
  | n, b :: p =>
    match nodeAt h n with
    | .leaf _ _ => none
    | .internal l r _ => leafAt h (if b then r else l) p

/-! What an operation is to write -/

/-- Codes and rest r of the code stream of T bits at input offset S that DecodeStream walks to the leaves of msg
(R208). -/
def State.StreamIs (s : State) (S T : Nat) (paths : List (List Bool)) (msg : List Byte) (r : List Bool) : Prop :=
  TreeOk s.huff ∧ (∃ a b w, nodeAt s.huff s.huff.root = .internal a b w)
    ∧ S + (T + 7) / 8 ≤ s.regs.inLen.toNat
    ∧ paths.map (leafAt s.huff s.huff.root) = msg.map some
    ∧ streamBits s S T = paths.flatten ++ r

/-- What the string of code k is and its first byte, when the code is the j-th, defined or the entry about to be made
(R260). -/
def State.EntryIs (s : State) (k : Code) (entry : List Byte) (f : Byte) : Prop :=
  (k.toNat < s.lzw.next.toNat ∧ entry = stringOf s.lzw k ∧ f = (dictAt s.lzw k).first)
    ∨ (k = s.lzw.next ∧ s.lzw.next.toNat < s.cfg.lzwCap.toNat
      ∧ f = (dictAt s.lzw s.lzw.prev).first ∧ entry = stringOf s.lzw s.lzw.prev ++ [f])

/-- The operation, which reads no input, is to write the bytes bs: the header (R201), a string (R262), the last code
(R255), the code of a match that the next byte does not extend (R254). -/
def State.WritesOnly (s : State) (i : Instr) (bs : List Byte) : Prop :=
  (∃ T, i = .serializeHeader T ∧ s.huff.u ≤ 256 ∧ bs = headerBytes (headerPairs s.huff) T.toNat)
    ∨ (∃ k, i = .emitString k ∧ bs = stringOf s.lzw k)
    ∨ (i = .encodeEnd ∧ s.lzw.wValid = true ∧ bs = leBytes s.lzw.w.toNat 4)
    ∨ (∃ c, i = .encodeByte c ∧ s.lzw.wValid = true
        ∧ exec (.find s.lzw.w c) s = .next { s with ret := .code none }
        ∧ ¬(s.lzw.next = s.cfg.lzwCap ∧ s.regs.lzwStrict = true) ∧ bs = leBytes s.lzw.w.toNat 4)

/-- The operation, which reads input, is to write the bytes bs, or bs first: the string of the first code (R259), of
code j (R261), the symbols of a code stream (R208), one symbol for each bit 0 (R209). -/
def State.ReadsAndWrites (s : State) (i : Instr) (bs : List Byte) : Prop :=
  (i = .decodeFirst ∧ inAddr s 0 + 4 ≤ 2 ^ 32 ∧ (s.inWord 0).toNat < 256
      ∧ bs = stringOf s.lzw (s.inWord 0))
    ∨ (∃ j f, i = .decodeNext j ∧ inAddr s (4 * j) + 4 ≤ 2 ^ 32
        ∧ ¬(s.lzw.next = s.cfg.lzwCap ∧ s.regs.lzwStrict = true) ∧ s.EntryIs (s.inWord (4 * j)) bs f)
    ∨ (∃ S T paths r, i = .decodeStream S T ∧ s.regs.RegionsOk ∧ s.StreamIs S T.toNat paths bs r)
    ∨ (∃ S T, i = .decodeStream1 S T ∧ s.regs.RegionsOk ∧ S + (T.toNat + 7) / 8 ≤ s.regs.inLen.toNat
        ∧ bs.length ≤ T.toNat ∧ (∀ t, t < bs.length → streamBit s S t = false)
        ∧ bs = List.replicate bs.length (orderAt s.huff 0))

/-- Bits r, walked from the root, end at the root or at another internal node (R208). -/
def Huff.Inside (h : Huff) (r : List Bool) : Prop :=
  r = [] ∨ ∃ n a b w, nodeOn h h.root r = some n ∧ nodeAt h n = .internal a b w

/-- The operation reads all input below offset k that its rule places before offset k, writes the bytes bs, and then
reads offset k: inside the first code (R259) or code j (R261), at byte q of a code stream whose 8q bits before
it are paths to the leaves of bs and bits inside a path (R208), or 8q bits 0 (R209). -/
def State.ReadsUpTo (s : State) (i : Instr) (k : Nat) (bs : List Byte) : Prop :=
  (i = .decodeFirst ∧ k < 4 ∧ bs = [])
    ∨ (∃ j, i = .decodeNext j ∧ 4 * j ≤ k ∧ k < 4 * j + 4 ∧ bs = [])
    ∨ (∃ S T q paths r, i = .decodeStream S T ∧ k = S + q ∧ 8 * q < T.toNat ∧ s.regs.RegionsOk
        ∧ S + (T.toNat + 7) / 8 ≤ s.regs.inLen.toNat ∧ s.StreamIs S (8 * q) paths bs r ∧ s.huff.Inside r)
    ∨ (∃ S T q, i = .decodeStream1 S T ∧ k = S + q ∧ 8 * q < T.toNat ∧ s.regs.RegionsOk
        ∧ S + (T.toNat + 7) / 8 ≤ s.regs.inLen.toNat ∧ (∀ t, t < 8 * q → streamBit s S t = false)
        ∧ bs = List.replicate (8 * q) (orderAt s.huff 0))

/-! The LZW dictionary (R250, R251) -/

/-- The dictionary as Seed and Insert leave it (R250, R251): the valid entries are exactly those below NEXT,
NEXT is between 256 and LZW_CAP, entries 0 to 255 are the seeds, and every other entry extends an entry
below it. -/
structure State.DictOk (s : State) : Prop where
  rising : sparseRising 0 s.lzw.dict = true
  valid  : ∀ k, (sparseGet? s.lzw.dict k).isSome ↔ k < s.lzw.next.toNat
  next   : 256 ≤ s.lzw.next.toNat ∧ s.lzw.next.toNat ≤ s.cfg.lzwCap.toNat
  seeds  : ∀ k, k < 256 →
    sparseGet? s.lzw.dict k = some ⟨none, BitVec.ofNat 8 k, BitVec.ofNat 8 k, 1⟩
  longer : ∀ k e, 256 ≤ k → sparseGet? s.lzw.dict k = some e → ∃ p : Code,
    e.pre = some p ∧ p.toNat < k ∧ e.first = (dictAt s.lzw p).first
      ∧ e.len = (dictAt s.lzw p).len + 1

/-! The LZW reference: the source's dictionary of byte strings (43_lzw.md R250 to R257). -/

/-- The code of a string in a dictionary of strings, list position = code. -/
def stringCode (d : List (List Byte)) (w : List Byte) : Option Nat := d.findIdx? (· = w)

/-- The codes of an input, with the dictionary d, the current match w and the capacity cap: extend the match
while it is in the dictionary, else emit its code and insert the longer string if capacity remains. -/
def stringEncode (cap : Nat) : (d : List (List Byte)) → (w : List Byte) → List Byte → List Nat
  | d, w, [] => if w = [] then [] else [(stringCode d w).getD 0]
  | d, w, c :: rest =>
    if (stringCode d (w ++ [c])).isSome then stringEncode cap d (w ++ [c]) rest
    else
      (stringCode d w).getD 0
        :: stringEncode cap (if d.length < cap then d ++ [w ++ [c]] else d) [c] rest

/-- The 256 single-byte strings (R251). -/
def seedStrings : List (List Byte) := (List.range 256).map fun k => [BitVec.ofNat 8 k]

/-- The LZW codes of an input (R257). -/
def lzwCodesOf (cap : Nat) (input : List Byte) : List Nat := stringEncode cap seedStrings [] input

/-- The bytes that later codes stand for, with the dictionary d and the previous string prev: none at an
undefined code (R260, R261). -/
def stringDecode (cap : Nat) : (d : List (List Byte)) → (prev : List Byte) → List Nat →
    Option (List Byte)
  | _, _, [] => some []
  | d, prev, k :: rest =>
    match if k < d.length then some (d.getD k [])
        else if k = d.length ∧ d.length < cap then some (prev ++ prev.take 1) else none with
    | none => none
    | some entry =>
      (stringDecode cap (if d.length < cap then d ++ [prev ++ entry.take 1] else d) entry rest).map
        (entry ++ ·)

/-- The bytes that a list of codes stands for: none when the first is no seed or a later one is undefined
(R259, R263). -/
def lzwBytesOf (cap : Nat) : List Nat → Option (List Byte)
  | [] => some []
  | k :: rest =>
    if k < 256 then
      (stringDecode cap seedStrings [BitVec.ofNat 8 k] rest).map (BitVec.ofNat 8 k :: ·)
    else none

/-- The codes that the input of a state holds (R115). -/
def State.inCodes (s : State) : List Nat :=
  (List.range (s.regs.inLen.toNat / 4)).map fun j => (s.inWord (4 * j)).toNat

/-- An LZW file: the codes, 4 bytes each, little-endian (R115). -/
def lzwFile (codes : List Nat) : List Byte := codes.flatMap fun k => leBytes k 4

end Sys2Proof.Machine
end

