-- ==== Sys2Proof/Certificates/Slice0/Obligations.lean ====
section
/-! DEFINITION. The statements for the provers, each with the rule of spec/ that it formalises. -/

open Sys2Proof Sys2Proof.Machine

/-! Encodings -/

/-- R101: the opcode map, matched on CMD bits 2:0 only; bits 31:3 of CMD always read 0. -/
def Obligations.CommandWordDecoding : Prop :=
  (∀ w : Word,
    (w &&& 7#32 = 0#32 → decodeCmd w = .reserved0)
      ∧ (w &&& 7#32 = 1#32 → decodeCmd w = .huffCompress)
      ∧ (w &&& 7#32 = 2#32 → decodeCmd w = .huffDecompress)
      ∧ (w &&& 7#32 = 3#32 → decodeCmd w = .lzwCompress)
      ∧ (w &&& 7#32 = 4#32 → decodeCmd w = .lzwDecompress)
      ∧ (w &&& 7#32 = 5#32 → decodeCmd w = .reserved5)
      ∧ (w &&& 7#32 = 6#32 → decodeCmd w = .reserved6)
      ∧ (w &&& 7#32 = 7#32 → decodeCmd w = .reserved7))
    ∧ ∀ s : State, s.regWord 0x0C#8 &&& 0xFFFFFFF8#32 = 0#32

/-- R103: the three control actions; SOFT_RESET wins over START. A CTRL or STATUS write without an action
bit is no instruction. -/
def Obligations.ControlActionDecoding : Prop :=
  ∀ v : Word,
    (v.getLsbD 1 = true → decodeAction 0x08#8 v = .ok .softReset)
      ∧ (v.getLsbD 0 = true → v.getLsbD 1 = false →
          decodeAction 0x08#8 v = .ok (.start (v.getLsbD 2) (v.getLsbD 3)))
      ∧ (v.getLsbD 0 = false → v.getLsbD 1 = false →
          decodeAction 0x08#8 v = .error .ctrlWithoutAction)
      ∧ (v.getLsbD 1 = true → decodeAction 0x10#8 v = .ok .clearDone)
      ∧ (v.getLsbD 1 = false → decodeAction 0x10#8 v = .error .statusWithoutDone)

/-- R101, R103, R105, R107, R108: decoding what the encoder writes gives the instruction back: every command,
every control action, and RUN with a cfg that holds IRQ_EN and LZW_STRICT only (its other bits reach no
register); CLRDONE and SRESET are other names of CLEAR_DONE and SOFT_RESET. And what a transaction
decodes to is encoded by a transaction with the same meaning. -/
def Obligations.DecodeOfEncode : Prop :=
  (∀ i : Instr, i.isCommand = true ∨ i.isControl = true → decodeList (encode i) = .ok i)
    ∧ (∀ op inBase inLen outBase outCap cfg : Word,
        decodeList (encode (.run op inBase inLen outBase outCap cfg))
          = .ok (.run op inBase inLen outBase outCap (cfg &&& 0xC#32)))
    ∧ decodeList (encode .clrdone) = .ok .clearDone
    ∧ decodeList (encode .sreset) = .ok .softReset
    ∧ ∀ (t : Transaction) (i : Instr), decode t = .ok i →
        (i.isCommand = true ∨ i.isControl = true) ∧ decodeList (encode i) = .ok i

/-- R101, R103, R105: words written out from the encoding tables. -/
def Obligations.SampleWordsDecode : Prop :=
  decodeTableWord 32 0b001 = some .huffCompress
    ∧ decodeTableWord 32 0b010 = some .huffDecompress
    ∧ decodeTableWord 32 0b011 = some .lzwCompress
    ∧ decodeTableWord 32 0b100 = some .lzwDecompress
    ∧ decodeTableWord 32 0b111 = some .reserved7
    ∧ decodeTableWord 32 0xFFFFFFFB = some .lzwCompress
    ∧ decode ⟨.write, 0x08#8, 0b1101#32⟩ = .ok (.start true true)
    ∧ decode ⟨.write, 0x08#8, 0b0011#32⟩ = .ok .softReset
    ∧ decode ⟨.write, 0x10#8, 0b0010#32⟩ = .ok .clearDone
    ∧ decodeList
        [⟨.write, 0x14#8, 0x100#32⟩, ⟨.write, 0x18#8, 11#32⟩, ⟨.write, 0x1C#8, 0x200#32⟩,
          ⟨.write, 0x20#8, 64#32⟩, ⟨.write, 0x0C#8, 1#32⟩, ⟨.write, 0x08#8, 0b0101#32⟩]
        = .ok (.run 1#32 0x100#32 11#32 0x200#32 64#32 4#32)

/-! The step -/

/-- R143, R104, R70, R92: whose turn it is and what it runs. The engine's turn runs the command that CMD decodes to;
the host's turn takes its next entry: a register write that is a control action, or an instruction
entry, runs that instruction; MEM places its bytes and a memory read gives its byte, a read of the input region while BUSY
too (what R92 forbids, which is while BUSY by log 11, is RefusedAccesses); WAITIRQ passes when IRQ is 1; a POLL reads its
register as RD does and passes when the masked value is the one it waits for; one that does not pass is the next entry
again. An idle machine with no host entry stays as it is; a fetched CMD word of an opcode-table row runs as the very
next step. When the engine's turn comes and how an entry waits are the model's choice
(log 22), and so is the last clause: FCCORE fetches nothing, and withFetchWord is the model's way to load a word,
launched, with latency 0 and the reset released (log 12, log 13). -/
def Obligations.StepRunsInstruction : Prop :=
  (∀ s : State, engineDue s = true → step s = exec (decodeCmd (s.regWord 0x0C#8)) s)
    ∧ (∀ (s : State) (off : Byte) (v : Word) (rest : List HostOp) (i : Instr),
        engineDue s = false → s.host = .wr off v :: rest → decodeAction off v = .ok i →
        step s = exec i (takeEntry rest s))
    ∧ (∀ (s : State) (rest : List HostOp) (i : Instr),
        engineDue s = false → s.host = .instr i :: rest → i.hostIssuable = true →
        step s = exec i (takeEntry rest s))
    ∧ (∀ (s : State) (addr : Word) (bs : List Byte) (rest : List HostOp),
        engineDue s = false → s.host = .mem addr bs :: rest → addr.toNat + bs.length ≤ 2 ^ 32 →
        (s.regs.busy = true → ∀ n, n < bs.length →
          s.inInput (addr.toNat + n) = false ∧ s.inOutput (addr.toNat + n) = false) →
        ∃ m : List Host.Cell, step s = .next { takeEntry rest s with mem := m }
          ∧ Memory.readBytes m addr.toNat bs.length = bs
          ∧ ∀ a, ¬(addr.toNat ≤ a ∧ a < addr.toNat + bs.length) → Memory.read m a = Memory.read s.mem a)
    ∧ (∀ (s : State) (addr : Word) (rest : List HostOp),
        engineDue s = false → s.host = .memRd addr :: rest →
        s.regs.busy = false ∨ s.inOutput addr.toNat = false →
        step s = .next { takeEntry rest s with
          results := (Memory.read s.mem addr.toNat).setWidth 32 :: s.results })
    ∧ (∀ (s : State) (rest : List HostOp), engineDue s = false → s.host = .waitIrq :: rest →
        (s.irq = true → step s = .next (takeEntry rest s))
        ∧ (s.irq = false → step s = .next { takeEntry rest s with host := s.host }))
    ∧ (∀ (s : State) (off : Byte) (mask val : Word) (rest : List HostOp),
        engineDue s = false → s.hwReset = false → off.toNat % 4 = 0 → s.host = .poll off mask val :: rest →
        ∃ (w : Word) (u : State), step { s with host := .rd off :: rest } = .next { u with results := w :: s.results }
          ∧ u.results = s.results
          ∧ (w &&& mask = val → step s = .next u)
          ∧ (w &&& mask ≠ val → step s = .next { u with host := s.host }))
    ∧ (∀ s : State, engineDue s = false → s.host = [] → step s = .next s)
    ∧ ∀ (s : State) (nbits w : Nat), nbits ≤ 32 →
        step (s.withFetchWord nbits w)
          = exec (decodeCmd (BitVec.ofNat 32 w)) (s.withFetchWord nbits w)

/-! Reset -/

/-- R343: the state after reset, item by item. Buffer memory is unspecified at power-on: each byte reads the
free value of its address (log 6). FCCORE then executes nothing until the host does something. -/
def Obligations.ResetState : Prop :=
  State.reset.regWord 0x00#8 = 0x46434352#32
    ∧ State.reset.regWord 0x04#8 = 0x00010000#32
    ∧ (∀ off : Byte, off ≠ 0x00#8 → off ≠ 0x04#8 → off ≠ 0x44#8 → State.reset.regWord off = 0#32)
    ∧ State.reset.regWord 0x44#8 = State.reset.cfg.lzwCap
    ∧ State.reset.irq = false
    ∧ State.reset.phase = .idle
    ∧ (∀ b : Byte, tget State.reset.huff.freq b = 0#32 ∧ tget State.reset.huff.order b = 0#8
        ∧ tget State.reset.huff.rank b = 0#8 ∧ tget State.reset.huff.codeLen b = 0#8
        ∧ tget State.reset.huff.codeBits b = 0#255)
    ∧ State.reset.huff.u = 0 ∧ State.reset.huff.node = [] ∧ State.reset.huff.nnodes = 0
    ∧ State.reset.huff.root = 0 ∧ State.reset.huff.queue = []
    ∧ State.reset.pack = ⟨0#8, 0#3, 0⟩
    ∧ State.reset.lzw = ⟨[], 0#32, 0#32, false, 0#32⟩
    ∧ State.reset.cur = ⟨0, 0, false⟩
    ∧ (∀ a : Nat, Memory.read State.reset.mem a = Config.powerOnByte a)
    ∧ step State.reset = .next State.reset

/-- R27, R33, R58, R8: the invariant holds after reset. -/
def Obligations.ResetInvariant : Prop := State.reset.Inv

/-- R27, R33, R58, R300, R340: every step keeps the invariant: memory in canonical form, BUSY = 1 exactly when
PHASE is not IDLE, BUSY and DONE never both 1, ERROR equal to (ERR_CODE ≠ 0), ERR_CODE never 7, ERR_INFO 0
without an error, LZW_CAP legal, not busy while held in reset. -/
def Obligations.StepKeepsInvariant : Prop :=
  ∀ s t : State, s.Inv → step s = .next t → t.Inv

/-- R341, R342: SOFT_RESET, and SRESET which is the same write. Idle, every register and all internal state take
their reset values and memory does not change. While a command runs it is aborted: for some n no larger than the
number of bytes it would have written, its first n bytes are written and the rest of memory is
unchanged. -/
def Obligations.SoftReset : Prop :=
  ∀ (s : State) (i : Instr), s.hwReset = false → i = .softReset ∨ i = .sreset →
    (s.regs.busy = false →
      exec i s = .next { s with
        regs := Regs.reset, phase := .idle, huff := Huff.cleared, pack := Packer.cleared,
        lzw := Lzw.cleared, cur := Cursors.cleared })
    ∧ (∀ u : State, s.regs.busy = true → exec (decodeCmd (s.regWord 0x0C#8)) s = .next u →
      ∃ (n : Nat) (m : List Host.Cell) (d : Nat),
        n ≤ u.regs.outLen.toNat
          ∧ exec i s = .next { s with
              regs := Regs.reset, phase := .idle, huff := Huff.cleared, pack := Packer.cleared,
              lzw := Lzw.cleared, cur := Cursors.cleared, mem := m, draws := d }
          ∧ ∀ a, Memory.read m a =
              if s.regs.outBase.toNat ≤ a ∧ a < s.regs.outBase.toNat + n then Memory.read u.mem a
              else Memory.read s.mem a)

/-- R340, R341, R342: the hardware reset input. Asserting it has the effect of reset: idle, every register and all internal
state take their reset values; with no command in flight memory does not change, and with one, for some n no larger than
the number of bytes it would have written, its first n bytes are written and the rest of memory is
unchanged. While it is asserted the engine has no turn and every register access is refused: a write, a read, a poll, a control
action or a pseudo-instruction; releasing it leaves the state of R343. -/
def Obligations.HardwareReset : Prop :=
  (∀ s : State, s.hwReset = true → engineDue s = false)
    ∧ ∀ (s : State) (rest : List HostOp),
      (engineDue s = false → s.host = .hwReset true :: rest → s.regs.busy = false →
        step s = .next { s with
          regs := Regs.reset, phase := .idle, huff := Huff.cleared, pack := Packer.cleared,
          lzw := Lzw.cleared, cur := Cursors.cleared, hwReset := true, host := rest })
      ∧ (∀ u : State, engineDue s = false → s.host = .hwReset true :: rest → s.regs.busy = true →
          exec (decodeCmd (s.regWord 0x0C#8)) (takeEntry rest s) = .next u →
          ∃ (n : Nat) (m : List Host.Cell) (l d : Nat),
            n ≤ u.regs.outLen.toNat
              ∧ step s = .next { s with
                  regs := Regs.reset, phase := .idle, huff := Huff.cleared, pack := Packer.cleared,
                  lzw := Lzw.cleared, cur := Cursors.cleared, mem := m, hwReset := true, host := rest,
                  latency := l, draws := d }
              ∧ ∀ a, Memory.read m a =
                  if s.regs.outBase.toNat ≤ a ∧ a < s.regs.outBase.toNat + n then Memory.read u.mem a
                  else Memory.read s.mem a)
      ∧ (s.hwReset = true → s.host = .hwReset false :: rest →
          ∃ l : Nat, step s = .next { s with
            regs := Regs.reset, phase := .idle, huff := Huff.cleared, pack := Packer.cleared,
            lzw := Lzw.cleared, cur := Cursors.cleared, hwReset := false, host := rest,
            latency := l })
      ∧ (∀ (off : Byte) (v w : Word), s.hwReset = true → off.toNat % 4 = 0 →
          s.host = .wr off v :: rest ∨ s.host = .rd off :: rest ∨ s.host = .poll off v w :: rest →
          step s = .refused .accessDuringReset)
      ∧ ∀ i : Instr, s.hwReset = true → i.hostIssuable = true → s.host = .instr i :: rest →
          step s = .refused .accessDuringReset

/-! Host register writes -/

/-- R140: a write of v to CTRL: SOFT_RESET wins over every other bit; IRQ_EN takes v[2] even while BUSY; LZW_STRICT
and START only when not BUSY; START begins with the LZW_STRICT just written; bits 31:4 are ignored. -/
def Obligations.CtrlWrite : Prop :=
  ∀ (s : State) (v : Word) (rest : List HostOp),
    s.hwReset = false → engineDue s = false → s.host = .wr 0x08#8 v :: rest →
    (v.getLsbD 1 = true → step s = exec .softReset (takeEntry rest s))
    ∧ (v.getLsbD 1 = false → s.regs.busy = true →
        step s = .next { takeEntry rest s with regs := { s.regs with irqEn := v.getLsbD 2 } })
    ∧ (v.getLsbD 1 = false → s.regs.busy = false → v.getLsbD 0 = false →
        step s = .next { takeEntry rest s with
          regs := { s.regs with irqEn := v.getLsbD 2, lzwStrict := v.getLsbD 3 } })
    ∧ (v.getLsbD 1 = false → s.regs.busy = false → v.getLsbD 0 = true →
        step s = .next (launch { takeEntry rest s with
          regs := { s.regs with irqEn := v.getLsbD 2, lzwStrict := v.getLsbD 3 } }))

/-- R141: START. When not BUSY it sets BUSY, clears DONE, ERROR, ERR_CODE, the result registers and all internal
state, and PHASE is CHECK; nothing else changes (SYM_SEL is not cleared). The engine's turn then runs
the command that CMD.OP selects to its end, with BUSY = 0 and DONE = 1. While BUSY, START is ignored (only
IRQ_EN is written). That the turn is the very next step when latency is 0, and that it is one step, is the
model's choice (log 22, log 5). -/
def Obligations.StartLaunchesCommand : Prop :=
  ∀ (s : State) (irqEn lzwStrict : Bool), s.hwReset = false →
    (s.regs.busy = false → ∃ t : State,
      t = { s with
        regs := { s.regs with
          irqEn := irqEn, lzwStrict := lzwStrict, busy := true, done := false, error := false,
          errCode := 0#3, outLen := 0#32, errInfo := 0#32, elapsed := 0#32, huffUnique := 0#9,
          huffBitsLo := 0#32, huffBitsHi := 0#32, lzwCodes := 0#32, lzwNext := 0#32 }
        phase := .check, huff := Huff.cleared, pack := Packer.cleared, lzw := Lzw.cleared,
        cur := Cursors.cleared }
      ∧ exec (.start irqEn lzwStrict) s = .next t
      ∧ (s.latency = 0 → ∃ u : State, step t = exec (decodeOp s.regs.op) t
          ∧ exec (decodeOp s.regs.op) t = .next u ∧ u.regs.busy = false ∧ u.regs.done = true
          ∧ u.phase = .idle))
    ∧ (s.regs.busy = true →
        exec (.start irqEn lzwStrict) s = .next { s with regs := { s.regs with irqEn := irqEn } })

/-- R145: CLEAR_DONE, and CLRDONE which is the same write, clears DONE and changes nothing else; a STATUS write
with v[1] = 0 has no effect. -/
def Obligations.ClearDone : Prop :=
  (∀ (s : State) (i : Instr), s.hwReset = false → i = .clearDone ∨ i = .clrdone →
    exec i s = .next { s with regs := { s.regs with done := false } })
    ∧ ∀ (s : State) (v : Word) (rest : List HostOp),
        s.hwReset = false → engineDue s = false → s.host = .wr 0x10#8 v :: rest →
        (v.getLsbD 1 = true →
          step s = .next { takeEntry rest s with regs := { s.regs with done := false } })
        ∧ (v.getLsbD 1 = false → step s = .next (takeEntry rest s))

/-- R147: a write to CMD (bits 2:0 only), IN_BASE, IN_LEN, OUT_BASE or OUT_CAP takes effect when BUSY = 0 and is
ignored when BUSY = 1; a write to SYM_SEL takes v[7:0] at any time; a write to a read-only register or a
reserved offset is ignored. -/
def Obligations.RegisterWrites : Prop :=
  ∀ (s : State) (off : Byte) (v : Word) (rest : List HostOp),
    s.hwReset = false → engineDue s = false → s.host = .wr off v :: rest → off.toNat % 4 = 0 →
    (s.regs.busy = false →
      (off = 0x0C#8 → step s = .next { takeEntry rest s with
        regs := { s.regs with op := v.extractLsb' 0 3 } })
      ∧ (off = 0x14#8 → step s = .next { takeEntry rest s with regs := { s.regs with inBase := v } })
      ∧ (off = 0x18#8 → step s = .next { takeEntry rest s with regs := { s.regs with inLen := v } })
      ∧ (off = 0x1C#8 → step s = .next { takeEntry rest s with regs := { s.regs with outBase := v } })
      ∧ (off = 0x20#8 →
          step s = .next { takeEntry rest s with regs := { s.regs with outCap := v } }))
    ∧ (s.regs.busy = true →
        off = 0x0C#8 ∨ off = 0x14#8 ∨ off = 0x18#8 ∨ off = 0x1C#8 ∨ off = 0x20#8 →
        step s = .next (takeEntry rest s))
    ∧ (off = 0x48#8 →
        step s = .next { takeEntry rest s with regs := { s.regs with symSel := v.extractLsb' 0 8 } })
    ∧ (off ≠ 0x08#8 → off ≠ 0x0C#8 → off ≠ 0x10#8 → off ≠ 0x14#8 → off ≠ 0x18#8 → off ≠ 0x1C#8 →
        off ≠ 0x20#8 → off ≠ 0x48#8 → step s = .next (takeEntry rest s))

/-- R105: RUN is its six register writes in order, the last CTRL with `(cfg AND 0xC) OR 1`; when not BUSY the
registers take the operands and the command is launched, while BUSY only IRQ_EN is written. That no command in flight
ends between two of the six is the model's choice (log 30). -/
def Obligations.RunWrites : Prop :=
  ∀ op inBase inLen outBase outCap cfg : Word,
    encode (.run op inBase inLen outBase outCap cfg)
        = [⟨.write, 0x14#8, inBase⟩, ⟨.write, 0x18#8, inLen⟩, ⟨.write, 0x1C#8, outBase⟩,
            ⟨.write, 0x20#8, outCap⟩, ⟨.write, 0x0C#8, op⟩,
            ⟨.write, 0x08#8, (cfg &&& 0x0000000C#32) ||| 0x00000001#32⟩]
      ∧ ∀ s : State, s.hwReset = false →
          (s.regs.busy = false →
            exec (.run op inBase inLen outBase outCap cfg) s
              = .next (launch { s with regs := { s.regs with
                  inBase := inBase, inLen := inLen, outBase := outBase, outCap := outCap,
                  op := op.extractLsb' 0 3, irqEn := cfg.getLsbD 2, lzwStrict := cfg.getLsbD 3 } }))
          ∧ (s.regs.busy = true →
            exec (.run op inBase inLen outBase outCap cfg) s
              = .next { s with regs := { s.regs with irqEn := cfg.getLsbD 2 } })

/-- R106: WAITDONE is `POLL STATUS, 2, 2`: it ends when DONE reads 1; until then it comes again as the host's next
entry, which is the model's convention for a host loop (log 22). -/
def Obligations.WaitdonePolls : Prop :=
  ∀ s : State, s.hwReset = false →
    (s.regs.done = true → exec .waitdone s = .next s)
    ∧ (s.regs.done = false →
        exec .waitdone s = .next { s with host := .poll 0x10#8 2#32 2#32 :: s.host })

/-! Host register reads -/

/-- R46, R23, R24, R39: what the host reads. Aligned reads give the register's word with no side effect; while BUSY
the result registers and the SYM window read a free draw. ID, VERSION and LZW_CAP are constant; CTRL, CMD
and STATUS read their fields and 0 in every reserved bit; a reserved offset reads 0. -/
def Obligations.RegisterReads : Prop :=
  (∀ (s : State) (off : Byte) (rest : List HostOp),
    s.hwReset = false → engineDue s = false → s.host = .rd off :: rest → off.toNat % 4 = 0 →
    (s.regs.busy = false ∨ off.toNat ≤ 0x20 ∨ off = 0x44#8 ∨ off = 0x48#8 ∨ off = 0x58#8
        ∨ off = 0x5C#8 ∨ 0x80 ≤ off.toNat →
      step s = .next { takeEntry rest s with results := s.regWord off :: s.results })
    ∧ (s.regs.busy = true →
        (0x24 ≤ off.toNat ∧ off.toNat ≤ 0x40) ∨ (0x4C ≤ off.toNat ∧ off.toNat ≤ 0x54)
          ∨ (0x60 ≤ off.toNat ∧ off.toNat ≤ 0x7C) →
        ∃ w : Word, step s = .next { takeEntry rest s with
          results := w :: s.results, draws := s.draws + 1 }))
    ∧ ∀ s : State,
        s.regWord 0x00#8 = 0x46434352#32 ∧ s.regWord 0x04#8 = 0x00010000#32
          ∧ (∀ i, (s.regWord 0x08#8).getLsbD i
              = ((decide (i = 2) && s.regs.irqEn) || (decide (i = 3) && s.regs.lzwStrict)))
          ∧ s.regWord 0x0C#8 = s.regs.op.setWidth 32
          ∧ (∀ i, (s.regWord 0x10#8).getLsbD i
              = ((decide (i = 0) && s.regs.busy) || (decide (i = 1) && s.regs.done)
                || (decide (i = 2) && s.regs.error)
                || (decide (8 ≤ i) && s.regs.errCode.getLsbD (i - 8))))
          ∧ s.regWord 0x14#8 = s.regs.inBase ∧ s.regWord 0x18#8 = s.regs.inLen
          ∧ s.regWord 0x1C#8 = s.regs.outBase ∧ s.regWord 0x20#8 = s.regs.outCap
          ∧ s.regWord 0x24#8 = s.regs.outLen ∧ s.regWord 0x28#8 = s.regs.errInfo
          ∧ s.regWord 0x2C#8 = s.regs.elapsed ∧ s.regWord 0x30#8 = s.regs.huffUnique.setWidth 32
          ∧ s.regWord 0x34#8 = s.regs.huffBitsLo ∧ s.regWord 0x38#8 = s.regs.huffBitsHi
          ∧ s.regWord 0x3C#8 = s.regs.lzwCodes ∧ s.regWord 0x40#8 = s.regs.lzwNext
          ∧ s.regWord 0x44#8 = s.cfg.lzwCap ∧ s.regWord 0x48#8 = s.regs.symSel.setWidth 32
          ∧ ∀ off : Byte, off.toNat = 0x58 ∨ off.toNat = 0x5C ∨ 0x80 ≤ off.toNat →
              s.regWord off = 0#32

/-- R41, R42, R43, R44: the SYM window shows FREQ, CODELEN, RANK and the code of the byte value SYM_SEL selects;
code bit i is bit 31 - (i mod 32) of SYM_CODE(i div 32), every other bit reads 0. -/
def Obligations.SymWindow : Prop :=
  ∀ s : State,
    s.regWord 0x4C#8 = tget s.huff.freq s.regs.symSel
      ∧ s.regWord 0x50#8 = (tget s.huff.codeLen s.regs.symSel).setWidth 32
      ∧ s.regWord 0x54#8
          = (if tget s.huff.freq s.regs.symSel ≠ 0#32 then
              (tget s.huff.rank s.regs.symSel).setWidth 32 else 0#32)
      ∧ ∀ i : Nat, i < 256 →
          (s.regWord (BitVec.ofNat 8 (0x60 + 4 * (i / 32)))).getLsbD (31 - i % 32)
            = (decide (i < (tget s.huff.codeLen s.regs.symSel).toNat)
              && (tget s.huff.codeBits s.regs.symSel).getLsbD i)

/-- R22, R92: an access, a write, a read or a poll, at an offset that is no multiple of 4, or of another width than 32 bits, is refused; a
32-bit bus write is the write of its bytes in little-endian order, a bus read the read of its register.
While BUSY the host has no access to the input region but reads, and none to the output region. -/
def Obligations.RefusedAccesses : Prop :=
  ∀ (s : State) (rest : List HostOp), engineDue s = false →
    (∀ (off : Byte) (v : Word), off.toNat % 4 ≠ 0 →
      (s.host = .wr off v :: rest → step s = .refused .badRegisterAccess)
      ∧ (s.host = .rd off :: rest → step s = .refused .badRegisterAccess)
      ∧ ∀ mask val : Word, s.host = .poll off mask val :: rest → step s = .refused .badRegisterAccess)
    ∧ (∀ (addr : Word) (off : Byte), addr = s.cfg.regBase + off.setWidth 32 →
      (∀ bs : List Byte, bs.length ≠ 4 → s.host = .busWrite addr bs :: rest →
        step s = .refused .badRegisterAccess)
      ∧ (∀ w : Nat, w ≠ 4 → s.host = .busRead addr w :: rest →
        step s = .refused .badRegisterAccess)
      ∧ (∀ b0 b1 b2 b3 : Byte, s.host = .busWrite addr [b0, b1, b2, b3] :: rest →
        step s = step { s with host := .wr off (b3 ++ b2 ++ b1 ++ b0) :: rest })
      ∧ (s.host = .busRead addr 4 :: rest → step s = step { s with host := .rd off :: rest }))
    ∧ (s.regs.busy = true →
      (∀ (addr : Word) (bs : List Byte) (n : Nat), addr.toNat + bs.length ≤ 2 ^ 32 → n < bs.length →
        s.inInput (addr.toNat + n) = true ∨ s.inOutput (addr.toNat + n) = true →
        s.host = .mem addr bs :: rest → step s = .refused .hostDutyBroken)
      ∧ (∀ addr : Word, s.inOutput addr.toNat = true → s.host = .memRd addr :: rest →
        step s = .refused .hostDutyBroken))

/-! Commands -/

/-- R148: a command with a reserved OP always ends with UnsupportedConfiguration and ERR_INFO 0, before the region
checks, with no memory access; STATUS then reads 0x606. -/
def Obligations.ReservedCommands : Prop :=
  ∀ (s : State) (i : Instr) (op : BitVec 3),
    (i = .reserved0 ∧ op = 0#3) ∨ (i = .reserved5 ∧ op = 5#3) ∨ (i = .reserved6 ∧ op = 6#3)
      ∨ (i = .reserved7 ∧ op = 7#3) →
    ∃ (e : Word) (d : Nat),
      exec i s = .next (s.failedLaunch op .unsupportedConfiguration 0 e d)
        ∧ (s.failedLaunch op .unsupportedConfiguration 0 e d).regWord 0x10#8 = 0x00000606#32

/-- R142: the start checks in their order, each sum without wrap: a reserved OP, the input region, the output region, the
overlap; the first that fails ends the command and no memory access is made. -/
def Obligations.StartChecksInOrder : Prop :=
  ∀ (s : State) (op : BitVec 3),
    (op.toNat = 0 ∨ 4 < op.toNat → ∃ (e : Word) (d : Nat),
      exec (decodeOp op) s = .next (s.failedLaunch op .unsupportedConfiguration 0 e d))
    ∧ (1 ≤ op.toNat → op.toNat ≤ 4 →
      (2 ^ 32 < s.regs.inBase.toNat + s.regs.inLen.toNat → ∃ (e : Word) (d : Nat),
        exec (decodeOp op) s = .next (s.failedLaunch op .ioOpen 0 e d))
      ∧ (s.regs.inBase.toNat + s.regs.inLen.toNat ≤ 2 ^ 32 →
          2 ^ 32 < s.regs.outBase.toNat + s.regs.outCap.toNat → ∃ (e : Word) (d : Nat),
          exec (decodeOp op) s = .next (s.failedLaunch op .ioOpen 1 e d))
      ∧ (s.regs.inBase.toNat + s.regs.inLen.toNat ≤ 2 ^ 32 →
          s.regs.outBase.toNat + s.regs.outCap.toNat ≤ 2 ^ 32 →
          0 < s.regs.inLen.toNat → 0 < s.regs.outCap.toNat →
          s.regs.inBase.toNat < s.regs.outBase.toNat + s.regs.outCap.toNat →
          s.regs.outBase.toNat < s.regs.inBase.toNat + s.regs.inLen.toNat →
          ∃ (e : Word) (d : Nat), exec (decodeOp op) s
            = .next (s.failedLaunch op .unsupportedConfiguration 1 e d)))

/-- R307, R300: error termination writes ERR_CODE, ERROR, ERR_INFO, PHASE, BUSY and DONE; every other register and
all internal state stay (ELAPSED counts to the end, R34); the codes of the six kinds. -/
def Obligations.ErrorTermination : Prop :=
  (∀ (e : Raise) (s : State), ∃ x : Word, raiseError e s = { s with
    phase := .idle
    regs := { s.regs with
      errCode := e.kind.code, error := true, errInfo := e.info, busy := false, done := true,
      elapsed := x }
    draws := s.draws + 1 })
    ∧ ErrKind.code .ioOpen = 1#3 ∧ ErrKind.code .ioRead = 2#3 ∧ ErrKind.code .ioWrite = 3#3
    ∧ ErrKind.code .corruptHeader = 4#3 ∧ ErrKind.code .corruptData = 5#3
    ∧ ErrKind.code .unsupportedConfiguration = 6#3

/-- R308, R144, R307, R352: from every state every command ends, with BUSY = 0 and DONE = 1, with or without an error;
it writes only the first OUT_LEN bytes of the output region, OUT_LEN is at most OUT_CAP, and the
configuration, CTRL, SYM_SEL, the parameters and the host's side stay as they were. -/
def Obligations.CommandsEnd : Prop :=
  ∀ (s : State) (op : BitVec 3), ∃ t : State,
    exec (decodeOp op) s = .next t
      ∧ t.phase = .idle ∧ t.regs.busy = false ∧ t.regs.done = true ∧ t.regs.op = op
      ∧ ((t.regs.error = false ∧ t.regs.errCode = 0#3 ∧ t.regs.errInfo = 0#32)
        ∨ (t.regs.error = true ∧ t.regs.errCode ≠ 0#3 ∧ t.regs.errCode ≠ 7#3))
      ∧ t.commandFixedPart = s.commandFixedPart
      ∧ t.regs.outLen.toNat ≤ s.regs.outCap.toNat
      ∧ SameMemBut s.regs.outBase.toNat t.regs.outLen.toNat s t

/-- R47, R310: IRQ is CTRL.IRQ_EN AND STATUS.DONE; it is 0 after reset, at IRQ_EN after every command, 0 after START
and after CLEAR_DONE. -/
def Obligations.InterruptLine : Prop :=
  (∀ s : State, s.irq = (s.regs.irqEn && s.regs.done))
    ∧ State.reset.irq = false
    ∧ (∀ (s : State) (op : BitVec 3), ∃ t : State,
        exec (decodeOp op) s = .next t ∧ t.irq = s.regs.irqEn)
    ∧ (∀ (s : State) (a b : Bool), s.hwReset = false → s.regs.busy = false → ∃ t : State,
        exec (.start a b) s = .next t ∧ t.irq = false)
    ∧ ∀ s : State, s.hwReset = false → ∃ t : State, exec .clearDone s = .next t ∧ t.irq = false

/-- R346: START leaves BUSY = 1, and once BUSY or DONE is 1 one of them stays 1 through every step in which the host neither clears DONE
nor resets FCCORE. -/
def Obligations.StatusAfterStart : Prop :=
  (∀ (s : State) (a b : Bool), s.hwReset = false → ∃ t : State,
    exec (.start a b) s = .next t ∧ t.regs.busy = true)
  ∧ ∀ s t : State, s.regs.busy = true ∨ s.regs.done = true → step s = .next t →
    engineDue s = true ∨ (∀ (op : HostOp) (rest : List HostOp), s.host = op :: rest →
      ¬op.clearsDone s) →
    t.regs.busy = true ∨ t.regs.done = true

/-- R93, R59: on a known platform a command is a function of the configuration registers, LZW_STRICT, the input bytes
and the parameters: two states that agree on these end with the same status, error detail, result
registers, internal state and output, whatever an earlier command left and whatever else memory
holds. -/
def Obligations.CommandsDependOnInputOnly : Prop :=
  ∀ (s1 s2 : State) (op : BitVec 3) (rs : List ErrRange),
    s1.cfg.busErr = some rs → s2.cfg.busErr = some rs → s1.cfg.lzwCap = s2.cfg.lzwCap →
    s1.regs.inBase = s2.regs.inBase → s1.regs.inLen = s2.regs.inLen →
    s1.regs.outBase = s2.regs.outBase → s1.regs.outCap = s2.regs.outCap →
    s1.regs.lzwStrict = s2.regs.lzwStrict → s1.input = s2.input →
    ∃ t1 t2 : State, exec (decodeOp op) s1 = .next t1 ∧ exec (decodeOp op) s2 = .next t2
      ∧ t1.regs.statusWord = t2.regs.statusWord ∧ t1.regs.errInfo = t2.regs.errInfo
      ∧ t1.regs.outLen = t2.regs.outLen ∧ t1.regs.huffUnique = t2.regs.huffUnique
      ∧ t1.regs.huffBitsLo = t2.regs.huffBitsLo ∧ t1.regs.huffBitsHi = t2.regs.huffBitsHi
      ∧ t1.regs.lzwCodes = t2.regs.lzwCodes ∧ t1.regs.lzwNext = t2.regs.lzwNext
      ∧ t1.huff = t2.huff ∧ t1.pack = t2.pack ∧ t1.lzw = t2.lzw ∧ t1.cur = t2.cur
      ∧ t1.output = t2.output

/-! The engine's accesses -/

/-- R74, R75: InByte reads the byte at IN_BASE + i or raises IOReadError with i when the bus answers an error (IN_POS is
R57's cursor, log 15). OutByte raises IOWriteError with OUT_LEN when the region is full or the bus answers an
error, and otherwise writes the byte at OUT_BASE + OUT_LEN and adds 1 to OUT_LEN. Nothing else changes. For i at or
past IN_LEN, which R74 excludes, the InByte clauses are the model's choice (log 31). -/
def Obligations.BytePrimitives : Prop :=
  (∀ (i : Nat) (s : State), inAddr s i < 2 ^ 32 →
    (s.busAnswer (s.regs.inBase.toNat + i) .read = true →
      inByte i s = .error ⟨.ioRead, BitVec.ofNat 32 i⟩ s.answered)
    ∧ (s.busAnswer (s.regs.inBase.toNat + i) .read = false → ∃ c : Cursors,
      inByte i s = .ok (Memory.read s.mem (s.regs.inBase.toNat + i)) { s.answered with cur := c }
        ∧ c.bitPos = s.cur.bitPos ∧ c.pass = s.cur.pass))
    ∧ ∀ (v : Byte) (s : State),
      (s.regs.outLen = s.regs.outCap →
        outByte v s = .error ⟨.ioWrite, s.regs.outLen⟩ s)
      ∧ (s.regs.outLen ≠ s.regs.outCap → outAddr s < 2 ^ 32 →
        (s.busAnswer (s.regs.outBase.toNat + s.regs.outLen.toNat) .write = true →
          outByte v s = .error ⟨.ioWrite, s.regs.outLen⟩ s.answered)
        ∧ (s.busAnswer (s.regs.outBase.toNat + s.regs.outLen.toNat) .write = false →
          outByte v s = .ok () { s.answered with
            mem := Memory.write s.mem (s.regs.outBase.toNat + s.regs.outLen.toNat) v
            regs := { s.regs with outLen := s.regs.outLen + 1#32 } }))

/-! BitPacker -/

/-- R171: PackBit places b at position 7 - PCNT of PACC and counts it in NBITS; the eighth bit of a byte writes
PACC through OutByte (full, bus error, or written and PACC, PCNT 0), any other adds 1 to PCNT. Nothing else
changes. -/
def Obligations.PackBit : Prop :=
  ∀ (b : Bool) (s : State), ∃ p : Byte,
    (∀ i, i < 8 → p.getLsbD i = if i = 7 - s.pack.pcnt.toNat then b else s.pack.pacc.getLsbD i)
    ∧ (s.pack.pcnt ≠ 7#3 →
        exec (.packBit b) s
          = .next { s with pack := ⟨p, s.pack.pcnt + 1#3, s.pack.nbits + 1⟩, ret := .none })
    ∧ (s.pack.pcnt = 7#3 →
        (s.regs.outLen = s.regs.outCap →
          exec (.packBit b) s = .next
            ({ s with pack := ⟨p, 7#3, s.pack.nbits + 1⟩ }.endedBy .ioWrite s.regs.outLen.toNat))
        ∧ (s.regs.outLen ≠ s.regs.outCap → outAddr s < 2 ^ 32 →
            s.busAnswer (outAddr s) .write = true →
            exec (.packBit b) s = .next
              ({ s.answered with pack := ⟨p, 7#3, s.pack.nbits + 1⟩ }.endedBy .ioWrite
                s.regs.outLen.toNat))
        ∧ (s.regs.outLen ≠ s.regs.outCap → outAddr s < 2 ^ 32 →
            s.busAnswer (outAddr s) .write = false →
            ∃ m : List Host.Cell,
              exec (.packBit b) s = .next { s.answered.afterOut m s.answered.draws 1 with
                pack := ⟨0#8, 0#3, s.pack.nbits + 1⟩, ret := .none }
              ∧ s.Appends m [p]))

/-- R172: PackFlush does nothing when PCNT = 0 and otherwise writes PACC through OutByte (full, bus error, or written
and PACC, PCNT 0). Nothing else changes. -/
def Obligations.PackFlush : Prop :=
  ∀ s : State,
    (s.pack.pcnt = 0#3 → exec .packFlush s = .next { s with ret := .none })
    ∧ (s.pack.pcnt ≠ 0#3 →
        (s.regs.outLen = s.regs.outCap →
          exec .packFlush s = .next (s.endedBy .ioWrite s.regs.outLen.toNat))
        ∧ (s.regs.outLen ≠ s.regs.outCap → outAddr s < 2 ^ 32 →
            s.busAnswer (outAddr s) .write = true →
            exec .packFlush s = .next (s.answered.endedBy .ioWrite s.regs.outLen.toNat))
        ∧ (s.regs.outLen ≠ s.regs.outCap → outAddr s < 2 ^ 32 →
            s.busAnswer (outAddr s) .write = false →
            ∃ m : List Host.Cell,
              exec .packFlush s = .next { s.answered.afterOut m s.answered.draws 1 with
                pack := ⟨0#8, 0#3, s.pack.nbits⟩, ret := .none }
              ∧ s.Appends m [s.pack.pacc]))

/-- R173: T bits packed from PCNT = 0 and one PackFlush, with room and no bus error, write exactly ceil(T/8) bytes, bit
t at the position of R170 and every padding bit 0; NBITS grows by T. -/
def Obligations.PackedStream : Prop :=
  ∀ (s : State) (bits : List Bool), s.pack.pcnt = 0#3 → s.pack.pacc = 0#8 → s.NoBusError →
    s.Room ((bits.length + 7) / 8) →
    ∃ (m : List Host.Cell) (d : Nat),
      execAll (bits.map .packBit ++ [.packFlush]) s
        = .next { s.afterOut m d ((bits.length + 7) / 8) with
            pack := ⟨0#8, 0#3, s.pack.nbits + bits.length⟩, ret := .none }
      ∧ s.Appends m (packedBytes bits)

/-- R174: UnpackBit reads input byte S + t div 8 and gives its bit 7 - (t mod 8), or ends the command with IOReadError
and that offset when the bus answers an error. It writes no register and no memory; the cursors are
R57's (log 15). For a byte at or past IN_LEN, which R174 excludes, the clauses are the model's choice (log 31). -/
def Obligations.UnpackBit : Prop :=
  ∀ (S t : Nat) (s : State), inAddr s (S + t / 8) < 2 ^ 32 →
    (s.busAnswer (inAddr s (S + t / 8)) .read = true →
      exec (.unpackBit S t) s = .next (s.answered.endedBy .ioRead (S + t / 8)))
    ∧ (s.busAnswer (inAddr s (S + t / 8)) .read = false →
      ∃ c : Cursors, exec (.unpackBit S t) s = .next { s.answered with
        cur := c
        ret := .bit ((Memory.read s.mem (s.regs.inBase.toNat + (S + t / 8))).getLsbD (7 - t % 8)) }
      ∧ c.pass = s.cur.pass)

/-! HuffmanCodec -/

/-- R190: from cleared tables BuildFrequencyTable counts every byte value of the input, gives each distinct value its
rank by first appearance, and sets HUFF_UNIQUE to their number. Nothing else changes but the read
cursor. -/
def Obligations.BuildFrequencyTable : Prop :=
  ∀ s : State, s.NoBusError → s.regs.inBase.toNat + s.regs.inLen.toNat ≤ 2 ^ 32 →
    s.huff.freq = Vector.replicate 256 0#32 → s.huff.rank = Vector.replicate 256 0#8 →
    s.huff.u = 0 →
    ∃ (fr : Vector Word 256) (od rk : Vector Byte 256) (c : Cursors) (d : Nat) (h : Huff),
      h = { s.huff with freq := fr, order := od, rank := rk, u := (firstAppearances s.input).length }
      ∧ exec .buildFrequencyTable s = .next { s with
          huff := h, cur := c, draws := d, ret := .none
          regs := { s.regs with huffUnique := BitVec.ofNat 9 (firstAppearances s.input).length } }
      ∧ (∀ b, (tget fr b).toNat = s.input.count b)
      ∧ ranked h = firstAppearances s.input
      ∧ (∀ j, j < h.u → tget rk (orderAt h j) = BitVec.ofNat 8 j)
      ∧ (∀ b, b ∉ s.input → tget rk b = 0#8)
      ∧ (∀ j, h.u ≤ j → j < 256 → orderAt h j = orderAt s.huff j)
      ∧ c.bitPos = s.cur.bitPos ∧ c.pass = s.cur.pass

/-- R191, R206, R258: the three checks. CheckFrequencyRange ends the command with UnsupportedConfiguration and ERR_INFO 2
when some frequency is above 2^31 - 1. CheckPayloadLength ends it with CorruptDataError and 4 + 5u when T is above
8 x (IN_LEN - (12 + 5u)) and otherwise returns 12 + 5u. LengthCheck ends it with CorruptDataError and the
offset of the partial code when IN_LEN is no multiple of 4. A check that passes changes nothing. -/
def Obligations.CheckOperations : Prop :=
  (∀ s : State,
    ((∃ b, 2 ^ 31 - 1 < (tget s.huff.freq b).toNat) →
      exec .checkFrequencyRange s = .next (s.endedBy .unsupportedConfiguration 2))
    ∧ ((∀ b, (tget s.huff.freq b).toNat ≤ 2 ^ 31 - 1) →
      exec .checkFrequencyRange s = .next { s with ret := .none }))
    ∧ (∀ (u : Nat) (T : BitVec 64) (s : State),
    (8 * ((s.regs.inLen.toNat : Int) - (12 + 5 * (u : Int))) < T.toInt →
      exec (.checkPayloadLength u T) s = .next (s.endedBy .corruptData (4 + 5 * u)))
    ∧ (T.toInt ≤ 8 * ((s.regs.inLen.toNat : Int) - (12 + 5 * (u : Int))) →
      exec (.checkPayloadLength u T) s = .next { s with ret := .offset (12 + 5 * u) }))
    ∧ (∀ s : State,
    (s.regs.inLen.toNat % 4 ≠ 0 →
      exec .lengthCheck s
        = .next (s.endedBy .corruptData (s.regs.inLen.toNat - s.regs.inLen.toNat % 4)))
    ∧ (s.regs.inLen.toNat % 4 = 0 → exec .lengthCheck s = .next { s with ret := .none }))

/-- R192: SeedLeaves puts the leaf of rank j, with the byte value ORDER[j] and its frequency, at arena index j for every
j below U, adds these indices to QUEUE, and sets NNODES to U. Nothing else changes. -/
def Obligations.SeedLeaves : Prop :=
  ∀ s : State, ∃ (nd : List (Nat × Node)) (q : List Nat),
    exec .seedLeaves s = .next { s with
      huff := { s.huff with node := nd, queue := q, nnodes := s.huff.u }, ret := .none }
    ∧ (∀ j, j < s.huff.u → sparseGet? nd j
        = some (.leaf (orderAt s.huff j) (tget s.huff.freq (orderAt s.huff j)).toNat))
    ∧ (∀ n, s.huff.u ≤ n → sparseGet? nd n = sparseGet? s.huff.node n)
    ∧ (∀ n, n ∈ q ↔ n < s.huff.u ∨ n ∈ s.huff.queue)
    ∧ (s.huff.queue.Pairwise (· < ·) → q.Pairwise (· < ·))

/-- R193: PopMin returns the member of QUEUE with the least key (weight first, then arena index) and takes it, and only
it, out of QUEUE (a list with no repeats, the invariant SeedLeaves and BuildTree keep). -/
def Obligations.PopMin : Prop :=
  ∀ s : State, s.huff.queue ≠ [] → s.huff.queue.Pairwise (· < ·) →
    ∃ (n : Nat) (q : List Nat),
      exec .popMin s = .next { s with huff := { s.huff with queue := q }, ret := .node n }
      ∧ n ∈ s.huff.queue ∧ (∀ m ∈ s.huff.queue, m ≠ n → keyBelow s.huff n m)
      ∧ (∀ m, m ∈ q ↔ m ∈ s.huff.queue ∧ m ≠ n) ∧ q.Pairwise (· < ·)

/-- R194, R195: BuildTree from an empty QUEUE. U leaves, then the merges: the new node's children are two nodes not yet
merged, the left with the lowest key of those, the right with the second lowest, and its weight is their sum. One node is
left, the root. Only NODE, NNODES, QUEUE and ROOT change. -/
def Obligations.BuildTree : Prop :=
  ∀ s : State, s.huff.queue = [] →
    ∃ (nd : List (Nat × Node)) (nn r : Nat) (q : List Nat) (h : Huff),
      h = { s.huff with node := nd, nnodes := nn, root := r, queue := q }
      ∧ exec .buildTree s = .next { s with huff := h, ret := .none }
      ∧ (s.huff.u = 0 → nn = 0 ∧ q = [] ∧ r = s.huff.root)
      ∧ (1 ≤ s.huff.u → nn = 2 * s.huff.u - 1 ∧ q = [r])
      ∧ (∀ j, j < s.huff.u → nodeAt h j
          = .leaf (orderAt s.huff j) (tget s.huff.freq (orderAt s.huff j)).toNat)
      ∧ ∀ n, s.huff.u ≤ n → n < nn → ∃ a b,
          nodeAt h n = .internal a b ((nodeAt h a).weight + (nodeAt h b).weight)
          ∧ a < n ∧ b < n ∧ keyBelow h a b
          ∧ (∀ k, s.huff.u ≤ k → k < n → ¬isChild h a k ∧ ¬isChild h b k)
          ∧ ∀ m, m < n → (∀ k, s.huff.u ≤ k → k < n → ¬isChild h m k) →
              m = a ∨ m = b ∨ keyBelow h b m

/-- R196: the tree that BuildTree leaves for U >= 1: NNODES = 2U - 1, ROOT = 2U - 2, the leaves are the byte values by rank
at 0 to U - 1 and the internal nodes U to 2U - 2, children below their parent, every
other node has exactly one parent, the root's weight is the sum of the frequencies, every leaf is reached
from the root, and the depth is at most U - 1. -/
def Obligations.TreeProperties : Prop :=
  ∀ s : State, s.huff.queue = [] → 1 ≤ s.huff.u →
    ∃ t : State, exec .buildTree s = .next t
      ∧ t.huff.nnodes = 2 * s.huff.u - 1 ∧ t.huff.root = 2 * s.huff.u - 2
      ∧ (∀ j, j < s.huff.u → nodeAt t.huff j
          = .leaf (orderAt s.huff j) (tget s.huff.freq (orderAt s.huff j)).toNat)
      ∧ (∀ n, s.huff.u ≤ n → n < t.huff.nnodes → ∃ a b w, nodeAt t.huff n = .internal a b w)
      ∧ (∀ n m, n < t.huff.nnodes → isChild t.huff m n → m < n)
      ∧ (∀ m, m < t.huff.root → ∃ n, n < t.huff.nnodes ∧ isChild t.huff m n
          ∧ ∀ k, k < t.huff.nnodes → isChild t.huff m k → k = n)
      ∧ (nodeAt t.huff t.huff.root).weight
          = ((ranked s.huff).map fun b => (tget s.huff.freq b).toNat).sum
      ∧ (∀ j, j < s.huff.u → ∃ p, nodeOn t.huff t.huff.root p = some j)
      ∧ ∀ p b, leafAt t.huff t.huff.root p = some b → p.length ≤ s.huff.u - 1

/-- R197, R198: BuildEncodingTable changes only the code table; it writes nothing for U = 0 and the code "0" of length
1 for the one byte value of U = 1. -/
def Obligations.BuildEncodingTable : Prop :=
  ∀ s : State, ∃ (cl : Vector Byte 256) (cb : Vector (BitVec 255) 256) (h : Huff),
    h = { s.huff with codeLen := cl, codeBits := cb }
    ∧ exec .buildEncodingTable s = .next { s with huff := h, ret := .none }
    ∧ (s.huff.u = 0 → h = s.huff)
    ∧ (s.huff.u = 1 → codeOf h (orderAt s.huff 0) = [false]
        ∧ ∀ b, b ≠ orderAt s.huff 0 → tget cl b = tget s.huff.codeLen b
            ∧ tget cb b = tget s.huff.codeBits b)

/-- R199, R197: the codes of a table with 1 to 256 distinct byte values. Every value with a rank has a code of length 1 to
255, a value without one keeps its (empty) code, and no code is a prefix of another. For U >= 2 each code is the
path from the root to its leaf (left 0, right 1), and every bit string has a code as a prefix or is a prefix of
one. -/
def Obligations.EncodingTableCodes : Prop :=
  ∀ s : State, s.huff.queue = [] → 1 ≤ s.huff.u → s.huff.u ≤ 256 → (ranked s.huff).Nodup →
    s.huff.codeLen = Vector.replicate 256 0#8 →
    ∃ t v : State, exec .buildTree s = .next t ∧ exec .buildEncodingTable t = .next v
      ∧ (∀ b ∈ ranked s.huff, 1 ≤ (codeOf v.huff b).length ∧ (codeOf v.huff b).length ≤ 255)
      ∧ (∀ b, b ∉ ranked s.huff → codeOf v.huff b = [])
      ∧ (∀ b ∈ ranked s.huff, ∀ c ∈ ranked s.huff, codeOf v.huff b <+: codeOf v.huff c → b = c)
      ∧ (2 ≤ s.huff.u →
          (∀ b ∈ ranked s.huff, leafAt t.huff t.huff.root (codeOf v.huff b) = some b)
          ∧ (∀ (p : List Bool) (b : Byte), leafAt t.huff t.huff.root p = some b →
              b ∈ ranked s.huff ∧ codeOf v.huff b = p)
          ∧ ∀ p : List Bool,
              ∃ b ∈ ranked s.huff, codeOf v.huff b <+: p ∨ p <+: codeOf v.huff b)

/-- R200: TotalBits gives the sum over all byte values of frequency x code length, exact, and puts it into HUFF_BITS.
Nothing else changes. -/
def Obligations.TotalBits : Prop :=
  ∀ s : State, ∃ T : BitVec 64,
    exec .totalBits s = .next { s with
      regs := { s.regs with huffBitsLo := T.extractLsb' 0 32, huffBitsHi := T.extractLsb' 32 32 }
      ret := .bits T }
    ∧ T.toNat = ((List.range 256).map fun b =>
        (tget s.huff.freq (BitVec.ofNat 8 b)).toNat
          * (tget s.huff.codeLen (BitVec.ofNat 8 b)).toNat).sum

/-- R201: SerializeHeader writes the header of R111: U, the (byte, frequency) pairs by rank, T. Nothing else
changes. -/
def Obligations.SerializeHeader : Prop :=
  ∀ (T : BitVec 64) (s : State), s.NoBusError → s.huff.u ≤ 256 → s.Room (12 + 5 * s.huff.u) →
    ∃ (m : List Host.Cell) (d : Nat),
      exec (.serializeHeader T) s
        = .next { s.afterOut m d (12 + 5 * s.huff.u) with ret := .none }
      ∧ s.Appends m (headerBytes (headerPairs s.huff) T.toNat)

/-- R205: ParseHeader on an input inside memory with cleared tables, the checks in their order: the count field, its
range, the header length, then pair by pair the repeated byte value and the frequency, then T. The
tables take the pairs in turn, and a check that fails leaves the tables of the pairs before it (R213, R307). For IN_LEN = 0, which R205 excludes, the first clause is the model's choice
(log 31). -/
def Obligations.ParseHeader : Prop :=
  ∀ (s : State) (u : Nat) (T : BitVec 64), s.NoBusError →
    s.regs.inBase.toNat + s.regs.inLen.toNat ≤ 2 ^ 32 →
    s.huff.freq = Vector.replicate 256 0#32 → s.huff.u = 0 →
    (s.regs.inLen.toNat < 4 → s.ParseFails 0 s.regs.huffUnique 0)
    ∧ (4 ≤ s.regs.inLen.toNat → (s.inWord 0).toInt < 0 ∨ 256 < (s.inWord 0).toInt →
        s.ParseFails 0 s.regs.huffUnique 0)
    ∧ (4 ≤ s.regs.inLen.toNat → s.inWord 0 = BitVec.ofNat 32 u → u ≤ 256 →
        (s.regs.inLen.toNat < 12 + 5 * u → s.ParseFails 0 s.regs.huffUnique 0)
        ∧ (12 + 5 * u ≤ s.regs.inLen.toNat → T = s.inDouble (4 + 5 * u) →
          (∀ j, j < u → s.PairsOk j → (∃ i, i < j ∧ s.pairSym i = s.pairSym j) →
            s.ParseFails (4 + 5 * j) (BitVec.ofNat 9 u) j)
          ∧ (∀ j, j < u → s.PairsOk j → (∀ i, i < j → s.pairSym i ≠ s.pairSym j) →
            (s.pairFreq j).toInt < 1 → s.ParseFails (5 + 5 * j) (BitVec.ofNat 9 u) j)
          ∧ (s.PairsOk u → T.toInt < 0 → s.ParseFails (4 + 5 * u) (BitVec.ofNat 9 u) u)
          ∧ (u = 0 → 0 < T.toInt → s.ParseFails (4 + 5 * u) (BitVec.ofNat 9 u) 0)
          ∧ (s.PairsOk u → 0 ≤ T.toInt → (u = 0 → T = 0#64) →
            ∃ (h : Huff) (c : Cursors) (d : Nat), s.PairsTaken u h
              ∧ exec .parseHeader s = .next { s with
                  huff := h, cur := c, draws := d, ret := .header u T
                  regs := { s.regs with
                    huffUnique := BitVec.ofNat 9 u, huffBitsLo := T.extractLsb' 0 32,
                    huffBitsHi := T.extractLsb' 32 32 } }
              ∧ c.bitPos = s.cur.bitPos ∧ c.pass = s.cur.pass)))

/-- R208: DecodeStream walks the tree bit by bit. When the T bits are paths to leaves, one after the other, it writes
the leaves' byte values; when bits r are left over that end at an internal node below the root, it
writes these and ends the command with CorruptDataError and the offset of the byte of the last bit. T = 0
writes nothing. Only output and the read cursors change. -/
def Obligations.DecodeStream : Prop :=
  ∀ (S : Nat) (T : BitVec 64) (s : State) (paths : List (List Bool)) (msg : List Byte)
    (r : List Bool),
    s.NoBusError → s.regs.RegionsOk → TreeOk s.huff →
    (∃ a b w, nodeAt s.huff s.huff.root = .internal a b w) →
    S + (T.toNat + 7) / 8 ≤ s.regs.inLen.toNat → s.Room msg.length →
    paths.map (leafAt s.huff s.huff.root) = msg.map some →
    streamBits s S T.toNat = paths.flatten ++ r →
    ∃ (m : List Host.Cell) (d : Nat) (c : Cursors), c.pass = s.cur.pass
      ∧ s.Appends m msg
      ∧ (r = [] → exec (.decodeStream S T) s
          = .next { s.afterOut m d msg.length with cur := c, ret := .none })
      ∧ (r ≠ [] → (∃ n a b w, nodeOn s.huff s.huff.root r = some n
            ∧ nodeAt s.huff n = .internal a b w) →
          exec (.decodeStream S T) s
            = .next ({ s.afterOut m d msg.length with cur := c }.endedBy .corruptData
                (S + (T.toNat - 1) / 8)))

/-- R209: DecodeStream1 writes the one symbol for every bit 0; a bit 1 at index n ends the command with CorruptDataError
and S + n div 8, after n symbols. Only output and the read cursors change. -/
def Obligations.DecodeStream1 : Prop :=
  ∀ (S : Nat) (T : BitVec 64) (s : State) (n : Nat),
    s.NoBusError → s.regs.RegionsOk → S + (T.toNat + 7) / 8 ≤ s.regs.inLen.toNat →
    n ≤ T.toNat → s.Room n → (∀ t, t < n → streamBit s S t = false) →
    ∃ (m : List Host.Cell) (d : Nat) (c : Cursors), c.pass = s.cur.pass
      ∧ s.Appends m (List.replicate n (orderAt s.huff 0))
      ∧ (n = T.toNat → exec (.decodeStream1 S T) s
          = .next { s.afterOut m d n with cur := c, ret := .none })
      ∧ (n < T.toNat → streamBit s S n = true → exec (.decodeStream1 S T) s
          = .next ({ s.afterOut m d n with cur := c }.endedBy .corruptData (S + n / 8)))

/-- R202, R204, R191, R302, R306: HUFF_COMPRESS, with no bus error, of an input in which every byte value occurs at most
2^31 - 1 times. The tables are those that
BuildFrequencyTable, BuildTree and BuildEncodingTable leave from START's cleared state; the file
is the header of R111 with the pairs in order of first appearance, then the codes of the input's bytes packed
most significant bit first. If it fits in the output region the command succeeds and writes it; otherwise
the command ends with IOWriteError at OUT_CAP and the region holds the file's beginning. The results are
R204's. When a byte value occurs more often, the command ends with UnsupportedConfiguration and ERR_INFO 2 after the
first pass, nothing written. When the platform fails the read of input byte k, any input ends with IOReadError and k, nothing written, the tables
being those of the bytes before it. -/
def Obligations.HuffCompress : Prop :=
  (∀ s : State, s.regs.RegionsOk → s.NoBusError → (∀ b, s.input.count b ≤ 2 ^ 31 - 1) →
    ∃ (t f b v : State) (bits : List Bool) (file : List Byte),
      exec .huffCompress s = .next t
      ∧ exec .buildFrequencyTable (launch s) = .next f ∧ exec .buildTree f = .next b
      ∧ exec .buildEncodingTable b = .next v ∧ t.huff = v.huff
      ∧ bits = s.input.flatMap (codeOf t.huff)
      ∧ file = headerBytes (headerPairs t.huff) bits.length ++ packedBytes bits
      ∧ ranked t.huff = firstAppearances s.input
      ∧ (∀ b, (tget t.huff.freq b).toNat = s.input.count b)
      ∧ t.regs.huffUnique.toNat = (firstAppearances s.input).length
      ∧ t.regs.huffBits = bits.length ∧ t.regs.lzwCodes = 0#32 ∧ t.regs.lzwNext = 0#32
      ∧ (file.length ≤ s.regs.outCap.toNat →
          t.Succeeded ∧ t.output = file
            ∧ t.regs.outLen.toNat
                = 12 + 5 * (firstAppearances s.input).length + (bits.length + 7) / 8)
      ∧ (s.regs.outCap.toNat < file.length →
          t.Failed .ioWrite s.regs.outCap.toNat ∧ t.output = file.take s.regs.outCap.toNat)
      ∧ (12 + 5 * 256 + (255 * s.regs.inLen.toNat + 7) / 8 ≤ s.regs.outCap.toNat →
          file.length ≤ s.regs.outCap.toNat))
    ∧ (∀ s : State, s.regs.RegionsOk → s.NoBusError → (∃ b, 2 ^ 31 - 1 < s.input.count b) →
        ∃ t f : State, exec .huffCompress s = .next t ∧ t.Failed .unsupportedConfiguration 2
          ∧ t.regs.outLen = 0#32 ∧ t.mem = s.mem
          ∧ exec .buildFrequencyTable (launch s) = .next f ∧ t.huff = f.huff
          ∧ ranked t.huff = firstAppearances s.input
          ∧ (∀ b, (tget t.huff.freq b).toNat = s.input.count b)
          ∧ t.regs.huffUnique.toNat = (firstAppearances s.input).length ∧ t.regs.huffBits = 0
          ∧ t.regs.lzwCodes = 0#32 ∧ t.regs.lzwNext = 0#32)
    ∧ ∀ (s : State) (k : Nat), s.regs.RegionsOk → s.ReadFails k → k < s.regs.inLen.toNat →
        ∃ t f : State, exec .huffCompress s = .next t ∧ t.Failed .ioRead k ∧ t.regs.outLen = 0#32
          ∧ exec .buildFrequencyTable (launch s) = .next f ∧ t.huff = f.huff

/-- R211, R302, R309: HUFF_DECOMPRESS of an input with an accepted header and a code stream of T bits. The tables are those
that ParseHeader, BuildTree and BuildEncodingTable leave from START's cleared state. When the T bits are the codes of a string
msg, the command succeeds and writes msg; when a proper,
non-empty beginning r of a code is left over, or with one symbol a bit 1 follows, it ends with
CorruptDataError after msg; when msg does not fit in the output region it ends with IOWriteError at
OUT_CAP; when the platform fails the read of byte q of the code stream it ends with IOReadError at that byte and leaves the
symbols of the 8q bits before it. Whatever ends ParseHeader ends the command, with the same detail and tables and
nothing written. -/
def Obligations.HuffDecompress : Prop :=
  (∀ (s : State) (u : Nat) (T : BitVec 64), s.regs.RegionsOk → s.NoBusError → s.HeaderIs u T →
    ∃ t f b v : State, exec .huffDecompress s = .next t
      ∧ exec .parseHeader (launch s) = .next f ∧ exec .buildTree f = .next b
      ∧ exec .buildEncodingTable b = .next v ∧ t.huff = v.huff
      ∧ t.regs.huffUnique.toNat = u ∧ t.regs.huffBits = T.toNat
      ∧ t.regs.lzwCodes = 0#32 ∧ t.regs.lzwNext = 0#32
      ∧ ranked t.huff = (List.range u).map s.pairSym
      ∧ (∀ j, j < u → tget t.huff.freq (s.pairSym j) = s.pairFreq j)
      ∧ ∀ (msg : List Byte) (r : List Bool), (∀ b ∈ msg, b ∈ ranked t.huff) →
          streamBits s (12 + 5 * u) T.toNat = msg.flatMap (codeOf t.huff) ++ r →
          (msg.length ≤ s.regs.outCap.toNat → r = [] → t.Succeeded ∧ t.output = msg)
          ∧ (msg.length ≤ s.regs.outCap.toNat → r ≠ [] →
              (∃ b ∈ ranked t.huff, r <+: codeOf t.huff b ∧ r ≠ codeOf t.huff b) →
              t.Failed .corruptData (12 + 5 * u + (T.toNat - 1) / 8) ∧ t.output = msg)
          ∧ (msg.length ≤ s.regs.outCap.toNat → u = 1 → r.head? = some true →
              t.Failed .corruptData (12 + 5 * u + msg.length / 8) ∧ t.output = msg)
          ∧ (s.regs.outCap.toNat < msg.length →
              t.Failed .ioWrite s.regs.outCap.toNat ∧ t.output = msg.take s.regs.outCap.toNat))
    ∧ (∀ (s : State) (u : Nat) (T : BitVec 64) (q : Nat), s.regs.RegionsOk → s.HeaderIs u T →
        s.ReadFails (12 + 5 * u + q) → 8 * q < T.toNat →
        ∃ t : State, exec .huffDecompress s = .next t
          ∧ ranked t.huff = (List.range u).map s.pairSym
          ∧ ∀ (msg : List Byte) (r : List Bool), (∀ b ∈ msg, b ∈ ranked t.huff) →
              streamBits s (12 + 5 * u) (8 * q) = msg.flatMap (codeOf t.huff) ++ r →
              (∃ b ∈ ranked t.huff, r <+: codeOf t.huff b ∧ r ≠ codeOf t.huff b) →
              msg.length ≤ s.regs.outCap.toNat →
              t.Failed .ioRead (12 + 5 * u + q) ∧ t.output = msg)
    ∧ ∀ s v : State, s.regs.RegionsOk → s.regs.inLen ≠ 0#32 →
        exec .parseHeader (launch s) = .next v → v.regs.error = true →
        ∃ t : State, exec .huffDecompress s = .next t ∧ t.phase = .idle
          ∧ t.regs.statusWord = v.regs.statusWord ∧ t.regs.errInfo = v.regs.errInfo
          ∧ t.regs.huffUnique = v.regs.huffUnique ∧ t.regs.outLen = 0#32 ∧ t.huff = v.huff

/-- R212, R206: HUFF_DECOMPRESS of a zero-byte input succeeds with no output; 1 to 11 bytes are a truncated header; a code
stream shorter than T bits is CorruptDataError before any output. -/
def Obligations.HuffDecompressShortInput : Prop :=
  ∀ s : State, s.regs.RegionsOk → s.NoBusError →
    ∃ t : State, exec .huffDecompress s = .next t
      ∧ (s.regs.inLen = 0#32 → t.Succeeded ∧ t.regs.outLen = 0#32 ∧ t.regs.huffUnique = 0#9
          ∧ t.regs.huffBits = 0)
      ∧ (1 ≤ s.regs.inLen.toNat → s.regs.inLen.toNat ≤ 11 →
          t.Failed .corruptHeader 0 ∧ t.regs.outLen = 0#32)
      ∧ ∀ u : Nat, u ≤ 256 → 12 + 5 * u ≤ s.regs.inLen.toNat → s.inWord 0 = BitVec.ofNat 32 u →
          s.PairsOk u → 1 ≤ u → (s.inDouble (4 + 5 * u)).toNat < 2 ^ 63 →
          8 * (s.regs.inLen.toNat - (12 + 5 * u)) < (s.inDouble (4 + 5 * u)).toNat →
          t.Failed .corruptData (4 + 5 * u) ∧ t.regs.outLen = 0#32

/-- R215: the Huffman round trip. With no bus error, for any input of less than 2^31 bytes: when the file, of
12 + 5u + ceil(T/8) bytes, fits in the output region, HUFF_COMPRESS succeeds, and HUFF_DECOMPRESS of what it wrote,
from any state whose input that is, with room for the input, succeeds and writes the input. The file is never longer than
12 + 5 x 256 + ceil(255 n / 8) bytes. -/
def Obligations.HuffRoundTrip : Prop :=
  ∀ s : State, s.regs.RegionsOk → s.NoBusError → s.regs.inLen.toNat < 2 ^ 31 →
    ∃ (t : State) (len : Nat), exec .huffCompress s = .next t
      ∧ len = 12 + 5 * (firstAppearances s.input).length + (t.regs.huffBits + 7) / 8
      ∧ len ≤ 12 + 5 * 256 + (255 * s.regs.inLen.toNat + 7) / 8
      ∧ (len ≤ s.regs.outCap.toNat →
          t.Succeeded ∧ t.regs.outLen.toNat = len
            ∧ ∀ r : State, r.regs.RegionsOk → r.NoBusError → r.input = t.output →
                s.regs.inLen.toNat ≤ r.regs.outCap.toNat →
                ∃ v : State, exec .huffDecompress r = .next v ∧ v.Succeeded ∧ v.output = s.input)

/-! LZWCodec -/

/-- R251, R252: Seed makes entries 0 to 255 the single-byte strings, NEXT and LZW_NEXT 256; from a cleared dictionary the
valid entries are then exactly 0 to NEXT - 1. Insert makes the entry at NEXT and advances NEXT and LZW_NEXT when
NEXT is below LZW_CAP, and the valid entries stay exactly 0 to NEXT - 1; otherwise it changes nothing. Nothing
else changes. -/
def Obligations.SeedAndInsert : Prop :=
  (∀ s : State, ∃ dict : List (Nat × DictEntry),
    exec .seed s = .next { s with
      lzw := { s.lzw with dict := dict, next := 256#32 }
      regs := { s.regs with lzwNext := 256#32 }
      ret := .none }
    ∧ (∀ k, k < 256 →
        sparseGet? dict k = some ⟨none, BitVec.ofNat 8 k, BitVec.ofNat 8 k, 1⟩)
    ∧ (∀ k, 256 ≤ k → sparseGet? dict k = sparseGet? s.lzw.dict k)
    ∧ (s.lzw.dict = [] → ∀ k, (sparseGet? dict k).isSome = true ↔ k < 256))
    ∧ ∀ (p : Code) (c : Byte) (s : State),
    (s.lzw.next.toNat < s.cfg.lzwCap.toNat →
      ∃ dict : List (Nat × DictEntry),
        exec (.insert p c) s = .next { s with
          lzw := { s.lzw with dict := dict, next := s.lzw.next + 1#32 }
          regs := { s.regs with lzwNext := s.lzw.next + 1#32 }
          ret := .none }
        ∧ sparseGet? dict s.lzw.next.toNat
            = some ⟨some p, c, (dictAt s.lzw p).first, (dictAt s.lzw p).len + 1⟩
        ∧ (∀ k, k ≠ s.lzw.next.toNat → sparseGet? dict k = sparseGet? s.lzw.dict k)
        ∧ ((∀ k, (sparseGet? s.lzw.dict k).isSome = true ↔ k < s.lzw.next.toNat) →
            ∀ k, (sparseGet? dict k).isSome = true ↔ k < (s.lzw.next + 1#32).toNat))
    ∧ (s.cfg.lzwCap.toNat ≤ s.lzw.next.toNat →
        exec (.insert p c) s = .next { s with ret := .none })

/-- R250, R251, R252: the dictionary's strings. string(k) is the byte of a seed, and otherwise string(prefix) followed by the
entry's byte; the entry keeps its length and its first byte. Seed of a cleared dictionary gives the dictionary invariant; Insert of a
valid p keeps it, every string already there stays, and the new entry, when there is room, stands for
string(p) followed by c. EncodeByte, with no bus error and room for a code, keeps it too. -/
def Obligations.DictionaryStrings : Prop :=
  (∀ (s : State) (k : Code) (e : DictEntry), s.DictOk → sparseGet? s.lzw.dict k.toNat = some e →
    (stringOf s.lzw k).length = e.len ∧ (stringOf s.lzw k).head? = some e.first
      ∧ (e.pre = none → stringOf s.lzw k = [e.byte])
      ∧ ∀ p, e.pre = some p → stringOf s.lzw k = stringOf s.lzw p ++ [e.byte])
    ∧ (∀ s : State, s.lzw.dict = [] → 256 ≤ s.cfg.lzwCap.toNat →
    ∃ t : State, exec .seed s = .next t ∧ t.DictOk
      ∧ ∀ k, k < 256 → stringOf t.lzw (BitVec.ofNat 32 k) = [BitVec.ofNat 8 k])
    ∧ (∀ (s : State) (p : Code) (c : Byte), s.DictOk → p.toNat < s.lzw.next.toNat →
      ∃ t : State, exec (.insert p c) s = .next t ∧ t.DictOk
        ∧ (∀ k : Code, k.toNat < s.lzw.next.toNat → stringOf t.lzw k = stringOf s.lzw k)
        ∧ (s.lzw.next.toNat < s.cfg.lzwCap.toNat →
            stringOf t.lzw s.lzw.next = stringOf s.lzw p ++ [c])
        ∧ (s.cfg.lzwCap.toNat ≤ s.lzw.next.toNat → t.lzw = s.lzw))
    ∧ ∀ (s : State) (c : Byte), s.DictOk → s.NoBusError → s.Room 4 →
        (s.lzw.wValid = true → s.lzw.w.toNat < s.lzw.next.toNat) →
        ¬(s.lzw.next = s.cfg.lzwCap ∧ s.regs.lzwStrict = true) →
        ∃ t : State, exec (.encodeByte c) s = .next t ∧ t.DictOk
          ∧ t.lzw.wValid = true ∧ t.lzw.w.toNat < t.lzw.next.toNat

/-- R253: Find returns the entry k, 256 <= k < NEXT, whose prefix is w and whose byte is c, or NONE when there is none; it
changes nothing. When the dictionary's strings are pairwise distinct that is the code of string(w) followed by
c. -/
def Obligations.Find : Prop :=
  (∀ (w : Code) (c : Byte) (s : State), s.DictOk → w.toNat < s.lzw.next.toNat →
    (∀ j k : Code, j.toNat < s.lzw.next.toNat → k.toNat < s.lzw.next.toNat →
      stringOf s.lzw j = stringOf s.lzw k → j = k) →
    ∃ r : Option Code, exec (.find w c) s = .next { s with ret := .code r }
      ∧ ∀ k : Code, r = some k ↔
          k.toNat < s.lzw.next.toNat ∧ stringOf s.lzw k = stringOf s.lzw w ++ [c])
  ∧ ∀ (w : Code) (c : Byte) (s : State), sparseRising 0 s.lzw.dict = true →
    (∀ (k : Code) (e : DictEntry), 256 ≤ k.toNat → k.toNat < s.lzw.next.toNat →
      sparseGet? s.lzw.dict k.toNat = some e → e.pre = some w → e.byte = c →
      (∀ (j : Nat) (f : DictEntry), 256 ≤ j → j < s.lzw.next.toNat →
        sparseGet? s.lzw.dict j = some f → f.pre = some w → f.byte = c → j = k.toNat) →
      exec (.find w c) s = .next { s with ret := .code (some k) })
    ∧ ((∀ (k : Nat) (e : DictEntry), 256 ≤ k → k < s.lzw.next.toNat →
        sparseGet? s.lzw.dict k = some e → ¬(e.pre = some w ∧ e.byte = c)) →
      exec (.find w c) s = .next { s with ret := .code none })

/-- R254: EncodeByte: an empty match becomes c; a match that the dictionary extends by c is extended; otherwise the strict
check, then the match's code is written and counted, its string with c is inserted if capacity remains, and
the match becomes c. Nothing else changes. -/
def Obligations.EncodeByte : Prop :=
  ∀ (c : Byte) (s : State),
    (s.lzw.wValid = false →
      exec (.encodeByte c) s = .next { s with
        lzw := { s.lzw with w := c.setWidth 32, wValid := true }, ret := .none })
    ∧ (∀ k : Code, s.lzw.wValid = true →
        exec (.find s.lzw.w c) s = .next { s with ret := .code (some k) } →
        exec (.encodeByte c) s = .next { s with lzw := { s.lzw with w := k }, ret := .none })
    ∧ (s.lzw.wValid = true →
        exec (.find s.lzw.w c) s = .next { s with ret := .code none } →
        (s.lzw.next = s.cfg.lzwCap → s.regs.lzwStrict = true →
          exec (.encodeByte c) s = .next (s.endedBy .unsupportedConfiguration 3))
        ∧ (¬(s.lzw.next = s.cfg.lzwCap ∧ s.regs.lzwStrict = true) → s.NoBusError → s.Room 4 →
          ∃ (m : List Host.Cell) (d : Nat) (dict : List (Nat × DictEntry)),
            s.Appends m (leBytes s.lzw.w.toNat 4)
            ∧ (s.lzw.next.toNat < s.cfg.lzwCap.toNat →
                exec (.encodeByte c) s = .next { s.afterOut m d 4 with
                  lzw := { s.lzw with dict := dict, next := s.lzw.next + 1#32, w := c.setWidth 32 }
                  regs := { (s.afterOut m d 4).regs with
                    lzwCodes := s.regs.lzwCodes + 1#32, lzwNext := s.lzw.next + 1#32 }
                  ret := .none }
                ∧ sparseGet? dict s.lzw.next.toNat
                    = some ⟨some s.lzw.w, c, (dictAt s.lzw s.lzw.w).first,
                        (dictAt s.lzw s.lzw.w).len + 1⟩
                ∧ ∀ k, k ≠ s.lzw.next.toNat → sparseGet? dict k = sparseGet? s.lzw.dict k)
            ∧ (s.cfg.lzwCap.toNat ≤ s.lzw.next.toNat →
                exec (.encodeByte c) s = .next { s.afterOut m d 4 with
                  lzw := { s.lzw with w := c.setWidth 32 }
                  regs := { (s.afterOut m d 4).regs with lzwCodes := s.regs.lzwCodes + 1#32 }
                  ret := .none })))

/-- R255: EncodeEnd writes and counts the code of the last match, if there is one, and inserts nothing. -/
def Obligations.EncodeEnd : Prop :=
  ∀ s : State,
    (s.lzw.wValid = false → exec .encodeEnd s = .next { s with ret := .none })
    ∧ (s.lzw.wValid = true → s.NoBusError → s.Room 4 →
        ∃ (m : List Host.Cell) (d : Nat), s.Appends m (leBytes s.lzw.w.toNat 4)
          ∧ exec .encodeEnd s = .next { s.afterOut m d 4 with
              regs := { (s.afterOut m d 4).regs with lzwCodes := s.regs.lzwCodes + 1#32 }
              ret := .none })

/-- R259, R262: DecodeFirst: a first code of 256 or more is CorruptDataError at offset 0; a seed code's string is written,
LZW_CODES is 1 and PREV the code. For IN_LEN below 4, which R259 excludes, the clauses are the model's choice (log 31). -/
def Obligations.DecodeFirst : Prop :=
  ∀ s : State, s.NoBusError → inAddr s 0 + 4 ≤ 2 ^ 32 →
    (256 ≤ (s.inWord 0).toNat → ∃ (c : Cursors) (d : Nat),
      exec .decodeFirst s = .next ({ s with cur := c, draws := d }.endedBy .corruptData 0)
        ∧ c.bitPos = s.cur.bitPos ∧ c.pass = s.cur.pass)
    ∧ ((s.inWord 0).toNat < 256 → s.Room (stringOf s.lzw (s.inWord 0)).length →
      ∃ (m : List Host.Cell) (c : Cursors) (d : Nat),
        s.Appends m (stringOf s.lzw (s.inWord 0))
        ∧ exec .decodeFirst s
            = .next { s.afterOut m d (stringOf s.lzw (s.inWord 0)).length with
                lzw := { s.lzw with prev := s.inWord 0 }
                regs := { (s.afterOut m d (stringOf s.lzw (s.inWord 0)).length).regs with
                  lzwCodes := 1#32 }
                cur := c, ret := .none }
        ∧ c.bitPos = s.cur.bitPos ∧ c.pass = s.cur.pass)

/-- R260, R261: DecodeNext on code k at offset 4j. An undefined code (above NEXT, or NEXT itself with no room) is
CorruptDataError at 4j; then the strict check; a defined code's string, or in the KwKwK case PREV's string
and its first byte, is written, the code is counted, PREV's string with the first byte of the written string
is inserted if capacity remains, and PREV becomes k. For j = 0 and for a code that is not inside the input, which R261 and
R263 exclude, the clauses are the model's choice (log 31). -/
def Obligations.DecodeNext : Prop :=
  ∀ (j : Nat) (s : State) (k : Code), s.NoBusError → inAddr s (4 * j) + 4 ≤ 2 ^ 32 →
    k = s.inWord (4 * j) →
    (s.lzw.next.toNat < k.toNat ∨ (k = s.lzw.next ∧ s.cfg.lzwCap.toNat ≤ s.lzw.next.toNat) →
      ∃ (c : Cursors) (d : Nat), c.bitPos = s.cur.bitPos ∧ c.pass = s.cur.pass
        ∧ exec (.decodeNext j) s
            = .next ({ s with cur := c, draws := d }.endedBy .corruptData (4 * j)))
    ∧ (k.toNat < s.lzw.next.toNat → s.lzw.next = s.cfg.lzwCap → s.regs.lzwStrict = true →
      ∃ (c : Cursors) (d : Nat), c.bitPos = s.cur.bitPos ∧ c.pass = s.cur.pass
        ∧ exec (.decodeNext j) s
            = .next ({ s with cur := c, draws := d }.endedBy .unsupportedConfiguration 3))
    ∧ ∀ (entry : List Byte) (f : Byte),
        ¬(s.lzw.next = s.cfg.lzwCap ∧ s.regs.lzwStrict = true) →
        (k.toNat < s.lzw.next.toNat ∧ entry = stringOf s.lzw k ∧ f = (dictAt s.lzw k).first)
          ∨ (k = s.lzw.next ∧ s.lzw.next.toNat < s.cfg.lzwCap.toNat
            ∧ f = (dictAt s.lzw s.lzw.prev).first ∧ entry = stringOf s.lzw s.lzw.prev ++ [f]) →
        s.Room entry.length →
        ∃ (m : List Host.Cell) (c : Cursors) (d : Nat) (dict : List (Nat × DictEntry)),
          s.Appends m entry ∧ c.bitPos = s.cur.bitPos ∧ c.pass = s.cur.pass
          ∧ (s.lzw.next.toNat < s.cfg.lzwCap.toNat →
              exec (.decodeNext j) s = .next { s.afterOut m d entry.length with
                lzw := { s.lzw with dict := dict, next := s.lzw.next + 1#32, prev := k }
                regs := { (s.afterOut m d entry.length).regs with
                  lzwCodes := s.regs.lzwCodes + 1#32, lzwNext := s.lzw.next + 1#32 }
                cur := c, ret := .none }
              ∧ sparseGet? dict s.lzw.next.toNat
                  = some ⟨some s.lzw.prev, f, (dictAt s.lzw s.lzw.prev).first,
                      (dictAt s.lzw s.lzw.prev).len + 1⟩
              ∧ ∀ i, i ≠ s.lzw.next.toNat → sparseGet? dict i = sparseGet? s.lzw.dict i)
          ∧ (s.cfg.lzwCap.toNat ≤ s.lzw.next.toNat →
              exec (.decodeNext j) s = .next { s.afterOut m d entry.length with
                lzw := { s.lzw with prev := k }
                regs := { (s.afterOut m d entry.length).regs with
                  lzwCodes := s.regs.lzwCodes + 1#32 }
                cur := c, ret := .none })

/-- R262: EmitString writes string(k), first byte first, and changes nothing else; no string of the dictionary is longer than
LZW_CAP - 255 bytes. -/
def Obligations.EmitString : Prop :=
  (∀ (k : Code) (s : State), s.DictOk → k.toNat < s.lzw.next.toNat →
    (stringOf s.lzw k).length ≤ s.cfg.lzwCap.toNat - 255)
  ∧ ∀ (k : Code) (s : State), s.NoBusError → s.Room (stringOf s.lzw k).length →
    ∃ (m : List Host.Cell) (d : Nat), s.Appends m (stringOf s.lzw k)
      ∧ exec (.emitString k) s
          = .next { s.afterOut m d (stringOf s.lzw k).length with ret := .none }

/-- R75, R302, R303, R308: an access that fails inside an operation. An operation that writes more bytes than the output
region has room for (SerializeHeader, EmitString,
EncodeEnd, EncodeByte, DecodeFirst, DecodeNext, DecodeStream, DecodeStream1; PackBit and PackFlush have their own
statements) writes those that fit and ends the command with IOWriteError and ERR_INFO = OUT_LEN = OUT_CAP; nothing else
changes but, where it reads input, the read cursors. Every internal operation and every command does on a platform that
fails the write of output byte n what it does with OUT_CAP = n and no bus error. When the platform fails the read of input
byte k, DecodeFirst, DecodeNext, DecodeStream, DecodeStream1, BuildFrequencyTable and ParseHeader end with IOReadError and k, and
what they wrote and the tables they made before it stay. A code or field that is not inside the input is log 31's
choice. -/
def Obligations.OutputFull : Prop :=
  (∀ (s : State) (i : Instr) (bs : List Byte) (n : Nat), s.NoBusError →
    s.regs.outBase.toNat + s.regs.outCap.toNat ≤ 2 ^ 32 →
    s.regs.outLen.toNat + n = s.regs.outCap.toNat → n < bs.length →
    (s.WritesOnly i bs → ∃ (m : List Host.Cell) (d : Nat),
      exec i s = .next ((s.afterOut m d n).endedBy .ioWrite s.regs.outCap.toNat)
      ∧ s.Appends m (bs.take n))
    ∧ (s.ReadsAndWrites i bs → ∃ (m : List Host.Cell) (d : Nat) (c : Cursors),
      exec i s = .next ({ s.afterOut m d n with cur := c }.endedBy .ioWrite s.regs.outCap.toNat)
      ∧ s.Appends m (bs.take n) ∧ c.pass = s.cur.pass))
    ∧ (∀ (s : State) (i : Instr) (n : Nat), i.hostIssuable = false →
        (i.isCommand = true → s.regs.RegionsOk) → s.WriteFails n →
        s.regs.outBase.toNat + s.regs.outCap.toNat ≤ 2 ^ 32 →
        (i.isCommand = false → s.regs.outLen.toNat ≤ n) → n < s.regs.outCap.toNat →
        ∃ t : State,
          exec i { s with
              cfg := { s.cfg with busErr := some [] }
              regs := { s.regs with outCap := BitVec.ofNat 32 n } } = .next t
            ∧ exec i s
              = .next { t with cfg := s.cfg, regs := { t.regs with outCap := s.regs.outCap } })
    ∧ (∀ (s : State) (i : Instr) (k : Nat) (bs : List Byte), s.ReadFails k → s.ReadsUpTo i k bs →
        s.Room bs.length →
        ∃ (m : List Host.Cell) (c : Cursors), s.Appends m bs ∧ c.pass = s.cur.pass
          ∧ exec i s
            = .next ({ s.afterOut m s.draws bs.length with cur := c }.endedBy .ioRead k))
    ∧ (∀ (s : State) (k : Nat), s.ReadFails k → k < s.regs.inLen.toNat →
        ∃ t : State,
          exec .buildFrequencyTable { s with regs := { s.regs with inLen := BitVec.ofNat 32 k } } = .next t
            ∧ exec .buildFrequencyTable s
              = .next ({ s with huff := t.huff, cur := t.cur }.endedBy .ioRead k))
    ∧ ∀ (s : State) (k : Nat), s.ReadFails k → s.huff.freq = Vector.replicate 256 0#32 → s.huff.u = 0 →
        (4 ≤ s.regs.inLen.toNat → k < 4 → s.ParseEnds .ioRead k s.regs.huffUnique 0)
        ∧ ∀ u : Nat, u ≤ 256 → 12 + 5 * u ≤ s.regs.inLen.toNat → s.inWord 0 = BitVec.ofNat 32 u →
            (∀ j, j < u → s.PairsOk j → k = 4 + 5 * j → s.ParseEnds .ioRead k (BitVec.ofNat 9 u) j)
            ∧ (∀ j, j < u → s.PairsOk j → (∀ i, i < j → s.pairSym i ≠ s.pairSym j) →
                5 + 5 * j ≤ k → k < 9 + 5 * j → s.ParseEnds .ioRead k (BitVec.ofNat 9 u) j)
            ∧ (s.PairsOk u → 4 + 5 * u ≤ k → k < 12 + 5 * u →
                s.ParseEnds .ioRead k (BitVec.ofNat 9 u) u)

/-- R257, R267, R256, R302, R303: LZW_COMPRESS against the source's dictionary of byte strings, with no bus error. The codes
are those of the string algorithm; they are written 4 bytes each; the results are R267's. In strict mode a command that
would skip an insertion ends with UnsupportedConfiguration and ERR_INFO 3 after the codes before it. A code that does not fit, if
it comes first, ends it with IOWriteError at OUT_CAP, LZW_CODES being the whole codes written and LZW_NEXT counting their
insertions. When the platform fails the read of input byte k, the codes that the bytes before it complete are written, and
IOReadError and k end the command. -/
def Obligations.LzwCompress : Prop :=
  (∀ (s : State) (codes : List Nat) (n : Nat), s.regs.RegionsOk → s.NoBusError →
    256 ≤ s.cfg.lzwCap.toNat → s.cfg.lzwCap.toNat ≤ 2 ^ 31 →
    codes = lzwCodesOf s.cfg.lzwCap.toNat s.input → n = codes.length - 1 →
    ∃ t : State, exec .lzwCompress s = .next t ∧ t.huff = Huff.cleared
      ∧ t.regs.huffUnique = 0#9 ∧ t.regs.huffBits = 0
      ∧ (s.regs.lzwStrict = false ∨ n ≤ s.cfg.lzwCap.toNat - 256 →
          4 * codes.length ≤ s.regs.outCap.toNat →
          t.Succeeded ∧ t.output = lzwFile codes ∧ t.regs.lzwCodes.toNat = codes.length
            ∧ t.regs.outLen.toNat = 4 * codes.length
            ∧ t.regs.lzwNext.toNat = 256 + min n (s.cfg.lzwCap.toNat - 256))
      ∧ (s.regs.lzwStrict = true → s.cfg.lzwCap.toNat - 256 < n →
          4 * (s.cfg.lzwCap.toNat - 256) ≤ s.regs.outCap.toNat →
          t.Failed .unsupportedConfiguration 3
            ∧ t.output = lzwFile (codes.take (s.cfg.lzwCap.toNat - 256))
            ∧ t.regs.lzwCodes.toNat = s.cfg.lzwCap.toNat - 256
            ∧ t.regs.lzwNext = s.cfg.lzwCap)
      ∧ (s.regs.lzwStrict = false ∨ n ≤ s.cfg.lzwCap.toNat - 256
            ∨ s.regs.outCap.toNat < 4 * (s.cfg.lzwCap.toNat - 256) →
          s.regs.outCap.toNat < 4 * codes.length →
          t.Failed .ioWrite s.regs.outCap.toNat
            ∧ t.output = (lzwFile codes).take s.regs.outCap.toNat
            ∧ t.regs.lzwCodes.toNat = s.regs.outCap.toNat / 4
            ∧ t.regs.lzwNext.toNat
                = 256 + min (s.regs.outCap.toNat / 4) (s.cfg.lzwCap.toNat - 256)))
    ∧ ∀ (s : State) (k : Nat) (codes : List Nat), s.regs.RegionsOk → s.ReadFails k →
        k < s.regs.inLen.toNat → 256 ≤ s.cfg.lzwCap.toNat → s.cfg.lzwCap.toNat ≤ 2 ^ 31 →
        codes = (lzwCodesOf s.cfg.lzwCap.toNat (s.input.take k)).dropLast →
        s.regs.lzwStrict = false ∨ codes.length ≤ s.cfg.lzwCap.toNat - 256 →
        4 * codes.length ≤ s.regs.outCap.toNat →
        ∃ t : State, exec .lzwCompress s = .next t ∧ t.Failed .ioRead k ∧ t.output = lzwFile codes
          ∧ t.regs.lzwCodes.toNat = codes.length
          ∧ t.regs.lzwNext.toNat = 256 + min codes.length (s.cfg.lzwCap.toNat - 256)

/-- R263, R267, R305, R256, R302, R303: LZW_DECOMPRESS, with no bus error. A length that is no multiple of 4 is CorruptDataError.
Otherwise, when the codes before code j decode to bs by the string algorithm, fit, and (in strict mode) skip no insertion:
with no code left the command succeeds and has written bs; code j undefined (for j = 0: no seed) is
CorruptDataError at 4j; code j where strict mode would skip an insertion is UnsupportedConfiguration with ERR_INFO 3; both leave
bs; and a code j whose string does not fit is IOWriteError at OUT_CAP and leaves what fits. LZW_CODES counts the
codes before it and LZW_NEXT their insertions. When the platform fails the read of input byte k, inside code j,
IOReadError and k end the command and bs is left. -/
def Obligations.LzwDecompress : Prop :=
  (∀ s : State, s.regs.RegionsOk → s.NoBusError → 256 ≤ s.cfg.lzwCap.toNat →
    s.cfg.lzwCap.toNat ≤ 2 ^ 31 →
    ∃ t : State, exec .lzwDecompress s = .next t ∧ t.huff = Huff.cleared
      ∧ t.regs.huffUnique = 0#9 ∧ t.regs.huffBits = 0
      ∧ (s.regs.inLen.toNat % 4 ≠ 0 →
          t.Failed .corruptData (s.regs.inLen.toNat - s.regs.inLen.toNat % 4)
            ∧ t.regs.outLen = 0#32 ∧ t.regs.lzwCodes = 0#32 ∧ t.regs.lzwNext = 256#32)
      ∧ ∀ (j : Nat) (bs : List Byte), s.regs.inLen.toNat % 4 = 0 → j ≤ s.inCodes.length →
          lzwBytesOf s.cfg.lzwCap.toNat (s.inCodes.take j) = some bs →
          bs.length ≤ s.regs.outCap.toNat →
          s.regs.lzwStrict = false ∨ j - 1 ≤ s.cfg.lzwCap.toNat - 256 →
          (j = s.inCodes.length →
              t.Succeeded ∧ t.output = bs ∧ t.regs.lzwCodes.toNat = j
                ∧ t.regs.lzwNext.toNat = 256 + min (j - 1) (s.cfg.lzwCap.toNat - 256))
          ∧ (j < s.inCodes.length →
              lzwBytesOf s.cfg.lzwCap.toNat (s.inCodes.take (j + 1)) = none →
              t.Failed .corruptData (4 * j) ∧ t.output = bs ∧ t.regs.lzwCodes.toNat = j
                ∧ t.regs.lzwNext.toNat = 256 + min (j - 1) (s.cfg.lzwCap.toNat - 256))
          ∧ ∀ more : List Byte, j < s.inCodes.length →
              lzwBytesOf s.cfg.lzwCap.toNat (s.inCodes.take (j + 1)) = some more →
              (s.regs.lzwStrict = true → s.cfg.lzwCap.toNat - 256 < j →
                t.Failed .unsupportedConfiguration 3 ∧ t.output = bs ∧ t.regs.lzwCodes.toNat = j
                  ∧ t.regs.lzwNext = s.cfg.lzwCap)
              ∧ (s.regs.lzwStrict = false ∨ j ≤ s.cfg.lzwCap.toNat - 256 →
                s.regs.outCap.toNat < more.length →
                t.Failed .ioWrite s.regs.outCap.toNat ∧ t.output = more.take s.regs.outCap.toNat
                  ∧ t.regs.lzwCodes.toNat = j
                  ∧ t.regs.lzwNext.toNat = 256 + min (j - 1) (s.cfg.lzwCap.toNat - 256)))
    ∧ ∀ (s : State) (k : Nat) (bs : List Byte), s.regs.RegionsOk → s.ReadFails k →
        k < s.regs.inLen.toNat → 256 ≤ s.cfg.lzwCap.toNat → s.cfg.lzwCap.toNat ≤ 2 ^ 31 →
        s.regs.inLen.toNat % 4 = 0 →
        lzwBytesOf s.cfg.lzwCap.toNat (s.inCodes.take (k / 4)) = some bs →
        bs.length ≤ s.regs.outCap.toNat →
        s.regs.lzwStrict = false ∨ k / 4 - 1 ≤ s.cfg.lzwCap.toNat - 256 →
        ∃ t : State, exec .lzwDecompress s = .next t ∧ t.Failed .ioRead k ∧ t.output = bs
          ∧ t.regs.lzwCodes.toNat = k / 4
          ∧ t.regs.lzwNext.toNat = 256 + min (k / 4 - 1) (s.cfg.lzwCap.toNat - 256)

/-- R265, R264: the LZW round trip and lockstep. LZW_COMPRESS succeeds when its codes fit and, in strict mode, when it
skips no insertion, and its output is a function of the input and LZW_CAP; LZW_DECOMPRESS of what it wrote, from any state whose input that is, with the same
LZW_CAP and LZW_STRICT and room, succeeds and writes the input, and both dictionaries and LZW_NEXT end
equal. -/
def Obligations.LzwRoundTrip : Prop :=
  ∀ s : State, s.regs.RegionsOk → s.NoBusError → 256 ≤ s.cfg.lzwCap.toNat →
    s.cfg.lzwCap.toNat ≤ 2 ^ 31 →
    4 * (lzwCodesOf s.cfg.lzwCap.toNat s.input).length ≤ s.regs.outCap.toNat →
    s.regs.lzwStrict = false
      ∨ (lzwCodesOf s.cfg.lzwCap.toNat s.input).length - 1 ≤ s.cfg.lzwCap.toNat - 256 →
    ∃ t : State, exec .lzwCompress s = .next t ∧ t.Succeeded
      ∧ t.output = lzwFile (lzwCodesOf s.cfg.lzwCap.toNat s.input)
      ∧ ∀ r : State, r.regs.RegionsOk → r.NoBusError → r.cfg.lzwCap = s.cfg.lzwCap →
          r.regs.lzwStrict = s.regs.lzwStrict → r.input = t.output →
          s.regs.inLen.toNat ≤ r.regs.outCap.toNat →
          ∃ v : State, exec .lzwDecompress r = .next v ∧ v.Succeeded ∧ v.output = s.input
            ∧ v.lzw.dict = t.lzw.dict ∧ v.regs.lzwNext = t.regs.lzwNext
            ∧ v.regs.lzwCodes = t.regs.lzwCodes
end

