-- ==== Sys2Proof/Laws/Memory.lean ====
section
/-! SUPPORT. The laws of the sparse maps, of buffer memory and of the 256-entry tables: read after write,
writes elsewhere, and that every operation keeps the canonical form. -/

namespace Sys2Proof.Machine

/-! Sparse maps -/

@[simp] theorem sparseGet?_set_same {α : Type} (m : List (Nat × α)) (k : Nat) (v : α) :
    sparseGet? (sparseSet m k v) k = some v := by
  induction m with
  | nil => simp [sparseSet, sparseGet?]
  | cons p rest ih =>
    obtain ⟨a, w⟩ := p
    by_cases h1 : k < a
    · simp [sparseSet, sparseGet?, h1]
    · by_cases h2 : k = a
      · simp [sparseSet, sparseGet?, h2]
      · simp [sparseSet, sparseGet?, h1, h2, ih]

theorem sparseGet?_set_ne {α : Type} (m : List (Nat × α)) {k j : Nat} (v : α) (h : j ≠ k) :
    sparseGet? (sparseSet m k v) j = sparseGet? m j := by
  induction m with
  | nil => simp [sparseSet, sparseGet?, h]
  | cons p rest ih =>
    obtain ⟨a, w⟩ := p
    by_cases h1 : k < a
    · simp [sparseSet, sparseGet?, h1, h]
    · by_cases h2 : k = a
      · subst h2; simp [sparseSet, sparseGet?, h]
      · simp [sparseSet, sparseGet?, h1, h2, ih]

theorem sparseGet?_set {α : Type} (m : List (Nat × α)) (k j : Nat) (v : α) :
    sparseGet? (sparseSet m k v) j = if j = k then some v else sparseGet? m j := by
  by_cases h : j = k
  · simp [h]
  · simp [h, sparseGet?_set_ne m v h]

theorem sparseRising_set {α : Type} (m : List (Nat × α)) (lo k : Nat) (v : α)
    (h : sparseRising lo m = true) (hk : lo ≤ k) : sparseRising lo (sparseSet m k v) = true := by
  induction m generalizing lo with
  | nil => simp [sparseSet, sparseRising, hk]
  | cons p rest ih =>
    obtain ⟨a, w⟩ := p
    simp only [sparseRising, Bool.and_eq_true, decide_eq_true_eq] at h
    by_cases h1 : k < a
    · simp [sparseSet, h1, sparseRising, hk, h.2, Nat.succ_le_of_lt h1]
    · by_cases h2 : k = a
      · subst h2
        simp [sparseSet, sparseRising, hk, h.2]
      · simp [sparseSet, h1, h2, sparseRising, h.1, ih (a + 1) h.2 (by omega)]

theorem mem_sparseSet {α : Type} {m : List (Nat × α)} {k : Nat} {v : α} {c : Nat × α}
    (h : c ∈ sparseSet m k v) : c = (k, v) ∨ c ∈ m := by
  induction m with
  | nil => simpa [sparseSet] using h
  | cons p rest ih =>
    obtain ⟨a, w⟩ := p
    by_cases h1 : k < a
    · simpa [sparseSet, h1] using h
    · by_cases h2 : k = a
      · simp [sparseSet, h2] at h ⊢
        tauto
      · simp [sparseSet, h1, h2] at h ⊢
        rcases h with h | h
        · tauto
        · rcases ih h with h | h <;> tauto

/-! Buffer memory -/

@[simp] theorem Memory.read_write_same (m : List Host.Cell) (a : Nat) (v : Byte) :
    Memory.read (Memory.write m a v) a = v := by
  simp [Memory.read, Memory.write]

theorem Memory.read_write_ne (m : List Host.Cell) {a b : Nat} (v : Byte) (h : b ≠ a) :
    Memory.read (Memory.write m a v) b = Memory.read m b := by
  simp [Memory.read, Memory.write, sparseGet?_set_ne m v h]

theorem Memory.read_write (m : List Host.Cell) (a b : Nat) (v : Byte) :
    Memory.read (Memory.write m a v) b = if b = a then v else Memory.read m b := by
  by_cases h : b = a
  · simp [h]
  · simp [h, Memory.read_write_ne m v h]

@[simp] theorem Memory.wf_nil : Memory.wf [] = true := rfl

theorem Memory.wf_write {m : List Host.Cell} {a : Nat} (v : Byte) (h : Memory.wf m = true)
    (ha : a < 2 ^ 32) : Memory.wf (Memory.write m a v) = true := by
  simp only [Memory.wf, Bool.and_eq_true, List.all_eq_true, decide_eq_true_eq] at h ⊢
  refine ⟨sparseRising_set m 0 a v h.1 (Nat.zero_le a), fun c hc => ?_⟩
  rcases mem_sparseSet hc with rfl | hc
  · exact ha
  · exact h.2 c hc

theorem Memory.wf_writeBytes {m : List Host.Cell} {a : Nat} (bs : List Byte)
    (h : Memory.wf m = true) (ha : a + bs.length ≤ 2 ^ 32) :
    Memory.wf (Memory.writeBytes m a bs) = true := by
  induction bs generalizing m a with
  | nil => exact h
  | cons b rest ih =>
    simp only [List.length_cons] at ha
    exact ih (Memory.wf_write b h (by omega)) (by omega)

theorem Memory.read_writeBytes (m : List Host.Cell) (a : Nat) (bs : List Byte) (x : Nat) :
    Memory.read (Memory.writeBytes m a bs) x =
      if h : a ≤ x ∧ x < a + bs.length then bs[x - a]'(by omega) else Memory.read m x := by
  induction bs generalizing m a with
  | nil => simp only [Memory.writeBytes, List.length_nil]; split_ifs with h <;> first | rfl | omega
  | cons b rest ih =>
    simp only [Memory.writeBytes, ih, List.length_cons]
    by_cases h0 : x = a
    · subst h0
      simp
    · by_cases h1 : a + 1 ≤ x ∧ x < a + 1 + rest.length
      · rw [dif_pos h1, dif_pos (by omega)]
        obtain ⟨d, rfl⟩ : ∃ d, x = a + 1 + d := ⟨x - (a + 1), by omega⟩
        simp [show a + 1 + d - a = d + 1 by omega, show a + 1 + d - (a + 1) = d by omega]
      · rw [dif_neg h1, dif_neg (by omega), Memory.read_write_ne m b h0]

@[simp] theorem Memory.length_readBytes (m : List Host.Cell) (a n : Nat) :
    (Memory.readBytes m a n).length = n := by
  induction n generalizing a with
  | zero => rfl
  | succ n ih => simp [Memory.readBytes, ih]

@[simp] theorem Memory.getElem_readBytes (m : List Host.Cell) (a n i : Nat)
    (h : i < (Memory.readBytes m a n).length) :
    (Memory.readBytes m a n)[i] = Memory.read m (a + i) := by
  induction n generalizing a i with
  | zero => simp at h
  | succ n ih =>
    cases i with
    | zero => simp [Memory.readBytes]
    | succ i => simp [Memory.readBytes, ih, show a + 1 + i = a + (i + 1) by omega]

/-- Read after write, for byte strings. -/
theorem Memory.readBytes_writeBytes (m : List Host.Cell) (a : Nat) (bs : List Byte) :
    Memory.readBytes (Memory.writeBytes m a bs) a bs.length = bs := by
  refine List.ext_getElem (by simp) fun i h1 h2 => ?_
  rw [Memory.getElem_readBytes, Memory.read_writeBytes]
  simp [h2]

theorem Memory.read_copyFrom (m' m : List Host.Cell) (a n x : Nat) :
    Memory.read (Memory.copyFrom m' m a n) x =
      if a ≤ x ∧ x < a + n then Memory.read m' x else Memory.read m x := by
  simp only [Memory.copyFrom, Memory.read_writeBytes, Memory.length_readBytes]
  split_ifs with h
  · simp [show a + (x - a) = x by omega]
  · rfl

theorem Memory.wf_copyFrom {m : List Host.Cell} (m' : List Host.Cell) {a n : Nat}
    (h : Memory.wf m = true) (ha : a + n ≤ 2 ^ 32) : Memory.wf (Memory.copyFrom m' m a n) = true :=
  Memory.wf_writeBytes _ h (by simpa using ha)

/-! Tables -/

@[simp] theorem tget_tset_same {α : Type} (t : Vector α 256) (b : Byte) (v : α) :
    tget (tset t b v) b = v := by
  simp [tget, tset]

theorem tget_tset_ne {α : Type} (t : Vector α 256) {b c : Byte} (v : α) (h : c ≠ b) :
    tget (tset t b v) c = tget t c := by
  have : b.toNat ≠ c.toNat := fun e => h (BitVec.eq_of_toNat_eq e.symm)
  simp [tget, tset, this]

theorem tget_tset {α : Type} (t : Vector α 256) (b c : Byte) (v : α) :
    tget (tset t b v) c = if c = b then v else tget t c := by
  by_cases h : c = b
  · simp [h]
  · simp [h, tget_tset_ne t v h]

@[simp] theorem tget_replicate {α : Type} (v : α) (b : Byte) :
    tget (Vector.replicate 256 v) b = v := by
  simp [tget]

end Sys2Proof.Machine
end

