-- ==== Sys2Proof/Laws/State.lean ====
section
/-! SUPPORT. What each named state update leaves in each field, one lemma per field per update, so that no
later proof unfolds a record update. -/

namespace Sys2Proof.Machine

/-! launch -/

@[simp] theorem launch_phase (s : State) : (launch s).phase = .check := rfl
@[simp] theorem launch_huff (s : State) : (launch s).huff = Huff.cleared := rfl
@[simp] theorem launch_pack (s : State) : (launch s).pack = Packer.cleared := rfl
@[simp] theorem launch_lzw (s : State) : (launch s).lzw = Lzw.cleared := rfl
@[simp] theorem launch_cur (s : State) : (launch s).cur = Cursors.cleared := rfl
@[simp] theorem launch_mem (s : State) : (launch s).mem = s.mem := rfl
@[simp] theorem launch_cfg (s : State) : (launch s).cfg = s.cfg := rfl
@[simp] theorem launch_hwReset (s : State) : (launch s).hwReset = s.hwReset := rfl
@[simp] theorem launch_host (s : State) : (launch s).host = s.host := rfl
@[simp] theorem launch_results (s : State) : (launch s).results = s.results := rfl
@[simp] theorem launch_latency (s : State) : (launch s).latency = s.latency := rfl
@[simp] theorem launch_ret (s : State) : (launch s).ret = s.ret := rfl
@[simp] theorem launch_draws (s : State) : (launch s).draws = s.draws := rfl
@[simp] theorem launch_regs_irqEn (s : State) :
    (launch s).regs.irqEn = s.regs.irqEn := rfl
@[simp] theorem launch_regs_lzwStrict (s : State) :
    (launch s).regs.lzwStrict = s.regs.lzwStrict := rfl
@[simp] theorem launch_regs_op (s : State) :
    (launch s).regs.op = s.regs.op := rfl
@[simp] theorem launch_regs_busy (s : State) :
    (launch s).regs.busy = true := rfl
@[simp] theorem launch_regs_done (s : State) :
    (launch s).regs.done = false := rfl
@[simp] theorem launch_regs_error (s : State) :
    (launch s).regs.error = false := rfl
@[simp] theorem launch_regs_errCode (s : State) :
    (launch s).regs.errCode = 0#3 := rfl
@[simp] theorem launch_regs_inBase (s : State) :
    (launch s).regs.inBase = s.regs.inBase := rfl
@[simp] theorem launch_regs_inLen (s : State) :
    (launch s).regs.inLen = s.regs.inLen := rfl
@[simp] theorem launch_regs_outBase (s : State) :
    (launch s).regs.outBase = s.regs.outBase := rfl
@[simp] theorem launch_regs_outCap (s : State) :
    (launch s).regs.outCap = s.regs.outCap := rfl
@[simp] theorem launch_regs_outLen (s : State) :
    (launch s).regs.outLen = 0#32 := rfl
@[simp] theorem launch_regs_errInfo (s : State) :
    (launch s).regs.errInfo = 0#32 := rfl
@[simp] theorem launch_regs_elapsed (s : State) :
    (launch s).regs.elapsed = 0#32 := rfl
@[simp] theorem launch_regs_huffUnique (s : State) :
    (launch s).regs.huffUnique = 0#9 := rfl
@[simp] theorem launch_regs_huffBitsLo (s : State) :
    (launch s).regs.huffBitsLo = 0#32 := rfl
@[simp] theorem launch_regs_huffBitsHi (s : State) :
    (launch s).regs.huffBitsHi = 0#32 := rfl
@[simp] theorem launch_regs_lzwCodes (s : State) :
    (launch s).regs.lzwCodes = 0#32 := rfl
@[simp] theorem launch_regs_lzwNext (s : State) :
    (launch s).regs.lzwNext = 0#32 := rfl
@[simp] theorem launch_regs_symSel (s : State) :
    (launch s).regs.symSel = s.regs.symSel := rfl

/-! withElapsed -/

@[simp] theorem withElapsed_phase (s : State) : (withElapsed s).phase = s.phase := rfl
@[simp] theorem withElapsed_huff (s : State) : (withElapsed s).huff = s.huff := rfl
@[simp] theorem withElapsed_pack (s : State) : (withElapsed s).pack = s.pack := rfl
@[simp] theorem withElapsed_lzw (s : State) : (withElapsed s).lzw = s.lzw := rfl
@[simp] theorem withElapsed_cur (s : State) : (withElapsed s).cur = s.cur := rfl
@[simp] theorem withElapsed_mem (s : State) : (withElapsed s).mem = s.mem := rfl
@[simp] theorem withElapsed_cfg (s : State) : (withElapsed s).cfg = s.cfg := rfl
@[simp] theorem withElapsed_hwReset (s : State) : (withElapsed s).hwReset = s.hwReset := rfl
@[simp] theorem withElapsed_host (s : State) : (withElapsed s).host = s.host := rfl
@[simp] theorem withElapsed_results (s : State) : (withElapsed s).results = s.results := rfl
@[simp] theorem withElapsed_latency (s : State) : (withElapsed s).latency = s.latency := rfl
@[simp] theorem withElapsed_ret (s : State) : (withElapsed s).ret = s.ret := rfl
@[simp] theorem withElapsed_draws (s : State) : (withElapsed s).draws = s.draws + 1 := rfl
@[simp] theorem withElapsed_regs_irqEn (s : State) :
    (withElapsed s).regs.irqEn = s.regs.irqEn := rfl
@[simp] theorem withElapsed_regs_lzwStrict (s : State) :
    (withElapsed s).regs.lzwStrict = s.regs.lzwStrict := rfl
@[simp] theorem withElapsed_regs_op (s : State) :
    (withElapsed s).regs.op = s.regs.op := rfl
@[simp] theorem withElapsed_regs_busy (s : State) :
    (withElapsed s).regs.busy = s.regs.busy := rfl
@[simp] theorem withElapsed_regs_done (s : State) :
    (withElapsed s).regs.done = s.regs.done := rfl
@[simp] theorem withElapsed_regs_error (s : State) :
    (withElapsed s).regs.error = s.regs.error := rfl
@[simp] theorem withElapsed_regs_errCode (s : State) :
    (withElapsed s).regs.errCode = s.regs.errCode := rfl
@[simp] theorem withElapsed_regs_inBase (s : State) :
    (withElapsed s).regs.inBase = s.regs.inBase := rfl
@[simp] theorem withElapsed_regs_inLen (s : State) :
    (withElapsed s).regs.inLen = s.regs.inLen := rfl
@[simp] theorem withElapsed_regs_outBase (s : State) :
    (withElapsed s).regs.outBase = s.regs.outBase := rfl
@[simp] theorem withElapsed_regs_outCap (s : State) :
    (withElapsed s).regs.outCap = s.regs.outCap := rfl
@[simp] theorem withElapsed_regs_outLen (s : State) :
    (withElapsed s).regs.outLen = s.regs.outLen := rfl
@[simp] theorem withElapsed_regs_errInfo (s : State) :
    (withElapsed s).regs.errInfo = s.regs.errInfo := rfl
@[simp] theorem withElapsed_regs_elapsed (s : State) :
    (withElapsed s).regs.elapsed = Config.elapsedTicks s.draws := rfl
@[simp] theorem withElapsed_regs_huffUnique (s : State) :
    (withElapsed s).regs.huffUnique = s.regs.huffUnique := rfl
@[simp] theorem withElapsed_regs_huffBitsLo (s : State) :
    (withElapsed s).regs.huffBitsLo = s.regs.huffBitsLo := rfl
@[simp] theorem withElapsed_regs_huffBitsHi (s : State) :
    (withElapsed s).regs.huffBitsHi = s.regs.huffBitsHi := rfl
@[simp] theorem withElapsed_regs_lzwCodes (s : State) :
    (withElapsed s).regs.lzwCodes = s.regs.lzwCodes := rfl
@[simp] theorem withElapsed_regs_lzwNext (s : State) :
    (withElapsed s).regs.lzwNext = s.regs.lzwNext := rfl
@[simp] theorem withElapsed_regs_symSel (s : State) :
    (withElapsed s).regs.symSel = s.regs.symSel := rfl

/-! completed -/

@[simp] theorem completed_phase (s : State) : (completed s).phase = .idle := rfl
@[simp] theorem completed_huff (s : State) : (completed s).huff = s.huff := rfl
@[simp] theorem completed_pack (s : State) : (completed s).pack = s.pack := rfl
@[simp] theorem completed_lzw (s : State) : (completed s).lzw = s.lzw := rfl
@[simp] theorem completed_cur (s : State) : (completed s).cur = s.cur := rfl
@[simp] theorem completed_mem (s : State) : (completed s).mem = s.mem := rfl
@[simp] theorem completed_cfg (s : State) : (completed s).cfg = s.cfg := rfl
@[simp] theorem completed_hwReset (s : State) : (completed s).hwReset = s.hwReset := rfl
@[simp] theorem completed_host (s : State) : (completed s).host = s.host := rfl
@[simp] theorem completed_results (s : State) : (completed s).results = s.results := rfl
@[simp] theorem completed_latency (s : State) : (completed s).latency = s.latency := rfl
@[simp] theorem completed_ret (s : State) : (completed s).ret = s.ret := rfl
@[simp] theorem completed_draws (s : State) : (completed s).draws = s.draws + 1 := rfl
@[simp] theorem completed_regs_irqEn (s : State) :
    (completed s).regs.irqEn = s.regs.irqEn := rfl
@[simp] theorem completed_regs_lzwStrict (s : State) :
    (completed s).regs.lzwStrict = s.regs.lzwStrict := rfl
@[simp] theorem completed_regs_op (s : State) :
    (completed s).regs.op = s.regs.op := rfl
@[simp] theorem completed_regs_busy (s : State) :
    (completed s).regs.busy = false := rfl
@[simp] theorem completed_regs_done (s : State) :
    (completed s).regs.done = true := rfl
@[simp] theorem completed_regs_error (s : State) :
    (completed s).regs.error = s.regs.error := rfl
@[simp] theorem completed_regs_errCode (s : State) :
    (completed s).regs.errCode = s.regs.errCode := rfl
@[simp] theorem completed_regs_inBase (s : State) :
    (completed s).regs.inBase = s.regs.inBase := rfl
@[simp] theorem completed_regs_inLen (s : State) :
    (completed s).regs.inLen = s.regs.inLen := rfl
@[simp] theorem completed_regs_outBase (s : State) :
    (completed s).regs.outBase = s.regs.outBase := rfl
@[simp] theorem completed_regs_outCap (s : State) :
    (completed s).regs.outCap = s.regs.outCap := rfl
@[simp] theorem completed_regs_outLen (s : State) :
    (completed s).regs.outLen = s.regs.outLen := rfl
@[simp] theorem completed_regs_errInfo (s : State) :
    (completed s).regs.errInfo = s.regs.errInfo := rfl
@[simp] theorem completed_regs_elapsed (s : State) :
    (completed s).regs.elapsed = Config.elapsedTicks s.draws := rfl
@[simp] theorem completed_regs_huffUnique (s : State) :
    (completed s).regs.huffUnique = s.regs.huffUnique := rfl
@[simp] theorem completed_regs_huffBitsLo (s : State) :
    (completed s).regs.huffBitsLo = s.regs.huffBitsLo := rfl
@[simp] theorem completed_regs_huffBitsHi (s : State) :
    (completed s).regs.huffBitsHi = s.regs.huffBitsHi := rfl
@[simp] theorem completed_regs_lzwCodes (s : State) :
    (completed s).regs.lzwCodes = s.regs.lzwCodes := rfl
@[simp] theorem completed_regs_lzwNext (s : State) :
    (completed s).regs.lzwNext = s.regs.lzwNext := rfl
@[simp] theorem completed_regs_symSel (s : State) :
    (completed s).regs.symSel = s.regs.symSel := rfl

/-! raiseError -/

@[simp] theorem raiseError_phase (e : Raise) (s : State) : (raiseError e s).phase = .idle := rfl
@[simp] theorem raiseError_huff (e : Raise) (s : State) : (raiseError e s).huff = s.huff := rfl
@[simp] theorem raiseError_pack (e : Raise) (s : State) : (raiseError e s).pack = s.pack := rfl
@[simp] theorem raiseError_lzw (e : Raise) (s : State) : (raiseError e s).lzw = s.lzw := rfl
@[simp] theorem raiseError_cur (e : Raise) (s : State) : (raiseError e s).cur = s.cur := rfl
@[simp] theorem raiseError_mem (e : Raise) (s : State) : (raiseError e s).mem = s.mem := rfl
@[simp] theorem raiseError_cfg (e : Raise) (s : State) : (raiseError e s).cfg = s.cfg := rfl
@[simp] theorem raiseError_hwReset (e : Raise) (s : State) : (raiseError e s).hwReset = s.hwReset := rfl
@[simp] theorem raiseError_host (e : Raise) (s : State) : (raiseError e s).host = s.host := rfl
@[simp] theorem raiseError_results (e : Raise) (s : State) : (raiseError e s).results = s.results := rfl
@[simp] theorem raiseError_latency (e : Raise) (s : State) : (raiseError e s).latency = s.latency := rfl
@[simp] theorem raiseError_ret (e : Raise) (s : State) : (raiseError e s).ret = s.ret := rfl
@[simp] theorem raiseError_draws (e : Raise) (s : State) : (raiseError e s).draws = s.draws + 1 := rfl
@[simp] theorem raiseError_regs_irqEn (e : Raise) (s : State) :
    (raiseError e s).regs.irqEn = s.regs.irqEn := rfl
@[simp] theorem raiseError_regs_lzwStrict (e : Raise) (s : State) :
    (raiseError e s).regs.lzwStrict = s.regs.lzwStrict := rfl
@[simp] theorem raiseError_regs_op (e : Raise) (s : State) :
    (raiseError e s).regs.op = s.regs.op := rfl
@[simp] theorem raiseError_regs_busy (e : Raise) (s : State) :
    (raiseError e s).regs.busy = false := rfl
@[simp] theorem raiseError_regs_done (e : Raise) (s : State) :
    (raiseError e s).regs.done = true := rfl
@[simp] theorem raiseError_regs_error (e : Raise) (s : State) :
    (raiseError e s).regs.error = true := rfl
@[simp] theorem raiseError_regs_errCode (e : Raise) (s : State) :
    (raiseError e s).regs.errCode = e.kind.code := rfl
@[simp] theorem raiseError_regs_inBase (e : Raise) (s : State) :
    (raiseError e s).regs.inBase = s.regs.inBase := rfl
@[simp] theorem raiseError_regs_inLen (e : Raise) (s : State) :
    (raiseError e s).regs.inLen = s.regs.inLen := rfl
@[simp] theorem raiseError_regs_outBase (e : Raise) (s : State) :
    (raiseError e s).regs.outBase = s.regs.outBase := rfl
@[simp] theorem raiseError_regs_outCap (e : Raise) (s : State) :
    (raiseError e s).regs.outCap = s.regs.outCap := rfl
@[simp] theorem raiseError_regs_outLen (e : Raise) (s : State) :
    (raiseError e s).regs.outLen = s.regs.outLen := rfl
@[simp] theorem raiseError_regs_errInfo (e : Raise) (s : State) :
    (raiseError e s).regs.errInfo = e.info := rfl
@[simp] theorem raiseError_regs_elapsed (e : Raise) (s : State) :
    (raiseError e s).regs.elapsed = Config.elapsedTicks s.draws := rfl
@[simp] theorem raiseError_regs_huffUnique (e : Raise) (s : State) :
    (raiseError e s).regs.huffUnique = s.regs.huffUnique := rfl
@[simp] theorem raiseError_regs_huffBitsLo (e : Raise) (s : State) :
    (raiseError e s).regs.huffBitsLo = s.regs.huffBitsLo := rfl
@[simp] theorem raiseError_regs_huffBitsHi (e : Raise) (s : State) :
    (raiseError e s).regs.huffBitsHi = s.regs.huffBitsHi := rfl
@[simp] theorem raiseError_regs_lzwCodes (e : Raise) (s : State) :
    (raiseError e s).regs.lzwCodes = s.regs.lzwCodes := rfl
@[simp] theorem raiseError_regs_lzwNext (e : Raise) (s : State) :
    (raiseError e s).regs.lzwNext = s.regs.lzwNext := rfl
@[simp] theorem raiseError_regs_symSel (e : Raise) (s : State) :
    (raiseError e s).regs.symSel = s.regs.symSel := rfl

/-! acknowledge -/

@[simp] theorem acknowledge_phase (s : State) : (acknowledge s).phase = s.phase := rfl
@[simp] theorem acknowledge_huff (s : State) : (acknowledge s).huff = s.huff := rfl
@[simp] theorem acknowledge_pack (s : State) : (acknowledge s).pack = s.pack := rfl
@[simp] theorem acknowledge_lzw (s : State) : (acknowledge s).lzw = s.lzw := rfl
@[simp] theorem acknowledge_cur (s : State) : (acknowledge s).cur = s.cur := rfl
@[simp] theorem acknowledge_mem (s : State) : (acknowledge s).mem = s.mem := rfl
@[simp] theorem acknowledge_cfg (s : State) : (acknowledge s).cfg = s.cfg := rfl
@[simp] theorem acknowledge_hwReset (s : State) : (acknowledge s).hwReset = s.hwReset := rfl
@[simp] theorem acknowledge_host (s : State) : (acknowledge s).host = s.host := rfl
@[simp] theorem acknowledge_results (s : State) : (acknowledge s).results = s.results := rfl
@[simp] theorem acknowledge_latency (s : State) : (acknowledge s).latency = s.latency := rfl
@[simp] theorem acknowledge_ret (s : State) : (acknowledge s).ret = s.ret := rfl
@[simp] theorem acknowledge_draws (s : State) : (acknowledge s).draws = s.draws := rfl
@[simp] theorem acknowledge_regs_irqEn (s : State) :
    (acknowledge s).regs.irqEn = s.regs.irqEn := rfl
@[simp] theorem acknowledge_regs_lzwStrict (s : State) :
    (acknowledge s).regs.lzwStrict = s.regs.lzwStrict := rfl
@[simp] theorem acknowledge_regs_op (s : State) :
    (acknowledge s).regs.op = s.regs.op := rfl
@[simp] theorem acknowledge_regs_busy (s : State) :
    (acknowledge s).regs.busy = s.regs.busy := rfl
@[simp] theorem acknowledge_regs_done (s : State) :
    (acknowledge s).regs.done = false := rfl
@[simp] theorem acknowledge_regs_error (s : State) :
    (acknowledge s).regs.error = s.regs.error := rfl
@[simp] theorem acknowledge_regs_errCode (s : State) :
    (acknowledge s).regs.errCode = s.regs.errCode := rfl
@[simp] theorem acknowledge_regs_inBase (s : State) :
    (acknowledge s).regs.inBase = s.regs.inBase := rfl
@[simp] theorem acknowledge_regs_inLen (s : State) :
    (acknowledge s).regs.inLen = s.regs.inLen := rfl
@[simp] theorem acknowledge_regs_outBase (s : State) :
    (acknowledge s).regs.outBase = s.regs.outBase := rfl
@[simp] theorem acknowledge_regs_outCap (s : State) :
    (acknowledge s).regs.outCap = s.regs.outCap := rfl
@[simp] theorem acknowledge_regs_outLen (s : State) :
    (acknowledge s).regs.outLen = s.regs.outLen := rfl
@[simp] theorem acknowledge_regs_errInfo (s : State) :
    (acknowledge s).regs.errInfo = s.regs.errInfo := rfl
@[simp] theorem acknowledge_regs_elapsed (s : State) :
    (acknowledge s).regs.elapsed = s.regs.elapsed := rfl
@[simp] theorem acknowledge_regs_huffUnique (s : State) :
    (acknowledge s).regs.huffUnique = s.regs.huffUnique := rfl
@[simp] theorem acknowledge_regs_huffBitsLo (s : State) :
    (acknowledge s).regs.huffBitsLo = s.regs.huffBitsLo := rfl
@[simp] theorem acknowledge_regs_huffBitsHi (s : State) :
    (acknowledge s).regs.huffBitsHi = s.regs.huffBitsHi := rfl
@[simp] theorem acknowledge_regs_lzwCodes (s : State) :
    (acknowledge s).regs.lzwCodes = s.regs.lzwCodes := rfl
@[simp] theorem acknowledge_regs_lzwNext (s : State) :
    (acknowledge s).regs.lzwNext = s.regs.lzwNext := rfl
@[simp] theorem acknowledge_regs_symSel (s : State) :
    (acknowledge s).regs.symSel = s.regs.symSel := rfl

/-! storeOut -/

@[simp] theorem storeOut_phase (v : Byte) (s : State) : (storeOut v s).phase = s.phase := rfl
@[simp] theorem storeOut_huff (v : Byte) (s : State) : (storeOut v s).huff = s.huff := rfl
@[simp] theorem storeOut_pack (v : Byte) (s : State) : (storeOut v s).pack = s.pack := rfl
@[simp] theorem storeOut_lzw (v : Byte) (s : State) : (storeOut v s).lzw = s.lzw := rfl
@[simp] theorem storeOut_cur (v : Byte) (s : State) : (storeOut v s).cur = s.cur := rfl
@[simp] theorem storeOut_mem (v : Byte) (s : State) : (storeOut v s).mem = Memory.write s.mem (outAddr s) v := rfl
@[simp] theorem storeOut_cfg (v : Byte) (s : State) : (storeOut v s).cfg = s.cfg := rfl
@[simp] theorem storeOut_hwReset (v : Byte) (s : State) : (storeOut v s).hwReset = s.hwReset := rfl
@[simp] theorem storeOut_host (v : Byte) (s : State) : (storeOut v s).host = s.host := rfl
@[simp] theorem storeOut_results (v : Byte) (s : State) : (storeOut v s).results = s.results := rfl
@[simp] theorem storeOut_latency (v : Byte) (s : State) : (storeOut v s).latency = s.latency := rfl
@[simp] theorem storeOut_ret (v : Byte) (s : State) : (storeOut v s).ret = s.ret := rfl
@[simp] theorem storeOut_draws (v : Byte) (s : State) : (storeOut v s).draws = s.draws := rfl
@[simp] theorem storeOut_regs_irqEn (v : Byte) (s : State) :
    (storeOut v s).regs.irqEn = s.regs.irqEn := rfl
@[simp] theorem storeOut_regs_lzwStrict (v : Byte) (s : State) :
    (storeOut v s).regs.lzwStrict = s.regs.lzwStrict := rfl
@[simp] theorem storeOut_regs_op (v : Byte) (s : State) :
    (storeOut v s).regs.op = s.regs.op := rfl
@[simp] theorem storeOut_regs_busy (v : Byte) (s : State) :
    (storeOut v s).regs.busy = s.regs.busy := rfl
@[simp] theorem storeOut_regs_done (v : Byte) (s : State) :
    (storeOut v s).regs.done = s.regs.done := rfl
@[simp] theorem storeOut_regs_error (v : Byte) (s : State) :
    (storeOut v s).regs.error = s.regs.error := rfl
@[simp] theorem storeOut_regs_errCode (v : Byte) (s : State) :
    (storeOut v s).regs.errCode = s.regs.errCode := rfl
@[simp] theorem storeOut_regs_inBase (v : Byte) (s : State) :
    (storeOut v s).regs.inBase = s.regs.inBase := rfl
@[simp] theorem storeOut_regs_inLen (v : Byte) (s : State) :
    (storeOut v s).regs.inLen = s.regs.inLen := rfl
@[simp] theorem storeOut_regs_outBase (v : Byte) (s : State) :
    (storeOut v s).regs.outBase = s.regs.outBase := rfl
@[simp] theorem storeOut_regs_outCap (v : Byte) (s : State) :
    (storeOut v s).regs.outCap = s.regs.outCap := rfl
@[simp] theorem storeOut_regs_outLen (v : Byte) (s : State) :
    (storeOut v s).regs.outLen = s.regs.outLen + 1#32 := rfl
@[simp] theorem storeOut_regs_errInfo (v : Byte) (s : State) :
    (storeOut v s).regs.errInfo = s.regs.errInfo := rfl
@[simp] theorem storeOut_regs_elapsed (v : Byte) (s : State) :
    (storeOut v s).regs.elapsed = s.regs.elapsed := rfl
@[simp] theorem storeOut_regs_huffUnique (v : Byte) (s : State) :
    (storeOut v s).regs.huffUnique = s.regs.huffUnique := rfl
@[simp] theorem storeOut_regs_huffBitsLo (v : Byte) (s : State) :
    (storeOut v s).regs.huffBitsLo = s.regs.huffBitsLo := rfl
@[simp] theorem storeOut_regs_huffBitsHi (v : Byte) (s : State) :
    (storeOut v s).regs.huffBitsHi = s.regs.huffBitsHi := rfl
@[simp] theorem storeOut_regs_lzwCodes (v : Byte) (s : State) :
    (storeOut v s).regs.lzwCodes = s.regs.lzwCodes := rfl
@[simp] theorem storeOut_regs_lzwNext (v : Byte) (s : State) :
    (storeOut v s).regs.lzwNext = s.regs.lzwNext := rfl
@[simp] theorem storeOut_regs_symSel (v : Byte) (s : State) :
    (storeOut v s).regs.symSel = s.regs.symSel := rfl

/-! setHuffBits -/

@[simp] theorem setHuffBits_phase (T : BitVec 64) (s : State) : (setHuffBits T s).phase = s.phase := rfl
@[simp] theorem setHuffBits_huff (T : BitVec 64) (s : State) : (setHuffBits T s).huff = s.huff := rfl
@[simp] theorem setHuffBits_pack (T : BitVec 64) (s : State) : (setHuffBits T s).pack = s.pack := rfl
@[simp] theorem setHuffBits_lzw (T : BitVec 64) (s : State) : (setHuffBits T s).lzw = s.lzw := rfl
@[simp] theorem setHuffBits_cur (T : BitVec 64) (s : State) : (setHuffBits T s).cur = s.cur := rfl
@[simp] theorem setHuffBits_mem (T : BitVec 64) (s : State) : (setHuffBits T s).mem = s.mem := rfl
@[simp] theorem setHuffBits_cfg (T : BitVec 64) (s : State) : (setHuffBits T s).cfg = s.cfg := rfl
@[simp] theorem setHuffBits_hwReset (T : BitVec 64) (s : State) : (setHuffBits T s).hwReset = s.hwReset := rfl
@[simp] theorem setHuffBits_host (T : BitVec 64) (s : State) : (setHuffBits T s).host = s.host := rfl
@[simp] theorem setHuffBits_results (T : BitVec 64) (s : State) : (setHuffBits T s).results = s.results := rfl
@[simp] theorem setHuffBits_latency (T : BitVec 64) (s : State) : (setHuffBits T s).latency = s.latency := rfl
@[simp] theorem setHuffBits_ret (T : BitVec 64) (s : State) : (setHuffBits T s).ret = s.ret := rfl
@[simp] theorem setHuffBits_draws (T : BitVec 64) (s : State) : (setHuffBits T s).draws = s.draws := rfl
@[simp] theorem setHuffBits_regs_irqEn (T : BitVec 64) (s : State) :
    (setHuffBits T s).regs.irqEn = s.regs.irqEn := rfl
@[simp] theorem setHuffBits_regs_lzwStrict (T : BitVec 64) (s : State) :
    (setHuffBits T s).regs.lzwStrict = s.regs.lzwStrict := rfl
@[simp] theorem setHuffBits_regs_op (T : BitVec 64) (s : State) :
    (setHuffBits T s).regs.op = s.regs.op := rfl
@[simp] theorem setHuffBits_regs_busy (T : BitVec 64) (s : State) :
    (setHuffBits T s).regs.busy = s.regs.busy := rfl
@[simp] theorem setHuffBits_regs_done (T : BitVec 64) (s : State) :
    (setHuffBits T s).regs.done = s.regs.done := rfl
@[simp] theorem setHuffBits_regs_error (T : BitVec 64) (s : State) :
    (setHuffBits T s).regs.error = s.regs.error := rfl
@[simp] theorem setHuffBits_regs_errCode (T : BitVec 64) (s : State) :
    (setHuffBits T s).regs.errCode = s.regs.errCode := rfl
@[simp] theorem setHuffBits_regs_inBase (T : BitVec 64) (s : State) :
    (setHuffBits T s).regs.inBase = s.regs.inBase := rfl
@[simp] theorem setHuffBits_regs_inLen (T : BitVec 64) (s : State) :
    (setHuffBits T s).regs.inLen = s.regs.inLen := rfl
@[simp] theorem setHuffBits_regs_outBase (T : BitVec 64) (s : State) :
    (setHuffBits T s).regs.outBase = s.regs.outBase := rfl
@[simp] theorem setHuffBits_regs_outCap (T : BitVec 64) (s : State) :
    (setHuffBits T s).regs.outCap = s.regs.outCap := rfl
@[simp] theorem setHuffBits_regs_outLen (T : BitVec 64) (s : State) :
    (setHuffBits T s).regs.outLen = s.regs.outLen := rfl
@[simp] theorem setHuffBits_regs_errInfo (T : BitVec 64) (s : State) :
    (setHuffBits T s).regs.errInfo = s.regs.errInfo := rfl
@[simp] theorem setHuffBits_regs_elapsed (T : BitVec 64) (s : State) :
    (setHuffBits T s).regs.elapsed = s.regs.elapsed := rfl
@[simp] theorem setHuffBits_regs_huffUnique (T : BitVec 64) (s : State) :
    (setHuffBits T s).regs.huffUnique = s.regs.huffUnique := rfl
@[simp] theorem setHuffBits_regs_huffBitsLo (T : BitVec 64) (s : State) :
    (setHuffBits T s).regs.huffBitsLo = T.extractLsb' 0 32 := rfl
@[simp] theorem setHuffBits_regs_huffBitsHi (T : BitVec 64) (s : State) :
    (setHuffBits T s).regs.huffBitsHi = T.extractLsb' 32 32 := rfl
@[simp] theorem setHuffBits_regs_lzwCodes (T : BitVec 64) (s : State) :
    (setHuffBits T s).regs.lzwCodes = s.regs.lzwCodes := rfl
@[simp] theorem setHuffBits_regs_lzwNext (T : BitVec 64) (s : State) :
    (setHuffBits T s).regs.lzwNext = s.regs.lzwNext := rfl
@[simp] theorem setHuffBits_regs_symSel (T : BitVec 64) (s : State) :
    (setHuffBits T s).regs.symSel = s.regs.symSel := rfl

/-! resetCore -/

@[simp] theorem resetCore_regs (s : State) : (resetCore s).regs = Regs.reset := rfl
@[simp] theorem resetCore_phase (s : State) : (resetCore s).phase = .idle := rfl
@[simp] theorem resetCore_huff (s : State) : (resetCore s).huff = Huff.cleared := rfl
@[simp] theorem resetCore_pack (s : State) : (resetCore s).pack = Packer.cleared := rfl
@[simp] theorem resetCore_lzw (s : State) : (resetCore s).lzw = Lzw.cleared := rfl
@[simp] theorem resetCore_cur (s : State) : (resetCore s).cur = Cursors.cleared := rfl
@[simp] theorem resetCore_mem (s : State) : (resetCore s).mem = s.mem := rfl
@[simp] theorem resetCore_cfg (s : State) : (resetCore s).cfg = s.cfg := rfl
@[simp] theorem resetCore_hwReset (s : State) : (resetCore s).hwReset = s.hwReset := rfl
@[simp] theorem resetCore_host (s : State) : (resetCore s).host = s.host := rfl
@[simp] theorem resetCore_results (s : State) : (resetCore s).results = s.results := rfl
@[simp] theorem resetCore_latency (s : State) : (resetCore s).latency = s.latency := rfl
@[simp] theorem resetCore_ret (s : State) : (resetCore s).ret = s.ret := rfl
@[simp] theorem resetCore_draws (s : State) : (resetCore s).draws = s.draws := rfl

/-! takeEntry -/

@[simp] theorem takeEntry_regs (rest : List HostOp) (s : State) : (takeEntry rest s).regs = s.regs := rfl
@[simp] theorem takeEntry_phase (rest : List HostOp) (s : State) : (takeEntry rest s).phase = s.phase := rfl
@[simp] theorem takeEntry_huff (rest : List HostOp) (s : State) : (takeEntry rest s).huff = s.huff := rfl
@[simp] theorem takeEntry_pack (rest : List HostOp) (s : State) : (takeEntry rest s).pack = s.pack := rfl
@[simp] theorem takeEntry_lzw (rest : List HostOp) (s : State) : (takeEntry rest s).lzw = s.lzw := rfl
@[simp] theorem takeEntry_cur (rest : List HostOp) (s : State) : (takeEntry rest s).cur = s.cur := rfl
@[simp] theorem takeEntry_mem (rest : List HostOp) (s : State) : (takeEntry rest s).mem = s.mem := rfl
@[simp] theorem takeEntry_cfg (rest : List HostOp) (s : State) : (takeEntry rest s).cfg = s.cfg := rfl
@[simp] theorem takeEntry_hwReset (rest : List HostOp) (s : State) : (takeEntry rest s).hwReset = s.hwReset := rfl
@[simp] theorem takeEntry_host (rest : List HostOp) (s : State) : (takeEntry rest s).host = rest := rfl
@[simp] theorem takeEntry_results (rest : List HostOp) (s : State) : (takeEntry rest s).results = s.results := rfl
@[simp] theorem takeEntry_latency (rest : List HostOp) (s : State) : (takeEntry rest s).latency = if s.regs.busy then s.latency - 1 else s.latency := rfl
@[simp] theorem takeEntry_ret (rest : List HostOp) (s : State) : (takeEntry rest s).ret = s.ret := rfl
@[simp] theorem takeEntry_draws (rest : List HostOp) (s : State) : (takeEntry rest s).draws = s.draws := rfl

end Sys2Proof.Machine
end

