-- ==== Sys2Proof/Laws/Engine.lean ====
section
/-! SUPPORT. How an engine computation runs, what InByte and OutByte do, and one relation, Keeps, that
says once everything an engine operation can change; every operation is shown to keep it. -/

namespace Sys2Proof.Machine

/-! Running engine computations -/

@[simp] theorem eng_pure {α : Type} (a : α) (s : State) : (pure a : Eng α) s = .ok a s := rfl

@[simp] theorem eng_bind {α β : Type} (x : Eng α) (f : α → Eng β) (s : State) :
    (x >>= f) s = match x s with | .ok a s' => f a s' | .error e s' => .error e s' := by
  show EStateM.bind x f s = _
  unfold EStateM.bind
  cases x s <;> rfl

@[simp] theorem eng_map {α β : Type} (f : α → β) (x : Eng α) (s : State) :
    (f <$> x) s = match x s with | .ok a s' => .ok (f a) s' | .error e s' => .error e s' := by
  show EStateM.map f x s = _
  unfold EStateM.map
  cases x s <;> rfl

@[simp] theorem eng_get (s : State) : (get : Eng State) s = .ok s s := rfl

@[simp] theorem eng_modify (f : State → State) (s : State) : (modify f : Eng Unit) s = .ok () (f s) := rfl

@[simp] theorem eng_raise {α : Type} (k : ErrKind) (info : Nat) (s : State) :
    (raise k info : Eng α) s = .error ⟨k, BitVec.ofNat 32 info⟩ s := rfl

@[simp] theorem eng_setPhase (p : Phase) (s : State) :
    setPhase p s = .ok () { s with phase := p } := rfl

@[simp] theorem forFrom_zero (body : Nat → Eng Unit) (i : Nat) : forFrom body i 0 = pure () := rfl

theorem forFrom_succ (body : Nat → Eng Unit) (i n : Nat) (s : State) :
    forFrom body i (n + 1) s =
      match body i s with
      | .ok _ s' => forFrom body (i + 1) n s'
      | .error e s' => .error e s' := by
  rw [forFrom, eng_bind]
  cases body i s <;> rfl

/-- The rule of a loop that raises nothing: an assertion that each round carries from i to i + 1. -/
theorem forFrom_ok (body : Nat → Eng Unit) (P : Nat → State → Prop) (i n : Nat) (s : State)
    (h0 : P i s)
    (hstep : ∀ j t, i ≤ j → j < i + n → P j t → ∃ t', body j t = .ok () t' ∧ P (j + 1) t') :
    ∃ t, forFrom body i n s = .ok () t ∧ P (i + n) t := by
  induction n generalizing i s with
  | zero => exact ⟨s, rfl, h0⟩
  | succ n ih =>
    obtain ⟨t', hb, hp⟩ := hstep i s (Nat.le_refl i) (by omega) h0
    obtain ⟨t, ht, hpt⟩ := ih (i + 1) t' hp (fun j u h1 h2 => hstep j u (by omega) (by omega))
    refine ⟨t, ?_, by rwa [show i + (n + 1) = i + 1 + n by omega]⟩
    rw [forFrom_succ, hb]
    exact ht

/-- The rule of `for i in 0 .. n-1` when nothing is raised. -/
theorem forRange_ok (body : Nat → Eng Unit) (P : Nat → State → Prop) (n : Nat) (s : State)
    (h0 : P 0 s) (hstep : ∀ j t, j < n → P j t → ∃ t', body j t = .ok () t' ∧ P (j + 1) t') :
    ∃ t, forRange n body s = .ok () t ∧ P n t := by
  have := forFrom_ok body P 0 n s h0 (fun j t _ h => hstep j t (by omega))
  simpa [forRange] using this

/-! InByte and OutByte -/

/-- The state after an access: an unknown platform's answer is one draw. -/
def drawn (s : State) (a : Nat) : State :=
  if 2 ^ 32 ≤ a then s
  else match s.cfg.busErr with | some _ => s | none => { s with draws := s.draws + 1 }

/-- busError answers State.busAnswer and changes nothing but the draw counter. -/
theorem busError_run (a : Nat) (d : Dir) (s : State) :
    busError a d s = .ok (s.busAnswer a d) (drawn s a) := by
  unfold busError State.busAnswer drawn
  by_cases h : 2 ^ 32 ≤ a
  · simp only [if_pos h, decide_eq_true h, Bool.true_or]
  · simp only [if_neg h, decide_eq_false h, Bool.false_or]
    cases s.cfg.busErr <;> rfl

theorem drawn_eq (s : State) (a : Nat) : ∃ n, s.draws ≤ n ∧ drawn s a = { s with draws := n } := by
  unfold drawn
  split_ifs
  · exact ⟨s.draws, Nat.le_refl _, rfl⟩
  · split
    · exact ⟨s.draws, Nat.le_refl _, rfl⟩
    · exact ⟨s.draws + 1, Nat.le_succ _, rfl⟩

/-- InByte: an error answer raises IOReadError, else the byte at the address, IN_POS after it (R74). -/
theorem inByte_run (i : Nat) (s : State) :
    inByte i s =
      if s.busAnswer (inAddr s i) .read then
        .error ⟨.ioRead, BitVec.ofNat 32 i⟩ (drawn s (inAddr s i))
      else
        .ok (Memory.read s.mem (inAddr s i))
          { drawn s (inAddr s i) with cur := { (drawn s (inAddr s i)).cur with inPos := i + 1 } } := by
  simp only [inByte, eng_bind, eng_get, busError_run]
  cases s.busAnswer (inAddr s i) .read <;> simp

/-- OutByte: full, an error answer, or the byte is stored and counted (R75). -/
theorem outByte_run (v : Byte) (s : State) :
    outByte v s =
      if s.regs.outLen = s.regs.outCap then
        .error ⟨.ioWrite, BitVec.ofNat 32 s.regs.outLen.toNat⟩ s
      else if s.busAnswer (outAddr s) .write then
        .error ⟨.ioWrite, BitVec.ofNat 32 s.regs.outLen.toNat⟩ (drawn s (outAddr s))
      else .ok () (storeOut v (drawn s (outAddr s))) := by
  simp only [outByte, eng_bind, eng_get]
  by_cases h : s.regs.outLen = s.regs.outCap
  · simp [h]
  · simp only [h, if_false, eng_bind, busError_run]
    cases s.busAnswer (outAddr s) .write <;> simp

/-! What an engine operation can change -/

/-- OUT_LEN lies in the output region, and the bytes written so far in buffer memory. It holds of every
launched command and every engine operation keeps it. -/
def State.OutOk (s : State) : Prop :=
  s.regs.outLen.toNat ≤ s.regs.outCap.toNat ∧ s.regs.outBase.toNat + s.regs.outLen.toNat ≤ 2 ^ 32

/-- From s an engine operation can reach t only so: the fixed part is the same, free draws are only added,
and memory changes only in the output slots between the two values of OUT_LEN. -/
structure Keeps (s t : State) : Prop where
  fixed : t.fixedPart = s.fixedPart
  draws : s.draws ≤ t.draws
  out   : s.OutOk → t.OutOk ∧ s.regs.outLen.toNat ≤ t.regs.outLen.toNat
            ∧ SameMemBut (outAddr s) (t.regs.outLen.toNat - s.regs.outLen.toNat) s t
            ∧ (Memory.wf s.mem = true → Memory.wf t.mem = true)

theorem Keeps.refl (s : State) : Keeps s s :=
  ⟨rfl, Nat.le_refl _, fun h => ⟨h, Nat.le_refl _, fun _ _ => rfl, id⟩⟩

/-- Each field outside the engine's reach, from the equality of the fixed parts. -/
theorem fixedPart_regs {s t : State} (h : t.fixedPart = s.fixedPart) :
    t.regs.fixedPart = s.regs.fixedPart := by
  have e := congrArg (fun x : State => x.regs) h
  exact e

theorem fixed_outBase {s t : State} (h : t.fixedPart = s.fixedPart) :
    t.regs.outBase = s.regs.outBase := by
  have e := congrArg (fun x : State => x.regs.outBase) h
  exact e

theorem fixed_outCap {s t : State} (h : t.fixedPart = s.fixedPart) :
    t.regs.outCap = s.regs.outCap := by
  have e := congrArg (fun x : State => x.regs.outCap) h
  exact e

theorem fixed_inBase {s t : State} (h : t.fixedPart = s.fixedPart) :
    t.regs.inBase = s.regs.inBase := by
  have e := congrArg (fun x : State => x.regs.inBase) h
  exact e

theorem fixed_inLen {s t : State} (h : t.fixedPart = s.fixedPart) :
    t.regs.inLen = s.regs.inLen := by
  have e := congrArg (fun x : State => x.regs.inLen) h
  exact e

theorem fixed_cfg {s t : State} (h : t.fixedPart = s.fixedPart) : t.cfg = s.cfg := by
  have e := congrArg (fun x : State => x.cfg) h
  exact e

theorem fixed_lzwStrict {s t : State} (h : t.fixedPart = s.fixedPart) :
    t.regs.lzwStrict = s.regs.lzwStrict := by
  have e := congrArg (fun x : State => x.regs.lzwStrict) h
  exact e

theorem fixed_busy {s t : State} (h : t.fixedPart = s.fixedPart) : t.regs.busy = s.regs.busy := by
  have e := congrArg (fun x : State => x.regs.busy) h
  exact e

theorem Keeps.trans {s t u : State} (h1 : Keeps s t) (h2 : Keeps t u) : Keeps s u := by
  refine ⟨h2.fixed.trans h1.fixed, Nat.le_trans h1.draws h2.draws, fun ho => ?_⟩
  obtain ⟨t0, tl, tm, tw⟩ := h1.out ho
  obtain ⟨u0, ul, um, uw⟩ := h2.out t0
  refine ⟨u0, Nat.le_trans tl ul, fun x hx => ?_, fun hw => uw (tw hw)⟩
  have hb := fixed_outBase h1.fixed
  rw [um x (by simp only [outAddr, hb] at hx ⊢; omega),
    tm x (by simp only [outAddr] at hx ⊢; omega)]

/-- A change that touches only what the engine owns, and neither memory, OUT_LEN nor the draws. -/
theorem Keeps.of_eq {s t : State} (hf : t.fixedPart = s.fixedPart) (hd : t.draws = s.draws)
    (hm : t.mem = s.mem) (hl : t.regs.outLen = s.regs.outLen) : Keeps s t := by
  refine ⟨hf, by omega, fun ho => ⟨⟨?_, ?_⟩, by rw [hl], fun _ _ => by rw [hm], fun h => by rwa [hm]⟩⟩
  · rw [hl, fixed_outCap hf]; exact ho.1
  · rw [hl, fixed_outBase hf]; exact ho.2

theorem Keeps.draw {s : State} {n : Nat} (h : s.draws ≤ n) : Keeps s { s with draws := n } :=
  ⟨rfl, h, fun ho => ⟨ho, Nat.le_refl _, fun _ _ => rfl, id⟩⟩

/-- Storing an output byte with room for it. -/
theorem Keeps.store {s : State} (v : Byte) (hne : s.regs.outLen ≠ s.regs.outCap)
    (ha : outAddr s < 2 ^ 32) : Keeps s (storeOut v s) := by
  refine ⟨rfl, Nat.le_refl _, fun ho => ?_⟩
  have hlt : s.regs.outLen.toNat < s.regs.outCap.toNat := by
    have : s.regs.outLen.toNat ≠ s.regs.outCap.toNat := fun e => hne (BitVec.eq_of_toNat_eq e)
    have := ho.1
    omega
  have hn : (s.regs.outLen + 1#32).toNat = s.regs.outLen.toNat + 1 := by
    have := s.regs.outCap.isLt
    simp [BitVec.toNat_add]
    omega
  have hl : (storeOut v s).regs.outLen.toNat = s.regs.outLen.toNat + 1 := hn
  refine ⟨⟨?_, ?_⟩, by omega, fun x hx => ?_, fun hw => Memory.wf_write v hw ha⟩
  · rw [hl]; simpa using hlt
  · rw [hl]; simp only [outAddr] at ha; simp; omega
  · rw [hl] at hx
    simp only [storeOut_mem]
    exact Memory.read_write_ne _ _ (by omega)

/-- An engine computation keeps Keeps, whether it returns or raises. -/
def KeepsAll {α : Type} (x : Eng α) : Prop :=
  ∀ s, match x s with | .ok _ t => Keeps s t | .error _ t => Keeps s t

theorem KeepsAll.ok {α : Type} {x : Eng α} (h : KeepsAll x) {s t : State} {a : α}
    (e : x s = .ok a t) : Keeps s t := by have := h s; rwa [e] at this

theorem KeepsAll.error {α : Type} {x : Eng α} (h : KeepsAll x) {s t : State} {r : Raise}
    (e : x s = .error r t) : Keeps s t := by have := h s; rwa [e] at this

theorem keepsAll_pure {α : Type} (a : α) : KeepsAll (pure a : Eng α) := fun s => Keeps.refl s

theorem keepsAll_get : KeepsAll (get : Eng State) := fun s => Keeps.refl s

theorem keepsAll_raise {α : Type} (k : ErrKind) (i : Nat) : KeepsAll (raise k i : Eng α) :=
  fun s => Keeps.refl s

theorem keepsAll_bind {α β : Type} {x : Eng α} {f : α → Eng β} (hx : KeepsAll x)
    (hf : ∀ a, KeepsAll (f a)) : KeepsAll (x >>= f) := by
  intro s
  have h := hx s
  simp only [eng_bind]
  cases e : x s with
  | ok a t =>
    simp only [e] at h ⊢
    have h2 := hf a t
    cases e2 : f a t <;> simp only [e2] at h2 ⊢ <;> exact h.trans h2
  | error r t => simpa only [e] using h

theorem keepsAll_modify {f : State → State} (h : ∀ s, Keeps s (f s)) :
    KeepsAll (modify f : Eng Unit) := fun s => h s

/-- A modification that touches only what the engine owns, and neither memory, OUT_LEN nor draws. -/
theorem keepsAll_modify_eq {f : State → State}
    (h : ∀ s, (f s).fixedPart = s.fixedPart ∧ (f s).draws = s.draws ∧ (f s).mem = s.mem
      ∧ (f s).regs.outLen = s.regs.outLen) : KeepsAll (modify f : Eng Unit) :=
  keepsAll_modify fun s => Keeps.of_eq (h s).1 (h s).2.1 (h s).2.2.1 (h s).2.2.2

theorem keepsAll_ite {α : Type} {p : Prop} [Decidable p] {x y : Eng α} (hx : KeepsAll x)
    (hy : KeepsAll y) : KeepsAll (if p then x else y) := by
  split_ifs
  · exact hx
  · exact hy

theorem keepsAll_forFrom {body : Nat → Eng Unit} (h : ∀ i, KeepsAll (body i)) :
    ∀ n i, KeepsAll (forFrom body i n)
  | 0, _ => keepsAll_pure ()
  | n + 1, i => keepsAll_bind (h i) fun _ => keepsAll_forFrom h n (i + 1)

theorem keepsAll_forRange {body : Nat → Eng Unit} (h : ∀ i, KeepsAll (body i)) (n : Nat) :
    KeepsAll (forRange n body) := keepsAll_forFrom h n 0

theorem keepsAll_setPhase (p : Phase) : KeepsAll (setPhase p) :=
  keepsAll_modify_eq fun _ => ⟨rfl, rfl, rfl, rfl⟩

theorem keeps_drawn (s : State) (a : Nat) : Keeps s (drawn s a) := by
  obtain ⟨n, hn, e⟩ := drawn_eq s a
  rw [e]
  exact Keeps.draw hn

theorem keepsAll_inByte (i : Nat) : KeepsAll (inByte i) := by
  intro s
  rw [inByte_run]
  split_ifs
  · exact keeps_drawn s _
  · exact (keeps_drawn s _).trans (Keeps.of_eq rfl rfl rfl rfl)

theorem keepsAll_outByte (v : Byte) : KeepsAll (outByte v) := by
  intro s
  rw [outByte_run]
  split_ifs with h1 h2
  · exact Keeps.refl s
  · exact keeps_drawn s _
  · obtain ⟨n, hn, e⟩ := drawn_eq s (outAddr s)
    rw [e]
    refine (Keeps.draw hn).trans (Keeps.store (s := { s with draws := n }) v h1 ?_)
    simp only [State.busAnswer, Bool.or_eq_true, decide_eq_true_eq, not_or] at h2
    exact Nat.lt_of_not_le h2.1

theorem keepsAll_outBytes : ∀ bs, KeepsAll (outBytes bs)
  | [] => keepsAll_pure ()
  | b :: rest => keepsAll_bind (keepsAll_outByte b) fun _ => keepsAll_outBytes rest

theorem keepsAll_put32 (v : Word) : KeepsAll (put32 v) := keepsAll_outBytes _

theorem keepsAll_put64 (v : BitVec 64) : KeepsAll (put64 v) := keepsAll_outBytes _

theorem keepsAll_inBytes : ∀ n p, KeepsAll (inBytes p n)
  | 0, _ => keepsAll_pure _
  | n + 1, p =>
    keepsAll_bind (keepsAll_inByte p) fun _ =>
      keepsAll_bind (keepsAll_inBytes n (p + 1)) fun _ => keepsAll_pure _

theorem keepsAll_get32 (p : Nat) : KeepsAll (get32 p) :=
  keepsAll_bind (keepsAll_inBytes 4 p) fun _ => keepsAll_pure _

theorem keepsAll_get64 (p : Nat) : KeepsAll (get64 p) :=
  keepsAll_bind (keepsAll_inBytes 8 p) fun _ => keepsAll_pure _

/-! BitPacker -/

theorem keepsAll_packBit (b : Bool) : KeepsAll (packBit b) :=
  keepsAll_bind (keepsAll_modify_eq fun _ => ⟨rfl, rfl, rfl, rfl⟩) fun _ =>
    keepsAll_bind keepsAll_get fun _ =>
      keepsAll_ite
        (keepsAll_bind (keepsAll_outByte _) fun _ =>
          keepsAll_modify_eq fun _ => ⟨rfl, rfl, rfl, rfl⟩)
        (keepsAll_modify_eq fun _ => ⟨rfl, rfl, rfl, rfl⟩)

theorem keepsAll_packFlush : KeepsAll packFlush :=
  keepsAll_bind keepsAll_get fun _ =>
    keepsAll_ite (keepsAll_pure ())
      (keepsAll_bind (keepsAll_outByte _) fun _ =>
        keepsAll_modify_eq fun _ => ⟨rfl, rfl, rfl, rfl⟩)

theorem keepsAll_unpackBit (S t : Nat) : KeepsAll (unpackBit S t) :=
  keepsAll_bind (keepsAll_inByte _) fun _ =>
    keepsAll_bind (keepsAll_modify_eq fun _ => ⟨rfl, rfl, rfl, rfl⟩) fun _ => keepsAll_pure _

/-! HuffmanCodec -/

theorem keepsAll_countByte (i : Nat) : KeepsAll (countByte i) :=
  keepsAll_bind (keepsAll_inByte i) fun _ => keepsAll_modify_eq fun _ => ⟨rfl, rfl, rfl, rfl⟩

theorem keepsAll_buildFrequencyTable : KeepsAll buildFrequencyTable :=
  keepsAll_bind keepsAll_get fun _ =>
    keepsAll_bind (keepsAll_forRange keepsAll_countByte _) fun _ =>
      keepsAll_modify_eq fun _ => ⟨rfl, rfl, rfl, rfl⟩

theorem keepsAll_checkFrequencyRange : KeepsAll checkFrequencyRange :=
  keepsAll_bind keepsAll_get fun _ => keepsAll_ite (keepsAll_raise _ _) (keepsAll_pure ())

theorem keepsAll_seedLeaves : KeepsAll seedLeaves :=
  have body (j : Nat) : KeepsAll (modify fun s => { s with huff := seedLeaf j s.huff }) :=
    keepsAll_modify_eq fun _ => ⟨rfl, rfl, rfl, rfl⟩
  keepsAll_bind keepsAll_get fun _ =>
    keepsAll_bind (keepsAll_forRange body _) fun _ =>
      keepsAll_modify_eq fun _ => ⟨rfl, rfl, rfl, rfl⟩

theorem keepsAll_popMin : KeepsAll popMin := by
  refine keepsAll_bind keepsAll_get fun s => ?_
  cases argminKey s.huff s.huff.queue with
  | some n =>
    exact keepsAll_bind (keepsAll_modify_eq fun _ => ⟨rfl, rfl, rfl, rfl⟩) fun _ => keepsAll_pure _
  | none =>
    exact keepsAll_bind (keepsAll_modify fun s => Keeps.draw (Nat.le_succ s.draws)) fun _ =>
      keepsAll_pure _

theorem keepsAll_mergeTwo : KeepsAll mergeTwo :=
  keepsAll_bind keepsAll_popMin fun _ =>
    keepsAll_bind keepsAll_popMin fun _ => keepsAll_modify_eq fun _ => ⟨rfl, rfl, rfl, rfl⟩

theorem keepsAll_mergeLoop : ∀ n, KeepsAll (mergeLoop n)
  | 0 => keepsAll_pure ()
  | n + 1 =>
    keepsAll_bind keepsAll_get fun _ =>
      keepsAll_ite (keepsAll_bind keepsAll_mergeTwo fun _ => keepsAll_mergeLoop n)
        (keepsAll_pure ())

theorem keepsAll_buildTree : KeepsAll buildTree :=
  keepsAll_bind keepsAll_seedLeaves fun _ =>
    keepsAll_bind keepsAll_get fun _ =>
      keepsAll_bind (keepsAll_mergeLoop _) fun _ =>
        keepsAll_modify_eq fun _ => by split_ifs <;> exact ⟨rfl, rfl, rfl, rfl⟩

theorem keepsAll_buildEncodingTable : KeepsAll buildEncodingTable :=
  keepsAll_modify_eq fun _ => ⟨rfl, rfl, rfl, rfl⟩

theorem keepsAll_totalBits : KeepsAll totalBits :=
  keepsAll_bind keepsAll_get fun _ =>
    keepsAll_bind (keepsAll_modify_eq fun _ => ⟨rfl, rfl, rfl, rfl⟩) fun _ => keepsAll_pure _

theorem keepsAll_putPair (j : Nat) : KeepsAll (putPair j) :=
  keepsAll_bind keepsAll_get fun _ =>
    keepsAll_bind (keepsAll_outByte _) fun _ => keepsAll_put32 _

theorem keepsAll_serializeHeader (T : BitVec 64) : KeepsAll (serializeHeader T) :=
  keepsAll_bind keepsAll_get fun _ =>
    keepsAll_bind (keepsAll_put32 _) fun _ =>
      keepsAll_bind (keepsAll_forRange keepsAll_putPair _) fun _ => keepsAll_put64 _

theorem keepsAll_parsePair (j : Nat) : KeepsAll (parsePair j) :=
  keepsAll_bind (keepsAll_inByte _) fun _ =>
    keepsAll_bind keepsAll_get fun _ =>
      keepsAll_ite (keepsAll_raise _ _)
        (keepsAll_bind (keepsAll_get32 _) fun _ =>
          keepsAll_ite (keepsAll_raise _ _) (keepsAll_modify_eq fun _ => ⟨rfl, rfl, rfl, rfl⟩))

theorem keepsAll_parseHeader : KeepsAll parseHeader :=
  keepsAll_bind keepsAll_get fun _ =>
    keepsAll_ite (keepsAll_raise _ _)
      (keepsAll_bind (keepsAll_get32 _) fun _ =>
        keepsAll_ite (keepsAll_raise _ _)
          (keepsAll_ite (keepsAll_raise _ _)
            (keepsAll_bind (keepsAll_modify_eq fun _ => ⟨rfl, rfl, rfl, rfl⟩) fun _ =>
              keepsAll_bind (keepsAll_forRange keepsAll_parsePair _) fun _ =>
                keepsAll_bind (keepsAll_get64 _) fun _ =>
                  keepsAll_ite (keepsAll_raise _ _)
                    (keepsAll_ite (keepsAll_raise _ _)
                      (keepsAll_bind (keepsAll_modify_eq fun _ => ⟨rfl, rfl, rfl, rfl⟩) fun _ =>
                        keepsAll_pure _)))))

theorem keepsAll_checkPayloadLength (u : Nat) (T : BitVec 64) :
    KeepsAll (checkPayloadLength u T) :=
  keepsAll_bind keepsAll_get fun _ => keepsAll_ite (keepsAll_raise _ _) (keepsAll_pure _)

theorem keepsAll_checkPass2 (T : BitVec 64) (i : Nat) (b : Byte) : KeepsAll (checkPass2 T i b) :=
  keepsAll_bind keepsAll_get fun _ => keepsAll_ite (keepsAll_raise _ _) (keepsAll_pure _)

theorem keepsAll_checkPass2End (T : BitVec 64) : KeepsAll (checkPass2End T) :=
  keepsAll_bind keepsAll_get fun _ => keepsAll_ite (keepsAll_raise _ _) (keepsAll_pure _)

theorem keepsAll_encodeInput (T : BitVec 64) (i : Nat) : KeepsAll (encodeInput T i) :=
  keepsAll_bind (keepsAll_inByte i) fun b =>
    keepsAll_bind (keepsAll_checkPass2 T i b) fun _ =>
      keepsAll_bind keepsAll_get fun _ =>
        keepsAll_forRange (fun _ => keepsAll_bind keepsAll_get fun _ => keepsAll_packBit _) _

theorem keepsAll_startPass (p : Bool) : KeepsAll (startPass p) :=
  keepsAll_modify_eq fun _ => ⟨rfl, rfl, rfl, rfl⟩

theorem keepsAll_huffCompress : KeepsAll huffCompress :=
  keepsAll_bind (keepsAll_setPhase _) fun _ =>
    keepsAll_bind (keepsAll_startPass _) fun _ =>
      keepsAll_bind keepsAll_buildFrequencyTable fun _ =>
        keepsAll_bind keepsAll_checkFrequencyRange fun _ =>
          keepsAll_bind (keepsAll_setPhase _) fun _ =>
            keepsAll_bind keepsAll_buildTree fun _ =>
              keepsAll_bind (keepsAll_setPhase _) fun _ =>
                keepsAll_bind keepsAll_buildEncodingTable fun _ =>
                  keepsAll_bind keepsAll_totalBits fun T =>
                    keepsAll_bind (keepsAll_setPhase _) fun _ =>
                      keepsAll_bind (keepsAll_serializeHeader T) fun _ =>
                        keepsAll_bind (keepsAll_setPhase _) fun _ =>
                          keepsAll_bind (keepsAll_startPass _) fun _ =>
                            keepsAll_bind keepsAll_get fun _ =>
                              keepsAll_bind (keepsAll_forRange (keepsAll_encodeInput T) _) fun _ =>
                                keepsAll_bind (keepsAll_checkPass2End T) fun _ =>
                                  keepsAll_bind (keepsAll_setPhase _) fun _ => keepsAll_packFlush

theorem keepsAll_walk (S : Nat) : ∀ n t node, KeepsAll (walk S t n node)
  | 0, _, _ => keepsAll_pure _
  | n + 1, t, node => by
    refine keepsAll_bind (keepsAll_unpackBit S t) fun bit => ?_
    refine keepsAll_bind keepsAll_get fun s => ?_
    cases nodeAt s.huff (child s.huff node bit) with
    | leaf sym w => exact keepsAll_bind (keepsAll_outByte _) fun _ => keepsAll_walk S n _ _
    | internal l r w => exact keepsAll_walk S n _ _

theorem keepsAll_decodeStream (S : Nat) (T : BitVec 64) : KeepsAll (decodeStream S T) :=
  keepsAll_bind keepsAll_get fun _ =>
    keepsAll_bind (keepsAll_walk S _ _ _) fun _ =>
      keepsAll_bind keepsAll_get fun _ => keepsAll_ite (keepsAll_raise _ _) (keepsAll_pure _)

theorem keepsAll_decodeStream1 (S : Nat) (T : BitVec 64) : KeepsAll (decodeStream1 S T) :=
  keepsAll_forRange
    (fun t => keepsAll_bind (keepsAll_unpackBit S t) fun _ =>
      keepsAll_ite (keepsAll_raise _ _) (keepsAll_bind keepsAll_get fun _ => keepsAll_outByte _)) _

theorem keepsAll_huffDecompress : KeepsAll huffDecompress :=
  keepsAll_bind keepsAll_get fun _ =>
    keepsAll_ite (keepsAll_pure ())
      (keepsAll_bind (keepsAll_setPhase _) fun _ =>
        keepsAll_bind keepsAll_parseHeader fun _ =>
          keepsAll_bind (keepsAll_checkPayloadLength _ _) fun _ =>
            keepsAll_bind keepsAll_buildTree fun _ =>
              keepsAll_bind keepsAll_buildEncodingTable fun _ =>
                keepsAll_bind (keepsAll_setPhase _) fun _ =>
                  keepsAll_bind keepsAll_get fun _ =>
                    keepsAll_ite (keepsAll_decodeStream _ _)
                      (keepsAll_ite (keepsAll_decodeStream1 _ _) (keepsAll_pure ())))

/-! LZWCodec -/

theorem keepsAll_seed : KeepsAll seed := keepsAll_modify_eq fun _ => ⟨rfl, rfl, rfl, rfl⟩

theorem keepsAll_dictInsert (p : Code) (c : Byte) : KeepsAll (dictInsert p c) :=
  keepsAll_modify_eq fun _ => by split_ifs <;> exact ⟨rfl, rfl, rfl, rfl⟩

theorem keepsAll_dictFind (w : Code) (c : Byte) : KeepsAll (dictFind w c) :=
  keepsAll_bind keepsAll_get fun _ => keepsAll_pure _

theorem keepsAll_countCode : KeepsAll countCode :=
  keepsAll_modify_eq fun _ => ⟨rfl, rfl, rfl, rfl⟩

theorem keepsAll_emitCode (k : Code) : KeepsAll (emitCode k) :=
  keepsAll_bind (keepsAll_put32 k) fun _ => keepsAll_countCode

theorem keepsAll_setW (k : Code) : KeepsAll (setW k) :=
  keepsAll_modify_eq fun _ => ⟨rfl, rfl, rfl, rfl⟩

theorem keepsAll_encodeByte (c : Byte) : KeepsAll (encodeByte c) := by
  refine keepsAll_bind keepsAll_get fun s => keepsAll_ite ?_ ?_
  · exact keepsAll_modify_eq fun _ => ⟨rfl, rfl, rfl, rfl⟩
  · refine keepsAll_bind (keepsAll_dictFind _ _) fun r => ?_
    cases r with
    | some k => exact keepsAll_setW k
    | none =>
      exact keepsAll_ite (keepsAll_raise _ _)
        (keepsAll_bind (keepsAll_emitCode _) fun _ =>
          keepsAll_bind (keepsAll_dictInsert _ _) fun _ => keepsAll_setW _)

theorem keepsAll_encodeEnd : KeepsAll encodeEnd :=
  keepsAll_bind keepsAll_get fun _ => keepsAll_ite (keepsAll_emitCode _) (keepsAll_pure ())

theorem keepsAll_lzwCompress : KeepsAll lzwCompress :=
  keepsAll_bind (keepsAll_setPhase _) fun _ =>
    keepsAll_bind keepsAll_seed fun _ =>
      keepsAll_bind keepsAll_get fun _ =>
        keepsAll_bind
          (keepsAll_forRange
            (fun i => keepsAll_bind (keepsAll_inByte i) fun c => keepsAll_encodeByte c) _)
          fun _ => keepsAll_encodeEnd

theorem keepsAll_lengthCheck : KeepsAll lengthCheck :=
  keepsAll_bind keepsAll_get fun _ => keepsAll_ite (keepsAll_raise _ _) (keepsAll_pure ())

theorem keepsAll_emitString (k : Code) : KeepsAll (emitString k) :=
  keepsAll_bind keepsAll_get fun _ => keepsAll_outBytes _

theorem keepsAll_setPrev (k : Code) : KeepsAll (setPrev k) :=
  keepsAll_modify_eq fun _ => ⟨rfl, rfl, rfl, rfl⟩

theorem keepsAll_decodeFirst : KeepsAll decodeFirst :=
  keepsAll_bind (keepsAll_get32 0) fun _ =>
    keepsAll_ite (keepsAll_raise _ _)
      (keepsAll_bind (keepsAll_emitString _) fun _ =>
        keepsAll_bind (keepsAll_modify_eq fun _ => ⟨rfl, rfl, rfl, rfl⟩) fun _ =>
          keepsAll_setPrev _)

theorem keepsAll_afterCode (k : Code) (f : Byte) : KeepsAll (afterCode k f) :=
  keepsAll_bind keepsAll_countCode fun _ =>
    keepsAll_bind keepsAll_get fun _ =>
      keepsAll_bind (keepsAll_dictInsert _ _) fun _ => keepsAll_setPrev _

theorem keepsAll_decodeNext (j : Nat) : KeepsAll (decodeNext j) := by
  refine keepsAll_bind (keepsAll_get32 _) fun k => keepsAll_bind keepsAll_get fun s => ?_
  cases classify s k with
  | undefined => exact keepsAll_raise _ _
  | defined =>
    exact keepsAll_ite (keepsAll_raise _ _)
      (keepsAll_bind (keepsAll_emitString _) fun _ => keepsAll_afterCode _ _)
  | kwkwk =>
    exact keepsAll_ite (keepsAll_raise _ _)
      (keepsAll_bind (keepsAll_emitString _) fun _ =>
        keepsAll_bind (keepsAll_outByte _) fun _ => keepsAll_afterCode _ _)

theorem keepsAll_lzwDecompress : KeepsAll lzwDecompress :=
  keepsAll_bind (keepsAll_setPhase _) fun _ =>
    keepsAll_bind keepsAll_seed fun _ =>
      keepsAll_bind keepsAll_lengthCheck fun _ =>
        keepsAll_bind keepsAll_get fun _ =>
          keepsAll_ite (keepsAll_pure ())
            (keepsAll_bind keepsAll_decodeFirst fun _ => keepsAll_forFrom keepsAll_decodeNext _ _)

/-! Commands -/

theorem keepsAll_startChecks : KeepsAll startChecks :=
  keepsAll_bind keepsAll_get fun _ =>
    keepsAll_ite (keepsAll_raise _ _)
      (keepsAll_ite (keepsAll_raise _ _)
        (keepsAll_ite (keepsAll_raise _ _)
          (keepsAll_ite (keepsAll_raise _ _) (keepsAll_pure ()))))

theorem keepsAll_commandOf (op : BitVec 3) : KeepsAll (commandOf op) := by
  unfold commandOf
  split
  · exact keepsAll_huffCompress
  · exact keepsAll_huffDecompress
  · exact keepsAll_lzwCompress
  · exact keepsAll_lzwDecompress
  · exact keepsAll_pure ()

end Sys2Proof.Machine
end

