-- ==== Sys2Proof/Laws/Transfer.lean ====
section
/-! SUPPORT. How whole byte strings move when the platform answers no error: what outBytes and inBytes leave, and how
output strings join. -/

namespace Sys2Proof.Machine

/-! The platform's answers -/

theorem State.NoBusError.answer {s : State} (h : s.NoBusError) {a : Nat} (ha : a < 2 ^ 32) (d : Dir) :
    s.busAnswer a d = false := by
  unfold State.NoBusError at h
  unfold State.busAnswer
  rw [decide_eq_false (Nat.not_le.mpr ha), Bool.false_or]
  cases hb : s.cfg.busErr with
  | some rs => rw [hb] at h; exact h a d ha
  | none => rw [hb] at h; exact h s.draws a d ha

/-- NoBusError is about the platform alone. -/
theorem State.NoBusError.of_cfg {s t : State} (h : s.NoBusError) (e : t.cfg = s.cfg) :
    t.NoBusError := by
  unfold State.NoBusError at h ⊢
  rwa [e]

/-- Inside buffer memory the state after an access is the state after one answer. -/
theorem drawn_of_lt {s : State} {a : Nat} (h : a < 2 ^ 32) : drawn s a = s.answered := by
  have h' : ¬ 2 ^ 32 ≤ a := Nat.not_le.mpr h
  cases hb : s.cfg.busErr <;> simp only [drawn, State.answered, hb, h', if_false]

theorem answered_eq (s : State) : ∃ d, s.draws ≤ d ∧ s.answered = { s with draws := d } := by
  unfold State.answered
  split
  · exact ⟨s.draws, Nat.le_refl _, rfl⟩
  · exact ⟨s.draws + 1, Nat.le_succ _, rfl⟩

/-! Output -/

@[simp] theorem afterOut_zero (s : State) : s.afterOut s.mem s.draws 0 = s := by
  simp [State.afterOut]

theorem appends_nil (s : State) : s.Appends s.mem [] := ⟨rfl, fun _ _ => rfl⟩

theorem readBytes_append (m : List Host.Cell) (a n k : Nat) :
    Memory.readBytes m a (n + k) = Memory.readBytes m a n ++ Memory.readBytes m (a + n) k := by
  induction n generalizing a with
  | zero => simp [Memory.readBytes]
  | succ n ih =>
    rw [show n + 1 + k = (n + k) + 1 by omega]
    simp [Memory.readBytes, ih, show a + 1 + n = a + (n + 1) by omega]

/-- Bytes read the same where the memories agree. -/
theorem readBytes_congr {m m' : List Host.Cell} {a n : Nat}
    (h : ∀ x, a ≤ x → x < a + n → Memory.read m x = Memory.read m' x) :
    Memory.readBytes m a n = Memory.readBytes m' a n := by
  induction n generalizing a with
  | zero => rfl
  | succ n ih =>
    simp only [Memory.readBytes]
    rw [h a (Nat.le_refl _) (by omega), ih fun x h1 h2 => h x (by omega) (by omega)]

/-- The output address after n more bytes. -/
theorem outAddr_afterOut {s : State} {m : List Host.Cell} {d n : Nat}
    (h : s.regs.outLen.toNat + n < 2 ^ 32) : outAddr (s.afterOut m d n) = outAddr s + n := by
  simp only [outAddr, State.afterOut, BitVec.toNat_add, BitVec.toNat_ofNat]
  omega

/-- Two strings appended one after the other are their concatenation. -/
theorem appends_append {s : State} {m m' : List Host.Cell} {bs cs : List Byte} {d : Nat}
    (h : s.Appends m bs) (hl : s.regs.outLen.toNat + bs.length < 2 ^ 32)
    (h' : (s.afterOut m d bs.length).Appends m' cs) : s.Appends m' (bs ++ cs) := by
  obtain ⟨h1, h2⟩ := h
  obtain ⟨h3, h4⟩ := h'
  rw [outAddr_afterOut hl] at h3 h4
  refine ⟨?_, fun a ha => ?_⟩
  · rw [List.length_append, readBytes_append, h3]
    congr 1
    rw [← h1, Memory.length_readBytes]
    refine readBytes_congr fun x hx1 hx2 => ?_
    exact h4 x (by omega)
  · rw [List.length_append] at ha
    rw [h4 a (by omega)]
    exact h2 a (by omega)

theorem afterOut_afterOut (s : State) (m m' : List Host.Cell) (d d' n k : Nat) :
    (s.afterOut m d n).afterOut m' d' k = s.afterOut m' d' (n + k) := by
  simp [State.afterOut, BitVec.add_assoc, BitVec.ofNat_add]

/-- Room is used up byte by byte. -/
theorem State.Room.after {s : State} {n k : Nat} (h : s.Room (n + k)) (m : List Host.Cell) (d : Nat) :
    (s.afterOut m d n).Room k := by
  obtain ⟨h1, h2⟩ := h
  have := s.regs.outCap.isLt
  simp only [State.Room, State.afterOut, BitVec.toNat_add, BitVec.toNat_ofNat]
  constructor <;> omega

theorem State.Room.of_le {s : State} {n k : Nat} (h : s.Room n) (hk : k ≤ n) : s.Room k := by
  obtain ⟨h1, h2⟩ := h
  constructor <;> omega

/-- OutByte with room and no error: the byte is appended. -/
theorem outByte_ok {s : State} (v : Byte) (hb : s.NoBusError) (hr : s.Room 1) :
    outByte v s = .ok () (s.answered.afterOut (Memory.write s.mem (outAddr s) v) s.answered.draws 1) := by
  obtain ⟨h1, h2⟩ := hr
  have ha : outAddr s < 2 ^ 32 := by simp only [outAddr]; omega
  have hne : s.regs.outLen ≠ s.regs.outCap := fun e => by rw [e] at h1; omega
  rw [outByte_run, if_neg hne, hb.answer ha, drawn_of_lt ha]
  obtain ⟨d, -, e⟩ := answered_eq s
  rw [e]
  rfl

/-- A string with room and no error is appended. -/
theorem outBytes_ok (bs : List Byte) {s : State} (hb : s.NoBusError) (hr : s.Room bs.length) :
    ∃ m d, outBytes bs s = .ok () (s.afterOut m d bs.length) ∧ s.Appends m bs := by
  induction bs generalizing s with
  | nil => exact ⟨s.mem, s.draws, by simp [outBytes], appends_nil s⟩
  | cons b rest ih =>
    rw [List.length_cons] at hr
    have hlt := s.regs.outCap.isLt
    have h1 := outByte_ok b hb (hr.of_le (by omega))
    obtain ⟨d0, -, e⟩ := answered_eq s
    rw [e] at h1
    let w := Memory.write s.mem (outAddr s) b
    have hw : s.Appends w [b] := by
      refine ⟨by simp [Memory.readBytes, w], fun a ha => Memory.read_write_ne _ _ ?_⟩
      simp only [List.length_singleton] at ha
      omega
    have h1' : outByte b s = .ok () (s.afterOut w d0 1) := h1
    obtain ⟨m, d, h2, h3⟩ := ih (s := s.afterOut w d0 1) (hb.of_cfg rfl)
      (State.Room.after (by rwa [Nat.add_comm] at hr) w d0)
    refine ⟨m, d, ?_, ?_⟩
    · rw [outBytes, eng_bind, h1']
      simp only [h2, afterOut_afterOut, List.length_cons, Nat.add_comm]
    · exact appends_append hw (d := d0) (by have := hr.1; simp only [List.length_singleton]; omega) h3

/-- A string that does not fit: the bytes that fit are appended, then IOWriteError at OUT_CAP. -/
theorem outBytes_full (bs : List Byte) {s : State} (n : Nat) (hb : s.NoBusError)
    (hc : s.regs.outBase.toNat + s.regs.outCap.toNat ≤ 2 ^ 32)
    (hn : s.regs.outLen.toNat + n = s.regs.outCap.toNat) (hl : n < bs.length) :
    ∃ m d, outBytes bs s
        = .error ⟨.ioWrite, BitVec.ofNat 32 s.regs.outCap.toNat⟩ (s.afterOut m d n)
      ∧ s.Appends m (bs.take n) := by
  induction bs generalizing s n with
  | nil => simp at hl
  | cons b rest ih =>
    cases n with
    | zero =>
      refine ⟨s.mem, s.draws, ?_, appends_nil s⟩
      have he : s.regs.outLen = s.regs.outCap := BitVec.eq_of_toNat_eq (by omega)
      rw [outBytes, eng_bind, outByte_run, if_pos he, afterOut_zero, he]
    | succ n =>
      have hlt := s.regs.outCap.isLt
      have hr : s.Room 1 := ⟨by omega, by omega⟩
      have h1 := outByte_ok b hb hr
      obtain ⟨d0, -, e⟩ := answered_eq s
      rw [e] at h1
      let w := Memory.write s.mem (outAddr s) b
      have hw : s.Appends w [b] := by
        refine ⟨by simp [Memory.readBytes, w], fun a ha => Memory.read_write_ne _ _ ?_⟩
        simp only [List.length_singleton] at ha
        omega
      have h1' : outByte b s = .ok () (s.afterOut w d0 1) := h1
      have hn' : (s.afterOut w d0 1).regs.outLen.toNat + n = (s.afterOut w d0 1).regs.outCap.toNat := by
        simp only [State.afterOut, BitVec.toNat_add, BitVec.toNat_ofNat]
        omega
      obtain ⟨m, d, h2, h3⟩ := ih (s := s.afterOut w d0 1) n (hb.of_cfg rfl) hc hn' (by simpa using hl)
      refine ⟨m, d, ?_, ?_⟩
      · rw [outBytes, eng_bind, h1']
        simp only [h2, afterOut_afterOut, Nat.add_comm]
        rfl
      · rw [List.take_succ_cons]
        exact appends_append hw (d := d0) (by simp only [List.length_singleton]; omega) h3

/-! Input -/

/-- InByte with no error: the byte, and IN_POS after it. -/
theorem inByte_ok {s : State} (i : Nat) (hb : s.NoBusError) (ha : inAddr s i < 2 ^ 32) :
    inByte i s = .ok (Memory.read s.mem (inAddr s i))
      { s.answered with cur := { s.cur with inPos := i + 1 } } := by
  rw [inByte_run, hb.answer ha, drawn_of_lt ha]
  obtain ⟨d, -, e⟩ := answered_eq s
  rw [e]
  rfl

/-- A field with no error: its bytes; only the read cursor and the draws change. -/
theorem inBytes_ok (n p : Nat) {s : State} (hb : s.NoBusError) (ha : inAddr s p + n ≤ 2 ^ 32) :
    ∃ c d, inBytes p n s
        = .ok (Memory.readBytes s.mem (inAddr s p) n) { s with cur := c, draws := d }
      ∧ c.bitPos = s.cur.bitPos ∧ c.pass = s.cur.pass := by
  induction n generalizing s p with
  | zero => exact ⟨s.cur, s.draws, rfl, rfl, rfl⟩
  | succ n ih =>
    obtain ⟨d0, -, e⟩ := answered_eq s
    have h1 := inByte_ok p hb (s := s) (by omega)
    rw [e] at h1
    obtain ⟨c, d, h2, h3, h4⟩ :=
      ih (p + 1) (s := { s with draws := d0, cur := { s.cur with inPos := p + 1 } }) (hb.of_cfg rfl)
        (by simp only [inAddr] at ha ⊢; omega)
    refine ⟨c, d, ?_, h3, h4⟩
    have h1' : inByte p s = .ok (Memory.read s.mem (inAddr s p))
        { s with draws := d0, cur := { s.cur with inPos := p + 1 } } := h1
    rw [inBytes, eng_bind, h1']
    simp only [eng_bind, h2, eng_pure, Memory.readBytes]
    rfl

/-- The 32-bit field at offset p. -/
theorem get32_ok (p : Nat) {s : State} (hb : s.NoBusError) (ha : inAddr s p + 4 ≤ 2 ^ 32) :
    ∃ c d, get32 p s = .ok (s.inWord p) { s with cur := c, draws := d }
      ∧ c.bitPos = s.cur.bitPos ∧ c.pass = s.cur.pass := by
  obtain ⟨c, d, h, h1, h2⟩ := inBytes_ok 4 p hb ha
  exact ⟨c, d, by rw [get32, eng_bind, h]; rfl, h1, h2⟩

/-- The 64-bit field at offset p. -/
theorem get64_ok (p : Nat) {s : State} (hb : s.NoBusError) (ha : inAddr s p + 8 ≤ 2 ^ 32) :
    ∃ c d, get64 p s = .ok (s.inDouble p) { s with cur := c, draws := d }
      ∧ c.bitPos = s.cur.bitPos ∧ c.pass = s.cur.pass := by
  obtain ⟨c, d, h, h1, h2⟩ := inBytes_ok 8 p hb ha
  exact ⟨c, d, by rw [get64, eng_bind, h]; rfl, h1, h2⟩

end Sys2Proof.Machine
end

