-- ==== Sys2Proof/Laws/Command.lean ====
section
/-! SUPPORT. The laws of whole commands and of the host's register writes. -/

namespace Sys2Proof.Machine

/-- The word CMD reads decodes to the command of its OP. -/
@[simp] theorem decodeCmd_op (op : BitVec 3) : decodeCmd (op.setWidth 32) = decodeOp op := by
  revert op
  decide

/-- Every command's meaning is runCommand of its OP. -/
theorem exec_decodeOp (op : BitVec 3) (s : State) :
    exec (decodeOp op) s = .next (runCommand op s) := by
  have h : op = 0#3 ∨ op = 1#3 ∨ op = 2#3 ∨ op = 3#3 ∨ op = 4#3 ∨ op = 5#3 ∨ op = 6#3
      ∨ op = 7#3 := by
    revert op
    decide
  rcases h with h | h | h | h | h | h | h | h <;> subst h <;> rfl

/-- Launching a launched machine changes nothing: the command in flight is the command (log 14). -/
@[simp] theorem launch_launch (s : State) : launch (launch s) = launch s := rfl

/-- A command whose start checks pass: its operation, then completion or the error. -/
theorem runCommand_started {op : BitVec 3} {s : State} {t : State}
    (h : startChecks (launch { s with regs := { s.regs with op := op } }) = .ok () t) :
    runCommand op s = endState ((commandOf op >>= fun _ => modify completed : Eng Unit) t) := by
  rw [runCommand, commandBody, eng_bind, h]

/-- A command that a start check stops. -/
theorem runCommand_stopped {op : BitVec 3} {s t : State} {e : Raise}
    (h : startChecks (launch { s with regs := { s.regs with op := op } }) = .error e t) :
    runCommand op s = raiseError e t := by
  rw [runCommand, commandBody, eng_bind, h]
  rfl

/-- A write to CTRL outside the hardware reset. -/
theorem hostWrite_ctrl {s : State} (h : s.hwReset = false) (v : Word) :
    hostWrite offCtrl v s = .next (hostWriteCtrl v s) := by
  simp [hostWrite, accessRefusal, h, writeReg, offCtrl]

/-- A write to STATUS outside the hardware reset. -/
theorem hostWrite_status {s : State} (h : s.hwReset = false) (v : Word) :
    hostWrite offStatus v s = .next (hostWriteStatus v s) := by
  simp [hostWrite, accessRefusal, h, writeReg, offCtrl, offStatus]

end Sys2Proof.Machine
end

