-- ==== Sys2Proof/Laws/Lzw.lean ====
section
/-! SUPPORT. The laws of the LZW operations: what Seed, Insert and Find leave. -/

namespace Sys2Proof.Machine

/-- The seed entries as a map. -/
theorem sparseGet?_seedEntries (a n k : Nat) :
    sparseGet? (seedEntries a n) k
      = if a ≤ k ∧ k < a + n then some ⟨none, BitVec.ofNat 8 k, BitVec.ofNat 8 k, 1⟩ else none := by
  induction n generalizing a with
  | zero => rw [if_neg (by omega)]; rfl
  | succ n ih =>
    rw [seedEntries, sparseGet?, ih]
    by_cases h : k = a
    · subst h
      rw [if_pos rfl, if_pos (by omega)]
    · rw [if_neg h]
      by_cases h2 : a + 1 ≤ k ∧ k < a + 1 + n
      · rw [if_pos h2, if_pos (by omega)]
      · rw [if_neg h2, if_neg (by omega)]

theorem sparseRising_seedEntries (lo a n : Nat) (h : lo ≤ a) :
    sparseRising lo (seedEntries a n) = true := by
  induction n generalizing lo a with
  | zero => rfl
  | succ n ih => simp [seedEntries, sparseRising, h, ih]

/-- Seed. -/
theorem seed_run (s : State) :
    seed s = .ok () { s with
      lzw := { s.lzw with dict := seedDict s.lzw.dict, next := 256#32 }
      regs := { s.regs with lzwNext := 256#32 } } := rfl

/-- Insert with room left. -/
theorem dictInsert_room (p : Code) (c : Byte) {s : State}
    (h : s.lzw.next.toNat < s.cfg.lzwCap.toNat) :
    dictInsert p c s = .ok () { s with
      lzw := insertEntry p c s.lzw, regs := { s.regs with lzwNext := s.lzw.next + 1#32 } } := by
  unfold dictInsert
  rw [eng_modify, if_pos h]

/-- Insert into a full dictionary. -/
theorem dictInsert_full (p : Code) (c : Byte) {s : State}
    (h : s.cfg.lzwCap.toNat ≤ s.lzw.next.toNat) : dictInsert p c s = .ok () s := by
  unfold dictInsert
  rw [eng_modify, if_neg (Nat.not_lt.mpr h)]

/-- Find. -/
theorem dictFind_run (w : Code) (c : Byte) (s : State) :
    dictFind w c s = .ok (findCode s.lzw w c) s := rfl

/-- EmitCode with room for the code and no error. -/
theorem emitCode_ok (k : Code) {s : State} (hb : s.NoBusError) (hr : s.Room 4) :
    ∃ m d, emitCode k s = .ok () { s.afterOut m d 4 with
        regs := { (s.afterOut m d 4).regs with lzwCodes := s.regs.lzwCodes + 1#32 } }
      ∧ s.Appends m (leBytes k.toNat 4) := by
  obtain ⟨m, d, h1, h2⟩ := outBytes_ok (leBytes k.toNat 4) hb hr
  exact ⟨m, d, by rw [emitCode, eng_bind, put32, h1]; rfl, h2⟩

/-- EmitString with room for the string and no error. -/
theorem emitString_ok (k : Code) {s : State} (hb : s.NoBusError)
    (hr : s.Room (stringOf s.lzw k).length) :
    ∃ m d, emitString k s = .ok () (s.afterOut m d (stringOf s.lzw k).length)
      ∧ s.Appends m (stringOf s.lzw k) := by
  obtain ⟨m, d, h1, h2⟩ := outBytes_ok (stringOf s.lzw k) hb hr
  exact ⟨m, d, by rw [emitString, eng_bind, eng_get]; exact h1, h2⟩

end Sys2Proof.Machine
end

