-- ==== Sys2Proof/Tests/Slice0.lean ====
section
/-! SUPPORT. Tests on small states: ill-formed terms that WellFormed refuses, the decoding of words written out from
30_encoding.md, one or two steps per instruction against the examples of spec/ (95_test_vectors.md and the
Example lines of the rules), and a witness for the hypotheses of every obligation. -/

namespace Sys2Proof.Machine

set_option Elab.async false

/-! Helpers -/

/-- The reset state on a known platform that answers no access with an error. -/
def testBase : State := { State.reset with cfg := { Platform.default with busErr := some [] } }

/-- Input bytes at 0x100, an output region of `cap` bytes at 0x200. -/
def testIo (input : List Byte) (cap : Nat) : State :=
  { testBase with
    mem := Memory.writeBytes [] 0x100 input
    regs := { Regs.reset with
      inBase := 0x100#32, inLen := BitVec.ofNat 32 input.length, outBase := 0x200#32,
      outCap := BitVec.ofNat 32 cap } }

/-- The state an instruction leaves, or the state before it when it stops. -/
def testAfter (i : Instr) (s : State) : State := match exec i s with | .next t => t | _ => s

/-- The state a step leaves, or the state before it when it stops. -/
def testStep (s : State) : State := match step s with | .next t => t | _ => s

/-- The refusal of a step. -/
def testRefusal (s : State) : Option Refusal := match step s with | .refused r => some r | _ => none

/-- "abracadabra" (42_huffman.md). -/
def testAbra : List Byte :=
  [0x61#8, 0x62#8, 0x72#8, 0x61#8, 0x63#8, 0x61#8, 0x64#8, 0x61#8, 0x62#8, 0x72#8, 0x61#8]

/-- "ababab" (43_lzw.md R254). -/
def testAbab : List Byte := [0x61#8, 0x62#8, 0x61#8, 0x62#8, 0x61#8, 0x62#8]

/-- The Huffman file of "abracadabra" (R201, R202). -/
def testAbraFile : List Byte :=
  [0x05#8, 0#8, 0#8, 0#8, 0x61#8, 5#8, 0#8, 0#8, 0#8, 0x62#8, 2#8, 0#8, 0#8, 0#8, 0x72#8, 2#8, 0#8, 0#8,
    0#8, 0x63#8, 1#8, 0#8, 0#8, 0#8]
    ++ [0x64#8, 1#8, 0#8, 0#8, 0#8, 0x17#8, 0#8, 0#8, 0#8, 0#8, 0#8, 0#8, 0#8, 0x6E#8, 0x8A#8, 0xDC#8]

/-- The tables of "abracadabra" after its first pass (R190). -/
def testAbraHuff : Huff :=
  { Huff.cleared with
    freq := tset (tset (tset (tset (tset Huff.cleared.freq 0x61#8 5#32) 0x62#8 2#32) 0x72#8 2#32)
      0x63#8 1#32) 0x64#8 1#32
    order := tset (tset (tset (tset (tset Huff.cleared.order 0#8 0x61#8) 1#8 0x62#8) 2#8 0x72#8)
      3#8 0x63#8) 4#8 0x64#8
    u := 5 }

/-- The same with its tree built, and with its codes. -/
def testAbraTree : State := testAfter .buildTree { testIo testAbra 64 with huff := testAbraHuff }

/-- A dictionary of the seeds, entry 256 = "ab", and the match w. -/
def testDict (w : Code) : State :=
  let s := testAfter (.insert 97#32 98#8) (testAfter .seed (testIo testAbab 64))
  { s with lzw := { s.lzw with w := w, wValid := true, prev := 97#32 } }

/-- A running command that lets one more entry of the host pass. -/
def testBusy (op : HostOp) : State :=
  { launch { testIo testAbra 64 with regs := { (testIo testAbra 64).regs with op := 1#3 } } with
    host := [op], latency := 1 }

/-- An idle machine with one host entry. -/
def testIdle (op : HostOp) : State := { testIo testAbra 64 with host := [op] }

/-- A state held in the hardware reset with one host entry. -/
def testHeld (op : HostOp) : State := { testBase with hwReset := true, host := [op] }

theorem testBase_noBusError {s : State} (h : s.cfg.busErr = some []) : s.NoBusError := by
  unfold State.NoBusError
  rw [h]
  intro a d _
  rfl

/-! WellFormed refuses an operand out of its range -/

theorem test_wf_unpackBit_offset : (Instr.unpackBit (2 ^ 32) 0).wf = false := by decide
theorem test_wf_unpackBit_index : (Instr.unpackBit 0 (2 ^ 63)).wf = false := by decide
theorem test_wf_serializeHeader : (Instr.serializeHeader (BitVec.ofNat 64 (2 ^ 40))).wf = false := by decide
theorem test_wf_checkPayloadLength_count : (Instr.checkPayloadLength 257 0#64).wf = false := by decide
theorem test_wf_checkPayloadLength_bits :
    (Instr.checkPayloadLength 0 (BitVec.ofNat 64 (2 ^ 63))).wf = false := by decide
theorem test_wf_decodeStream :
    (Instr.decodeStream (2 ^ 32) 0#64).wf = false
      ∧ (Instr.decodeStream 0 (BitVec.ofNat 64 (2 ^ 63))).wf = false := by decide
theorem test_wf_decodeStream1 :
    (Instr.decodeStream1 (2 ^ 32) 0#64).wf = false
      ∧ (Instr.decodeStream1 0 (BitVec.ofNat 64 (2 ^ 63))).wf = false := by decide
theorem test_wf_insert : (Instr.insert 0x80000000#32 0#8).wf = false := by decide
theorem test_wf_find : (Instr.find 0x80000000#32 0#8).wf = false := by decide
theorem test_wf_emitString : (Instr.emitString 0x80000000#32).wf = false := by decide
theorem test_wf_decodeNext :
    (Instr.decodeNext 0).wf = false ∧ (Instr.decodeNext (2 ^ 30 - 1)).wf = false := by decide
theorem test_wf_run : (Instr.run 8#32 0#32 0#32 0#32 0#32 0#32).wf = false := by decide
theorem test_wf_accepts :
    (Instr.unpackBit (2 ^ 32 - 1) (2 ^ 63 - 1)).wf = true ∧ (Instr.decodeNext 1).wf = true
      ∧ (Instr.run 7#32 0#32 0#32 0#32 0#32 0#32).wf = true := by decide

/-! Decoding: words written out from 30_encoding.md R100 to R108 -/

theorem test_decode_reserved0 : decodeCmd 0b00000000000000000000000000000000#32 = .reserved0 := by decide
theorem test_decode_huffCompress : decodeCmd 0b00000000000000000000000000000001#32 = .huffCompress := by decide
theorem test_decode_huffDecompress : decodeCmd 0b00000000000000000000000000000010#32 = .huffDecompress := by
  decide
theorem test_decode_lzwCompress : decodeCmd 0b00000000000000000000000000000011#32 = .lzwCompress := by decide
theorem test_decode_lzwDecompress : decodeCmd 0b00000000000000000000000000000100#32 = .lzwDecompress := by
  decide
theorem test_decode_reserved5 : decodeCmd 0b00000000000000000000000000000101#32 = .reserved5 := by decide
theorem test_decode_reserved6 : decodeCmd 0b00000000000000000000000000000110#32 = .reserved6 := by decide
theorem test_decode_reserved7 : decodeCmd 0b00000000000000000000000000000111#32 = .reserved7 := by decide
theorem test_decode_ignores_high_bits : decodeCmd 0b11111111111111111111111111111001#32 = .huffCompress := by
  decide
/-- `W 0x008 0x0000_0001`. -/
theorem test_decode_start : decode ⟨.write, 0x08#8, 0x00000001#32⟩ = .ok (.start false false) := by decide
theorem test_decode_start_fields :
    decode ⟨.write, 0x08#8, 0x0000000D#32⟩ = .ok (.start true true)
      ∧ decode ⟨.write, 0x08#8, 0x00000005#32⟩ = .ok (.start true false) := by decide
/-- `W 0x008 0x0000_0003`: SOFT_RESET wins over START (R146). -/
theorem test_decode_softReset : decode ⟨.write, 0x08#8, 0x00000003#32⟩ = .ok .softReset := by decide
theorem test_decode_clearDone : decode ⟨.write, 0x10#8, 0x00000002#32⟩ = .ok .clearDone := by decide
theorem test_decode_run :
    decodeList [⟨.write, 0x14#8, 1#32⟩, ⟨.write, 0x18#8, 2#32⟩, ⟨.write, 0x1C#8, 3#32⟩,
      ⟨.write, 0x20#8, 4#32⟩, ⟨.write, 0x0C#8, 3#32⟩, ⟨.write, 0x08#8, 0b1001#32⟩]
      = .ok (.run 3#32 1#32 2#32 3#32 4#32 8#32) := by decide
/-- R106: WAITDONE polls STATUS at 0x010; R107, R108: CLRDONE and SRESET are `W 0x010 0x2` and `W 0x008 0x2`. -/
theorem test_encode_pseudo :
    encode .waitdone = [⟨.read, 0x10#8, 0#32⟩] ∧ encode .clrdone = [⟨.write, 0x10#8, 2#32⟩]
      ∧ encode .sreset = [⟨.write, 0x08#8, 2#32⟩] := by decide
theorem test_decode_rejects :
    decode ⟨.read, 0x10#8, 0#32⟩ = .error .registerRead
      ∧ decode ⟨.write, 0x14#8, 1#32⟩ = .error .plainWrite
      ∧ decode ⟨.write, 0x08#8, 0xC#32⟩ = .error .ctrlWithoutAction
      ∧ decode ⟨.write, 0x10#8, 0xFFFFFFFD#32⟩ = .error .statusWithoutDone
      ∧ decodeList [] = .error .noSuchSequence := by decide
/-- The transaction `W 0x008 0x0000_0001` as a table word: direction bit 40, offset 39:32, data 31:0. -/
theorem test_decodeTableWord : decodeTableWord 48 0x10800000001 = some (.start false false) := by decide

/-! BitPacker (vectors B1 to B8) -/

theorem test_packBit_eighth :
    let t := testAfter (.packBit false) { testIo [] 4 with pack := ⟨0x6E#8, 7#3, 7⟩ }
    t.output = [0x6E#8] ∧ t.pack = ⟨0#8, 0#3, 8⟩ := by decide +kernel
theorem test_packBit_second :
    (testAfter (.packBit true) { testIo [] 4 with pack := ⟨0#8, 1#3, 1⟩ }).pack = ⟨0x40#8, 2#3, 2⟩ := by
  decide +kernel
theorem test_packFlush :
    let t := testAfter .packFlush { testIo [] 4 with pack := ⟨0xDC#8, 7#3, 23⟩ }
    t.output = [0xDC#8] ∧ t.pack = ⟨0#8, 0#3, 23⟩ := by decide +kernel
theorem test_packFlush_full :
    let t := testAfter .packFlush { testIo [] 0 with pack := ⟨0x40#8, 2#3, 2⟩ }
    t.regs.statusWord = 0x306#32 ∧ t.pack = ⟨0x40#8, 2#3, 2⟩ := by decide +kernel
theorem test_unpackBit :
    (testAfter (.unpackBit 0 1) (testIo [0x6E#8] 0)).ret = .bit true
      ∧ (testAfter (.unpackBit 0 7) (testIo [0x6E#8] 0)).ret = .bit false := by decide +kernel
theorem test_unpackBit_byte2 :
    (testAfter (.unpackBit 0 22) (testIo [0x6E#8, 0x8A#8, 0xDC#8] 0)).ret = .bit false := by decide +kernel

/-! HuffmanCodec (vector T1, the Example lines of 42_huffman.md) -/

theorem test_buildFrequencyTable :
    let t := testAfter .buildFrequencyTable (testIo testAbra 0)
    t.huff.u = 5 ∧ ranked t.huff = [0x61#8, 0x62#8, 0x72#8, 0x63#8, 0x64#8]
      ∧ tget t.huff.freq 0x61#8 = 5#32 ∧ tget t.huff.freq 0x64#8 = 1#32
      ∧ tget t.huff.rank 0x63#8 = 3#8 := by decide +kernel
theorem test_checkFrequencyRange :
    (testAfter .checkFrequencyRange
      { testBase with huff := { Huff.cleared with freq := tset Huff.cleared.freq 7#8 0x80000000#32 } }).regs.errInfo
      = 2#32 := by decide +kernel
theorem test_checkFrequencyRange_top :
    (testAfter .checkFrequencyRange
      { testBase with huff := { Huff.cleared with freq := tset Huff.cleared.freq 7#8 0x7FFFFFFF#32 } }).regs.error
      = false := by decide +kernel
theorem test_seedLeaves :
    let t := testAfter .seedLeaves { testBase with huff := testAbraHuff }
    t.huff.node = [(0, .leaf 0x61#8 5), (1, .leaf 0x62#8 2), (2, .leaf 0x72#8 2), (3, .leaf 0x63#8 1),
      (4, .leaf 0x64#8 1)] ∧ t.huff.queue = [0, 1, 2, 3, 4] ∧ t.huff.nnodes = 5 := by decide +kernel
/-- A leaf and an internal node of equal weight pop leaf first (T6). -/
theorem test_popMin_tie :
    let s := { testBase with huff := { Huff.cleared with
      node := [(0, .leaf 0xFF#8 3), (1, .leaf 0#8 2), (2, .leaf 0x10#8 1), (3, .internal 2 1 3)]
      queue := [0, 3] } }
    (testAfter .popMin s).ret = .node 0 ∧ (testAfter .popMin s).huff.queue = [3] := by decide +kernel
theorem test_buildTree :
    testAbraTree.huff.root = 8 ∧ nodeAt testAbraTree.huff 5 = .internal 3 4 2
      ∧ nodeAt testAbraTree.huff 6 = .internal 1 2 4 ∧ nodeAt testAbraTree.huff 7 = .internal 5 6 6
      ∧ nodeAt testAbraTree.huff 8 = .internal 0 7 11 := by decide +kernel
theorem test_buildEncodingTable :
    let h := (testAfter .buildEncodingTable testAbraTree).huff
    codeOf h 0x61#8 = [false] ∧ codeOf h 0x63#8 = [true, false, false]
      ∧ codeOf h 0x64#8 = [true, false, true] ∧ codeOf h 0x62#8 = [true, true, false]
      ∧ codeOf h 0x72#8 = [true, true, true] ∧ codeOf h 0x7A#8 = [] := by decide +kernel
theorem test_totalBits :
    (testAfter .totalBits (testAfter .buildEncodingTable testAbraTree)).ret = .bits 23#64 := by
  decide +kernel
theorem test_serializeHeader :
    (testAfter (.serializeHeader 23#64) { testIo [] 64 with huff := testAbraHuff }).output
      = testAbraFile.take 37 := by decide +kernel
theorem test_parseHeader :
    let t := testAfter .parseHeader (testIo testAbraFile 0)
    t.ret = .header 5 23#64 ∧ ranked t.huff = [0x61#8, 0x62#8, 0x72#8, 0x63#8, 0x64#8]
      ∧ t.regs.huffUnique = 5#9 ∧ t.regs.huffBitsLo = 23#32 := by decide +kernel
/-- A repeated byte value in pair 1 leaves the table of pair 0 (vector HD10, R213). -/
theorem test_parseHeader_kept :
    let t := testAfter .parseHeader (testIo ([2#8, 0#8, 0#8, 0#8, 0x61#8, 1#8, 0#8, 0#8, 0#8, 0x61#8, 1#8, 0#8, 0#8, 0#8]
      ++ List.replicate 9 0#8) 0)
    t.regs.statusWord = 0x406#32 ∧ t.regs.errInfo = 9#32 ∧ t.huff.u = 1 ∧ tget t.huff.freq 0x61#8 = 1#32 := by
  decide +kernel
/-- A header cut to 11 bytes of u = 5 is inconsistent with its count (R205). -/
theorem test_parseHeader_short :
    (testAfter .parseHeader (testIo (testAbraFile.take 11) 0)).regs.statusWord = 0x406#32 := by
  decide +kernel
theorem test_checkPayloadLength :
    (testAfter (.checkPayloadLength 5 24#64) (testIo testAbraFile 0)).ret = .offset 37
      ∧ (testAfter (.checkPayloadLength 5 25#64) (testIo testAbraFile 0)).regs.errInfo = 29#32 := by
  decide +kernel
theorem test_decodeStream :
    (testAfter (.decodeStream 0 23#64)
      { testAbraTree with
        mem := Memory.writeBytes [] 0x100 [0x6E#8, 0x8A#8, 0xDC#8]
        regs := { testAbraTree.regs with inLen := 3#32 } }).output = testAbra := by decide +kernel
/-- "0" then "11", inside a code: CorruptDataError at the byte of the last bit, one symbol out (R208). -/
theorem test_decodeStream_incomplete :
    let t := testAfter (.decodeStream 0 3#64)
      { testAbraTree with
        mem := Memory.writeBytes [] 0x100 [0x6E#8]
        regs := { testAbraTree.regs with inLen := 1#32 } }
    t.regs.statusWord = 0x506#32 ∧ t.regs.errInfo = 0#32 ∧ t.output = [0x61#8] := by decide +kernel
theorem test_decodeStream1 :
    let t := testAfter (.decodeStream1 0 4#64)
      { testIo [0b00100000#8] 8 with huff := { testAbraHuff with u := 1 } }
    t.output = [0x61#8, 0x61#8] ∧ t.regs.statusWord = 0x506#32 := by decide +kernel

/-! LZWCodec (R254, R261 examples) -/

theorem test_seed :
    let t := testAfter .seed testBase
    t.regs.lzwNext = 256#32 ∧ t.lzw.dict.length = 256
      ∧ sparseGet? t.lzw.dict 97 = some ⟨none, 97#8, 97#8, 1⟩ := by decide +kernel
theorem test_insert :
    sparseGet? (testDict 97#32).lzw.dict 256 = some ⟨some 97#32, 98#8, 97#8, 2⟩
      ∧ (testDict 97#32).lzw.next = 257#32 := by decide +kernel
theorem test_find :
    (testAfter (.find 97#32 98#8) (testDict 97#32)).ret = .code (some 256#32)
      ∧ (testAfter (.find 98#32 97#8) (testDict 97#32)).ret = .code none := by decide +kernel
/-- "ab" followed by 'a': 256 is written, "aba" becomes 257 here, the match is 'a' (R254). -/
theorem test_encodeByte_emits :
    let t := testAfter (.encodeByte 97#8) (testDict 256#32)
    t.output = [0#8, 1#8, 0#8, 0#8] ∧ t.lzw.w = 97#32 ∧ t.regs.lzwCodes = 1#32
      ∧ sparseGet? t.lzw.dict 257 = some ⟨some 256#32, 97#8, 97#8, 3⟩ := by decide +kernel
theorem test_encodeByte_extends :
    (testAfter (.encodeByte 98#8) (testDict 97#32)).lzw.w = 256#32 := by decide +kernel
theorem test_encodeEnd :
    (testAfter .encodeEnd (testDict 256#32)).output = [0#8, 1#8, 0#8, 0#8] := by decide +kernel
theorem test_lengthCheck :
    (testAfter .lengthCheck (testIo testAbab 0)).regs.errInfo = 4#32 := by decide +kernel
theorem test_decodeFirst :
    let t := testAfter .decodeFirst (testAfter .seed (testIo [0x61#8, 0#8, 0#8, 0#8] 8))
    t.output = [0x61#8] ∧ t.lzw.prev = 97#32 ∧ t.regs.lzwCodes = 1#32 := by decide +kernel
theorem test_decodeFirst_undefined :
    (testAfter .decodeFirst (testAfter .seed (testIo [0#8, 1#8, 0#8, 0#8] 8))).regs.statusWord = 0x506#32 := by
  decide +kernel
/-- Codes 97, 256: code 1 is NEXT; it writes 97 97, inserts 256 = "aa" and PREV is 256 (R261). -/
theorem test_decodeNext_kwkwk :
    let s := testAfter .seed (testIo [0x61#8, 0#8, 0#8, 0#8, 0#8, 1#8, 0#8, 0#8] 8)
    let t := testAfter (.decodeNext 1) { s with lzw := { s.lzw with prev := 97#32 } }
    t.output = [97#8, 97#8] ∧ t.lzw.prev = 256#32 ∧ stringOf t.lzw 256#32 = [97#8, 97#8] := by
  decide +kernel
/-- Code 300 after one code is undefined: CorruptDataError at offset 4 (vector LD5). -/
theorem test_decodeNext_undefined :
    let s := testAfter .seed (testIo [0x61#8, 0#8, 0#8, 0#8, 0x2C#8, 1#8, 0#8, 0#8] 8)
    let t := testAfter (.decodeNext 1) { s with lzw := { s.lzw with prev := 97#32 } }
    t.regs.statusWord = 0x506#32 ∧ t.regs.errInfo = 4#32 := by decide +kernel
theorem test_emitString :
    (testAfter (.emitString 256#32) (testDict 97#32)).output = [97#8, 98#8] := by decide +kernel

/-! Commands (S1, HC3, HD4, S4, LC6, HC1) -/

theorem test_huffCompress_empty :
    let t := testAfter .huffCompress (testIo [] 12)
    t.regs.statusWord = 2#32 ∧ t.output = List.replicate 12 0#8 := by decide +kernel
theorem test_huffCompress_degenerate :
    let t := testAfter .huffCompress (testIo [0x61#8, 0x61#8, 0x61#8, 0x61#8] 18)
    t.regs.statusWord = 2#32
      ∧ t.output = [1#8, 0#8, 0#8, 0#8, 0x61#8, 4#8, 0#8, 0#8, 0#8, 4#8, 0#8, 0#8, 0#8, 0#8, 0#8, 0#8,
          0#8, 0#8] := by decide +kernel
theorem test_huffDecompress_abracadabra :
    let t := testAfter .huffDecompress (testIo testAbraFile 11)
    t.regs.statusWord = 2#32 ∧ t.output = testAbra := by decide +kernel
theorem test_huffDecompress_empty :
    (testAfter .huffDecompress (testIo [] 0)).regs.statusWord = 2#32 := by decide +kernel
theorem test_lzwCompress_abab :
    let t := testAfter .lzwCompress (testIo [0x61#8, 0x62#8, 0x61#8, 0x62#8] 12)
    t.regs.statusWord = 2#32 ∧ t.regs.lzwNext = 258#32
      ∧ t.output = [0x61#8, 0#8, 0#8, 0#8, 0x62#8, 0#8, 0#8, 0#8, 0#8, 1#8, 0#8, 0#8] := by decide +kernel
theorem test_lzwDecompress_abab :
    let t := testAfter .lzwDecompress
      (testIo [0x61#8, 0#8, 0#8, 0#8, 0x62#8, 0#8, 0#8, 0#8, 0#8, 1#8, 0#8, 0#8] 4)
    t.regs.statusWord = 2#32 ∧ t.output = [0x61#8, 0x62#8, 0x61#8, 0x62#8] := by decide +kernel
/-- CMD = 0, START: STATUS reads 0x0000_0606, ERR_INFO = 0 (R148). -/
theorem test_reserved :
    (testAfter .reserved0 (testIo testAbra 64)).regs.statusWord = 0x606#32
      ∧ (testAfter .reserved5 testBase).regs.statusWord = 0x606#32
      ∧ (testAfter .reserved6 testBase).regs.statusWord = 0x606#32
      ∧ (testAfter .reserved7 testBase).regs.errInfo = 0#32 := by decide +kernel

/-! Control actions and pseudo-instructions -/

theorem test_start :
    (testAfter (.start true false) (testIo testAbra 64)).regs.statusWord = 1#32
      ∧ (testAfter (.start true false) (testIo testAbra 64)).regs.ctrlWord = 4#32 := by decide +kernel
/-- `WR CTRL, 0x3` while idle leaves every register at its reset value and starts nothing (R146). -/
theorem test_softReset :
    (testStep (testIdle (.wr 0x08#8 3#32))).regs = Regs.reset
      ∧ (testStep (testIdle (.wr 0x08#8 3#32))).phase = .idle := by decide +kernel
/-- After a failed command `WR STATUS, 0x2` leaves STATUS = 0x0000_0504 when ERR_CODE = 5 (R145). -/
theorem test_clearDone :
    let s := { testBase with regs := { Regs.reset with done := true, error := true, errCode := 5#3 } }
    (testAfter .clearDone s).regs.statusWord = 0x504#32
      ∧ (testAfter .clrdone s).regs.statusWord = 0x504#32 := by decide +kernel
theorem test_run :
    let t := testAfter (.run 3#32 0x100#32 0#32 0x200#32 0#32 4#32) testBase
    t.regs.statusWord = 1#32 ∧ t.regs.cmdWord = 3#32 ∧ t.regs.ctrlWord = 4#32
      ∧ t.regs.outBase = 0x200#32 := by decide +kernel
/-- CMD.OP = 3, IN_LEN = 0, OUT_CAP = 0: START completes with DONE = 1 and OUT_LEN = 0 (R141). -/
theorem test_run_then_engine :
    let t := testStep (testAfter (.run 3#32 0x100#32 0#32 0x200#32 0#32 4#32) testBase)
    t.regs.statusWord = 2#32 ∧ t.regs.outLen = 0#32 ∧ t.irq = true := by decide +kernel
theorem test_waitdone :
    (testAfter .waitdone testBase).host = [.poll 0x10#8 2#32 2#32]
      ∧ (testAfter .waitdone { testBase with regs := { Regs.reset with done := true } }).host = [] := by
  decide +kernel
theorem test_sreset : (testAfter .sreset (testIo testAbra 64)).regs = Regs.reset := by decide +kernel

/-! The host: reads, refusals, the hardware reset -/

theorem test_read_id : (testStep (testIdle (.rd 0x00#8))).results = [0x46434352#32] := by decide +kernel
theorem test_busRead_lzwCap : (testStep (testIdle (.busRead 0x44#32 4))).results = [4096#32] := by
  decide +kernel
theorem test_busWrite_little_endian :
    (testStep (testIdle (.busWrite 0x14#32 [0x78#8, 0x56#8, 0x34#8, 0x12#8]))).regs.inBase = 0x12345678#32 := by
  decide +kernel
theorem test_misaligned : testRefusal (testIdle (.rd 0x02#8)) = some .badRegisterAccess := by decide +kernel
theorem test_refused_duties :
    testRefusal (testBusy (.mem 0x100#32 [0#8])) = some .hostDutyBroken
      ∧ testRefusal (testBusy (.memRd 0x23F#32)) = some .hostDutyBroken
      ∧ testRefusal (testBusy (.memRd 0x240#32)) = none
      ∧ testRefusal (testIdle (.instr .packFlush)) = some .notHostIssuable
      ∧ testRefusal (testIdle (.busRead 0x100#32 4)) = some .notRegisterBlock := by decide +kernel
theorem test_hwReset :
    (testStep (testIdle (.hwReset true))).hwReset = true
      ∧ testRefusal (testHeld (.wr 0x14#8 1#32)) = some .accessDuringReset
      ∧ testRefusal (testHeld (.rd 0x00#8)) = some .accessDuringReset
      ∧ (testStep (testHeld (.hwReset false))).hwReset = false := by decide +kernel
/-- SYM_SEL = 0x63 after "abracadabra" reads 1, 3, 3, 0x8000_0000, 0 (W1). -/
theorem test_symWindow :
    let t := testAfter .buildEncodingTable testAbraTree
    let s := { t with
      huff := { t.huff with rank := tset t.huff.rank 0x63#8 3#8 }
      regs := { t.regs with symSel := 0x63#8 } }
    s.regWord 0x4C#8 = 1#32 ∧ s.regWord 0x50#8 = 3#32 ∧ s.regWord 0x54#8 = 3#32
      ∧ s.regWord 0x60#8 = 0x80000000#32 ∧ s.regWord 0x64#8 = 0#32 := by decide +kernel
theorem test_withFetchWord :
    (testStep (testBase.withFetchWord 32 3)).regs.statusWord = 2#32
      ∧ (testStep (testBase.withFetchWord 48 0x10800000001)).regs.statusWord = 1#32 := by decide +kernel

/-! Witnesses: a concrete state and operands that meet the hypotheses of each obligation, clause by clause -/

/-- A state whose platform answers every write with an error. -/
def testBadBus (s : State) : State :=
  { s with cfg := { s.cfg with busErr := some [⟨0#32, 0xFFFFFFFF#32, .write⟩, ⟨0#32, 0xFFFFFFFF#32, .read⟩] } }

/-- s on a known platform that answers one direction of access at one address with an error. -/
def testErr (a : Word) (d : Dir) (s : State) : State := { s with cfg := { s.cfg with busErr := some [⟨a, a, d⟩] } }

theorem testErr_readFails {a : Word} {s : State} {k : Nat} (h : inAddr s k = a.toNat) :
    (testErr a .read s).ReadFails k := by
  have hk : s.regs.inBase.toNat + k = a.toNat := h
  have ha : a.toNat < 2 ^ 32 := a.isLt
  exact ⟨_, rfl, fun x _ => by simp [knownBusError],
    fun i hi => by
      have hn : ¬(a.toNat ≤ s.regs.inBase.toNat + i) := by omega
      simp [knownBusError, inAddr, testErr, hn],
    by simp [knownBusError, inAddr, testErr, hk], by simp only [inAddr, testErr]; omega⟩

theorem testErr_writeFails {a : Word} {s : State} {n : Nat} (h : s.regs.outBase.toNat + n = a.toNat) :
    (testErr a .write s).WriteFails n := by
  exact ⟨_, rfl, fun x _ => by simp [knownBusError],
    fun m hm => by
      have hn : ¬(a.toNat ≤ s.regs.outBase.toNat + m) := by omega
      simp [knownBusError, testErr, hn],
    by simp [knownBusError, testErr, h]⟩

theorem testAfter_parseHeader (s : State) : exec .parseHeader s = .next (testAfter .parseHeader s) := by
  unfold testAfter
  simp only [exec, execParseHeader, runOp]
  split <;> rfl

/-- A tree of two leaves under the root 2. -/
def testSmallTree : Huff :=
  { Huff.cleared with
    node := [(0, .leaf 0x61#8 1), (1, .leaf 0x62#8 1), (2, .internal 0 1 2)], nnodes := 3, root := 2, u := 2 }

/-- A header with u = 2, the two pairs given as bytes, T as its low byte. -/
def testHeader (sym0 freq0 sym1 freq1 : Byte) (T : List Byte) : List Byte :=
  [2#8, 0#8, 0#8, 0#8, sym0, freq0, 0#8, 0#8, 0#8, sym1, freq1, 0#8, 0#8, 0#8] ++ T

theorem witness_CommandWordDecoding :
    0xFFFFFFF8#32 &&& 7#32 = 0#32 ∧ 0xFFFFFFF9#32 &&& 7#32 = 1#32 ∧ 2#32 &&& 7#32 = 2#32
      ∧ 0xB#32 &&& 7#32 = 3#32 ∧ 0x80000004#32 &&& 7#32 = 4#32 ∧ 5#32 &&& 7#32 = 5#32
      ∧ 0xE#32 &&& 7#32 = 6#32 ∧ 0xFFFFFFFF#32 &&& 7#32 = 7#32 := by decide

theorem witness_ControlActionDecoding :
    (3#32).getLsbD 1 = true
      ∧ ((0xFFFFFFFD#32).getLsbD 0 = true ∧ (0xFFFFFFFD#32).getLsbD 1 = false)
      ∧ ((0xC#32).getLsbD 0 = false ∧ (0xC#32).getLsbD 1 = false) := by decide

theorem witness_DecodeOfEncode :
    (Instr.reserved7.isCommand = true ∧ (Instr.start true false).isControl = true)
      ∧ decode ⟨.write, 0x10#8, 0xFFFFFFFF#32⟩ = .ok .clearDone := by decide

theorem witness_StepRunsInstruction :
    engineDue (launch testBase) = true
      ∧ (engineDue (testIdle (.wr 0x08#8 1#32)) = false
        ∧ (testIdle (.wr 0x08#8 1#32)).host = [.wr 0x08#8 1#32]
        ∧ decodeAction 0x08#8 1#32 = .ok (.start false false))
      ∧ (engineDue (testIdle (.instr .clrdone)) = false ∧ Instr.clrdone.hostIssuable = true)
      ∧ (engineDue testBase = false ∧ testBase.host = []) ∧ 32 ≤ 32 := by decide +kernel

/-- MEM at the last addresses, and just past the output region of a running command; a read of the input region while
BUSY; WAITIRQ with IRQ 0 and 1; a POLL of ERR_INFO. -/
theorem witness_StepRunsInstruction_host :
    (let s := testIdle (.mem 0xFFFFFFFE#32 [1#8, 2#8]);
      engineDue s = false ∧ s.host = [.mem 0xFFFFFFFE#32 [1#8, 2#8]] ∧ 0xFFFFFFFE + 2 ≤ 2 ^ 32 ∧ s.regs.busy = false)
      ∧ (let s := testBusy (.mem 0x240#32 [1#8]);
        engineDue s = false ∧ s.regs.busy = true ∧ s.inInput (0x240 + 0) = false ∧ s.inOutput (0x240 + 0) = false)
      ∧ (let s := testBusy (.memRd 0x100#32);
        engineDue s = false ∧ s.host = [.memRd 0x100#32] ∧ s.regs.busy = true ∧ s.inInput 0x100 = true
          ∧ s.inOutput 0x100 = false)
      ∧ (engineDue (testIdle .waitIrq) = false ∧ (testIdle .waitIrq).irq = false)
      ∧ (let s := { testIdle .waitIrq with regs := { Regs.reset with irqEn := true, done := true } };
        engineDue s = false ∧ s.irq = true)
      ∧ (let s := testIdle (.poll 0x28#8 0xFFFFFFFF#32 0#32);
        engineDue s = false ∧ s.hwReset = false ∧ (0x28#8).toNat % 4 = 0
          ∧ s.host = [.poll 0x28#8 0xFFFFFFFF#32 0#32]) := by decide +kernel

/-- The bytes of MEM land at their addresses; the read of an input byte while BUSY gives it; a POLL passes on a match and
comes again otherwise (R104). -/
theorem test_host_memory :
    Memory.readBytes (testStep (testIdle (.mem 0x300#32 [7#8, 8#8]))).mem 0x300 2 = [7#8, 8#8]
      ∧ (testStep (testBusy (.memRd 0x101#32))).results = [0x62#32] := by decide +kernel
theorem test_host_waits :
    (testStep (testIdle (.poll 0x00#8 0xFF#32 0x52#32))).host = []
      ∧ (testStep (testIdle (.poll 0x00#8 0xFF#32 0x53#32))).host = [.poll 0x00#8 0xFF#32 0x53#32]
      ∧ (testStep (testIdle .waitIrq)).host = [.waitIrq] := by decide +kernel

theorem witness_StepKeepsInvariant :
    (testIdle (.wr 0x08#8 1#32)).Inv
      ∧ step (testIdle (.wr 0x08#8 1#32)) = .next (testStep (testIdle (.wr 0x08#8 1#32))) :=
  ⟨⟨by decide +kernel, by decide +kernel, by decide +kernel, by decide +kernel, by decide +kernel,
    by decide +kernel, by decide +kernel, by decide +kernel⟩, rfl⟩

theorem witness_SoftReset :
    (testBase.hwReset = false ∧ testBase.regs.busy = false)
      ∧ ((testBusy .waitIrq).hwReset = false ∧ (testBusy .waitIrq).regs.busy = true
        ∧ exec (decodeCmd ((testBusy .waitIrq).regWord 0x0C#8)) (testBusy .waitIrq)
          = .next (runCommand 1#3 (testBusy .waitIrq))) :=
  ⟨by decide +kernel, by decide +kernel, by decide +kernel, by
    show exec (decodeCmd (BitVec.setWidth 32 1#3)) _ = _
    rw [decodeCmd_op, exec_decodeOp]⟩

theorem witness_HardwareReset :
    (engineDue (testIdle (.hwReset true)) = false
        ∧ (testIdle (.hwReset true)).host = [.hwReset true] ∧ (testIdle (.hwReset true)).regs.busy = false)
      ∧ ((testHeld (.hwReset false)).hwReset = true ∧ (testHeld (.hwReset false)).host = [.hwReset false])
      ∧ ((testHeld (.wr 0xFC#8 0#32)).hwReset = true ∧ (0xFC#8).toNat % 4 = 0)
      ∧ ((testHeld (.rd 0x00#8)).hwReset = true ∧ (0x00#8).toNat % 4 = 0
        ∧ (testHeld (.rd 0x00#8)).host = [.rd 0x00#8])
      ∧ (testHeld (.poll 0x44#8 2#32 2#32)).host = [.poll 0x44#8 2#32 2#32]
      ∧ ((testHeld (.instr .clearDone)).hwReset = true ∧ (testHeld (.instr .clearDone)).host = [.instr .clearDone]
        ∧ ∀ i ∈ [Instr.start true true, .softReset, .clearDone, .waitdone, .clrdone, .sreset, .run 7#32 0#32 0#32 0#32 0#32 0#32],
          i.hostIssuable = true) := by
  decide +kernel

/-- The input is asserted while HUFF_COMPRESS of "abracadabra" is in flight. -/
theorem witness_HardwareReset_busy :
    let s := testBusy (.hwReset true)
    engineDue s = false ∧ s.host = [.hwReset true] ∧ s.regs.busy = true
      ∧ exec (decodeCmd (s.regWord 0x0C#8)) (takeEntry [] s)
        = .next (runCommand 1#3 (takeEntry [] s)) :=
  ⟨by decide +kernel, by decide +kernel, by decide +kernel, by
    show exec (decodeCmd (BitVec.setWidth 32 1#3)) _ = _
    rw [decodeCmd_op, exec_decodeOp]⟩

theorem witness_CtrlWrite :
    (engineDue (testBusy (.wr 0x08#8 7#32)) = false ∧ (testBusy (.wr 0x08#8 7#32)).hwReset = false
        ∧ (7#32).getLsbD 1 = true)
      ∧ (engineDue (testBusy (.wr 0x08#8 0xD#32)) = false
        ∧ (testBusy (.wr 0x08#8 0xD#32)).host = [.wr 0x08#8 0xD#32]
        ∧ (testBusy (.wr 0x08#8 0xD#32)).regs.busy = true ∧ (0xD#32).getLsbD 1 = false)
      ∧ (engineDue (testIdle (.wr 0x08#8 0xC#32)) = false
        ∧ (testIdle (.wr 0x08#8 0xC#32)).regs.busy = false ∧ (0xC#32).getLsbD 1 = false
        ∧ (0xC#32).getLsbD 0 = false)
      ∧ (engineDue (testIdle (.wr 0x08#8 0xFFFFFFFD#32)) = false
        ∧ (0xFFFFFFFD#32).getLsbD 1 = false ∧ (0xFFFFFFFD#32).getLsbD 0 = true) := by decide +kernel

theorem witness_StartLaunchesCommand :
    (testBase.hwReset = false ∧ testBase.regs.busy = false ∧ testBase.latency = 0)
      ∧ ((testBusy .waitIrq).hwReset = false ∧ (testBusy .waitIrq).regs.busy = true) := by decide +kernel

theorem witness_ClearDone :
    testBase.hwReset = false
      ∧ (engineDue (testIdle (.wr 0x10#8 2#32)) = false
        ∧ (testIdle (.wr 0x10#8 2#32)).host = [.wr 0x10#8 2#32] ∧ (2#32).getLsbD 1 = true)
      ∧ (engineDue (testBusy (.wr 0x10#8 0xFFFFFFFD#32)) = false
        ∧ (0xFFFFFFFD#32).getLsbD 1 = false) := by decide +kernel

theorem witness_RegisterWrites :
    (∀ off ∈ [0x0C#8, 0x14#8, 0x18#8, 0x1C#8, 0x20#8, 0x48#8, 0x00#8, 0x04#8, 0x24#8, 0x44#8, 0x4C#8, 0xFC#8],
        engineDue (testIdle (.wr off 0xFFFFFFFF#32)) = false
          ∧ (testIdle (.wr off 0xFFFFFFFF#32)).hwReset = false
          ∧ (testIdle (.wr off 0xFFFFFFFF#32)).regs.busy = false ∧ off.toNat % 4 = 0)
      ∧ ∀ off ∈ [0x0C#8, 0x14#8, 0x18#8, 0x1C#8, 0x20#8, 0x48#8],
        engineDue (testBusy (.wr off 0xFFFFFFFF#32)) = false
          ∧ (testBusy (.wr off 0xFFFFFFFF#32)).hwReset = false
          ∧ (testBusy (.wr off 0xFFFFFFFF#32)).regs.busy = true := by decide +kernel

theorem witness_RunWrites :
    (testBase.hwReset = false ∧ testBase.regs.busy = false)
      ∧ ((testBusy .waitIrq).hwReset = false ∧ (testBusy .waitIrq).regs.busy = true) := by decide +kernel

theorem witness_WaitdonePolls :
    (testBase.hwReset = false ∧ testBase.regs.done = false)
      ∧ ((testAfter .reserved0 testBase).hwReset = false
        ∧ (testAfter .reserved0 testBase).regs.done = true) := by decide +kernel

theorem witness_RegisterReads :
    (∀ off ∈ [0x00#8, 0x24#8, 0x40#8, 0x4C#8, 0x54#8, 0x60#8, 0x7C#8, 0xFC#8],
        engineDue (testIdle (.rd off)) = false ∧ (testIdle (.rd off)).regs.busy = false
          ∧ off.toNat % 4 = 0)
      ∧ (∀ off ∈ [0x00#8, 0x20#8, 0x44#8, 0x48#8, 0x58#8, 0x5C#8, 0x80#8, 0xFC#8],
        engineDue (testBusy (.rd off)) = false ∧ (testBusy (.rd off)).hwReset = false
          ∧ (off.toNat ≤ 0x20 ∨ off = 0x44#8 ∨ off = 0x48#8 ∨ off = 0x58#8 ∨ off = 0x5C#8
            ∨ 0x80 ≤ off.toNat))
      ∧ (∀ off ∈ [0x24#8, 0x40#8, 0x4C#8, 0x54#8, 0x60#8, 0x7C#8],
        engineDue (testBusy (.rd off)) = false ∧ (testBusy (.rd off)).regs.busy = true
          ∧ ((0x24 ≤ off.toNat ∧ off.toNat ≤ 0x40) ∨ (0x4C ≤ off.toNat ∧ off.toNat ≤ 0x54)
            ∨ (0x60 ≤ off.toNat ∧ off.toNat ≤ 0x7C)))
      ∧ ((0x58#8).toNat = 0x58 ∧ (0x5C#8).toNat = 0x5C ∧ 0x80 ≤ (0x80#8).toNat) := by decide +kernel

theorem witness_RefusedAccesses :
    (engineDue (testIdle (.wr 0x15#8 0#32)) = false ∧ (0x15#8).toNat % 4 ≠ 0
        ∧ (0xFF#8).toNat % 4 ≠ 0
        ∧ (testIdle (.poll 0x11#8 2#32 2#32)).host = [.poll 0x11#8 2#32 2#32] ∧ (0x11#8).toNat % 4 ≠ 0)
      ∧ (0xFC#32 = (testIdle .waitIrq).cfg.regBase + (0xFC#8).setWidth 32
        ∧ ([0#8, 0#8] : List Byte).length ≠ 4 ∧ 2 ≠ 4)
      ∧ ((testBusy (.mem 0x10A#32 [1#8])).regs.busy = true
        ∧ engineDue (testBusy (.mem 0x10A#32 [1#8])) = false
        ∧ (0x10A#32).toNat + ([1#8] : List Byte).length ≤ 2 ^ 32
        ∧ (testBusy (.mem 0x10A#32 [1#8])).inInput ((0x10A#32).toNat + 0) = true)
      ∧ (testBusy (.memRd 0x23F#32)).inOutput (0x23F#32).toNat = true := by decide +kernel

/-- testBase with the four region registers. -/
def testRegions (inBase inLen outBase outCap : Word) : State :=
  { testBase with regs := { Regs.reset with
      inBase := inBase, inLen := inLen, outBase := outBase, outCap := outCap } }

theorem witness_ReservedCommands :
    (Instr.reserved0 = .reserved0 ∧ 0#3 = 0#3) ∧ (Instr.reserved7 = .reserved7 ∧ 7#3 = 7#3) := by decide

/-- The OP values at the ends of their ranges, the first sums above 2^32, the sums equal to 2^32, and regions that share
one byte. -/
theorem witness_StartChecksInOrder :
    ((0#3).toNat = 0 ∧ 4 < (5#3).toNat ∧ 4 < (7#3).toNat)
      ∧ (1 ≤ (1#3).toNat ∧ (4#3).toNat ≤ 4)
      ∧ (let r := (testRegions 0xFFFFFFFF#32 2#32 0#32 0#32).regs;
      2 ^ 32 < r.inBase.toNat + r.inLen.toNat)
      ∧ (let r := (testRegions 0xFFFFFFFF#32 1#32 0x80000001#32 0x80000000#32).regs;
        r.inBase.toNat + r.inLen.toNat ≤ 2 ^ 32 ∧ 2 ^ 32 < r.outBase.toNat + r.outCap.toNat)
      ∧ (let r := (testRegions 0x100#32 8#32 0x107#32 1#32).regs;
        r.inBase.toNat + r.inLen.toNat ≤ 2 ^ 32 ∧ r.outBase.toNat + r.outCap.toNat ≤ 2 ^ 32
          ∧ 0 < r.inLen.toNat ∧ 0 < r.outCap.toNat ∧ r.inBase.toNat < r.outBase.toNat + r.outCap.toNat
          ∧ r.outBase.toNat < r.inBase.toNat + r.inLen.toNat) := by decide +kernel

theorem witness_InterruptLine : testBase.hwReset = false ∧ testBase.regs.busy = false := by decide +kernel

theorem witness_StatusAfterStart :
    ((testBusy .waitIrq).regs.busy = true
        ∧ step (testBusy .waitIrq) = .next (testStep (testBusy .waitIrq)))
      ∧ ∀ (op : HostOp) (rest : List HostOp), (testBusy .waitIrq).host = op :: rest →
          ¬op.clearsDone (testBusy .waitIrq) := by
  refine ⟨⟨by decide +kernel, rfl⟩, fun op rest h => ?_⟩
  have e : op = .waitIrq := (List.cons.inj h).1.symm
  subst e
  simp [HostOp.clearsDone, HostOp.writes]

theorem witness_StatusAfterStart_engine :
    testBase.hwReset = false ∧ (launch testBase).regs.busy = true ∧ engineDue (launch testBase) = true
      ∧ step (launch testBase) = .next (testStep (launch testBase)) :=
  ⟨rfl, rfl, by decide +kernel, rfl⟩

theorem witness_CommandsDependOnInputOnly :
    (testIo testAbra 64).cfg.busErr = some []
      ∧ (testIo testAbra 64).input
        = { testIo testAbra 64 with
            huff := testAbraHuff
            mem := Memory.write (testIo testAbra 64).mem 0x50 1#8 : State }.input := by decide +kernel

theorem witness_BytePrimitives :
    (inAddr (testIo [1#8] 0) 0 < 2 ^ 32
        ∧ (testBadBus (testIo [1#8] 0)).busAnswer (0x100 + 0) .read = true
        ∧ (testIo [1#8] 0).busAnswer (0x100 + 0) .read = false)
      ∧ (testIo [] 0).regs.outLen = (testIo [] 0).regs.outCap
      ∧ ((testIo [] 1).regs.outLen ≠ (testIo [] 1).regs.outCap ∧ outAddr (testIo [] 1) < 2 ^ 32
        ∧ (testBadBus (testIo [] 1)).busAnswer (0x200 + 0) .write = true
        ∧ (testIo [] 1).busAnswer (0x200 + 0) .write = false) := by decide +kernel

theorem witness_PackBit :
    (testBase.pack.pcnt ≠ 7#3)
      ∧ ((testIo [] 0).regs.outLen = (testIo [] 0).regs.outCap)
      ∧ ((testIo [] 1).regs.outLen ≠ (testIo [] 1).regs.outCap
        ∧ outAddr (testBadBus (testIo [] 1)) < 2 ^ 32
        ∧ (testBadBus (testIo [] 1)).busAnswer (outAddr (testIo [] 1)) .write = true)
      ∧ (testIo [] 1).busAnswer (outAddr (testIo [] 1)) .write = false := by decide +kernel

theorem witness_PackFlush :
    testBase.pack.pcnt = 0#3
      ∧ (1#3 ≠ 0#3 ∧ (testIo [] 0).regs.outLen = (testIo [] 0).regs.outCap)
      ∧ (7#3 ≠ 0#3 ∧ (testIo [] 1).regs.outLen ≠ (testIo [] 1).regs.outCap
        ∧ (testBadBus (testIo [] 1)).busAnswer (outAddr (testIo [] 1)) .write = true)
      ∧ (testIo [] 1).busAnswer (outAddr (testIo [] 1)) .write = false := by decide +kernel

theorem witness_PackedStream :
    (testIo [] 3).pack.pcnt = 0#3 ∧ (testIo [] 3).pack.pacc = 0#8 ∧ (testIo [] 3).NoBusError
      ∧ (testIo [] 3).Room ((23 + 7) / 8) :=
  ⟨rfl, rfl, testBase_noBusError rfl, by decide +kernel, by decide +kernel⟩

theorem witness_UnpackBit :
    inAddr (testIo [1#8] 0) (0 + 7 / 8) < 2 ^ 32
      ∧ (testBadBus (testIo [1#8] 0)).busAnswer (inAddr (testIo [1#8] 0) (0 + 7 / 8)) .read = true
      ∧ (testIo [1#8] 0).busAnswer (inAddr (testIo [1#8] 0) (0 + 7 / 8)) .read = false := by decide +kernel

theorem witness_BuildFrequencyTable :
    (testIo testAbra 0).NoBusError
      ∧ (testIo testAbra 0).regs.inBase.toNat + (testIo testAbra 0).regs.inLen.toNat ≤ 2 ^ 32
      ∧ (testIo testAbra 0).huff.freq = Vector.replicate 256 0#32
      ∧ (testIo testAbra 0).huff.rank = Vector.replicate 256 0#8 ∧ (testIo testAbra 0).huff.u = 0 :=
  ⟨testBase_noBusError rfl, by decide +kernel, rfl, rfl, rfl⟩

theorem witness_CheckOperations :
    2 ^ 31 - 1 < (tget (tset Huff.cleared.freq 7#8 0x80000000#32) 7#8).toNat
      ∧ (∀ b, (tget Huff.cleared.freq b).toNat ≤ 2 ^ 31 - 1)
      ∧ (8 * (((40#32).toNat : Int) - (12 + 5 * ((5 : Nat) : Int))) < (25#64).toInt
        ∧ (24#64).toInt ≤ 8 * (((40#32).toNat : Int) - (12 + 5 * ((5 : Nat) : Int))))
      ∧ (7#32).toNat % 4 ≠ 0 ∧ (8#32).toNat % 4 = 0 :=
  ⟨by decide +kernel, fun b => by simp [Huff.cleared], by decide, by decide, by decide⟩

theorem witness_PopMin : ([0, 3] : List Nat) ≠ [] ∧ ([0, 3] : List Nat).Pairwise (· < ·) := by decide

theorem witness_BuildTree :
    (testBase.huff.queue = [] ∧ testBase.huff.u = 0) ∧ (testAbraHuff.queue = [] ∧ 1 ≤ testAbraHuff.u)
      ∧ 5 ≤ testAbraTree.huff.nnodes - 1 := by decide +kernel

theorem witness_TreeProperties :
    (testAbraHuff.queue = [] ∧ 1 ≤ testAbraHuff.u)
      ∧ ({ testAbraHuff with u := 1 : Huff }.queue = [] ∧ 1 ≤ { testAbraHuff with u := 1 : Huff }.u) := by
  decide +kernel

theorem witness_BuildEncodingTable :
    Huff.cleared.u = 0 ∧ { testAbraHuff with u := 1 : Huff }.u = 1 := ⟨rfl, rfl⟩

theorem witness_EncodingTableCodes :
    (testAbraHuff.queue = [] ∧ 2 ≤ testAbraHuff.u ∧ testAbraHuff.u ≤ 256 ∧ (ranked testAbraHuff).Nodup
        ∧ testAbraHuff.codeLen = Vector.replicate 256 0#8)
      ∧ (let h := { testAbraHuff with u := 1 : Huff };
        h.queue = [] ∧ 1 ≤ h.u ∧ (ranked h).Nodup ∧ h.codeLen = Vector.replicate 256 0#8) :=
  ⟨⟨rfl, by decide, by decide, by decide +kernel, rfl⟩, rfl, by decide, by decide +kernel, rfl⟩

theorem witness_SerializeHeader :
    { testIo [] 37 with huff := testAbraHuff : State }.NoBusError ∧ testAbraHuff.u ≤ 256
      ∧ { testIo [] 37 with huff := testAbraHuff : State }.Room (12 + 5 * testAbraHuff.u) :=
  ⟨testBase_noBusError rfl, by decide, by decide +kernel, by decide +kernel⟩

theorem witness_ParseHeader_setting (bs : List Byte) (h : 0x100 + (BitVec.ofNat 32 bs.length).toNat ≤ 2 ^ 32) :
    (testIo bs 0).NoBusError
      ∧ (testIo bs 0).regs.inBase.toNat + (testIo bs 0).regs.inLen.toNat ≤ 2 ^ 32
      ∧ (testIo bs 0).huff.freq = Vector.replicate 256 0#32 ∧ (testIo bs 0).huff.u = 0 :=
  ⟨testBase_noBusError rfl, h, rfl, rfl⟩

theorem witness_ParseHeader_count :
    (testIo [1#8, 2#8, 3#8] 0).regs.inLen.toNat < 4
      ∧ (4 ≤ (testIo [0xFF#8, 0xFF#8, 0xFF#8, 0xFF#8] 0).regs.inLen.toNat
        ∧ ((testIo [0xFF#8, 0xFF#8, 0xFF#8, 0xFF#8] 0).inWord 0).toInt < 0)
      ∧ 256 < ((testIo [1#8, 1#8, 0#8, 0#8] 0).inWord 0).toInt
      ∧ (4 ≤ (testIo (testAbraFile.take 36) 0).regs.inLen.toNat
        ∧ (testIo (testAbraFile.take 36) 0).inWord 0 = BitVec.ofNat 32 5
        ∧ (testIo (testAbraFile.take 36) 0).regs.inLen.toNat < 12 + 5 * 5) := by decide +kernel

theorem witness_ParseHeader_repeated :
    let s := testIo (testHeader 7#8 1#8 7#8 1#8 (List.replicate 8 0#8)) 0
    s.inWord 0 = BitVec.ofNat 32 2 ∧ 12 + 5 * 2 ≤ s.regs.inLen.toNat ∧ s.PairsOk 1
      ∧ s.pairSym 0 = s.pairSym 1 := by
  refine ⟨by decide +kernel, by decide +kernel, ?_, by decide +kernel⟩
  unfold State.PairsOk
  decide +kernel

theorem witness_ParseHeader_frequency :
    let s := testIo (testHeader 7#8 1#8 8#8 0#8 (List.replicate 8 0#8)) 0
    s.inWord 0 = BitVec.ofNat 32 2 ∧ 12 + 5 * 2 ≤ s.regs.inLen.toNat ∧ s.PairsOk 1
      ∧ (∀ i, i < 1 → s.pairSym i ≠ s.pairSym 1) ∧ (s.pairFreq 1).toInt < 1 := by
  refine ⟨by decide +kernel, by decide +kernel, ?_, by decide +kernel, by decide +kernel⟩
  unfold State.PairsOk
  decide +kernel

theorem witness_ParseHeader_bits :
    (let s := testIo (testHeader 7#8 1#8 8#8 1#8 (List.replicate 8 0xFF#8)) 0;
      s.inWord 0 = BitVec.ofNat 32 2 ∧ 12 + 5 * 2 ≤ s.regs.inLen.toNat ∧ s.PairsOk 2
        ∧ (s.inDouble (4 + 5 * 2)).toInt < 0)
      ∧ (let s := testIo ([0#8, 0#8, 0#8, 0#8, 1#8] ++ List.replicate 7 0#8) 0;
        s.inWord 0 = BitVec.ofNat 32 0 ∧ 12 + 5 * 0 ≤ s.regs.inLen.toNat
          ∧ 0 < (s.inDouble (4 + 5 * 0)).toInt) := by
  unfold State.PairsOk
  decide +kernel

theorem witness_ParseHeader_accepts :
    (let s := testIo testAbraFile 0;
      s.inWord 0 = BitVec.ofNat 32 5 ∧ 12 + 5 * 5 ≤ s.regs.inLen.toNat ∧ s.PairsOk 5
        ∧ 0 ≤ (s.inDouble (4 + 5 * 5)).toInt)
      ∧ (let s := testIo (List.replicate 12 0#8) 0;
        s.inWord 0 = BitVec.ofNat 32 0 ∧ 12 + 5 * 0 ≤ s.regs.inLen.toNat
          ∧ s.inDouble (4 + 5 * 0) = 0#64) := by
  unfold State.PairsOk
  decide +kernel

theorem witness_smallTree_ok : TreeOk testSmallTree := by
  rintro n m ⟨l, r, w, h, hm⟩
  simp only [nodeAt, testSmallTree, sparseGet?] at h
  split_ifs at h with h0 h1 h2 <;> simp at h
  omega

/-- Three bits "010" are the codes of 'a', 'b', 'a'. -/
theorem witness_DecodeStream :
    let s := { testIo [0b01000000#8] 3 with huff := testSmallTree : State }
    s.NoBusError ∧ s.regs.RegionsOk ∧ TreeOk s.huff
      ∧ nodeAt s.huff s.huff.root = .internal 0 1 2 ∧ 0 + ((3#64).toNat + 7) / 8 ≤ s.regs.inLen.toNat
      ∧ s.Room 3 ∧ [[false], [true], [false]].map (leafAt s.huff s.huff.root)
        = [0x61#8, 0x62#8, 0x61#8].map some
      ∧ streamBits s 0 3 = [[false], [true], [false]].flatten ++ [] :=
  ⟨testBase_noBusError rfl, ⟨by decide +kernel, by decide +kernel, by decide +kernel⟩,
    witness_smallTree_ok, rfl, by decide +kernel, ⟨by decide +kernel, by decide +kernel⟩,
    by decide +kernel, by decide +kernel⟩

theorem witness_DecodeStream_incomplete :
    let s := testSmallTree
    let h := { s with node := s.node ++ [(3, .leaf 0x63#8 2), (4, .internal 2 3 4)], root := 4 : Huff }
    [false] ≠ [] ∧ nodeOn h h.root [false] = some 2 ∧ nodeAt h 2 = .internal 0 1 2
      ∧ nodeAt h h.root = .internal 2 3 4 ∧ leafAt h h.root [true] = some 0x63#8 := by decide +kernel

theorem witness_DecodeStream1 :
    let s := { testIo [0b00100000#8] 2 with huff := testSmallTree : State }
    s.NoBusError ∧ s.regs.RegionsOk ∧ 0 + ((3#64).toNat + 7) / 8 ≤ s.regs.inLen.toNat
      ∧ 2 ≤ (3#64).toNat ∧ s.Room 2 ∧ (∀ t, t < 2 → streamBit s 0 t = false)
      ∧ 2 < (3#64).toNat ∧ streamBit s 0 2 = true :=
  ⟨testBase_noBusError rfl, ⟨by decide +kernel, by decide +kernel, by decide +kernel⟩,
    by decide +kernel, by decide +kernel, ⟨by decide +kernel, by decide +kernel⟩,
    by decide +kernel, by decide +kernel, by decide +kernel⟩

theorem witness_HuffCompress :
    ((testIo testAbra 64).regs.RegionsOk ∧ (testIo testAbra 64).NoBusError
        ∧ (∀ b, (testIo testAbra 64).input.count b ≤ 2 ^ 31 - 1))
      ∧ ((testIo [] 11).regs.RegionsOk ∧ (testIo [] 11).regs.outCap.toNat < 12)
      ∧ 12 + 5 * 256 + (255 * 1 + 7) / 8 ≤ (testIo [1#8] 1324).regs.outCap.toNat :=
  ⟨⟨⟨by decide +kernel, by decide +kernel, by decide +kernel⟩, testBase_noBusError rfl,
      fun _ => Nat.le_trans List.count_le_length (by simp [State.input, testIo, testAbra])⟩,
    ⟨⟨by decide +kernel, by decide +kernel, by decide +kernel⟩, by decide +kernel⟩, by decide +kernel⟩

/-- a bytes 0 and then b bytes 1 from address 0, and an output region of 12 bytes at 0x80000000. -/
def testLong (a b : Nat) : State :=
  { testBase with
    mem := Memory.writeBytes [] 0 (List.replicate a 0#8 ++ List.replicate b 1#8)
    regs := { Regs.reset with inLen := BitVec.ofNat 32 (a + b), outBase := 0x80000000#32, outCap := 12#32 } }

theorem testLong_input {a b : Nat} (h : a + b ≤ 2 ^ 31) :
    (testLong a b).input = List.replicate a 0#8 ++ List.replicate b 1#8 := by
  have hl : (BitVec.ofNat 32 (a + b)).toNat = (List.replicate a 0#8 ++ List.replicate b 1#8).length := by
    simp only [BitVec.toNat_ofNat, List.length_append, List.length_replicate]
    omega
  simp only [State.input, testLong, hl]
  exact Memory.readBytes_writeBytes _ _ _

theorem testLong_regions {a b : Nat} (h : a + b ≤ 2 ^ 31) : (testLong a b).regs.RegionsOk := by
  have hl : (BitVec.ofNat 32 (a + b)).toNat = a + b := by
    simp only [BitVec.toNat_ofNat]
    omega
  refine ⟨?_, by simp [testLong], ?_⟩
  · simp only [testLong, hl, Regs.reset]
    simp
    omega
  · simp only [testLong, Regs.overlap, hl, Regs.reset]
    simp
    omega

/-- 2^31 bytes: one byte value 2^31 times, or two byte values 2^30 times each. -/
theorem witness_HuffCompress_long :
    (let s := testLong (2 ^ 31) 0;
      s.regs.RegionsOk ∧ s.NoBusError ∧ ∃ b, 2 ^ 31 - 1 < s.input.count b)
      ∧ (let s := testLong (2 ^ 30) (2 ^ 30);
        s.regs.RegionsOk ∧ s.NoBusError ∧ (∀ b, s.input.count b ≤ 2 ^ 31 - 1) ∧ s.input.length = 2 ^ 31) := by
  refine ⟨⟨testLong_regions (by omega), testBase_noBusError rfl, 0#8, ?_⟩, testLong_regions (by omega),
    testBase_noBusError rfl, fun b => ?_, ?_⟩
  · rw [testLong_input (by omega), List.count_append, List.count_replicate_self]
    omega
  · rw [testLong_input (by omega), List.count_append, List.count_replicate, List.count_replicate]
    by_cases h0 : 0#8 = b
    · subst h0
      simp
    · simp only [beq_iff_eq, h0, if_false]
      split <;> omega
  · rw [testLong_input (by omega), List.length_append, List.length_replicate, List.length_replicate]
    omega

/-- The read of the last input byte fails. -/
theorem witness_HuffCompress_readFails :
    let s := testErr 0x10A#32 .read (testIo testAbra 64)
    s.regs.RegionsOk ∧ s.ReadFails 10 ∧ 10 < s.regs.inLen.toNat :=
  ⟨⟨by decide +kernel, by decide +kernel, by decide +kernel⟩, testErr_readFails (by decide +kernel),
    by decide +kernel⟩

theorem witness_HuffDecompress (a : Option Word) (cap : Nat) :
    let s := match a with
      | none => testIo testAbraFile cap
      | some a => testErr a .read (testIo testAbraFile cap)
    s.HeaderIs 5 23#64 := by
  have h : (testIo testAbraFile 0).HeaderIs 5 23#64 := by
    refine ⟨by decide, by decide +kernel, by decide +kernel, ?_, by decide +kernel, by decide +kernel, by decide,
      by decide +kernel⟩
    unfold State.PairsOk
    decide +kernel
  cases a <;> exact ⟨h.count, h.length, h.field, h.pairs, h.bits, h.signed, h.empty, h.payload⟩

/-- The region and the platform; the read of the stream's last byte fails, its first two bytes being the codes of
"abracada". -/
theorem witness_HuffDecompress_setting :
    ((testIo testAbraFile 11).regs.RegionsOk ∧ (testIo testAbraFile 11).NoBusError)
      ∧ (let s := testErr 0x127#32 .read (testIo testAbraFile 8);
        let t := testAfter .huffDecompress s;
        s.regs.RegionsOk ∧ s.ReadFails (12 + 5 * 5 + 2) ∧ 8 * 2 < (23#64).toNat
          ∧ (∀ b ∈ testAbra.take 8, b ∈ ranked t.huff)
          ∧ streamBits s (12 + 5 * 5) (8 * 2) = (testAbra.take 8).flatMap (codeOf t.huff) ++ []
          ∧ (0x61#8 ∈ ranked t.huff ∧ [] <+: codeOf t.huff 0x61#8 ∧ [] ≠ codeOf t.huff 0x61#8)
          ∧ (testAbra.take 8).length ≤ s.regs.outCap.toNat) :=
  ⟨⟨⟨by decide +kernel, by decide +kernel, by decide +kernel⟩, testBase_noBusError rfl⟩,
    ⟨by decide +kernel, by decide +kernel, by decide +kernel⟩, testErr_readFails (by decide +kernel),
    by decide, by decide +kernel, by decide +kernel, by decide +kernel, by decide +kernel⟩

/-- ParseHeader stops on an input of 11 bytes, and on a failing read of the first byte. -/
theorem witness_HuffDecompress_parse :
    (let s := testIo (testAbraFile.take 11) 0;
      s.regs.RegionsOk ∧ s.regs.inLen ≠ 0#32
        ∧ exec .parseHeader (launch s) = .next (testAfter .parseHeader (launch s))
        ∧ (testAfter .parseHeader (launch s)).regs.error = true)
      ∧ (testAfter .parseHeader (launch (testErr 0x100#32 .read (testIo testAbraFile 0)))).regs.error = true :=
  ⟨⟨⟨by decide +kernel, by decide +kernel, by decide +kernel⟩, by decide +kernel, testAfter_parseHeader _,
    by decide +kernel⟩, by decide +kernel⟩

/-- The code stream of the file is the codes of its message in the table the command leaves; without its last bits it
is the codes of all but the last two bytes and a beginning of the code of 'r'. -/
theorem witness_HuffDecompress_stream :
    let s := testIo testAbraFile 11
    let t := testAfter .huffDecompress s
    streamBits s 37 23 = testAbra.flatMap (codeOf t.huff) ++ []
      ∧ streamBits s 37 21 = (testAbra.take 9).flatMap (codeOf t.huff) ++ [true, true]
      ∧ (0x72#8 ∈ ranked t.huff ∧ [true, true] <+: codeOf t.huff 0x72#8
        ∧ [true, true] ≠ codeOf t.huff 0x72#8) := by decide +kernel

theorem witness_HuffDecompress_oneSymbol :
    let s := testIo [1#8, 0#8, 0#8, 0#8, 0x61#8, 4#8, 0#8, 0#8, 0#8, 4#8, 0#8, 0#8, 0#8, 0#8, 0#8, 0#8, 0#8,
      0b00100000#8] 1
    let t := testAfter .huffDecompress s
    s.inWord 0 = BitVec.ofNat 32 1
      ∧ streamBits s 17 4 = [0x61#8, 0x61#8].flatMap (codeOf t.huff) ++ [true, false]
      ∧ [true, false].head? = some true ∧ s.regs.outCap.toNat < 2 := by decide +kernel

theorem witness_HuffDecompressShortInput :
    ((testIo [] 0).regs.RegionsOk ∧ (testIo [] 0).NoBusError ∧ (testIo [] 0).regs.inLen = 0#32)
      ∧ (1 ≤ (testIo [0#8] 0).regs.inLen.toNat ∧ (testIo (List.replicate 11 0#8) 0).regs.inLen.toNat ≤ 11)
      ∧ (let s := testIo (testAbraFile.take 39) 0;
        12 + 5 * 5 ≤ s.regs.inLen.toNat ∧ s.inWord 0 = BitVec.ofNat 32 5 ∧ s.PairsOk 5
          ∧ (s.inDouble (4 + 5 * 5)).toNat < 2 ^ 63
          ∧ 8 * (s.regs.inLen.toNat - (12 + 5 * 5)) < (s.inDouble (4 + 5 * 5)).toNat) := by
  refine ⟨⟨⟨by decide +kernel, by decide +kernel, by decide +kernel⟩, testBase_noBusError rfl, rfl⟩,
    by decide +kernel, ?_⟩
  unfold State.PairsOk
  decide +kernel

/-- The output region holds the 18 bytes of the file and no more. -/
theorem witness_HuffRoundTrip :
    let s := testIo [0x61#8] 18
    let t := testAfter .huffCompress s
    let r := testIo t.output 1
    (s.regs.RegionsOk ∧ s.NoBusError ∧ s.regs.inLen.toNat < 2 ^ 31)
      ∧ 12 + 5 * (firstAppearances s.input).length + (t.regs.huffBits + 7) / 8 = s.regs.outCap.toNat
      ∧ r.regs.RegionsOk ∧ r.NoBusError ∧ r.input = t.output
      ∧ s.regs.inLen.toNat ≤ r.regs.outCap.toNat :=
  ⟨⟨⟨by decide +kernel, by decide +kernel, by decide +kernel⟩, testBase_noBusError rfl, by decide +kernel⟩,
    by decide +kernel, ⟨by decide +kernel, by decide +kernel, by decide +kernel⟩,
    testBase_noBusError rfl, by decide +kernel, by decide +kernel⟩

theorem witness_SeedAndInsert :
    testBase.lzw.dict = []
      ∧ (testAfter .seed testBase).lzw.next.toNat < (testAfter .seed testBase).cfg.lzwCap.toNat
      ∧ (let s := { testAfter .seed testBase with cfg := { testBase.cfg with lzwCap := 256#32 } : State };
        s.cfg.lzwCap.toNat ≤ s.lzw.next.toNat) := by decide +kernel

/-- The seeded machine satisfies the dictionary invariant. -/
theorem witness_seeded_dictOk (l : Lzw) (hd : l.dict = seedEntries 0 256) (hn : l.next = 256#32) :
    { testIo testAbab 4 with lzw := l : State }.DictOk := by
  refine ⟨?_, fun k => ?_, ?_, fun k hk => ?_, fun k e hk he => ?_⟩
  · show sparseRising 0 l.dict = true
    rw [hd]
    exact sparseRising_seedEntries 0 0 256 (Nat.le_refl 0)
  · show (sparseGet? l.dict k).isSome = true ↔ k < l.next.toNat
    rw [hd, hn, sparseGet?_seedEntries]
    split_ifs with h
    · simpa using h
    · simpa using h
  · show 256 ≤ l.next.toNat ∧ l.next.toNat ≤ 4096
    rw [hn]
    decide
  · show sparseGet? l.dict k = _
    rw [hd, sparseGet?_seedEntries, if_pos (by omega)]
  · have he' : sparseGet? l.dict k = some e := he
    rw [hd, sparseGet?_seedEntries, if_neg (by omega)] at he'
    cases he'

theorem witness_DictionaryStrings :
    (testBase.lzw.dict = [] ∧ 256 ≤ testBase.cfg.lzwCap.toNat)
      ∧ (let s := { testIo testAbab 4 with lzw := ⟨seedEntries 0 256, 256#32, 255#32, true, 0#32⟩ : State };
        s.DictOk ∧ sparseGet? s.lzw.dict (255#32).toNat = some ⟨none, 255#8, 255#8, 1⟩
          ∧ (255#32).toNat < s.lzw.next.toNat ∧ s.NoBusError ∧ s.Room 4
          ∧ s.lzw.w.toNat < s.lzw.next.toNat
          ∧ ¬(s.lzw.next = s.cfg.lzwCap ∧ s.regs.lzwStrict = true)) :=
  ⟨by decide +kernel, witness_seeded_dictOk _ rfl rfl, by decide +kernel, by decide +kernel,
    testBase_noBusError rfl, ⟨by decide +kernel, by decide +kernel⟩, by decide +kernel, by decide +kernel⟩

theorem witness_Find :
    let d : List (Nat × DictEntry) := [(256, ⟨some 97#32, 98#8, 97#8, 2⟩)]
    sparseRising 0 d = true
      ∧ (256 ≤ (256#32).toNat ∧ (256#32).toNat < (257#32).toNat
        ∧ sparseGet? d (256#32).toNat = some ⟨some 97#32, 98#8, 97#8, 2⟩
        ∧ ∀ (j : Nat) (f : DictEntry), 256 ≤ j → j < (257#32).toNat → sparseGet? d j = some f →
            f.pre = some 97#32 → f.byte = 98#8 → j = (256#32).toNat)
      ∧ ∀ (k : Nat) (e : DictEntry), 256 ≤ k → k < (257#32).toNat → sparseGet? d k = some e →
          ¬(e.pre = some 98#32 ∧ e.byte = 97#8) := by
  refine ⟨by decide, ⟨by decide, by decide, by decide, fun j f h1 h2 _ _ _ => ?_⟩,
    fun k e h1 h2 he => ?_⟩
  · simp at h2 ⊢
    omega
  · obtain rfl : k = 256 := by simp at h2; omega
    simp only [sparseGet?, if_true, Option.some.injEq] at he
    subst he
    decide

/-- The seeded dictionary: its strings are the single bytes, pairwise distinct. -/
theorem witness_Find_distinct :
    let s := { testIo testAbab 4 with lzw := ⟨seedEntries 0 256, 256#32, 255#32, true, 0#32⟩ : State }
    s.DictOk ∧ (255#32).toNat < s.lzw.next.toNat
      ∧ ∀ j k : Code, j.toNat < s.lzw.next.toNat → k.toNat < s.lzw.next.toNat →
          stringOf s.lzw j = stringOf s.lzw k → j = k := by
  refine ⟨witness_seeded_dictOk _ rfl rfl, by decide +kernel, fun j k hj hk h => ?_⟩
  have e : ∀ i : Code, i.toNat < 256 →
      stringOf ⟨seedEntries 0 256, 256#32, 255#32, true, 0#32⟩ i = [BitVec.ofNat 8 i.toNat] := by
    intro i hi
    have hd : dictAt ⟨seedEntries 0 256, 256#32, 255#32, true, 0#32⟩ i
        = ⟨none, BitVec.ofNat 8 i.toNat, BitVec.ofNat 8 i.toNat, 1⟩ := by
      simp [dictAt, sparseGet?_seedEntries, hi]
    simp [stringOf, entryString, hd]
  have hj' : j.toNat < 256 := hj
  have hk' : k.toNat < 256 := hk
  rw [e j hj', e k hk'] at h
  have h' := congrArg BitVec.toNat (List.cons.inj h).1
  simp only [BitVec.toNat_ofNat] at h'
  exact BitVec.eq_of_toNat_eq (by omega)

theorem witness_EncodeByte :
    testBase.lzw.wValid = false
      ∧ ((testDict 97#32).lzw.wValid = true
        ∧ (testAfter (.find 97#32 98#8) (testDict 97#32)).ret = .code (some 256#32))
      ∧ ((testDict 98#32).lzw.wValid = true
        ∧ (testAfter (.find 98#32 97#8) (testDict 98#32)).ret = .code none
        ∧ (testDict 98#32).lzw.next.toNat < (testDict 98#32).cfg.lzwCap.toNat)
      ∧ (let s := { testDict 98#32 with
            cfg := { testBase.cfg with lzwCap := 257#32 }
            regs := { (testDict 98#32).regs with lzwStrict := true } : State };
        s.lzw.next = s.cfg.lzwCap ∧ s.regs.lzwStrict = true) := by decide +kernel

theorem witness_EncodeByte_room :
    (testDict 98#32).NoBusError ∧ (testDict 98#32).Room 4
      ∧ exec (.find 98#32 97#8) (testDict 98#32) = .next { testDict 98#32 with ret := .code none } :=
  ⟨testBase_noBusError rfl, ⟨by decide +kernel, by decide +kernel⟩, by
    have h : findCode (testDict 98#32).lzw 98#32 97#8 = none := by decide +kernel
    rw [exec, execFind, runOp, dictFind_run, h]⟩

theorem witness_EncodeEnd :
    testBase.lzw.wValid = false ∧ (testDict 97#32).lzw.wValid = true ∧ (testDict 97#32).NoBusError
      ∧ (testDict 97#32).Room 4 :=
  ⟨rfl, rfl, testBase_noBusError rfl, ⟨by decide +kernel, by decide +kernel⟩⟩

theorem witness_DecodeFirst :
    let s := testAfter .seed (testIo [0xFF#8, 0#8, 0#8, 0#8] 1)
    (s.NoBusError ∧ inAddr s 0 + 4 ≤ 2 ^ 32 ∧ (s.inWord 0).toNat < 256
        ∧ s.Room (stringOf s.lzw (s.inWord 0)).length)
      ∧ 256 ≤ ((testIo [0#8, 1#8, 0#8, 0#8] 1).inWord 0).toNat :=
  ⟨⟨testBase_noBusError rfl, by decide +kernel, by decide +kernel, ⟨by decide +kernel, by decide +kernel⟩⟩,
    by decide +kernel⟩

/-- With NEXT = 257 and LZW_CAP = 4096: code 258 is above NEXT, 257 is NEXT with room, 256 is defined; with LZW_CAP = 257
code 257 is NEXT without room. -/
theorem witness_DecodeNext :
    let s := testDict 97#32
    let f := { s with cfg := { s.cfg with lzwCap := 257#32 }, regs := { s.regs with lzwStrict := true } : State }
    (s.NoBusError ∧ inAddr s (4 * 1) + 4 ≤ 2 ^ 32)
      ∧ s.lzw.next.toNat < (258#32).toNat
      ∧ (257#32 = f.lzw.next ∧ f.cfg.lzwCap.toNat ≤ f.lzw.next.toNat)
      ∧ ((256#32).toNat < f.lzw.next.toNat ∧ f.lzw.next = f.cfg.lzwCap ∧ f.regs.lzwStrict = true)
      ∧ (¬(s.lzw.next = s.cfg.lzwCap ∧ s.regs.lzwStrict = true) ∧ (256#32).toNat < s.lzw.next.toNat
        ∧ s.Room (stringOf s.lzw 256#32).length)
      ∧ (257#32 = s.lzw.next ∧ s.lzw.next.toNat < s.cfg.lzwCap.toNat) :=
  ⟨⟨testBase_noBusError rfl, by decide +kernel⟩, by decide +kernel, by decide +kernel, by decide +kernel,
    ⟨by decide +kernel, by decide +kernel, by decide +kernel, by decide +kernel⟩, by decide +kernel⟩

theorem witness_EmitString :
    (let s := { testIo testAbab 4 with lzw := ⟨seedEntries 0 256, 256#32, 255#32, true, 0#32⟩ : State };
      s.DictOk ∧ (255#32).toNat < s.lzw.next.toNat)
    ∧ (testDict 97#32).NoBusError ∧ (testDict 97#32).Room (stringOf (testDict 97#32).lzw 256#32).length :=
  ⟨⟨witness_seeded_dictOk _ rfl rfl, by decide +kernel⟩, testBase_noBusError rfl, by decide +kernel,
    by decide +kernel⟩

theorem witness_OutputFull :
    let s := { testDict 98#32 with
      huff := testAbraHuff, regs := { (testDict 98#32).regs with outCap := 1#32 } : State }
    (s.NoBusError ∧ s.regs.outBase.toNat + s.regs.outCap.toNat ≤ 2 ^ 32
        ∧ s.regs.outLen.toNat + 1 = s.regs.outCap.toNat)
      ∧ (s.WritesOnly (.serializeHeader 23#64) (headerBytes (headerPairs s.huff) 23)
        ∧ 1 < (headerBytes (headerPairs s.huff) 23).length)
      ∧ (s.WritesOnly (.emitString 256#32) [97#8, 98#8] ∧ 1 < ([97#8, 98#8] : List Byte).length)
      ∧ (s.WritesOnly .encodeEnd [98#8, 0#8, 0#8, 0#8]
        ∧ s.WritesOnly (.encodeByte 97#8) [98#8, 0#8, 0#8, 0#8]
        ∧ 1 < ([98#8, 0#8, 0#8, 0#8] : List Byte).length) := by
  intro s
  have h : findCode s.lzw 98#32 97#8 = none := by decide +kernel
  refine ⟨⟨testBase_noBusError rfl, by decide +kernel, by decide +kernel⟩,
    ⟨.inl ⟨23#64, rfl, by decide, rfl⟩, by decide +kernel⟩,
    ⟨.inr (.inl ⟨256#32, rfl, by decide +kernel⟩), by decide⟩,
    .inr (.inr (.inl ⟨rfl, by decide +kernel, by decide +kernel⟩)),
    .inr (.inr (.inr ⟨97#8, rfl, by decide +kernel, ?_, by decide +kernel, by decide +kernel⟩)), by decide⟩
  have hw : s.lzw.w = 98#32 := by decide +kernel
  rw [hw, exec, execFind, runOp, dictFind_run, h]

/-- No byte fits, or one of three: the first code, a later code that is the entry about to be made, three symbols of
a tree, three bits 0 of a one-symbol stream. -/
theorem witness_OutputFull_reading :
    (let s := testAfter .seed (testIo [0xFF#8, 0#8, 0#8, 0#8] 0);
      s.NoBusError ∧ s.regs.outLen.toNat + 0 = s.regs.outCap.toNat ∧ s.ReadsAndWrites .decodeFirst [0xFF#8])
    ∧ (let s := { testDict 97#32 with
          mem := Memory.writeBytes [] 0x104 [1#8, 1#8, 0#8, 0#8]
          regs := { (testDict 97#32).regs with outCap := 1#32 } : State };
        s.NoBusError ∧ s.regs.outLen.toNat + 1 = s.regs.outCap.toNat
          ∧ s.ReadsAndWrites (.decodeNext 1) [97#8, 97#8])
    ∧ (let s := { testIo [0b01000000#8] 1 with huff := testSmallTree : State };
        s.NoBusError ∧ s.regs.outLen.toNat + 1 = s.regs.outCap.toNat
          ∧ s.ReadsAndWrites (.decodeStream 0 3#64) [0x61#8, 0x62#8, 0x61#8])
    ∧ (let s := { testIo [0b00010000#8] 1 with huff := { testAbraHuff with u := 1 } : State };
        s.NoBusError ∧ s.regs.outLen.toNat + 1 = s.regs.outCap.toNat
          ∧ s.ReadsAndWrites (.decodeStream1 0 4#64) [0x61#8, 0x61#8, 0x61#8]) := by
  refine ⟨⟨testBase_noBusError rfl, by decide +kernel,
      .inl ⟨rfl, by decide +kernel, by decide +kernel, by decide +kernel⟩⟩,
    ⟨testBase_noBusError rfl, by decide +kernel,
      .inr (.inl ⟨1, 97#8, rfl, by decide +kernel, by decide +kernel, .inr (by decide +kernel)⟩)⟩,
    ⟨testBase_noBusError rfl, by decide +kernel,
      .inr (.inr (.inl ⟨0, 3#64, [[false], [true], [false]], [], rfl,
        ⟨by decide +kernel, by decide +kernel, by decide +kernel⟩,
        witness_smallTree_ok, ⟨0, 1, 2, rfl⟩, by decide +kernel, by decide +kernel, by decide +kernel⟩))⟩,
    ⟨testBase_noBusError rfl, by decide +kernel,
      .inr (.inr (.inr ⟨0, 4#64, rfl, ⟨by decide +kernel, by decide +kernel, by decide +kernel⟩,
        by decide +kernel, by decide +kernel, by decide +kernel, by decide +kernel⟩))⟩⟩

/-- The write of the first, or of the last, byte of the region fails: an operation and a command. -/
theorem witness_OutputFull_writeFails :
    (let s := testErr 0x200#32 .write (testDict 256#32);
      Instr.encodeEnd.hostIssuable = false ∧ Instr.encodeEnd.isCommand = false ∧ s.WriteFails 0
        ∧ s.regs.outBase.toNat + s.regs.outCap.toNat ≤ 2 ^ 32 ∧ s.regs.outLen.toNat ≤ 0
        ∧ 0 < s.regs.outCap.toNat)
      ∧ (let s := testErr 0x23F#32 .write (testIo testAbra 64);
        Instr.huffCompress.hostIssuable = false ∧ Instr.huffCompress.isCommand = true ∧ s.regs.RegionsOk
          ∧ s.WriteFails 63 ∧ 63 < s.regs.outCap.toNat) :=
  ⟨⟨rfl, rfl, testErr_writeFails (by decide +kernel), by decide +kernel, by decide +kernel, by decide +kernel⟩,
    rfl, rfl, ⟨by decide +kernel, by decide +kernel, by decide +kernel⟩, testErr_writeFails (by decide +kernel),
    by decide +kernel⟩

/-- The last byte of the first code, the first byte of code 1, byte 1 of a code stream after eight codes of one bit,
byte 1 of a one-symbol stream after eight bits 0. -/
theorem witness_OutputFull_readFails :
    (let s := testErr 0x103#32 .read (testIo [0#8, 0#8, 0#8, 0#8] 0);
      s.ReadFails 3 ∧ s.ReadsUpTo .decodeFirst 3 [] ∧ s.Room 0)
    ∧ (let s := testErr 0x104#32 .read (testDict 97#32);
      s.ReadFails 4 ∧ s.ReadsUpTo (.decodeNext 1) 4 [] ∧ s.Room 0)
    ∧ (let s := testErr 0x101#32 .read { testIo [0b01000000#8, 0#8] 8 with huff := testSmallTree };
      let msg := [0x61#8, 0x62#8, 0x61#8, 0x61#8, 0x61#8, 0x61#8, 0x61#8, 0x61#8];
      s.ReadFails 1 ∧ s.ReadsUpTo (.decodeStream 0 9#64) 1 msg ∧ s.Room msg.length)
    ∧ (let s := testErr 0x101#32 .read { testIo [0#8, 0#8] 8 with huff := { testAbraHuff with u := 1 } };
      s.ReadFails 1 ∧ s.ReadsUpTo (.decodeStream1 0 9#64) 1 (List.replicate 8 0x61#8) ∧ s.Room 8) := by
  refine ⟨⟨testErr_readFails (by decide +kernel), .inl ⟨rfl, by decide, rfl⟩, by decide +kernel, by decide +kernel⟩,
    ⟨testErr_readFails (by decide +kernel), .inr (.inl ⟨1, rfl, by decide, by decide, rfl⟩), by decide +kernel,
      by decide +kernel⟩,
    ⟨testErr_readFails (by decide +kernel), .inr (.inr (.inl
      ⟨0, 9#64, 1, [[false], [true], [false], [false], [false], [false], [false], [false]], [], rfl, rfl, by decide,
        ⟨by decide +kernel, by decide +kernel, by decide +kernel⟩, by decide +kernel,
        ⟨witness_smallTree_ok, ⟨0, 1, 2, rfl⟩, by decide +kernel, by decide +kernel, by decide +kernel⟩,
        .inl rfl⟩)), by decide +kernel, by decide +kernel⟩,
    ⟨testErr_readFails (by decide +kernel), .inr (.inr (.inr
      ⟨0, 9#64, 1, rfl, rfl, by decide, ⟨by decide +kernel, by decide +kernel, by decide +kernel⟩,
        by decide +kernel, by decide +kernel, by decide +kernel⟩)), by decide +kernel, by decide +kernel⟩⟩

/-- A path that ends inside the tree (the tree of witness_DecodeStream_incomplete). -/
theorem witness_OutputFull_inside :
    ({ testSmallTree with
        node := testSmallTree.node ++ [(3, .leaf 0x63#8 2), (4, .internal 2 3 4)], root := 4 } : Huff).Inside
      [false] := .inr ⟨2, 0, 1, 2, by decide, by decide⟩

/-- The read of the last input byte fails in the first pass. -/
theorem witness_OutputFull_counting :
    let s := testErr 0x10A#32 .read (testIo testAbra 0)
    s.ReadFails 10 ∧ 10 < s.regs.inLen.toNat :=
  ⟨testErr_readFails (by decide +kernel), by decide +kernel⟩

/-- A failing read at each end of the count field, of pair 4 and of T. -/
theorem witness_OutputFull_parsing (a : Word) :
    let s := testErr a .read (testIo testAbraFile 0)
    (s.huff.freq = Vector.replicate 256 0#32 ∧ s.huff.u = 0)
      ∧ (4 ≤ s.regs.inLen.toNat ∧ (5 : Nat) ≤ 256 ∧ 12 + 5 * 5 ≤ s.regs.inLen.toNat
        ∧ s.inWord 0 = BitVec.ofNat 32 5)
      ∧ (s.PairsOk 4 ∧ (∀ i, i < 4 → s.pairSym i ≠ s.pairSym 4) ∧ s.PairsOk 5)
      ∧ ∀ k ∈ [0, 3, 24, 25, 28, 29, 36], a = BitVec.ofNat 32 (0x100 + k) → s.ReadFails k := by
  have h : (testIo testAbraFile 0).PairsOk 5 := by unfold State.PairsOk; decide +kernel
  have h4 : ∀ i, i < 4 → (testIo testAbraFile 0).pairSym i ≠ (testIo testAbraFile 0).pairSym 4 := by decide +kernel
  have h0 : 4 ≤ (testIo testAbraFile 0).regs.inLen.toNat ∧ (5 : Nat) ≤ 256
      ∧ 12 + 5 * 5 ≤ (testIo testAbraFile 0).regs.inLen.toNat
      ∧ (testIo testAbraFile 0).inWord 0 = BitVec.ofNat 32 5 := by decide +kernel
  refine ⟨⟨rfl, rfl⟩, h0, ⟨fun j hj => h j (by omega), h4, h⟩, fun k hk e => testErr_readFails ?_⟩
  subst e
  revert k
  decide

/-- "abab" has codes 97, 98, 256; with LZW_CAP = 257 in strict mode the second insertion would be skipped. -/
theorem witness_LzwCompress :
    let s := testIo [0x61#8, 0x62#8, 0x61#8, 0x62#8] 12
    (s.regs.RegionsOk ∧ s.NoBusError ∧ 256 ≤ s.cfg.lzwCap.toNat ∧ s.cfg.lzwCap.toNat ≤ 2 ^ 31)
      ∧ (s.regs.lzwStrict = false ∧ lzwCodesOf 4096 s.input = [97, 98, 256]
        ∧ 4 * 3 ≤ s.regs.outCap.toNat)
      ∧ (lzwCodesOf 257 s.input = [97, 98, 256] ∧ 257 - 256 < 3 - 1 ∧ 4 * (257 - 256) ≤ s.regs.outCap.toNat)
      ∧ (11#32).toNat < 4 * 3 :=
  ⟨⟨⟨by decide +kernel, by decide +kernel, by decide +kernel⟩, testBase_noBusError rfl, by decide +kernel,
    by decide +kernel⟩, by decide +kernel, by decide +kernel, by decide⟩

/-- In strict mode with LZW_CAP = 258 "abcd" would skip its third insertion, but its second code does not fit. -/
theorem witness_LzwCompress_full :
    (let codes := lzwCodesOf 258 [0x61#8, 0x62#8, 0x63#8, 0x64#8];
      codes.length = 4 ∧ 258 - 256 < codes.length - 1 ∧ (7#32).toNat < 4 * (258 - 256)
        ∧ (7#32).toNat < 4 * codes.length)
      ∧ (let s := testErr 0x103#32 .read (testIo [0x61#8, 0x62#8, 0x61#8, 0x62#8] 8);
        (s.regs.RegionsOk ∧ s.ReadFails 3 ∧ 3 < s.regs.inLen.toNat ∧ 256 ≤ s.cfg.lzwCap.toNat
            ∧ s.cfg.lzwCap.toNat ≤ 2 ^ 31)
          ∧ [97, 98] = (lzwCodesOf s.cfg.lzwCap.toNat (s.input.take 3)).dropLast
          ∧ s.regs.lzwStrict = false ∧ 4 * 2 ≤ s.regs.outCap.toNat) :=
  ⟨by decide +kernel, ⟨⟨by decide +kernel, by decide +kernel, by decide +kernel⟩,
    testErr_readFails (by decide +kernel), by decide +kernel, by decide +kernel, by decide +kernel⟩,
    by decide +kernel, by decide +kernel, by decide +kernel⟩

/-- A partial code; codes 97, 256 (the second "aa"); a first code that is no seed; a second code above NEXT; with
LZW_CAP = 257 in strict mode, a third code that would skip an insertion; an output region of 2 bytes. -/
theorem witness_LzwDecompress :
    let s := testIo [0x61#8, 0#8, 0#8, 0#8, 0#8, 1#8, 0#8, 0#8] 3
    (s.regs.RegionsOk ∧ s.NoBusError ∧ 256 ≤ s.cfg.lzwCap.toNat ∧ s.cfg.lzwCap.toNat ≤ 2 ^ 31)
      ∧ (testIo [0x61#8, 0#8, 0#8, 0#8, 0#8] 3).regs.inLen.toNat % 4 ≠ 0
      ∧ (s.regs.inLen.toNat % 4 = 0 ∧ s.inCodes.length = 2
        ∧ lzwBytesOf s.cfg.lzwCap.toNat (s.inCodes.take 2) = some [97#8, 97#8, 97#8]
        ∧ s.regs.lzwStrict = false ∧ 3 ≤ s.regs.outCap.toNat)
      ∧ (lzwBytesOf 4096 ((testIo [0#8, 1#8, 0#8, 0#8] 3).inCodes.take 0) = some []
        ∧ lzwBytesOf 4096 ((testIo [0#8, 1#8, 0#8, 0#8] 3).inCodes.take 1) = none)
      ∧ (lzwBytesOf 4096 ((testIo [0x61#8, 0#8, 0#8, 0#8, 1#8, 1#8, 0#8, 0#8] 3).inCodes.take 1) = some [97#8]
        ∧ lzwBytesOf 4096 ((testIo [0x61#8, 0#8, 0#8, 0#8, 1#8, 1#8, 0#8, 0#8] 3).inCodes.take 2) = none)
      ∧ (lzwBytesOf 257 [97, 98] = some [97#8, 98#8] ∧ lzwBytesOf 257 [97, 98, 99] = some [97#8, 98#8, 99#8]
        ∧ 2 - 1 ≤ 257 - 256 ∧ 257 - 256 < 2)
      ∧ (lzwBytesOf 4096 (s.inCodes.take 1) = some [97#8] ∧ 2 < ([97#8, 97#8, 97#8] : List Byte).length) :=
  ⟨⟨⟨by decide +kernel, by decide +kernel, by decide +kernel⟩, testBase_noBusError rfl, by decide +kernel,
    by decide +kernel⟩, by decide +kernel, by decide +kernel, by decide +kernel, by decide +kernel,
    by decide +kernel, by decide +kernel⟩

/-- The read of the last byte of the first code fails, and that of the first byte of the second. -/
theorem witness_LzwDecompress_readFails :
    let i := testIo [0x61#8, 0#8, 0#8, 0#8, 0#8, 1#8, 0#8, 0#8] 1
    (∀ s ∈ [testErr 0x103#32 .read i, testErr 0x104#32 .read i],
      s.regs.inBase.toNat + s.regs.inLen.toNat ≤ 2 ^ 32 ∧ s.regs.outBase.toNat + s.regs.outCap.toNat ≤ 2 ^ 32
        ∧ s.regs.overlap = false ∧ 256 ≤ s.cfg.lzwCap.toNat ∧ s.cfg.lzwCap.toNat ≤ 2 ^ 31
        ∧ s.regs.inLen.toNat % 4 = 0 ∧ s.regs.lzwStrict = false
        ∧ lzwBytesOf s.cfg.lzwCap.toNat (s.inCodes.take (3 / 4)) = some []
        ∧ lzwBytesOf s.cfg.lzwCap.toNat (s.inCodes.take (4 / 4)) = some [97#8]
        ∧ 1 ≤ s.regs.outCap.toNat ∧ 4 < s.regs.inLen.toNat)
      ∧ (testErr 0x103#32 .read i).ReadFails 3 ∧ (testErr 0x104#32 .read i).ReadFails 4 :=
  ⟨by decide +kernel, testErr_readFails (by decide +kernel), testErr_readFails (by decide +kernel)⟩

theorem witness_LzwRoundTrip :
    let s := testIo [0x61#8, 0x61#8, 0x61#8] 12
    let t := testAfter .lzwCompress s
    let r := testIo t.output 3
    (s.regs.RegionsOk ∧ s.NoBusError ∧ 256 ≤ s.cfg.lzwCap.toNat ∧ s.cfg.lzwCap.toNat ≤ 2 ^ 31
        ∧ 4 * (lzwCodesOf s.cfg.lzwCap.toNat s.input).length ≤ s.regs.outCap.toNat
        ∧ s.regs.lzwStrict = false)
      ∧ r.regs.RegionsOk ∧ r.NoBusError ∧ r.cfg.lzwCap = s.cfg.lzwCap
      ∧ r.regs.lzwStrict = s.regs.lzwStrict ∧ r.input = t.output
      ∧ s.regs.inLen.toNat ≤ r.regs.outCap.toNat :=
  ⟨⟨⟨by decide +kernel, by decide +kernel, by decide +kernel⟩, testBase_noBusError rfl, by decide +kernel,
    by decide +kernel, by decide +kernel, rfl⟩,
    ⟨by decide +kernel, by decide +kernel, by decide +kernel⟩, testBase_noBusError rfl, rfl, rfl,
    by decide +kernel, by decide +kernel⟩

end Sys2Proof.Machine
end

/-! PROOFS. The family of 10_state.md: what the SYM window shows (R41 to R44), what the host reads (R22 to R46), and the
interrupt line (R47). -/

namespace Sys2Proof.Machine

/-! The SYM window -/

@[simp] theorem getLsbD_flagAt (b : Bool) (n i : Nat) :
    (flagAt b n).getLsbD i = (decide (n < 32 ∧ i = n) && b) := by
  cases b with
  | false => simp [flagAt]
  | true =>
    have hpow : (1#32 <<< n).getLsbD i = decide (n < 32 ∧ i = n) := by
      simpa [BitVec.twoPow, eq_comm] using BitVec.getLsbD_twoPow (w := 32) n i
    simpa [flagAt] using hpow

/-- R44: the first j code bits of word m stand at the top of the word, the first one at bit 31. -/
theorem getLsbD_symCodeBits (len : Nat) (bits : BitVec 255) (m j k : Nat) (hj : j ≤ 32) (hk : k < 32) :
    (symCodeBits len bits m j).getLsbD (31 - k)
      = (decide (k < j) && (decide (32 * m + k < len) && bits.getLsbD (32 * m + k))) := by
  induction j with
  | zero => simp [symCodeBits]
  | succ j ih =>
    rw [symCodeBits, BitVec.getLsbD_or, ih (by omega), getLsbD_flagAt]
    by_cases hkj : k = j
    · subst hkj
      simp [show 31 - k < 32 by omega]
    · simp [show ¬31 - k = 31 - j by omega, show k < j + 1 ↔ k < j by omega]

/-- R44: offset 0x60 + 4m reads SYM_CODEm. -/
theorem regWord_symCode (s : State) {m : Nat} (hm : m < 8) :
    s.regWord (BitVec.ofNat 8 (0x60 + 4 * m)) = s.symCode m := by
  interval_cases m <;> rfl

/-- Settles O18, by induction on the code bits of a SYM_CODE word. -/
theorem symWindow : Obligations.SymWindow := by
  unfold Obligations.SymWindow
  refine fun s => ⟨rfl, rfl, (ite_not _ _ _).symm, fun i hi => ?_⟩
  have hsplit : 32 * (i / 32) + i % 32 = i := Nat.div_add_mod i 32
  have hmod : i % 32 < 32 := Nat.mod_lt i (by decide)
  rw [regWord_symCode s (by omega), State.symCode, getLsbD_symCodeBits _ _ _ _ _ (Nat.le_refl 32) hmod,
    hsplit, decide_eq_true hmod, Bool.true_and]

/-! Host register reads -/

/-- The host's next entry is taken when the engine is not due. -/
theorem step_hostTurn {s : State} {op : HostOp} {rest : List HostOp} (hdue : engineDue s = false)
    (hhost : s.host = op :: rest) : step s = hostTurn op (takeEntry rest s) := by
  simp [step, turn, hdue, hhost]

/-- R22: a read of an aligned offset outside the hardware reset. -/
theorem hostRd_aligned {off : Byte} {s : State} (hr : s.hwReset = false) (ha : off.toNat % 4 = 0) :
    hostRd off s = .next { (readReg off s).2 with results := (readReg off s).1 :: s.results } := by
  have hok : accessRefusal off s = none := by simp [accessRefusal, ha, hr]
  simp only [hostRd, hok]

/-- R46: a register that is not hidden reads its word, with no side effect. -/
theorem readReg_visible {off : Byte} {s : State} (h : s.regs.busy = false ∨ hiddenWhileBusy off = false) :
    readReg off s = (s.regWord off, s) := by
  rcases h with h | h <;> simp [readReg, h]

/-- R46: a hidden register reads a free draw while BUSY. -/
theorem readReg_hidden {off : Byte} {s : State} (hb : s.regs.busy = true) (hh : hiddenWhileBusy off = true) :
    readReg off s = (Config.busyRead s.draws, { s with draws := s.draws + 1 }) := by
  simp [readReg, hb, hh]

theorem hiddenWhileBusy_iff (off : Byte) :
    hiddenWhileBusy off = true ↔ (0x24 ≤ off.toNat ∧ off.toNat ≤ 0x40)
      ∨ (0x4C ≤ off.toNat ∧ off.toNat ≤ 0x54) ∨ (0x60 ≤ off.toNat ∧ off.toNat ≤ 0x7C) := by
  simp [hiddenWhileBusy, or_assoc]

/-- Taking a host entry changes no register. -/
@[simp] theorem regWord_takeEntry (rest : List HostOp) (s : State) (off : Byte) :
    (takeEntry rest s).regWord off = s.regWord off := rfl

/-- R25: CTRL reads IRQ_EN at bit 2, LZW_STRICT at bit 3 and 0 elsewhere. -/
theorem getLsbD_ctrlWord (r : Regs) (i : Nat) :
    r.ctrlWord.getLsbD i = ((decide (i = 2) && r.irqEn) || (decide (i = 3) && r.lzwStrict)) := by
  simp [Regs.ctrlWord]

/-- R27: STATUS reads BUSY, DONE and ERROR at bits 0 to 2, ERR_CODE from bit 8 on and 0 elsewhere. -/
theorem getLsbD_statusWord (r : Regs) (i : Nat) :
    r.statusWord.getLsbD i
      = ((decide (i = 0) && r.busy) || (decide (i = 1) && r.done) || (decide (i = 2) && r.error)
        || (decide (8 ≤ i) && r.errCode.getLsbD (i - 8))) := by
  have hcode : (r.errCode.setWidth 32 <<< 8).getLsbD i = (decide (8 ≤ i) && r.errCode.getLsbD (i - 8)) := by
    rw [BitVec.getLsbD_shiftLeft, BitVec.getLsbD_setWidth]
    by_cases hi : i < 32
    · by_cases h8 : 8 ≤ i
      · simp [hi, h8, Nat.not_lt.mpr h8, show i - 8 < 32 by omega]
      · simp [h8, Nat.not_le.mp h8]
    · simp [hi, BitVec.getLsbD_of_ge r.errCode (i - 8) (by omega)]
  simp [Regs.statusWord, hcode]

/-- A reserved offset reads 0. -/
theorem regWord_reserved (s : State) {off : Byte}
    (h : off.toNat = 0x58 ∨ off.toNat = 0x5C ∨ 0x80 ≤ off.toNat) : s.regWord off = 0#32 := by
  unfold State.regWord
  split
  case h_31 => rfl
  all_goals omega

/-- Settles O17: a read is a visible or a hidden one, and each register's word is read off its bits. -/
theorem registerReads : Obligations.RegisterReads := by
  unfold Obligations.RegisterReads
  refine ⟨fun s off rest hr hdue hhost ha => ?_, fun s => ?_⟩
  · have hstep : step s = hostRd off (takeEntry rest s) := step_hostTurn hdue hhost
    rw [hostRd_aligned (s := takeEntry rest s) hr ha] at hstep
    refine ⟨fun hvis => ?_, fun hb hhid => ⟨Config.busyRead s.draws, ?_⟩⟩
    · have hshown : s.regs.busy = false ∨ hiddenWhileBusy off = false := by
        rcases hvis with h | hoff
        · exact .inl h
        · refine .inr (Bool.eq_false_iff.mpr fun hh => ?_)
          rw [hiddenWhileBusy_iff] at hh
          bv_omega
      rw [hstep, readReg_visible (s := takeEntry rest s) hshown]
      rfl
    · rw [hstep, readReg_hidden (s := takeEntry rest s) hb ((hiddenWhileBusy_iff off).mpr hhid)]
      rfl
  · exact ⟨rfl, rfl, getLsbD_ctrlWord s.regs, rfl, getLsbD_statusWord s.regs, rfl, rfl, rfl, rfl, rfl, rfl,
      rfl, rfl, rfl, rfl, rfl, rfl, rfl, rfl, fun _ => regWord_reserved s⟩

/-! The interrupt line -/

theorem fixed_irqEn {s t : State} (h : t.fixedPart = s.fixedPart) : t.regs.irqEn = s.regs.irqEn := by
  have e := congrArg (fun x : State => x.regs.irqEn) h
  exact e

/-- R141, R144, R307: a command launches, keeps to what an engine operation can change, and then completes or
ends on an error. -/
theorem runCommand_ends (op : BitVec 3) (s : State) :
    ∃ t, Keeps (launch { s with regs := { s.regs with op := op } }) t
      ∧ (runCommand op s = completed t ∨ ∃ e, runCommand op s = raiseError e t) := by
  cases hchk : startChecks (launch { s with regs := { s.regs with op := op } }) with
  | error e t =>
    exact ⟨t, keepsAll_startChecks.error hchk, .inr ⟨e, runCommand_stopped hchk⟩⟩
  | ok _ t =>
    have hrun := runCommand_started hchk
    rw [eng_bind] at hrun
    cases hop : commandOf op t with
    | ok _ u =>
      rw [hop] at hrun
      exact ⟨u, (keepsAll_startChecks.ok hchk).trans ((keepsAll_commandOf op).ok hop), .inl hrun⟩
    | error e u =>
      rw [hop] at hrun
      exact ⟨u, (keepsAll_startChecks.ok hchk).trans ((keepsAll_commandOf op).error hop), .inr ⟨e, hrun⟩⟩

theorem runCommand_done (op : BitVec 3) (s : State) : (runCommand op s).regs.done = true := by
  obtain ⟨t, -, h | ⟨e, h⟩⟩ := runCommand_ends op s <;> simp [h]

theorem runCommand_irqEn (op : BitVec 3) (s : State) : (runCommand op s).regs.irqEn = s.regs.irqEn := by
  obtain ⟨t, hk, h | ⟨e, h⟩⟩ := runCommand_ends op s <;> simp [h, fixed_irqEn hk.fixed]

/-- R141: START on an idle FCCORE sets IRQ_EN and LZW_STRICT and launches the command. -/
theorem exec_start_idle {s : State} (a b : Bool) (hr : s.hwReset = false) (hb : s.regs.busy = false) :
    exec (.start a b) s
      = .next (launch { s with regs := { s.regs with irqEn := a, lzwStrict := b } }) := by
  have hw : exec (.start a b) s = .next (hostWriteCtrl (startWord a b) s) := hostWrite_ctrl hr _
  have hbits : (startWord a b).getLsbD 0 = true ∧ (startWord a b).getLsbD 1 = false
      ∧ (startWord a b).getLsbD 2 = a ∧ (startWord a b).getLsbD 3 = b := by
    cases a <;> cases b <;> decide
  obtain ⟨h0, h1, h2, h3⟩ := hbits
  simp only [hw, hostWriteCtrl, h0, h1, h2, h3, hb, Bool.false_eq_true, if_false, if_true]

/-- R145: CLEAR_DONE acknowledges the end of a command. -/
theorem exec_clearDone {s : State} (hr : s.hwReset = false) :
    exec .clearDone s = .next (acknowledge s) :=
  hostWrite_status hr 2#32

/-- Settles O24: DONE is 1 after every command, which keeps IRQ_EN, and 0 after START and CLEAR_DONE. -/
theorem interruptLine : Obligations.InterruptLine := by
  unfold Obligations.InterruptLine
  refine ⟨fun _ => rfl, rfl, fun s op => ⟨_, exec_decodeOp op s, ?_⟩,
    fun s a b hr hb => ⟨_, exec_start_idle a b hr hb, ?_⟩, fun s hr => ⟨_, exec_clearDone hr, ?_⟩⟩
  · simp [State.irq, runCommand_done, runCommand_irqEn]
  · simp [State.irq]
  · simp [State.irq]

end Sys2Proof.Machine

/-! PROOFS. The family of 30_encoding.md: the opcode map of CMD words (R101) and the control actions of CTRL and
STATUS writes (R103). -/

namespace Sys2Proof.Machine

/-! The opcode map -/

/-- R101: the mask of the opcode map keeps all of CMD.OP. -/
theorem opField_and_opMask (w : Word) : opField (w &&& 7#32) = opField w := by
  have hmask : (7#32).extractLsb' 0 3 = BitVec.allOnes 3 := by decide
  rw [opField, opField, BitVec.extractLsb'_and, hmask, BitVec.and_allOnes]

/-- R101: a CMD word decodes to the command of the OP value that the mask leaves of it. -/
theorem decodeCmd_of_and_opMask {w : Word} (op : BitVec 3) (h : w &&& 7#32 = op.setWidth 32) :
    decodeCmd w = decodeOp op := by
  calc decodeCmd w = decodeCmd (w &&& 7#32) := by rw [decodeCmd, decodeCmd, opField_and_opMask]
    _ = decodeCmd (op.setWidth 32) := by rw [h]
    _ = decodeOp op := decodeCmd_op op

/-- R101: bits 31:3 of the CMD register read 0, since it holds OP only. -/
theorem cmdWord_and_unusedMask (r : Regs) : r.cmdWord &&& 0xFFFFFFF8#32 = 0#32 := by
  have hop : ∀ op : BitVec 3, op.setWidth 32 &&& 0xFFFFFFF8#32 = 0#32 := by decide
  exact hop r.op

/-- Settles O1: the mask leaves OP, and OP selects the command. -/
theorem commandWordDecoding : Obligations.CommandWordDecoding := by
  unfold Obligations.CommandWordDecoding
  refine ⟨fun w => ?_, fun s => cmdWord_and_unusedMask s.regs⟩
  exact ⟨decodeCmd_of_and_opMask 0#3, decodeCmd_of_and_opMask 1#3, decodeCmd_of_and_opMask 2#3,
    decodeCmd_of_and_opMask 3#3, decodeCmd_of_and_opMask 4#3, decodeCmd_of_and_opMask 5#3,
    decodeCmd_of_and_opMask 6#3, decodeCmd_of_and_opMask 7#3⟩

/-! The control actions -/

/-- R103: a CTRL write is SOFT_RESET by bit 1, else START by bit 0, else no instruction. -/
theorem decodeAction_ctrl (v : Word) :
    decodeAction 0x08#8 v
      = if v.getLsbD 1 then .ok .softReset
        else if v.getLsbD 0 then .ok (.start (v.getLsbD 2) (v.getLsbD 3))
        else .error .ctrlWithoutAction := rfl

/-- R103: a STATUS write is CLEAR_DONE by bit 1, else no instruction. -/
theorem decodeAction_status (v : Word) :
    decodeAction 0x10#8 v = if v.getLsbD 1 then .ok .clearDone else .error .statusWithoutDone := rfl

/-- Settles O2: bits 1 and 0 of the write, in this order, choose the branch. -/
theorem controlActionDecoding : Obligations.ControlActionDecoding := by
  unfold Obligations.ControlActionDecoding
  intro v
  rw [decodeAction_ctrl, decodeAction_status]
  refine ⟨fun h1 => ?softReset, fun h0 h1 => ?start, fun h0 h1 => ?noCtrlAction,
    fun h1 => ?clearDone, fun h1 => ?noStatusAction⟩
  case softReset => exact if_pos h1
  case start => simp only [h0, h1, Bool.false_eq_true, if_false, if_true]
  case noCtrlAction => simp only [h0, h1, Bool.false_eq_true, if_false]
  case clearDone => exact if_pos h1
  case noStatusAction => simp only [h1, Bool.false_eq_true, if_false]

end Sys2Proof.Machine

/-! PROOFS. The family of 40_command.md: the host's register writes (R140, R145, R147) and the start checks (R142,
R148). -/

namespace Sys2Proof.Machine

/-! Host register writes -/

/-- R140, R147: a write of an aligned offset outside the hardware reset. -/
theorem hostWrite_aligned {off : Byte} {s : State} (hr : s.hwReset = false) (ha : off.toNat % 4 = 0) (v : Word) :
    hostWrite off v s = .next (writeReg off v s) := by
  have hok : accessRefusal off s = none := by simp [accessRefusal, ha, hr]
  simp only [hostWrite, hok]

theorem hostWrite_congr {off : Byte} {v w : Word} {s : State} (h : writeReg off v s = writeReg off w s) :
    hostWrite off v s = hostWrite off w s := by
  rw [hostWrite, hostWrite, h]

@[simp] theorem writeReg_ctrl (v : Word) (s : State) : writeReg 0x08#8 v s = hostWriteCtrl v s := rfl
@[simp] theorem writeReg_cmd (v : Word) (s : State) :
    writeReg 0x0C#8 v s = writeConfig (fun r => { r with op := opField v }) s := rfl
@[simp] theorem writeReg_status (v : Word) (s : State) : writeReg 0x10#8 v s = hostWriteStatus v s := rfl
@[simp] theorem writeReg_inBase (v : Word) (s : State) :
    writeReg 0x14#8 v s = writeConfig (fun r => { r with inBase := v }) s := rfl
@[simp] theorem writeReg_inLen (v : Word) (s : State) :
    writeReg 0x18#8 v s = writeConfig (fun r => { r with inLen := v }) s := rfl
@[simp] theorem writeReg_outBase (v : Word) (s : State) :
    writeReg 0x1C#8 v s = writeConfig (fun r => { r with outBase := v }) s := rfl
@[simp] theorem writeReg_outCap (v : Word) (s : State) :
    writeReg 0x20#8 v s = writeConfig (fun r => { r with outCap := v }) s := rfl
@[simp] theorem writeReg_symSel (v : Word) (s : State) :
    writeReg 0x48#8 v s = { s with regs := { s.regs with symSel := v.setWidth 8 } } := rfl

/-- R147: read-only registers and reserved offsets ignore a write. -/
theorem writeReg_ignored {off : Byte} (hctrl : off ≠ 0x08#8) (hcmd : off ≠ 0x0C#8) (hstatus : off ≠ 0x10#8)
    (hinBase : off ≠ 0x14#8) (hinLen : off ≠ 0x18#8) (houtBase : off ≠ 0x1C#8) (houtCap : off ≠ 0x20#8)
    (hsymSel : off ≠ 0x48#8) (v : Word) (s : State) : writeReg off v s = s := by
  simp only [writeReg, offCtrl, offStatus, offCmd, offInBase, offInLen, offOutBase, offOutCap, offSymSel, hctrl,
    hcmd, hstatus, hinBase, hinLen, houtBase, houtCap, hsymSel, if_false]

theorem writeConfig_idle {s : State} (hb : s.regs.busy = false) (f : Regs → Regs) :
    writeConfig f s = { s with regs := f s.regs } := by simp [writeConfig, hb]

theorem writeConfig_busy {s : State} (hb : s.regs.busy = true) (f : Regs → Regs) : writeConfig f s = s := by
  simp [writeConfig, hb]

theorem hostWriteStatus_done {v : Word} (h1 : v.getLsbD 1 = true) (s : State) :
    hostWriteStatus v s = acknowledge s := if_pos h1

theorem hostWriteStatus_noDone {v : Word} (h1 : v.getLsbD 1 = false) (s : State) : hostWriteStatus v s = s :=
  if_neg (Bool.eq_false_iff.mp h1)

/-! The branches of HostWriteCTRL (R140) -/

theorem hostWriteCtrl_softReset {v : Word} (h1 : v.getLsbD 1 = true) (s : State) :
    hostWriteCtrl v s = softReset s := if_pos h1

theorem hostWriteCtrl_busy {v : Word} {s : State} (h1 : v.getLsbD 1 = false) (hb : s.regs.busy = true) :
    hostWriteCtrl v s = { s with regs := { s.regs with irqEn := v.getLsbD 2 } } := by
  simp only [hostWriteCtrl, h1, hb, Bool.false_eq_true, if_false, if_true]

theorem hostWriteCtrl_idle {v : Word} {s : State} (h1 : v.getLsbD 1 = false) (hb : s.regs.busy = false)
    (h0 : v.getLsbD 0 = false) :
    hostWriteCtrl v s
      = { s with regs := { s.regs with irqEn := v.getLsbD 2, lzwStrict := v.getLsbD 3 } } := by
  simp only [hostWriteCtrl, h0, h1, hb, Bool.false_eq_true, if_false]

theorem hostWriteCtrl_start {v : Word} {s : State} (h1 : v.getLsbD 1 = false) (hb : s.regs.busy = false)
    (h0 : v.getLsbD 0 = true) :
    hostWriteCtrl v s
      = launch { s with regs := { s.regs with irqEn := v.getLsbD 2, lzwStrict := v.getLsbD 3 } } := by
  simp only [hostWriteCtrl, h0, h1, hb, Bool.false_eq_true, if_false, if_true]

/-- R103: the CTRL word of START has the bits it is made of. -/
theorem getLsbD_startWord (a b : Bool) :
    (startWord a b).getLsbD 0 = true ∧ (startWord a b).getLsbD 1 = false ∧ (startWord a b).getLsbD 2 = a
      ∧ (startWord a b).getLsbD 3 = b := by
  cases a <;> cases b <;> decide

/-- R140: a START write with SOFT_RESET = 0 has the effect of the word that encodes it: bits 31:4 are ignored. -/
theorem hostWriteCtrl_startWord {v : Word} (h1 : v.getLsbD 1 = false) (h0 : v.getLsbD 0 = true) (s : State) :
    hostWriteCtrl (startWord (v.getLsbD 2) (v.getLsbD 3)) s = hostWriteCtrl v s := by
  obtain ⟨w0, w1, w2, w3⟩ := getLsbD_startWord (v.getLsbD 2) (v.getLsbD 3)
  cases hb : s.regs.busy with
  | true => rw [hostWriteCtrl_busy w1 hb, hostWriteCtrl_busy h1 hb, w2]
  | false => rw [hostWriteCtrl_start w1 hb w0, hostWriteCtrl_start h1 hb h0, w2, w3]

/-- R103: a write that decodes to a control action has, as that action, its own effect as a write; so every `WR` is
its register write. -/
theorem hostWr_eq_hostWrite (off : Byte) (v : Word) (s : State) : hostWr off v s = hostWrite off v s := by
  by_cases hctrl : off = 0x08#8
  · subst hctrl
    rw [hostWr, decodeAction_ctrl]
    cases h1 : v.getLsbD 1 with
    | true =>
      have hword : hostWriteCtrl 2#32 s = hostWriteCtrl v s := (hostWriteCtrl_softReset h1 s).symm
      exact hostWrite_congr hword
    | false =>
      cases h0 : v.getLsbD 0 with
      | true => exact hostWrite_congr (hostWriteCtrl_startWord h1 h0 s)
      | false => rfl
  · by_cases hstatus : off = 0x10#8
    · subst hstatus
      rw [hostWr, decodeAction_status]
      cases h1 : v.getLsbD 1 with
      | true =>
        have hword : hostWriteStatus 2#32 s = hostWriteStatus v s := (hostWriteStatus_done h1 s).symm
        exact hostWrite_congr hword
      | false => rfl
    · simp only [hostWr, decodeAction, offCtrl, offStatus, hctrl, hstatus, if_false]

/-- The step in which the host writes a register. -/
theorem step_wr {s : State} {off : Byte} {v : Word} {rest : List HostOp} (hr : s.hwReset = false)
    (hdue : engineDue s = false) (hhost : s.host = .wr off v :: rest) (ha : off.toNat % 4 = 0) :
    step s = .next (writeReg off v (takeEntry rest s)) := by
  calc step s = hostWr off v (takeEntry rest s) := step_hostTurn hdue hhost
    _ = hostWrite off v (takeEntry rest s) := hostWr_eq_hostWrite off v _
    _ = .next (writeReg off v (takeEntry rest s)) := hostWrite_aligned (s := takeEntry rest s) hr ha v

/-- R146: the instruction SOFT_RESET is the reset. -/
theorem exec_softReset {s : State} (hr : s.hwReset = false) : exec .softReset s = .next (softReset s) :=
  hostWrite_ctrl hr 2#32

/-- R107: CLRDONE is the write that CLEAR_DONE is. -/
theorem exec_clrdone (s : State) : exec .clrdone s = exec .clearDone s := rfl

/-- Settles O11: the step is the CTRL write, and SOFT_RESET, BUSY and START choose its branch. -/
theorem ctrlWrite : Obligations.CtrlWrite := by
  unfold Obligations.CtrlWrite
  intro s v rest hr hdue hhost
  rw [step_wr hr hdue hhost (by decide), writeReg_ctrl]
  refine ⟨fun h1 => ?softReset, fun h1 hb => ?busy, fun h1 hb h0 => ?idle, fun h1 hb h0 => ?start⟩
  case softReset => rw [hostWriteCtrl_softReset h1, exec_softReset (s := takeEntry rest s) hr]
  case busy => exact congrArg _ (hostWriteCtrl_busy (s := takeEntry rest s) h1 hb)
  case idle => exact congrArg _ (hostWriteCtrl_idle (s := takeEntry rest s) h1 hb h0)
  case start => exact congrArg _ (hostWriteCtrl_start (s := takeEntry rest s) h1 hb h0)

/-- Settles O13: CLEAR_DONE and CLRDONE acknowledge, and bit 1 decides whether a STATUS write does. -/
theorem clearDone : Obligations.ClearDone := by
  unfold Obligations.ClearDone
  refine ⟨fun s i hr hi => ?instruction, fun s v rest hr hdue hhost => ?write⟩
  case instruction =>
    obtain rfl | rfl := hi
    · exact exec_clearDone hr
    · rw [exec_clrdone]
      exact exec_clearDone hr
  case write =>
    rw [step_wr hr hdue hhost (by decide), writeReg_status]
    exact ⟨fun h1 => congrArg _ (hostWriteStatus_done h1 _), fun h1 => congrArg _ (hostWriteStatus_noDone h1 _)⟩

/-- Settles O14: the step is the write of its register, and BUSY decides on the five configuration registers. -/
theorem registerWrites : Obligations.RegisterWrites := by
  unfold Obligations.RegisterWrites
  intro s off v rest hr hdue hhost ha
  rw [step_wr hr hdue hhost ha]
  refine ⟨fun hb => ?idle, fun hb hoff => ?busy, ?symSel, ?ignored⟩
  case idle =>
    have hset (f : Regs → Regs) :
        writeConfig f (takeEntry rest s) = { takeEntry rest s with regs := f s.regs } :=
      writeConfig_idle (s := takeEntry rest s) hb f
    refine ⟨?_, ?_, ?_, ?_, ?_⟩ <;> rintro rfl
    · rw [writeReg_cmd, hset, opField]
    · rw [writeReg_inBase, hset]
    · rw [writeReg_inLen, hset]
    · rw [writeReg_outBase, hset]
    · rw [writeReg_outCap, hset]
  case busy =>
    have hkeep (f : Regs → Regs) : writeConfig f (takeEntry rest s) = takeEntry rest s :=
      writeConfig_busy (s := takeEntry rest s) hb f
    obtain rfl | rfl | rfl | rfl | rfl := hoff
    · rw [writeReg_cmd, hkeep]
    · rw [writeReg_inBase, hkeep]
    · rw [writeReg_inLen, hkeep]
    · rw [writeReg_outBase, hkeep]
    · rw [writeReg_outCap, hkeep]
  case symSel =>
    rintro rfl
    rw [writeReg_symSel, BitVec.setWidth_eq_extractLsb' (by decide), takeEntry_regs]
  case ignored =>
    intro hctrl hcmd hstatus hinBase hinLen houtBase houtCap hsymSel
    rw [writeReg_ignored hctrl hcmd hstatus hinBase hinLen houtBase houtCap hsymSel]

/-! The start checks -/

/-- R142: the start checks change nothing, and the first that fails raises. -/
theorem startChecks_run (s : State) :
    startChecks s =
      if s.regs.op.toNat = 0 ∨ 4 < s.regs.op.toNat then .error ⟨.unsupportedConfiguration, BitVec.ofNat 32 0⟩ s
      else if 2 ^ 32 < s.regs.inBase.toNat + s.regs.inLen.toNat then .error ⟨.ioOpen, BitVec.ofNat 32 0⟩ s
      else if 2 ^ 32 < s.regs.outBase.toNat + s.regs.outCap.toNat then .error ⟨.ioOpen, BitVec.ofNat 32 1⟩ s
      else if s.regs.overlap then .error ⟨.unsupportedConfiguration, BitVec.ofNat 32 1⟩ s
      else .ok () s := by
  simp only [startChecks, eng_bind, eng_get]
  split_ifs <;> rfl

theorem startChecks_reservedOp {s : State} (hop : s.regs.op.toNat = 0 ∨ 4 < s.regs.op.toNat) :
    startChecks s = .error ⟨.unsupportedConfiguration, BitVec.ofNat 32 0⟩ s := by
  rw [startChecks_run, if_pos hop]

theorem startChecks_inputWraps {s : State} (hop : ¬(s.regs.op.toNat = 0 ∨ 4 < s.regs.op.toNat))
    (hin : 2 ^ 32 < s.regs.inBase.toNat + s.regs.inLen.toNat) :
    startChecks s = .error ⟨.ioOpen, BitVec.ofNat 32 0⟩ s := by
  rw [startChecks_run, if_neg hop, if_pos hin]

theorem startChecks_outputWraps {s : State} (hop : ¬(s.regs.op.toNat = 0 ∨ 4 < s.regs.op.toNat))
    (hin : s.regs.inBase.toNat + s.regs.inLen.toNat ≤ 2 ^ 32)
    (hout : 2 ^ 32 < s.regs.outBase.toNat + s.regs.outCap.toNat) :
    startChecks s = .error ⟨.ioOpen, BitVec.ofNat 32 1⟩ s := by
  rw [startChecks_run, if_neg hop, if_neg hin.not_gt, if_pos hout]

theorem startChecks_overlap {s : State} (hop : ¬(s.regs.op.toNat = 0 ∨ 4 < s.regs.op.toNat))
    (hin : s.regs.inBase.toNat + s.regs.inLen.toNat ≤ 2 ^ 32)
    (hout : s.regs.outBase.toNat + s.regs.outCap.toNat ≤ 2 ^ 32) (hov : s.regs.overlap = true) :
    startChecks s = .error ⟨.unsupportedConfiguration, BitVec.ofNat 32 1⟩ s := by
  rw [startChecks_run, if_neg hop, if_neg hin.not_gt, if_neg hout.not_gt, if_pos hov]

/-- R142: both regions are non-empty and each begins before the other ends. -/
theorem overlap_iff (r : Regs) :
    r.overlap = true ↔ 0 < r.inLen.toNat ∧ 0 < r.outCap.toNat ∧ r.inBase.toNat < r.outBase.toNat + r.outCap.toNat
      ∧ r.outBase.toNat < r.inBase.toNat + r.inLen.toNat := by
  simp only [Regs.overlap, Bool.and_eq_true, decide_eq_true_eq, and_assoc]

/-- R141, R307: a command that a start check stops leaves the launched state with that error. -/
theorem exec_decodeOp_stopped {op : BitVec 3} {s : State} {k : ErrKind} {info : Nat}
    (h : startChecks (launch { s with regs := { s.regs with op := op } })
      = .error ⟨k, BitVec.ofNat 32 info⟩ (launch { s with regs := { s.regs with op := op } })) :
    ∃ (e : Word) (d : Nat), exec (decodeOp op) s = .next (s.failedLaunch op k info e d) := by
  refine ⟨Config.elapsedTicks s.draws, s.draws + 1, ?_⟩
  rw [exec_decodeOp, runCommand_stopped h]
  rfl

/-- R148: a reserved OP fails the first check, whatever the regions are. -/
theorem exec_decodeOp_reserved {op : BitVec 3} (hop : op.toNat = 0 ∨ 4 < op.toNat) (s : State) :
    ∃ (e : Word) (d : Nat),
      exec (decodeOp op) s = .next (s.failedLaunch op .unsupportedConfiguration 0 e d) :=
  exec_decodeOp_stopped (startChecks_reservedOp hop)

/-- R27: STATUS after a start check stopped a command reads DONE, ERROR and the error's code. -/
theorem statusWord_failedLaunch (s : State) (op : BitVec 3) (k : ErrKind) (info : Nat) (e : Word) (d : Nat) :
    (s.failedLaunch op k info e d).regs.statusWord = 6#32 ||| (k.code.setWidth 32 <<< 8) := by
  have hflags : flagAt false 0 ||| flagAt true 1 ||| flagAt true 2 = 6#32 := by decide
  exact congrArg (· ||| (k.code.setWidth 32 <<< 8)) hflags

/-- Settles O20: the reserved instructions are the decodings of the reserved OP values. -/
theorem reservedCommands : Obligations.ReservedCommands := by
  unfold Obligations.ReservedCommands
  intro s i op hi
  have hreserved : i = decodeOp op ∧ (op.toNat = 0 ∨ 4 < op.toNat) := by
    obtain ⟨rfl, rfl⟩ | ⟨rfl, rfl⟩ | ⟨rfl, rfl⟩ | ⟨rfl, rfl⟩ := hi <;> decide
  obtain ⟨rfl, hop⟩ := hreserved
  obtain ⟨e, d, hexec⟩ := exec_decodeOp_reserved hop s
  exact ⟨e, d, hexec, (statusWord_failedLaunch s op .unsupportedConfiguration 0 e d).trans (by decide)⟩

/-- Settles O21: START's clearing keeps OP and the regions, so each check fails on the launched state. -/
theorem startChecksInOrder : Obligations.StartChecksInOrder := by
  unfold Obligations.StartChecksInOrder
  intro s op
  refine ⟨fun hop => exec_decodeOp_reserved hop s, fun hlo hhi => ?_⟩
  have hop : ¬(op.toNat = 0 ∨ 4 < op.toNat) := by omega
  refine ⟨fun hin => ?input, fun hin hout => ?output, fun hin hout hilen hocap hib hob => ?overlap⟩
  case input => exact exec_decodeOp_stopped (startChecks_inputWraps hop hin)
  case output => exact exec_decodeOp_stopped (startChecks_outputWraps hop hin hout)
  case overlap =>
    have hov : s.regs.overlap = true := (overlap_iff s.regs).mpr ⟨hilen, hocap, hib, hob⟩
    exact exec_decodeOp_stopped (startChecks_overlap hop hin hout hov)

end Sys2Proof.Machine

/-! PROOFS. The family of 41_bitpacker.md: PackBit (R171), PackFlush (R172) and the stream that they
write (R170, R173). -/

namespace Sys2Proof.Machine

/-! OutByte as R75 states it -/

theorem outByte_full {s : State} (v : Byte) (hfull : s.regs.outLen = s.regs.outCap) :
    outByte v s = .error ⟨.ioWrite, BitVec.ofNat 32 s.regs.outLen.toNat⟩ s := by
  rw [outByte_run, if_pos hfull]

theorem outByte_busError {s : State} (v : Byte) (hne : s.regs.outLen ≠ s.regs.outCap)
    (ha : outAddr s < 2 ^ 32) (hbus : s.busAnswer (outAddr s) .write = true) :
    outByte v s = .error ⟨.ioWrite, BitVec.ofNat 32 s.regs.outLen.toNat⟩ s.answered := by
  rw [outByte_run, if_neg hne, if_pos hbus, drawn_of_lt ha]

/-- R75: the byte is written at the next output address and counted. -/
theorem outByte_written {s : State} (v : Byte) (hne : s.regs.outLen ≠ s.regs.outCap)
    (ha : outAddr s < 2 ^ 32) (hbus : s.busAnswer (outAddr s) .write = false) :
    outByte v s
      = .ok () (s.answered.afterOut (Memory.write s.mem (outAddr s) v) s.answered.draws 1) := by
  rw [outByte_run, if_neg hne, hbus, drawn_of_lt ha]
  obtain ⟨d, -, hd⟩ := answered_eq s
  rw [hd]
  rfl

theorem appends_write (s : State) (v : Byte) :
    s.Appends (Memory.write s.mem (outAddr s) v) [v] := by
  refine ⟨by simp [Memory.readBytes], fun a ha => Memory.read_write_ne _ _ ?_⟩
  rw [List.length_singleton] at ha
  omega

/-- R54, R78: the platform's answer does not concern the packer. -/
theorem answered_withPack (s : State) (p : Packer) :
    { s with pack := p }.answered = { s.answered with pack := p } := by
  cases hbus : s.cfg.busErr <;> simp only [State.answered, hbus]

@[simp] theorem answered_pack (s : State) : s.answered.pack = s.pack := by
  obtain ⟨d, -, hd⟩ := answered_eq s
  rw [hd]

/-! PackFlush (R172) -/

theorem exec_packFlush_empty {s : State} (hp : s.pack.pcnt = 0#3) :
    exec .packFlush s = .next { s with ret := .none } := by
  show execPackFlush s = _
  simp only [execPackFlush, runOp, packFlush, eng_bind, eng_get, hp, if_true, eng_pure]

/-- R172, R307: an error of OutByte ends the command. -/
theorem exec_packFlush_error {s t : State} {k : ErrKind} {info : Nat} (hp : s.pack.pcnt ≠ 0#3)
    (hout : outByte s.pack.pacc s = .error ⟨k, BitVec.ofNat 32 info⟩ t) :
    exec .packFlush s = .next (t.endedBy k info) := by
  show execPackFlush s = _
  simp only [execPackFlush, runOp, packFlush, eng_bind, eng_get, hp, if_false, hout]
  rfl

/-- R172: the byte that OutByte took leaves PACC and PCNT empty. -/
theorem exec_packFlush_ok {s t : State} (hp : s.pack.pcnt ≠ 0#3)
    (hout : outByte s.pack.pacc s = .ok () t) :
    exec .packFlush s = .next { t with pack := packerEmpty t.pack, ret := .none } := by
  show execPackFlush s = _
  simp only [execPackFlush, runOp, packFlush, eng_bind, eng_get, hp, if_false, hout, eng_modify]

/-- Settles O29: PCNT decides whether OutByte takes PACC, and OutByte has three outcomes. -/
theorem packFlush_outcomes : Obligations.PackFlush := by
  unfold Obligations.PackFlush
  refine fun s => ⟨exec_packFlush_empty, fun hp => ⟨fun hfull => ?full, fun hne ha hbus => ?busError,
    fun hne ha hbus => ?written⟩⟩
  case full => exact exec_packFlush_error hp (outByte_full _ hfull)
  case busError => exact exec_packFlush_error hp (outByte_busError _ hne ha hbus)
  case written =>
    refine ⟨_, ?_, appends_write s s.pack.pacc⟩
    rw [exec_packFlush_ok hp (outByte_written _ hne ha hbus)]
    simp only [State.afterOut, packerEmpty, answered_pack]

/-! PackBit (R171) -/

theorem pcnt_seven_ne_zero : 7#3 ≠ 0#3 := by decide

/-- R171: the bit is placed at position 7 - PCNT, and no other bit of PACC changes. -/
theorem getLsbD_placeBit (p : Packer) (b : Bool) {i : Nat} (hi : i < 8) :
    (placeBit p b).getLsbD i = if i = 7 - p.pcnt.toNat then b else p.pacc.getLsbD i := by
  have hpow : (1#8 <<< (7 - p.pcnt.toNat)).getLsbD i = decide (i = 7 - p.pcnt.toNat) := by
    rw [← BitVec.twoPow_eq, BitVec.getLsbD_twoPow, decide_eq_true (by omega), Bool.true_and]
    exact decide_eq_decide.mpr eq_comm
  cases b with
  | true =>
    rw [placeBit, if_pos rfl, BitVec.getLsbD_or, hpow]
    by_cases hpos : i = 7 - p.pcnt.toNat <;> simp [hpos]
  | false =>
    rw [placeBit, if_neg Bool.false_ne_true, BitVec.getLsbD_and, BitVec.getLsbD_not, hpow]
    by_cases hpos : i = 7 - p.pcnt.toNat <;> simp [hpos, hi]

theorem exec_packBit_free {s : State} (b : Bool) (hp : s.pack.pcnt ≠ 7#3) :
    exec (.packBit b) s
      = .next { s with pack := ⟨placeBit s.pack b, s.pack.pcnt + 1#3, s.pack.nbits + 1⟩, ret := .none } := by
  show execPackBit b s = _
  simp only [execPackBit, runOp, packBit, eng_bind, eng_get, eng_modify, packerPlace, hp, if_false]

/-- R171, R172: the eighth bit of a byte is placed and then flushed. -/
theorem exec_packBit_eighth {s : State} (b : Bool) (hp : s.pack.pcnt = 7#3) :
    exec (.packBit b) s
      = exec .packFlush { s with pack := ⟨placeBit s.pack b, 7#3, s.pack.nbits + 1⟩ } := by
  show execPackBit b s = execPackFlush _
  simp only [execPackBit, execPackFlush, runOp, packBit, packFlush, eng_bind, eng_get, eng_modify, packerPlace,
    hp, pcnt_seven_ne_zero, if_true, if_false]

/-- Settles O28: the eighth bit of a byte is a PackFlush of the byte it completes. -/
theorem packBit_outcomes : Obligations.PackBit := by
  unfold Obligations.PackBit
  refine fun b s => ⟨placeBit s.pack b, fun i => getLsbD_placeBit s.pack b, exec_packBit_free b, fun hp => ?_⟩
  obtain ⟨hfull, hbus, hwritten⟩ :=
    (packFlush_outcomes { s with pack := ⟨placeBit s.pack b, 7#3, s.pack.nbits + 1⟩ }).2 pcnt_seven_ne_zero
  rw [exec_packBit_eighth b hp]
  rw [answered_withPack] at hbus hwritten
  exact ⟨hfull, hbus, hwritten⟩

/-! The packed stream (R170, R173) -/

/-- The number whose n binary digits are f 0, f 1, ..., the most significant first. -/
def msbFirst (f : Nat → Bool) (n : Nat) : Nat :=
  ((List.range n).map fun i => (f i).toNat * 2 ^ (n - 1 - i)).sum

theorem msbFirst_succ (f : Nat → Bool) (n : Nat) : msbFirst f (n + 1) = Nat.bit (f n) (msbFirst f n) := by
  have hdouble : ∀ i ∈ List.range n, (f i).toNat * 2 ^ (n - i) = 2 * ((f i).toNat * 2 ^ (n - 1 - i)) := by
    intro i hi
    rw [show n - i = n - 1 - i + 1 by have := List.mem_range.mp hi; omega, pow_succ]
    ring
  rw [msbFirst, Nat.add_sub_cancel, List.range_succ, List.map_append, List.sum_append,
    List.map_congr_left hdouble, List.sum_map_mul_left, Nat.bit_val, msbFirst]
  simp

theorem testBit_msbFirst (f : Nat → Bool) {n j : Nat} (hj : j < n) :
    (msbFirst f n).testBit j = f (n - 1 - j) := by
  induction n generalizing j with
  | zero => exact absurd hj j.not_lt_zero
  | succ n ih =>
    rw [msbFirst_succ]
    cases j with
    | zero => exact Nat.testBit_bit_zero _ _
    | succ j =>
      rw [Nat.testBit_bit_succ, ih (by omega)]
      congr 1
      omega

/-- R170: byte m of a code stream; the bits past the end of the stream are 0. -/
def packedByte (bits : List Bool) (m : Nat) : Byte :=
  BitVec.ofNat 8 (msbFirst (fun i => bits.getD (8 * m + i) false) 8)

theorem packedBytes_eq (bits : List Bool) :
    packedBytes bits = (List.range ((bits.length + 7) / 8)).map (packedByte bits) := rfl

/-- R170: bit i of byte m is bit 8m + (7 - i) of the stream. -/
theorem getLsbD_packedByte (bits : List Bool) (m : Nat) {i : Nat} (hi : i < 8) :
    (packedByte bits m).getLsbD i = bits.getD (8 * m + (7 - i)) false := by
  rw [packedByte, BitVec.getLsbD_ofNat, decide_eq_true hi, Bool.true_and, testBit_msbFirst _ hi]

theorem packedByte_of_length_le {bits : List Bool} {m : Nat} (h : bits.length ≤ 8 * m) :
    packedByte bits m = 0#8 := by
  refine BitVec.eq_of_getLsbD_eq fun i hi => ?_
  rw [getLsbD_packedByte bits m hi, List.getD_eq_default _ _ (by omega), BitVec.getLsbD_zero]

/-- The stream with one bit more. -/
theorem getD_append_singleton (bits : List Bool) (b : Bool) (k : Nat) :
    (bits ++ [b]).getD k false = if k = bits.length then b else bits.getD k false := by
  rcases Nat.lt_trichotomy k bits.length with hlt | rfl | hgt
  · rw [List.getD_append _ _ _ _ hlt, if_neg hlt.ne]
  · simp
  · rw [if_neg hgt.ne', List.getD_eq_default _ _ (by simpa using hgt), List.getD_eq_default _ _ hgt.le]

/-- A later bit does not change a byte that is full. -/
theorem packedByte_append_of_full {bits : List Bool} {m : Nat} (b : Bool) (h : m < bits.length / 8) :
    packedByte (bits ++ [b]) m = packedByte bits m := by
  refine BitVec.eq_of_getLsbD_eq fun i hi => ?_
  rw [getLsbD_packedByte _ m hi, getLsbD_packedByte _ m hi, getD_append_singleton, if_neg (by omega)]

/-! The packer at a point of the stream -/

/-- R171: the packer after a stream, from PCNT = 0 and NBITS = n: PACC is the byte not yet full. -/
def packerAfter (n : Nat) (bits : List Bool) : Packer :=
  ⟨packedByte bits (bits.length / 8), BitVec.ofNat 3 bits.length, n + bits.length⟩

/-- The bytes of a stream that are full. -/
def fullBytes (bits : List Bool) : List Byte := (List.range (bits.length / 8)).map (packedByte bits)

@[simp] theorem length_fullBytes (bits : List Bool) : (fullBytes bits).length = bits.length / 8 := by
  simp [fullBytes]

theorem packerAfter_pcnt_eq_iff (n : Nat) (bits : List Bool) (c : BitVec 3) :
    (packerAfter n bits).pcnt = c ↔ bits.length % 8 = c.toNat := by
  rw [← BitVec.toNat_inj]
  simp [packerAfter]

/-- R170, R171: PackBit places the next bit of the stream where the stream has it. -/
theorem placeBit_packerAfter (n : Nat) (bits : List Bool) (b : Bool) :
    placeBit (packerAfter n bits) b = packedByte (bits ++ [b]) (bits.length / 8) := by
  refine BitVec.eq_of_getLsbD_eq fun i hi => ?_
  have hpos : i = 7 - (packerAfter n bits).pcnt.toNat ↔ 8 * (bits.length / 8) + (7 - i) = bits.length := by
    have hcnt := (packerAfter_pcnt_eq_iff n bits _).mp rfl
    omega
  rw [getLsbD_placeBit _ _ hi, getLsbD_packedByte _ _ hi, getD_append_singleton]
  exact if_congr hpos rfl (getLsbD_packedByte _ _ hi)

theorem fullBytes_append_free {bits : List Bool} (b : Bool) (h : bits.length % 8 ≠ 7) :
    fullBytes (bits ++ [b]) = fullBytes bits := by
  rw [fullBytes, List.length_append, List.length_singleton, show (bits.length + 1) / 8 = bits.length / 8 by omega]
  exact List.map_congr_left fun m hm => packedByte_append_of_full b (List.mem_range.mp hm)

theorem fullBytes_append_eighth {bits : List Bool} (b : Bool) (h : bits.length % 8 = 7) :
    fullBytes (bits ++ [b]) = fullBytes bits ++ [packedByte (bits ++ [b]) (bits.length / 8)] := by
  rw [fullBytes, List.length_append, List.length_singleton,
    show (bits.length + 1) / 8 = bits.length / 8 + 1 by omega, List.range_succ, List.map_append]
  congr 1
  exact List.map_congr_left fun m hm => packedByte_append_of_full b (List.mem_range.mp hm)

theorem packerAfter_append_free {n : Nat} {bits : List Bool} (b : Bool) (h : bits.length % 8 ≠ 7) :
    packerAfter n (bits ++ [b])
      = ⟨placeBit (packerAfter n bits) b, (packerAfter n bits).pcnt + 1#3, (packerAfter n bits).nbits + 1⟩ := by
  rw [placeBit_packerAfter, packerAfter, List.length_append, List.length_singleton,
    show (bits.length + 1) / 8 = bits.length / 8 by omega, BitVec.ofNat_add]
  rfl

theorem packerAfter_append_eighth {n : Nat} {bits : List Bool} (b : Bool) (h : bits.length % 8 = 7) :
    packerAfter n (bits ++ [b]) = ⟨0#8, 0#3, (packerAfter n bits).nbits + 1⟩ := by
  have hlen : (bits ++ [b]).length = bits.length + 1 := List.length_append
  have hcnt : (packerAfter n (bits ++ [b])).pcnt = 0#3 := by
    rw [packerAfter_pcnt_eq_iff, hlen, BitVec.toNat_zero]
    omega
  have hacc : (packerAfter n (bits ++ [b])).pacc = 0#8 := packedByte_of_length_le (by omega)
  rw [← hcnt, ← hacc]
  simp [packerAfter, hlen, Nat.add_assoc]

/-- R173: a stream of whole bytes has no padding. -/
theorem packedBytes_of_whole {bits : List Bool} (h : bits.length % 8 = 0) : packedBytes bits = fullBytes bits := by
  rw [packedBytes_eq, show (bits.length + 7) / 8 = bits.length / 8 by omega, fullBytes]

/-- R173: otherwise the last byte is the padded one. -/
theorem packedBytes_of_rest {bits : List Bool} (h : bits.length % 8 ≠ 0) :
    packedBytes bits = fullBytes bits ++ [packedByte bits (bits.length / 8)] := by
  rw [packedBytes_eq, show (bits.length + 7) / 8 = bits.length / 8 + 1 by omega, List.range_succ, List.map_append]
  rfl

/-! Packing a list of bits -/

/-- What packing changes: memory m, d draws, n more output bytes counted, packer p, result r. -/
def State.packing (s : State) (m : List Host.Cell) (d n : Nat) (p : Packer) (r : Ret) : State :=
  { s.afterOut m d n with pack := p, ret := r }

theorem packing_self (s : State) : s.packing s.mem s.draws 0 s.pack s.ret = s := by
  rw [State.packing, afterOut_zero]

theorem packing_packing (s : State) (m m' : List Host.Cell) (d d' n k : Nat) (p p' : Packer) (r r' : Ret) :
    (s.packing m d n p r).packing m' d' k p' r' = s.packing m' d' (n + k) p' r' :=
  congrArg (fun t : State => { t with pack := p', ret := r' }) (afterOut_afterOut s m m' d d' n k)

/-- R172: with room and no bus error PackFlush appends PACC to the bytes bs written before it. -/
theorem exec_packFlush_packing {s : State} {m : List Host.Cell} {bs : List Byte} {d : Nat} {p : Packer} {r : Ret}
    (hbus : s.NoBusError) (hroom : s.Room (bs.length + 1)) (hm : s.Appends m bs) (hp : p.pcnt ≠ 0#3) :
    ∃ (m' : List Host.Cell) (d' : Nat),
      exec .packFlush (s.packing m d bs.length p r)
        = .next (s.packing m' d' (bs.length + 1) ⟨0#8, 0#3, p.nbits⟩ .none)
      ∧ s.Appends m' (bs ++ [p.pacc]) := by
  have hout := outByte_ok (s := s.packing m d bs.length p r) p.pacc (hbus.of_cfg rfl) (hroom.after m d)
  obtain ⟨d', -, hd⟩ := answered_eq (s.packing m d bs.length p r)
  rw [hd] at hout
  refine ⟨_, d', ?_, appends_append (d := d) hm ?_ (appends_write (s.packing m d bs.length p r) p.pacc)⟩
  · exact (exec_packFlush_ok hp hout).trans (congrArg _ (packing_packing ..))
  · have := s.regs.outCap.isLt
    have := hroom.1
    omega

/-- R171, R173: t is s after the bits were packed. -/
def State.Packed (s : State) (bits : List Bool) (t : State) : Prop :=
  ∃ (m : List Host.Cell) (d : Nat) (r : Ret),
    t = s.packing m d (fullBytes bits).length (packerAfter s.pack.nbits bits) r ∧ s.Appends m (fullBytes bits)

/-- R171: PACC is 0 whenever PCNT = 0, so nothing is packed yet. -/
theorem packed_nil {s : State} (hcnt : s.pack.pcnt = 0#3) (hacc : s.pack.pacc = 0#8) : s.Packed [] s := by
  have hpack : packerAfter s.pack.nbits [] = s.pack := by
    show (⟨0#8, 0#3, s.pack.nbits⟩ : Packer) = s.pack
    rw [← hcnt, ← hacc]
  refine ⟨s.mem, s.draws, s.ret, ?_, appends_nil s⟩
  rw [hpack]
  exact (packing_self s).symm

/-- R171: one more bit, with room and no bus error. -/
theorem exec_packBit_packed {s t : State} {bits : List Bool} (b : Bool) (hbus : s.NoBusError)
    (hroom : s.Room (fullBytes (bits ++ [b])).length) (ht : s.Packed bits t) :
    ∃ t', exec (.packBit b) t = .next t' ∧ s.Packed (bits ++ [b]) t' := by
  obtain ⟨m, d, r, rfl, hm⟩ := ht
  by_cases h7 : bits.length % 8 = 7
  case pos =>
    have hp := (packerAfter_pcnt_eq_iff s.pack.nbits bits 7#3).mpr h7
    have hfull := fullBytes_append_eighth b h7
    have hlen : (fullBytes (bits ++ [b])).length = (fullBytes bits).length + 1 :=
      hfull ▸ List.length_append
    rw [hlen] at hroom
    obtain ⟨m', d', hflush, hm'⟩ := exec_packFlush_packing (d := d) (r := r) hbus hroom hm
      (p := ⟨placeBit (packerAfter s.pack.nbits bits) b, 7#3, (packerAfter s.pack.nbits bits).nbits + 1⟩)
      pcnt_seven_ne_zero
    refine ⟨_, (exec_packBit_eighth b hp).trans hflush, m', d', .none, ?_, ?_⟩
    · rw [hlen, packerAfter_append_eighth b h7]
    · rw [hfull, ← placeBit_packerAfter s.pack.nbits]
      exact hm'
  case neg =>
    have hp := (packerAfter_pcnt_eq_iff s.pack.nbits bits 7#3).not.mpr h7
    refine ⟨_, exec_packBit_free b hp, m, d, .none, ?_, ?_⟩
    · rw [fullBytes_append_free b h7, packerAfter_append_free b h7]
      rfl
    · rw [fullBytes_append_free b h7]
      exact hm

theorem execAll_append {is js : List Instr} {s t : State} (h : execAll is s = .next t) :
    execAll (is ++ js) s = execAll js t := by
  induction is generalizing s with
  | nil =>
    cases h
    rfl
  | cons i rest ih =>
    simp only [List.cons_append, execAll] at h ⊢
    cases hi : exec i s with
    | next u => rw [hi] at h; exact ih h
    | fault r => rw [hi] at h; cases h
    | refused r => rw [hi] at h; cases h

theorem execAll_singleton (i : Instr) (s : State) : execAll [i] s = exec i s := by
  simp only [execAll]
  cases exec i s <;> rfl

/-- R171: the bits of a stream, one PackBit after the other. -/
theorem execAll_packBit {s : State} (bits : List Bool) (hcnt : s.pack.pcnt = 0#3) (hacc : s.pack.pacc = 0#8)
    (hbus : s.NoBusError) (hroom : s.Room (fullBytes bits).length) :
    ∃ t, execAll (bits.map .packBit) s = .next t ∧ s.Packed bits t := by
  induction bits using List.reverseRecOn with
  | nil => exact ⟨s, rfl, packed_nil hcnt hacc⟩
  | append_singleton bits b ih =>
    have hle : (fullBytes bits).length ≤ (fullBytes (bits ++ [b])).length := by
      rw [length_fullBytes, length_fullBytes, List.length_append]
      omega
    obtain ⟨t, hrun, ht⟩ := ih (hroom.of_le hle)
    obtain ⟨u, hstep, hu⟩ := exec_packBit_packed b hbus hroom ht
    refine ⟨u, ?_, hu⟩
    rw [List.map_append, execAll_append hrun]
    exact (execAll_singleton _ t).trans hstep

/-- R172, R173: the flush after a stream writes the padded byte, if there is one. -/
theorem exec_packFlush_packed {s t : State} {bits : List Bool} (hbus : s.NoBusError)
    (hroom : s.Room ((bits.length + 7) / 8)) (ht : s.Packed bits t) :
    ∃ (m : List Host.Cell) (d : Nat),
      exec .packFlush t
        = .next (s.packing m d ((bits.length + 7) / 8) ⟨0#8, 0#3, s.pack.nbits + bits.length⟩ .none)
      ∧ s.Appends m (packedBytes bits) := by
  obtain ⟨m, d, r, rfl, hm⟩ := ht
  by_cases h0 : bits.length % 8 = 0
  case pos =>
    have hp := (packerAfter_pcnt_eq_iff s.pack.nbits bits 0#3).mpr h0
    have hacc : (packerAfter s.pack.nbits bits).pacc = 0#8 := packedByte_of_length_le (by omega)
    rw [packedBytes_of_whole h0]
    refine ⟨m, d, ?_, hm⟩
    rw [exec_packFlush_empty hp, ← hp, ← hacc, length_fullBytes,
      show (bits.length + 7) / 8 = bits.length / 8 by omega]
    rfl
  case neg =>
    have hp := (packerAfter_pcnt_eq_iff s.pack.nbits bits 0#3).not.mpr h0
    have hlen : (bits.length + 7) / 8 = (fullBytes bits).length + 1 := by rw [length_fullBytes]; omega
    rw [packedBytes_of_rest h0, hlen]
    rw [hlen] at hroom
    exact exec_packFlush_packing hbus hroom hm hp

/-- Settles O30: PackBit by PackBit the packer holds the stream's unfinished byte, which the flush writes. -/
theorem packedStream : Obligations.PackedStream := by
  unfold Obligations.PackedStream
  intro s bits hcnt hacc hbus hroom
  have hle : (fullBytes bits).length ≤ (bits.length + 7) / 8 := by rw [length_fullBytes]; omega
  obtain ⟨t, hrun, ht⟩ := execAll_packBit bits hcnt hacc hbus (hroom.of_le hle)
  obtain ⟨m, d, hflush, hm⟩ := exec_packFlush_packed hbus hroom ht
  refine ⟨m, d, ?_, hm⟩
  rw [execAll_append hrun, execAll_singleton, hflush]
  rfl

end Sys2Proof.Machine

/-! PROOFS. The family of 42_huffman.md, its operations that read no tree: the checks (R191, R206, R258) and the total
bit count (R200). -/

namespace Sys2Proof.Machine

/-! An operation run as an instruction -/

theorem runOp_ok {α : Type} {op : Eng α} {s t : State} {a : α} (toRet : α → Ret) (h : op s = .ok a t) :
    runOp op toRet s = .next { t with ret := toRet a } := by
  simp only [runOp, h]

/-- R307: an error of the operation ends the command. -/
theorem runOp_error {α : Type} {op : Eng α} {s t : State} {k : ErrKind} {info : Nat} (toRet : α → Ret)
    (h : op s = .error ⟨k, BitVec.ofNat 32 info⟩ t) : runOp op toRet s = .next (t.endedBy k info) := by
  simp only [runOp, h]
  rfl

/-! The checks -/

/-- R191: the table holds a frequency above 2^31 - 1. -/
theorem frequencyTooLarge_iff (h : Huff) :
    frequencyTooLarge h = true ↔ ∃ b, 2 ^ 31 - 1 < (tget h.freq b).toNat := by
  simp only [frequencyTooLarge, List.any_eq_true, decide_eq_true_eq, Vector.mem_toList_iff, Vector.mem_iff_getElem]
  constructor
  · rintro ⟨f, ⟨i, hi, rfl⟩, hf⟩
    refine ⟨BitVec.ofNat 8 i, ?_⟩
    simpa only [tget, BitVec.toNat_ofNat, Nat.mod_eq_of_lt hi] using hf
  · rintro ⟨b, hb⟩
    exact ⟨_, ⟨b.toNat, b.isLt, rfl⟩, hb⟩

theorem checkFrequencyRange_run (s : State) :
    checkFrequencyRange s
      = if frequencyTooLarge s.huff then .error ⟨.unsupportedConfiguration, BitVec.ofNat 32 2⟩ s else .ok () s := by
  simp only [checkFrequencyRange, eng_bind, eng_get]
  split_ifs <;> rfl

theorem checkPayloadLength_run (u : Nat) (T : BitVec 64) (s : State) :
    checkPayloadLength u T s
      = if 8 * ((s.regs.inLen.toNat : Int) - (12 + 5 * u : Nat)) < T.toInt then
          .error ⟨.corruptData, BitVec.ofNat 32 (4 + 5 * u)⟩ s
        else .ok (12 + 5 * u) s := by
  simp only [checkPayloadLength, eng_bind, eng_get]
  split_ifs <;> rfl

theorem lengthCheck_run (s : State) :
    lengthCheck s
      = if s.regs.inLen.toNat % 4 ≠ 0 then
          .error ⟨.corruptData, BitVec.ofNat 32 (s.regs.inLen.toNat - s.regs.inLen.toNat % 4)⟩ s
        else .ok () s := by
  simp only [lengthCheck, eng_bind, eng_get]
  split_ifs <;> rfl

/-- Settles O33: each check changes nothing, and its condition decides whether it raises. -/
theorem checkOperations : Obligations.CheckOperations := by
  unfold Obligations.CheckOperations
  refine ⟨fun s => ⟨fun h => ?_, fun h => ?_⟩, fun u T s => ⟨fun h => ?_, fun h => ?_⟩,
    fun s => ⟨fun h => ?_, fun h => ?_⟩⟩
  · exact runOp_error _ (by rw [checkFrequencyRange_run, if_pos ((frequencyTooLarge_iff _).mpr h)])
  · have hno : ¬frequencyTooLarge s.huff = true := fun e =>
      let ⟨b, hb⟩ := (frequencyTooLarge_iff _).mp e
      Nat.not_lt.mpr (h b) hb
    exact runOp_ok _ (by rw [checkFrequencyRange_run, if_neg hno])
  · exact runOp_error _ (by rw [checkPayloadLength_run, if_pos (by push_cast; exact h)])
  · exact runOp_ok _ (by rw [checkPayloadLength_run, if_neg (by push_cast; omega)])
  · exact runOp_error _ (by rw [lengthCheck_run, if_pos h])
  · exact runOp_ok _ (by rw [lengthCheck_run, if_neg (not_not.mpr h)])

/-! The total bit count -/

/-- R200: the sum runs over the byte values. -/
theorem bitCount_eq (h : Huff) :
    bitCount h = ((List.range 256).map fun b =>
      (tget h.freq (BitVec.ofNat 8 b)).toNat * (tget h.codeLen (BitVec.ofNat 8 b)).toNat).sum := by
  rw [bitCount]
  congr 1
  refine List.ext_getElem (by simp) fun i h1 h2 => ?_
  have hi : i < 256 := by simpa using h2
  simp [tget, Nat.mod_eq_of_lt hi]

/-- R10, R200: the sum does not wrap. -/
theorem bitCount_lt (h : Huff) : bitCount h < 2 ^ 64 := by
  have hle : bitCount h ≤ 256 * 2 ^ 40 := by
    rw [bitCount_eq]
    refine (List.sum_le_card_nsmul _ (2 ^ 40) fun x hx => ?_).trans (by simp)
    obtain ⟨b, -, rfl⟩ := List.mem_map.mp hx
    calc _ ≤ 2 ^ 32 * 2 ^ 8 := Nat.mul_le_mul (BitVec.isLt _).le (BitVec.isLt _).le
      _ = 2 ^ 40 := by norm_num
  omega

theorem totalBits_run (s : State) :
    totalBits s = .ok (BitVec.ofNat 64 (bitCount s.huff)) (setHuffBits (BitVec.ofNat 64 (bitCount s.huff)) s) := rfl

/-- Settles O40: the sum fits 64 bits. -/
theorem totalBits_outcome : Obligations.TotalBits := by
  unfold Obligations.TotalBits
  refine fun s => ⟨BitVec.ofNat 64 (bitCount s.huff), runOp_ok _ (totalBits_run s), ?_⟩
  rw [BitVec.toNat_ofNat, Nat.mod_eq_of_lt (bitCount_lt s.huff), bitCount_eq]

end Sys2Proof.Machine

/-! PROOFS. The family of 42_huffman.md, the queue of the tree builder: SeedLeaves (R192) and PopMin (R193). -/

namespace Sys2Proof.Machine

/-! QUEUE (R52) -/

@[simp] theorem mem_queueInsert {n m : Nat} {q : List Nat} : m ∈ queueInsert n q ↔ m = n ∨ m ∈ q := by
  induction q with
  | nil => simp [queueInsert]
  | cons k rest ih =>
    rw [queueInsert]
    split_ifs with h1 h2
    · simp
    · subst h2
      simp
    · simp only [List.mem_cons, ih]
      tauto

theorem pairwise_queueInsert (n : Nat) {q : List Nat} (h : q.Pairwise (· < ·)) :
    (queueInsert n q).Pairwise (· < ·) := by
  induction q with
  | nil => simp [queueInsert]
  | cons k rest ih =>
    obtain ⟨hk, hrest⟩ := List.pairwise_cons.mp h
    rw [queueInsert]
    split_ifs with h1 h2
    · refine List.pairwise_cons.mpr ⟨fun m hm => ?_, h⟩
      obtain rfl | hm := List.mem_cons.mp hm
      · exact h1
      · exact h1.trans (hk m hm)
    · exact h
    · refine List.pairwise_cons.mpr ⟨fun m hm => ?_, ih hrest⟩
      obtain rfl | hm := mem_queueInsert.mp hm
      · omega
      · exact hk m hm

theorem queueInsert_perm {n : Nat} {q : List Nat} (h : n ∉ q) : (queueInsert n q).Perm (n :: q) := by
  induction q with
  | nil => exact .refl _
  | cons k rest ih =>
    obtain ⟨hk, hrest⟩ := not_or.mp (List.mem_cons.not.mp h)
    rw [queueInsert, if_neg hk]
    split_ifs
    · exact .refl _
    · exact ((ih hrest).cons k).trans (.swap n k rest)

/-! SeedLeaves -/

/-- A loop whose rounds only change HUFF. -/
theorem forRange_modifyHuff (f : Nat → Huff → Huff) (n : Nat) (s : State) :
    forRange n (fun j => modify fun s => { s with huff := f j s.huff }) s
      = .ok () { s with huff := (List.range n).foldl (fun h j => f j h) s.huff } := by
  obtain ⟨t, hrun, ht⟩ := forRange_ok (fun j => modify fun s => { s with huff := f j s.huff })
    (fun k t => t = { s with huff := (List.range k).foldl (fun h j => f j h) s.huff }) n s rfl
    (fun j t _ ht => ⟨_, rfl, by rw [ht, List.range_succ, List.foldl_append]; rfl⟩)
  rw [hrun, ht]

/-- HUFF with the leaves of the first n ranks seeded (R192). -/
def leavesOf (h : Huff) (n : Nat) : Huff := (List.range n).foldl (fun h j => seedLeaf j h) h

/-- HUFF after SeedLeaves (R192). -/
def seeded (h : Huff) : Huff := { leavesOf h h.u with nnodes := h.u }

theorem leavesOf_succ (h : Huff) (n : Nat) : leavesOf h (n + 1) = seedLeaf n (leavesOf h n) := by
  rw [leavesOf, List.range_succ, List.foldl_append]
  rfl

theorem leavesOf_frame (h : Huff) (n : Nat) :
    leavesOf h n = { h with node := (leavesOf h n).node, queue := (leavesOf h n).queue } := by
  induction n with
  | zero => rfl
  | succ n ih =>
    rw [leavesOf_succ, ih]
    rfl

/-- R192: the leaf of rank j has arena index j, and other arena entries stay. -/
theorem sparseGet?_leavesOf (h : Huff) (n j : Nat) :
    sparseGet? (leavesOf h n).node j
      = if j < n then some (.leaf (orderAt h j) (tget h.freq (orderAt h j)).toNat) else sparseGet? h.node j := by
  induction n with
  | zero => rfl
  | succ n ih =>
    have hnode : (leavesOf h (n + 1)).node
        = sparseSet (leavesOf h n).node n (.leaf (orderAt h n) (tget h.freq (orderAt h n)).toNat) := by
      rw [leavesOf_succ, leavesOf_frame h n]
      rfl
    rw [hnode, sparseGet?_set, ih]
    by_cases hj : j = n
    · subst hj
      simp
    · rw [if_neg hj]
      exact if_congr (by omega) rfl rfl

theorem mem_queue_leavesOf (h : Huff) (n m : Nat) : m ∈ (leavesOf h n).queue ↔ m < n ∨ m ∈ h.queue := by
  induction n with
  | zero => simp [leavesOf]
  | succ n ih =>
    rw [leavesOf_succ, seedLeaf, mem_queueInsert, ih, ← or_assoc]
    exact or_congr_left (by omega)

theorem pairwise_queue_leavesOf {h : Huff} (hq : h.queue.Pairwise (· < ·)) (n : Nat) :
    (leavesOf h n).queue.Pairwise (· < ·) := by
  induction n with
  | zero => exact hq
  | succ n ih =>
    rw [leavesOf_succ]
    exact pairwise_queueInsert n ih

theorem seedLeaves_run (s : State) : seedLeaves s = .ok () { s with huff := seeded s.huff } := by
  have hu : (leavesOf s.huff s.huff.u).u = s.huff.u := by rw [leavesOf_frame]
  simp only [seedLeaves, eng_bind, eng_get, forRange_modifyHuff, eng_modify]
  rw [← leavesOf, seeded, hu]

/-- Settles O34, by induction on the ranks seeded. -/
theorem seedLeaves_outcome : Obligations.SeedLeaves := by
  unfold Obligations.SeedLeaves
  intro s
  refine ⟨(leavesOf s.huff s.huff.u).node, (leavesOf s.huff s.huff.u).queue, ?_, fun j hj => ?_, fun n hn => ?_,
    fun n => mem_queue_leavesOf s.huff s.huff.u n, fun hq => pairwise_queue_leavesOf hq s.huff.u⟩
  · have hexec : exec .seedLeaves s = .next { s with huff := seeded s.huff, ret := .none } :=
      runOp_ok _ (seedLeaves_run s)
    rw [hexec, seeded, leavesOf_frame]
  · rw [sparseGet?_leavesOf, if_pos hj]
  · rw [sparseGet?_leavesOf, if_neg hn.not_gt]

/-! The order of the keys (R193) -/

theorem keyLt_iff (h : Huff) (n m : Nat) : keyLt h n m = true ↔ keyBelow h n m := by
  simp [keyLt, keyBelow]

theorem keyBelow_trans {h : Huff} {n m k : Nat} (h1 : keyBelow h n m) (h2 : keyBelow h m k) : keyBelow h n k := by
  unfold keyBelow at *
  omega

/-- R193: no two nodes tie. -/
theorem keyBelow_of_not {h : Huff} {n m : Nat} (hne : n ≠ m) (hnot : ¬keyBelow h m n) : keyBelow h n m := by
  unfold keyBelow at *
  omega

theorem keyBelow_ne {h : Huff} {n m : Nat} (hlt : keyBelow h n m) : n ≠ m := by
  rintro rfl
  unfold keyBelow at hlt
  omega

/-! PopMin -/

theorem argminKey_isSome (h : Huff) {q : List Nat} (hq : q ≠ []) : ∃ n, argminKey h q = some n := by
  cases q with
  | nil => exact absurd rfl hq
  | cons k rest =>
    rw [argminKey]
    split
    · exact ⟨k, rfl⟩
    · split_ifs <;> exact ⟨_, rfl⟩

/-- R193: the least member of a queue is a member, below every other one. -/
theorem argminKey_least (h : Huff) {q : List Nat} {n : Nat} (hn : argminKey h q = some n) :
    n ∈ q ∧ ∀ m ∈ q, m ≠ n → keyBelow h n m := by
  induction q generalizing n with
  | nil => cases hn
  | cons k rest ih =>
    rw [argminKey] at hn
    cases hrest : argminKey h rest with
    | none =>
      have hnil : rest = [] := by
        by_contra hne
        obtain ⟨m, hm⟩ := argminKey_isSome h hne
        rw [hrest] at hm
        cases hm
      simp only [hrest, Option.some.injEq] at hn
      subst hnil hn
      exact ⟨List.mem_singleton_self k, fun m hm hne => absurd (List.mem_singleton.mp hm) hne⟩
    | some m =>
      obtain ⟨hmem, hleast⟩ := ih hrest
      simp only [hrest] at hn
      split_ifs at hn with hkey
      · cases hn
        refine ⟨List.mem_cons_of_mem k hmem, fun x hx hne => ?_⟩
        obtain rfl | hx := List.mem_cons.mp hx
        · exact (keyLt_iff h n x).mp hkey
        · exact hleast x hx hne
      · cases hn
        rw [keyLt_iff] at hkey
        refine ⟨List.mem_cons_self, fun x hx hne => ?_⟩
        have hx := (List.mem_cons.mp hx).resolve_left hne
        by_cases hxm : x = m
        · exact keyBelow_of_not hne.symm (hxm ▸ hkey)
        · by_cases hkm : k = m
          · exact hkm ▸ hleast x hx hxm
          · exact keyBelow_trans (keyBelow_of_not hkm hkey) (hleast x hx hxm)

/-- The node that PopMin takes from a non-empty QUEUE (R193). -/
def least (h : Huff) : Nat := (argminKey h h.queue).getD 0

/-- HUFF after PopMin (R193). -/
def popped (h : Huff) : Huff := { h with queue := h.queue.erase (least h) }

theorem least_spec {h : Huff} (hq : h.queue ≠ []) :
    least h ∈ h.queue ∧ ∀ m ∈ h.queue, m ≠ least h → keyBelow h (least h) m := by
  obtain ⟨n, hn⟩ := argminKey_isSome h hq
  rw [least, hn]
  exact argminKey_least h hn

theorem popMin_run {s : State} (hq : s.huff.queue ≠ []) :
    popMin s = .ok (least s.huff) { s with huff := popped s.huff } := by
  obtain ⟨n, hn⟩ := argminKey_isSome s.huff hq
  simp only [popMin, eng_bind, eng_get, hn, eng_modify, eng_pure, popped, least, Option.getD_some]

/-- R193: only the least member leaves QUEUE. -/
theorem mem_queue_popped {h : Huff} (hs : h.queue.Pairwise (· < ·)) (m : Nat) :
    m ∈ (popped h).queue ↔ m ∈ h.queue ∧ m ≠ least h := by
  rw [popped, List.Nodup.mem_erase_iff (hs.imp fun h => h.ne)]
  exact and_comm

theorem pairwise_queue_popped {h : Huff} (hs : h.queue.Pairwise (· < ·)) : (popped h).queue.Pairwise (· < ·) :=
  hs.sublist List.erase_sublist

/-- Settles O35: the least member is taken, and only it. -/
theorem popMin_outcome : Obligations.PopMin := by
  unfold Obligations.PopMin
  intro s hq hs
  obtain ⟨hmem, hleast⟩ := least_spec hq
  exact ⟨least s.huff, (popped s.huff).queue, runOp_ok _ (popMin_run hq), hmem, hleast, mem_queue_popped hs,
    pairwise_queue_popped hs⟩

end Sys2Proof.Machine

/-! PROOFS. The family of 42_huffman.md, BuildTree: one merge (R194), the invariant that every merge keeps, and the
tree it ends in (R195, R196). -/

namespace Sys2Proof.Machine

/-! BuildTree on HUFF -/

/-- HUFF after one merge (R194). -/
def merged (h : Huff) : Huff := addInternal (least h) (least (popped h)) (popped (popped h))

/-- HUFF after at most n merges (R194). -/
def mergedAll : (n : Nat) → Huff → Huff
  | 0, h => h
  | n + 1, h => if 2 ≤ h.queue.length then mergedAll n (merged h) else h

/-- HUFF after the seeding and all merges (R194). -/
def mergedTree (h : Huff) : Huff := mergedAll (seeded h).queue.length (seeded h)

/-- HUFF after BuildTree (R194). -/
def builtTree (h : Huff) : Huff :=
  if 1 ≤ (mergedTree h).u then { mergedTree h with root := (mergedTree h).queue.headD (mergedTree h).root }
  else mergedTree h

/-- A pop takes one member out of QUEUE. -/
theorem queue_popped_perm {h : Huff} (hq : h.queue ≠ []) : h.queue.Perm (least h :: (popped h).queue) :=
  List.perm_cons_erase (least_spec hq).1

theorem length_queue_popped {h : Huff} (hq : h.queue ≠ []) : (popped h).queue.length + 1 = h.queue.length :=
  (queue_popped_perm hq).length_eq.symm

theorem mergeTwo_run {s : State} (hq : 2 ≤ s.huff.queue.length) :
    mergeTwo s = .ok () { s with huff := merged s.huff } := by
  have hne : s.huff.queue ≠ [] := List.ne_nil_of_length_pos (by omega)
  have hne' : (popped s.huff).queue ≠ [] :=
    List.ne_nil_of_length_pos (by have := length_queue_popped hne; omega)
  simp only [mergeTwo, eng_bind, popMin_run hne, popMin_run (s := { s with huff := popped s.huff }) hne', eng_modify,
    merged]

theorem mergeLoop_run (n : Nat) (s : State) : mergeLoop n s = .ok () { s with huff := mergedAll n s.huff } := by
  induction n generalizing s with
  | zero => rfl
  | succ n ih =>
    simp only [mergeLoop, mergedAll, eng_bind, eng_get]
    split_ifs with hq
    · simp only [eng_bind, mergeTwo_run hq, ih]
    · rfl

theorem buildTree_run (s : State) : buildTree s = .ok () { s with huff := builtTree s.huff } := by
  simp only [buildTree, eng_bind, eng_get, seedLeaves_run, mergeLoop_run, eng_modify]
  rw [builtTree, mergedTree]
  split_ifs <;> rfl

/-! What a merge makes (R194) -/

/-- Nothing below n has m as a child: m was not merged before node n. -/
def Unmerged (h : Huff) (u n m : Nat) : Prop := ∀ k, u ≤ k → k < n → ¬isChild h m k

/-- R194: node n joins the two unmerged nodes with the least keys below it. -/
def JoinsLeast (h : Huff) (u n : Nat) : Prop :=
  ∃ a b, nodeAt h n = .internal a b ((nodeAt h a).weight + (nodeAt h b).weight) ∧ a < n ∧ b < n ∧ keyBelow h a b
    ∧ Unmerged h u n a ∧ Unmerged h u n b ∧ ∀ m, m < n → Unmerged h u n m → m = a ∨ m = b ∨ keyBelow h b m

/-- R194: the merges of h have come as far as t. -/
structure Merging (h t : Huff) : Prop where
  frame  : t = { h with node := t.node, nnodes := t.nnodes, root := t.root, queue := t.queue }
  leaves : ∀ j, j < h.u → nodeAt t j = .leaf (orderAt h j) (tget h.freq (orderAt h j)).toNat
  le     : h.u ≤ t.nnodes
  count  : t.queue.length + t.nnodes = 2 * h.u
  sorted : t.queue.Pairwise (· < ·)
  queue  : ∀ n, n ∈ t.queue ↔ n < t.nnodes ∧ Unmerged t h.u t.nnodes n
  joins  : ∀ n, h.u ≤ n → n < t.nnodes → JoinsLeast t h.u n
  weight : (t.queue.map fun n => (nodeAt t n).weight).sum
    = ((ranked h).map fun b => (tget h.freq b).toNat).sum

theorem isChild_iff_of_nodeAt {h t : Huff} {n : Nat} (e : nodeAt t n = nodeAt h n) (m : Nat) :
    isChild t m n ↔ isChild h m n := by rw [isChild, isChild, e]

theorem unmerged_iff_of_nodeAt {h t : Huff} {n : Nat} (e : ∀ k, k < n → nodeAt t k = nodeAt h k) (u m : Nat) :
    Unmerged t u n m ↔ Unmerged h u n m :=
  forall_congr' fun k => forall_congr' fun _ => forall_congr' fun hk =>
    not_congr (isChild_iff_of_nodeAt (e k hk) m)

theorem keyBelow_iff_of_nodeAt {h t : Huff} {n m : Nat} (hn : nodeAt t n = nodeAt h n)
    (hm : nodeAt t m = nodeAt h m) : keyBelow t n m ↔ keyBelow h n m := by
  rw [keyBelow, keyBelow, hn, hm]

/-- A merge depends on the nodes up to its own only. -/
theorem joinsLeast_of_nodeAt {h t : Huff} {u n : Nat} (e : ∀ k, k ≤ n → nodeAt t k = nodeAt h k)
    (hj : JoinsLeast h u n) : JoinsLeast t u n := by
  obtain ⟨a, b, hnode, ha, hb, hab, hua, hub, hleast⟩ := hj
  have hun := unmerged_iff_of_nodeAt (u := u) fun k (hk : k < n) => e k hk.le
  refine ⟨a, b, by rw [e n le_rfl, e a ha.le, e b hb.le, hnode], ha, hb,
    (keyBelow_iff_of_nodeAt (e a ha.le) (e b hb.le)).mpr hab, (hun a).mpr hua, (hun b).mpr hub, fun m hm hum => ?_⟩
  rw [keyBelow_iff_of_nodeAt (e b hb.le) (e m hm.le)]
  exact hleast m hm ((hun m).mp hum)

theorem JoinsLeast.isChild_lt {h : Huff} {u n m : Nat} (hj : JoinsLeast h u n) (hm : isChild h m n) : m < n := by
  obtain ⟨a, b, hnode, ha, hb, -⟩ := hj
  obtain ⟨l, r, w, hnode', hm⟩ := hm
  rw [hnode] at hnode'
  cases hnode'
  obtain rfl | rfl := hm
  · exact ha
  · exact hb

/-! The merges begin with the leaves -/

theorem nodeAt_leaf_not_isChild {h : Huff} {n : Nat} {b : Byte} {w : Nat} (e : nodeAt h n = .leaf b w) (m : Nat) :
    ¬isChild h m n := by
  rintro ⟨l, r, w', e', -⟩
  rw [e] at e'
  cases e'

/-- A rising list of the numbers below n is their range. -/
theorem eq_range_of_pairwise {q : List Nat} {n : Nat} (hs : q.Pairwise (· < ·)) (hq : ∀ m, m ∈ q ↔ m < n) :
    q = List.range n := by
  have hperm : q.Perm (List.range n) :=
    (List.perm_ext_iff_of_nodup (hs.imp fun h => h.ne) List.nodup_range).mpr fun m => by rw [hq, List.mem_range]
  exact hperm.eq_of_pairwise (fun _ _ _ _ h1 h2 => absurd h1 h2.not_gt) hs List.pairwise_lt_range

theorem seeded_merging {h : Huff} (hq : h.queue = []) : Merging h (seeded h) := by
  have hnode : ∀ j, j < h.u → nodeAt (seeded h) j = .leaf (orderAt h j) (tget h.freq (orderAt h j)).toNat := by
    intro j hj
    simp only [nodeAt, seeded, sparseGet?_leavesOf, if_pos hj, Option.getD_some]
  have hs : (seeded h).queue.Pairwise (· < ·) := pairwise_queue_leavesOf (by rw [hq]; exact .nil) h.u
  have hmem : ∀ m, m ∈ (seeded h).queue ↔ m < h.u := fun m => by
    rw [seeded, mem_queue_leavesOf, hq]
    simp
  have hrange : (seeded h).queue = List.range h.u := eq_range_of_pairwise hs hmem
  refine ⟨?_, hnode, le_rfl, ?_, hs, fun n => ?_, fun n h1 h2 => absurd h1 h2.not_ge, ?_⟩
  · rw [seeded, leavesOf_frame]
  · rw [hrange, List.length_range]
    show h.u + h.u = 2 * h.u
    omega
  · rw [hmem]
    exact ⟨fun hn => ⟨hn, fun k h1 h2 => absurd h1 h2.not_ge⟩, And.left⟩
  · rw [hrange, ranked, List.map_map]
    congr 1
    refine List.map_congr_left fun j hj => ?_
    rw [hnode j (List.mem_range.mp hj)]
    rfl

/-! One merge keeps the invariant -/

section
variable {h t : Huff}

theorem nodeAt_merged_new (t : Huff) :
    nodeAt (merged t) t.nnodes = .internal (least t) (least (popped t))
      ((nodeAt t (least t)).weight + (nodeAt t (least (popped t))).weight) := by
  show (sparseGet? (sparseSet t.node t.nnodes _) t.nnodes).getD _ = _
  rw [sparseGet?_set_same]
  rfl

theorem nodeAt_merged_of_ne {n : Nat} (hn : n ≠ t.nnodes) : nodeAt (merged t) n = nodeAt t n := by
  show (sparseGet? (sparseSet t.node t.nnodes _) n).getD _ = _
  rw [sparseGet?_set_ne _ _ hn]
  rfl

theorem isChild_merged_new {m : Nat} : isChild (merged t) m t.nnodes ↔ m = least t ∨ m = least (popped t) := by
  constructor
  · rintro ⟨l, r, w, hnode, hm⟩
    rw [nodeAt_merged_new] at hnode
    cases hnode
    exact hm
  · exact fun hm => ⟨_, _, _, nodeAt_merged_new t, hm⟩

/-- The two pops: both are members of QUEUE, the second above the first and below every other member. -/
theorem two_pops (hs : t.queue.Pairwise (· < ·)) (hlen : 2 ≤ t.queue.length) :
    least t ∈ t.queue ∧ least (popped t) ∈ t.queue ∧ keyBelow t (least t) (least (popped t))
      ∧ ∀ m ∈ t.queue, m = least t ∨ m = least (popped t) ∨ keyBelow t (least (popped t)) m := by
  have hne : t.queue ≠ [] := List.ne_nil_of_length_pos (by omega)
  have hne' : (popped t).queue ≠ [] := List.ne_nil_of_length_pos (by have := length_queue_popped hne; omega)
  obtain ⟨ha, hleast⟩ := least_spec hne
  obtain ⟨hb, hleast'⟩ := least_spec hne'
  obtain ⟨hbq, hba⟩ := (mem_queue_popped hs _).mp hb
  refine ⟨ha, hbq, hleast _ hbq hba, fun m hm => ?_⟩
  by_cases h1 : m = least t
  · exact .inl h1
  · by_cases h2 : m = least (popped t)
    · exact .inr (.inl h2)
    · exact .inr (.inr (hleast' m ((mem_queue_popped hs m).mpr ⟨hm, h1⟩) h2))

/-- R194: the new node joins the two least unmerged nodes. -/
theorem Merging.joinsLeast_new (hm : Merging h t) (hlen : 2 ≤ t.queue.length) :
    JoinsLeast (merged t) h.u t.nnodes := by
  obtain ⟨ha, hb, hab, hleast⟩ := two_pops hm.sorted hlen
  obtain ⟨han, hau⟩ := (hm.queue _).mp ha
  obtain ⟨hbn, hbu⟩ := (hm.queue _).mp hb
  have hold : ∀ k, k < t.nnodes → nodeAt (merged t) k = nodeAt t k := fun k hk => nodeAt_merged_of_ne hk.ne
  have hun := unmerged_iff_of_nodeAt (u := h.u) hold
  refine ⟨_, _, ?_, han, hbn, ?_, (hun _).mpr hau, (hun _).mpr hbu, fun m hmn hmu => ?_⟩
  · rw [nodeAt_merged_new, hold _ han, hold _ hbn]
  · exact (keyBelow_iff_of_nodeAt (hold _ han) (hold _ hbn)).mpr hab
  · rw [keyBelow_iff_of_nodeAt (hold _ hbn) (hold _ hmn)]
    exact hleast m ((hm.queue m).mpr ⟨hmn, (hun m).mp hmu⟩)

/-- QUEUE is the two popped nodes and the rest, which the new node joins. -/
theorem Merging.queue_perms (hm : Merging h t) (hlen : 2 ≤ t.queue.length) :
    t.queue.Perm (least t :: least (popped t) :: (popped (popped t)).queue)
      ∧ (merged t).queue.Perm (t.nnodes :: (popped (popped t)).queue) := by
  have hne : t.queue ≠ [] := List.ne_nil_of_length_pos (by omega)
  have hne' : (popped t).queue ≠ [] := List.ne_nil_of_length_pos (by have := length_queue_popped hne; omega)
  refine ⟨(queue_popped_perm hne).trans ((queue_popped_perm hne').cons _), queueInsert_perm fun hmem => ?_⟩
  have hq := ((mem_queue_popped (pairwise_queue_popped hm.sorted) _).mp hmem).1
  exact ((hm.queue _).mp ((mem_queue_popped hm.sorted _).mp hq).1).1.ne rfl

theorem Merging.mem_queue_merged (hm : Merging h t) (hlen : 2 ≤ t.queue.length) (n : Nat) :
    n ∈ (merged t).queue ↔ n < t.nnodes + 1 ∧ Unmerged (merged t) h.u (t.nnodes + 1) n := by
  have hun := unmerged_iff_of_nodeAt (u := h.u) (t := merged t) (h := t) (n := t.nnodes)
    fun k hk => nodeAt_merged_of_ne hk.ne
  have hsucc : Unmerged (merged t) h.u (t.nnodes + 1) n
      ↔ Unmerged t h.u t.nnodes n ∧ n ≠ least t ∧ n ≠ least (popped t) := by
    rw [← hun]
    constructor
    · refine fun hu => ⟨fun k h1 h2 => hu k h1 (by omega), ?_⟩
      exact not_or.mp (isChild_merged_new.not.mp (hu t.nnodes hm.le (by omega)))
    · rintro ⟨hu, hab⟩ k h1 h2
      obtain hk | rfl := Nat.lt_succ_iff_lt_or_eq.mp h2
      · exact hu k h1 hk
      · exact isChild_merged_new.not.mpr (not_or.mpr hab)
  have hmem : n ∈ (merged t).queue
      ↔ n = t.nnodes ∨ (n ∈ t.queue ∧ n ≠ least t) ∧ n ≠ least (popped t) := by
    rw [merged, addInternal, mem_queueInsert, mem_queue_popped (pairwise_queue_popped hm.sorted),
      mem_queue_popped hm.sorted]
    rfl
  rw [hmem, hsucc, hm.queue]
  constructor
  · rintro (rfl | ⟨⟨⟨hn, hu⟩, hna⟩, hnb⟩)
    · obtain ⟨ha, hb, -⟩ := two_pops hm.sorted hlen
      refine ⟨by omega, fun k h1 h2 hk => ?_, ((hm.queue _).mp ha).1.ne', ((hm.queue _).mp hb).1.ne'⟩
      exact absurd ((hm.joins k h1 h2).isChild_lt hk) h2.not_gt
    · exact ⟨by omega, hu, hna, hnb⟩
  · rintro ⟨hn, hu, hna, hnb⟩
    by_cases hnn : n = t.nnodes
    · exact .inl hnn
    · exact .inr ⟨⟨⟨by omega, hu⟩, hna⟩, hnb⟩

theorem Merging.merged (hm : Merging h t) (hlen : 2 ≤ t.queue.length) : Merging h (merged t) := by
  obtain ⟨hperm, hperm'⟩ := hm.queue_perms hlen
  have hold : ∀ k, k < t.nnodes → nodeAt (Machine.merged t) k = nodeAt t k := fun k hk => nodeAt_merged_of_ne hk.ne
  have hrest : ∀ n ∈ (popped (popped t)).queue, n < t.nnodes := fun n hn =>
    ((hm.queue n).mp (hperm.mem_iff.mpr (List.mem_cons_of_mem _ (List.mem_cons_of_mem _ hn)))).1
  refine ⟨?_, fun j hj => ?_, hm.le.trans (Nat.le_succ _), ?_, ?_, hm.mem_queue_merged hlen, fun n h1 h2 => ?_, ?_⟩
  · rw [hm.frame]
    rfl
  · rw [hold j (hj.trans_le hm.le), hm.leaves j hj]
  · have h1 := hm.count
    have h2 := hperm.length_eq
    have h3 := hperm'.length_eq
    simp only [List.length_cons] at h2 h3
    show (Machine.merged t).queue.length + (t.nnodes + 1) = _
    omega
  · exact pairwise_queueInsert _ (pairwise_queue_popped (pairwise_queue_popped hm.sorted))
  · obtain hn | rfl := Nat.lt_succ_iff_lt_or_eq.mp h2
    · exact joinsLeast_of_nodeAt (fun k hk => hold k (hk.trans_lt hn)) (hm.joins n h1 hn)
    · exact hm.joinsLeast_new hlen
  · have hrestw : (popped (popped t)).queue.map (fun n => (nodeAt (Machine.merged t) n).weight)
        = (popped (popped t)).queue.map fun n => (nodeAt t n).weight :=
      List.map_congr_left fun n hn => by rw [hold n (hrest n hn)]
    rw [← hm.weight, (hperm.map _).sum_eq, (hperm'.map _).sum_eq, List.map_cons, hrestw, nodeAt_merged_new]
    simp only [List.map_cons, List.sum_cons, Node.weight, Nat.add_assoc]

end

/-- R194: a merge leaves QUEUE one member shorter, so the bound |QUEUE| ends the loop at one node or none. -/
theorem Merging.mergedAll {h t : Huff} (n : Nat) (hm : Merging h t) (hn : t.queue.length ≤ n + 1) :
    Merging h (mergedAll n t) ∧ (Machine.mergedAll n t).queue.length ≤ 1 := by
  induction n generalizing t with
  | zero => exact ⟨hm, hn⟩
  | succ n ih =>
    rw [Machine.mergedAll]
    split_ifs with hlen
    · obtain ⟨hperm, hperm'⟩ := hm.queue_perms hlen
      have h1 := hperm.length_eq
      have h2 := hperm'.length_eq
      simp only [List.length_cons] at h1 h2
      exact ih (hm.merged hlen) (by omega)
    · exact ⟨hm, by omega⟩

end Sys2Proof.Machine

/-! PROOFS. The family of 42_huffman.md, the tree that BuildTree leaves: its shape and its paths (R195, R196). -/

namespace Sys2Proof.Machine

/-! The finished tree -/

theorem builtTree_merging {h : Huff} (hq : h.queue = []) :
    Merging h (builtTree h) ∧ (builtTree h).queue.length ≤ 1 := by
  obtain ⟨hm, hlen⟩ := (seeded_merging hq).mergedAll _ (Nat.le_succ _)
  rw [← mergedTree] at hm hlen
  rw [builtTree]
  split_ifs
  · refine ⟨⟨?_, hm.leaves, hm.le, hm.count, hm.sorted, hm.queue, hm.joins, hm.weight⟩, hlen⟩
    rw [hm.frame]
  · exact ⟨hm, hlen⟩

/-- R195: without a leaf there is no merge. -/
theorem builtTree_empty {h : Huff} (hq : h.queue = []) (hu : h.u = 0) :
    (builtTree h).nnodes = 0 ∧ (builtTree h).queue = [] ∧ (builtTree h).root = h.root := by
  have hleaves : leavesOf h h.u = h := by rw [hu]; rfl
  have htree : builtTree h = seeded h := by
    have hmerged : mergedTree h = seeded h := by
      rw [mergedTree, seeded, hleaves, hq]
      rfl
    rw [builtTree, hmerged, if_neg]
    show ¬1 ≤ (leavesOf h h.u).u
    rw [hleaves, hu]
    decide
  rw [htree, seeded, hleaves]
  exact ⟨hu, hq, rfl⟩

/-- R196: t is the tree of the leaves of h. -/
structure IsTree (h t : Huff) : Prop extends Merging h t where
  pos    : 1 ≤ h.u
  nnodes : t.nnodes = 2 * h.u - 1
  root   : t.root = 2 * h.u - 2
  top    : t.queue = [t.root]

theorem builtTree_isTree {h : Huff} (hq : h.queue = []) (hu : 1 ≤ h.u) : IsTree h (builtTree h) := by
  obtain ⟨hm, hlen⟩ := builtTree_merging hq
  have hcount := hm.count
  have hle := hm.le
  have hlast : (builtTree h).nnodes - 1 ∈ (builtTree h).queue := by
    refine (hm.queue _).mpr ⟨by omega, fun k h1 h2 hk => ?_⟩
    have := (hm.joins k h1 h2).isChild_lt hk
    omega
  obtain ⟨r, hr⟩ := List.length_eq_one_iff.mp (Nat.le_antisymm hlen (List.length_pos_of_mem hlast))
  have hroot : (builtTree h).root = (builtTree h).queue.headD (mergedTree h).root := by
    have hpos : 1 ≤ (mergedTree h).u := by
      have e : (builtTree h).u = h.u := by rw [hm.frame]
      rw [builtTree] at e
      split_ifs at e with h1
      · exact h1
      · omega
    rw [builtTree, if_pos hpos]
  rw [hr] at hlast hroot hcount
  have hlast := List.mem_singleton.mp hlast
  simp only [List.headD_cons, List.length_singleton] at hroot hcount
  exact ⟨hm, hu, by omega, by omega, by rw [hr, hroot]⟩

theorem exec_buildTree (s : State) : exec .buildTree s = .next { s with huff := builtTree s.huff, ret := .none } :=
  runOp_ok (fun _ => Ret.none) (buildTree_run s)

/-- Settles O36: the merges keep `Merging`, which says of every internal node what it joins. -/
theorem buildTree_outcome : Obligations.BuildTree := by
  unfold Obligations.BuildTree
  intro s hq
  obtain ⟨hm, -⟩ := builtTree_merging hq
  refine ⟨_, _, _, _, builtTree s.huff, hm.frame, exec_buildTree s, builtTree_empty hq, fun hu => ?_,
    hm.leaves, fun n h1 h2 => ?_⟩
  · have ht := builtTree_isTree hq hu
    exact ⟨ht.nnodes, ht.top⟩
  · obtain ⟨a, b, hnode, ha, hb, hab, hua, hub, hleast⟩ := hm.joins n h1 h2
    exact ⟨a, b, hnode, ha, hb, hab, fun k hk1 hk2 => ⟨hua k hk1 hk2, hub k hk1 hk2⟩, hleast⟩

/-! Parents and children (R196) -/

section
variable {h t : Huff}

/-- R196: a node is the leaf of a rank, or joins two different nodes below it. -/
theorem IsTree.node_cases (ht : IsTree h t) {n : Nat} (hn : n < t.nnodes) :
    (n < h.u ∧ ∃ w, nodeAt t n = .leaf (orderAt h n) w)
      ∨ h.u ≤ n ∧ ∃ a b w, nodeAt t n = .internal a b w ∧ a < n ∧ b < n ∧ a ≠ b := by
  obtain hlt | hle := Nat.lt_or_ge n h.u
  · exact .inl ⟨hlt, _, ht.leaves n hlt⟩
  · obtain ⟨a, b, hnode, ha, hb, hab, -⟩ := ht.joins n hle hn
    exact .inr ⟨hle, a, b, _, hnode, ha, hb, keyBelow_ne hab⟩

theorem IsTree.isChild_lt (ht : IsTree h t) {n m : Nat} (hn : n < t.nnodes) (hc : isChild t m n) : m < n := by
  obtain ⟨-, w, hleaf⟩ | ⟨hle, -⟩ := ht.node_cases hn
  · exact absurd hc (nodeAt_leaf_not_isChild hleaf m)
  · exact (ht.joins n hle hn).isChild_lt hc

/-- A child of node n was unmerged until then. -/
theorem IsTree.unmerged_of_isChild (ht : IsTree h t) {n m : Nat} (hn : n < t.nnodes) (hc : isChild t m n) :
    Unmerged t h.u n m := by
  obtain ⟨-, w, hleaf⟩ | ⟨hle, -⟩ := ht.node_cases hn
  · exact absurd hc (nodeAt_leaf_not_isChild hleaf m)
  · obtain ⟨a, b, hnode, -, -, -, hua, hub, -⟩ := ht.joins n hle hn
    obtain ⟨l, r, w, hnode', hm⟩ := hc
    rw [hnode] at hnode'
    cases hnode'
    obtain rfl | rfl := hm
    · exact hua
    · exact hub

theorem IsTree.le_of_isChild (ht : IsTree h t) {n m : Nat} (hn : n < t.nnodes) (hc : isChild t m n) : h.u ≤ n := by
  obtain ⟨-, w, hleaf⟩ | ⟨hle, -⟩ := ht.node_cases hn
  · exact absurd hc (nodeAt_leaf_not_isChild hleaf m)
  · exact hle

theorem IsTree.parent_unique (ht : IsTree h t) {n k m : Nat} (hn : n < t.nnodes) (hk : k < t.nnodes)
    (hcn : isChild t m n) (hck : isChild t m k) : n = k := by
  rcases Nat.lt_trichotomy n k with hlt | heq | hlt
  · exact absurd hcn (ht.unmerged_of_isChild hk hck n (ht.le_of_isChild hn hcn) hlt)
  · exact heq
  · exact absurd hck (ht.unmerged_of_isChild hn hcn k (ht.le_of_isChild hk hck) hlt)

theorem IsTree.exists_parent (ht : IsTree h t) {m : Nat} (hm : m < t.root) : ∃ n, n < t.nnodes ∧ isChild t m n := by
  have hnot : ¬(m < t.nnodes ∧ Unmerged t h.u t.nnodes m) := by
    rw [← ht.queue, ht.top, List.mem_singleton]
    exact hm.ne
  have hlt : m < t.nnodes := by
    have := ht.nnodes
    have := ht.root
    omega
  have hmerged : ¬Unmerged t h.u t.nnodes m := fun hu => hnot ⟨hlt, hu⟩
  simp only [Unmerged, not_forall, not_not] at hmerged
  obtain ⟨n, -, hn, hc⟩ := hmerged
  exact ⟨n, hn, hc⟩

theorem IsTree.root_lt (ht : IsTree h t) : t.root < t.nnodes := by
  have := ht.nnodes
  have := ht.root
  have := ht.pos
  omega

theorem IsTree.weight_root (ht : IsTree h t) :
    (nodeAt t t.root).weight = ((ranked h).map fun b => (tget h.freq b).toNat).sum := by
  rw [← ht.weight, ht.top, List.map_singleton, List.sum_singleton]

/-! Paths -/

theorem nodeOn_append (h : Huff) (n : Nat) (p q : List Bool) :
    nodeOn h n (p ++ q) = (nodeOn h n p).bind fun m => nodeOn h m q := by
  induction p generalizing n with
  | nil => rfl
  | cons b p ih =>
    simp only [List.cons_append, nodeOn]
    cases nodeAt h n with
    | leaf sym w => rfl
    | internal l r w => exact ih _

theorem nodeOn_singleton_of_isChild {n m : Nat} (hc : isChild h m n) : ∃ b, nodeOn h n [b] = some m := by
  obtain ⟨l, r, w, hnode, rfl | rfl⟩ := hc
  · exact ⟨false, by simp [nodeOn, hnode]⟩
  · exact ⟨true, by simp [nodeOn, hnode]⟩

theorem isChild_of_nodeOn_singleton {n m : Nat} {b : Bool} (hn : nodeOn h n [b] = some m) : isChild h m n := by
  rw [nodeOn] at hn
  cases hnode : nodeAt h n with
  | leaf sym w => simp [hnode] at hn
  | internal l r w =>
    simp only [hnode, nodeOn, Option.some.injEq] at hn
    refine ⟨l, r, w, hnode, ?_⟩
    cases b with
    | false => exact .inl hn.symm
    | true => exact .inr hn.symm

/-- The last step of a path goes from a parent to its child. -/
theorem nodeOn_concat {n m : Nat} {p : List Bool} {b : Bool} (hp : nodeOn h n (p ++ [b]) = some m) :
    ∃ k, nodeOn h n p = some k ∧ nodeOn h k [b] = some m := by
  rw [nodeOn_append] at hp
  exact Option.bind_eq_some_iff.mp hp

/-- A path ends at a leaf when its last node is that leaf. -/
theorem leafAt_eq_some_iff {n : Nat} {p : List Bool} {b : Byte} :
    leafAt h n p = some b ↔ ∃ m w, nodeOn h n p = some m ∧ nodeAt h m = .leaf b w := by
  induction p generalizing n with
  | nil => cases hnode : nodeAt h n <;> simp [leafAt, nodeOn, hnode]
  | cons c p ih =>
    simp only [leafAt, nodeOn]
    cases nodeAt h n with
    | leaf sym w => simp
    | internal l r w => exact ih

theorem IsTree.nodeOn_le (ht : IsTree h t) {n m : Nat} {p : List Bool} (hn : n < t.nnodes)
    (hp : nodeOn t n p = some m) : m ≤ n := by
  induction p generalizing n with
  | nil =>
    cases hp
    exact le_rfl
  | cons b p ih =>
    rw [nodeOn] at hp
    obtain ⟨-, w, hnode⟩ | ⟨-, l, r, w, hnode, hl, hr, -⟩ := ht.node_cases hn
    · simp [hnode] at hp
    · rw [hnode] at hp
      have hlt : (if b then r else l) < n := by split_ifs <;> assumption
      exact (ih (hlt.trans hn) hp).trans hlt.le

/-- R196: every node is on a path from the root. -/
theorem IsTree.exists_path (ht : IsTree h t) {m : Nat} (hm : m ≤ t.root) : ∃ p, nodeOn t t.root p = some m := by
  induction hd : t.root - m using Nat.strong_induction_on generalizing m with
  | _ d ih =>
    obtain rfl | hlt := hm.eq_or_lt
    · exact ⟨[], rfl⟩
    · obtain ⟨n, hn, hc⟩ := ht.exists_parent hlt
      have hmn := ht.isChild_lt hn hc
      have hnr : n ≤ t.root := by
        have := ht.nnodes
        have := ht.root
        omega
      obtain ⟨p, hp⟩ := ih (t.root - n) (by omega) hnr rfl
      obtain ⟨b, hb⟩ := nodeOn_singleton_of_isChild hc
      exact ⟨p ++ [b], by rw [nodeOn_append, hp]; exact hb⟩

/-- The root is no child. -/
theorem IsTree.nodeOn_concat_ne_root (ht : IsTree h t) {p : List Bool} {b : Bool} :
    nodeOn t t.root (p ++ [b]) ≠ some t.root := by
  intro hp
  obtain ⟨k, hk, hb⟩ := nodeOn_concat hp
  have hkr := ht.nodeOn_le ht.root_lt hk
  exact absurd (ht.isChild_lt (hkr.trans_lt ht.root_lt) (isChild_of_nodeOn_singleton hb)) hkr.not_gt

/-- The two children of a node differ, so a step is known by its end. -/
theorem IsTree.step_unique (ht : IsTree h t) {n m : Nat} {b c : Bool} (hn : n < t.nnodes)
    (hb : nodeOn t n [b] = some m) (hc : nodeOn t n [c] = some m) : b = c := by
  obtain ⟨-, w, hnode⟩ | ⟨-, l, r, w, hnode, -, -, hne⟩ := ht.node_cases hn
  · simp [nodeOn, hnode] at hb
  · simp only [nodeOn, hnode, Option.some.injEq] at hb hc
    cases b <;> cases c <;> simp_all

/-- R196: a node is on one path from the root only, since each node has one parent. -/
theorem IsTree.path_unique (ht : IsTree h t) {p q : List Bool} {m : Nat} (hp : nodeOn t t.root p = some m)
    (hq : nodeOn t t.root q = some m) : p = q := by
  induction p using List.reverseRecOn generalizing q m with
  | nil =>
    cases hp
    obtain rfl | ⟨q, c, rfl⟩ := q.eq_nil_or_concat'
    · rfl
    · exact absurd hq ht.nodeOn_concat_ne_root
  | append_singleton p b ih =>
    obtain rfl | ⟨q, c, rfl⟩ := q.eq_nil_or_concat'
    · cases hq
      exact absurd hp ht.nodeOn_concat_ne_root
    · obtain ⟨k, hk, hb⟩ := nodeOn_concat hp
      obtain ⟨j, hj, hc⟩ := nodeOn_concat hq
      have hkn := (ht.nodeOn_le ht.root_lt hk).trans_lt ht.root_lt
      have hjn := (ht.nodeOn_le ht.root_lt hj).trans_lt ht.root_lt
      obtain rfl := ht.parent_unique hkn hjn (isChild_of_nodeOn_singleton hb) (isChild_of_nodeOn_singleton hc)
      rw [ih hk hj, ht.step_unique hkn hb hc]

/-- R196: a path to a leaf passes internal nodes only, each below the one before it. -/
theorem IsTree.length_path_le (ht : IsTree h t) {n : Nat} {p : List Bool} {b : Byte} (hn : n < t.nnodes)
    (hp : leafAt t n p = some b) : p.length ≤ n + 1 - h.u := by
  induction p generalizing n with
  | nil => exact Nat.zero_le _
  | cons c p ih =>
    rw [leafAt] at hp
    obtain ⟨-, w, hnode⟩ | ⟨hle, l, r, w, hnode, hl, hr, -⟩ := ht.node_cases hn
    · simp [hnode] at hp
    · rw [hnode] at hp
      have hlt : (if c then r else l) < n := by split_ifs <;> assumption
      have := ih (hlt.trans hn) hp
      rw [List.length_cons]
      omega

theorem IsTree.depth_le (ht : IsTree h t) {p : List Bool} {b : Byte} (hp : leafAt t t.root p = some b) :
    p.length ≤ h.u - 1 := by
  have := ht.length_path_le ht.root_lt hp
  have := ht.root
  have := ht.pos
  omega

end

/-- Settles O37: each is a property of the finished tree. -/
theorem treeProperties : Obligations.TreeProperties := by
  unfold Obligations.TreeProperties
  intro s hq hu
  have ht := builtTree_isTree hq hu
  refine ⟨_, exec_buildTree s, ht.nnodes, ht.root, ht.leaves, fun n h1 h2 => ?_,
    fun n m hn hc => ht.isChild_lt hn hc, fun m hm => ?_, ht.weight_root, fun j hj => ?_, fun p b hp => ht.depth_le hp⟩
  · obtain ⟨hlt, -⟩ | ⟨-, a, b, w, hnode, -⟩ := ht.node_cases h2
    · exact absurd hlt h1.not_gt
    · exact ⟨a, b, w, hnode⟩
  · obtain ⟨n, hn, hc⟩ := ht.exists_parent hm
    exact ⟨n, hn, hc, fun k hk hck => ht.parent_unique hk hn hck hc⟩
  · refine ht.exists_path ?_
    have := ht.root
    omega

end Sys2Proof.Machine

/-! PROOFS. The family of 42_huffman.md, BuildEncodingTable (R197 to R199): what Assign leaves, and the codes of a
tree. -/

namespace Sys2Proof.Machine

/-! A code as CODELEN and CODEBITS hold it (R53) -/

/-- The table holds p as the code of b. -/
def HasCode (h : Huff) (b : Byte) (p : List Bool) : Prop :=
  tget h.codeLen b = BitVec.ofNat 8 p.length ∧ tget h.codeBits b = BitVec.ofNat 255 (pathBits p)

theorem testBit_pathBits (p : List Bool) (i : Nat) : (pathBits p).testBit i = p.getD i false := by
  induction p generalizing i with
  | nil => simp [pathBits]
  | cons b p ih =>
    have hbit : pathBits (b :: p) = Nat.bit b (pathBits p) := by
      rw [pathBits, Nat.bit_val]
      exact Nat.add_comm _ _
    cases i with
    | zero => simp [hbit]
    | succ i => simp [hbit, Nat.testBit_bit_succ, ih]

theorem codeOf_of_hasCode {h : Huff} {b : Byte} {p : List Bool} (hc : HasCode h b p) (hp : p.length ≤ 255) :
    codeOf h b = p := by
  obtain ⟨hlen, hbits⟩ := hc
  have hn : (tget h.codeLen b).toNat = p.length := by
    rw [hlen, BitVec.toNat_ofNat]
    omega
  refine List.ext_getElem (by simp [codeOf, hn]) fun i h1 h2 => ?_
  have hi : i < 255 := by omega
  simp [codeOf, hbits, BitVec.getLsbD_ofNat, testBit_pathBits, hi, h2]

theorem hasCode_setCode (h : Huff) (b : Byte) (p : List Bool) : HasCode (setCode b p h) b p :=
  ⟨tget_tset_same _ _ _, tget_tset_same _ _ _⟩

/-- Two tables have the same code for b. -/
def SameCode (h h' : Huff) (b : Byte) : Prop :=
  tget h'.codeLen b = tget h.codeLen b ∧ tget h'.codeBits b = tget h.codeBits b

theorem sameCode_setCode {h : Huff} {b c : Byte} (p : List Bool) (hne : c ≠ b) : SameCode h (setCode b p h) c :=
  ⟨tget_tset_ne _ _ hne, tget_tset_ne _ _ hne⟩

/-! Assign (R197) -/

theorem assign_frame (d n : Nat) (p : List Bool) (h : Huff) :
    assign d n p h = { h with codeLen := (assign d n p h).codeLen, codeBits := (assign d n p h).codeBits } := by
  induction d generalizing n p h with
  | zero => rfl
  | succ d ih =>
    rw [assign]
    cases nodeAt h n with
    | leaf sym w => rfl
    | internal l r w => exact (ih r _ _).trans (congrArg (fun g : Huff => { g with
        codeLen := (assign d r (p ++ [true]) (assign d l (p ++ [false]) h)).codeLen
        codeBits := (assign d r (p ++ [true]) (assign d l (p ++ [false]) h)).codeBits }) (ih l _ _))

theorem leafAt_congr {h h' : Huff} (e : h'.node = h.node) (n : Nat) (p : List Bool) :
    leafAt h' n p = leafAt h n p := by
  have hnode : ∀ m, nodeAt h' m = nodeAt h m := fun m => by rw [nodeAt, nodeAt, e]
  induction p generalizing n with
  | nil => rw [leafAt, leafAt, hnode]
  | cons b p ih =>
    rw [leafAt, leafAt, hnode]
    cases nodeAt h n with
    | leaf sym w => rfl
    | internal l r w => exact ih _

theorem leafAt_assign (d m : Nat) (p : List Bool) (h : Huff) (n : Nat) (q : List Bool) :
    leafAt (assign d m p h) n q = leafAt h n q :=
  leafAt_congr (by rw [assign_frame]) n q

/-- A byte value with no leaf below node n keeps its code. -/
theorem assign_sameCode (d : Nat) {n : Nat} (p : List Bool) {h : Huff} {b : Byte}
    (hno : ∀ q, leafAt h n q ≠ some b) : SameCode h (assign d n p h) b := by
  induction d generalizing n p h with
  | zero => exact ⟨rfl, rfl⟩
  | succ d ih =>
    rw [assign]
    cases hnode : nodeAt h n with
    | leaf sym w =>
      refine sameCode_setCode p fun e => hno [] ?_
      rw [leafAt, hnode, e]
    | internal l r w =>
      have hl : ∀ q, leafAt h l q ≠ some b := fun q hq => hno (false :: q) (by rw [leafAt, hnode]; exact hq)
      have hr : ∀ q, leafAt h r q ≠ some b := fun q hq => hno (true :: q) (by rw [leafAt, hnode]; exact hq)
      obtain ⟨h1, h2⟩ := ih (p ++ [false]) hl
      obtain ⟨h3, h4⟩ := ih (n := r) (p ++ [true]) (h := assign d l (p ++ [false]) h) fun q => by
        rw [leafAt_assign]
        exact hr q
      exact ⟨h3.trans h1, h4.trans h2⟩

/-- R197: a leaf on one path q only from node n gets the code p ++ q. -/
theorem assign_hasCode {d n : Nat} (p : List Bool) {h : Huff} {b : Byte} {q : List Bool} (hd : q.length < d)
    (hq : leafAt h n q = some b) (huniq : ∀ q', leafAt h n q' = some b → q' = q) :
    HasCode (assign d n p h) b (p ++ q) := by
  induction d generalizing n p h q with
  | zero => exact absurd hd (Nat.not_lt_zero _)
  | succ d ih =>
    rw [assign]
    cases hnode : nodeAt h n with
    | leaf sym w =>
      cases q with
      | nil =>
        rw [leafAt, hnode] at hq
        cases hq
        rw [List.append_nil]
        exact hasCode_setCode h b p
      | cons c q => simp [leafAt, hnode] at hq
    | internal l r w =>
      have hstep : ∀ c q', leafAt h n (c :: q') = leafAt h (if c then r else l) q' := fun c q' => by
        rw [leafAt, hnode]
      cases q with
      | nil => simp [leafAt, hnode] at hq
      | cons c q =>
        rw [hstep] at hq
        rw [List.length_cons] at hd
        have hbelow : ∀ c' q', leafAt h (if c' then r else l) q' = some b → c' = c ∧ q' = q := fun c' q' hq' =>
          List.cons_eq_cons.mp (huniq (c' :: q') (by rw [hstep]; exact hq'))
        rw [show p ++ c :: q = (p ++ [c]) ++ q by simp]
        cases c with
        | false =>
          obtain ⟨h1, h2⟩ := ih (p ++ [false]) (by omega) hq fun q' hq' => (hbelow false q' hq').2
          obtain ⟨h3, h4⟩ := assign_sameCode d (n := r) (p ++ [true]) (h := assign d l (p ++ [false]) h) (b := b)
            fun q' hq' => by
              rw [leafAt_assign] at hq'
              exact Bool.noConfusion (hbelow true q' hq').1
          exact ⟨h3.trans h1, h4.trans h2⟩
        | true =>
          refine ih (p ++ [true]) (h := assign d l (p ++ [false]) h) (by omega) ?_ fun q' hq' => ?_
          · rw [leafAt_assign]
            exact hq
          · rw [leafAt_assign] at hq'
            exact (hbelow true q' hq').2

/-! BuildEncodingTable -/

theorem encodingTable_frame (h : Huff) :
    encodingTable h
      = { h with codeLen := (encodingTable h).codeLen, codeBits := (encodingTable h).codeBits } := by
  rw [encodingTable]
  split_ifs
  · rfl
  · rfl
  · exact assign_frame _ _ _ _

theorem encodingTable_none {h : Huff} (hu : h.u = 0) : encodingTable h = h := by rw [encodingTable, if_pos hu]

theorem encodingTable_one {h : Huff} (hu : h.u = 1) : encodingTable h = setCode (orderAt h 0) [false] h := by
  rw [encodingTable, if_neg (by omega), if_pos hu]

theorem encodingTable_many {h : Huff} (hu : 2 ≤ h.u) : encodingTable h = assign 256 h.root [] h := by
  rw [encodingTable, if_neg (by omega), if_neg (by omega)]

theorem buildEncodingTable_run (s : State) :
    buildEncodingTable s = .ok () { s with huff := encodingTable s.huff } := rfl

theorem exec_buildEncodingTable (s : State) :
    exec .buildEncodingTable s = .next { s with huff := encodingTable s.huff, ret := .none } :=
  runOp_ok (fun _ => Ret.none) (buildEncodingTable_run s)

/-- Settles O38: only Assign's table changes, and U selects the case. -/
theorem buildEncodingTable_outcome : Obligations.BuildEncodingTable := by
  unfold Obligations.BuildEncodingTable
  refine fun s => ⟨_, _, encodingTable s.huff, encodingTable_frame s.huff, exec_buildEncodingTable s,
    encodingTable_none, fun hu => ⟨?_, fun b hb => ?_⟩⟩
  · rw [encodingTable_one hu]
    exact codeOf_of_hasCode (hasCode_setCode _ _ _) (by decide)
  · rw [encodingTable_one hu]
    exact sameCode_setCode _ hb

/-! The codes of a tree (R199) -/

section
variable {h t : Huff}

theorem mem_ranked {b : Byte} : b ∈ ranked h ↔ ∃ j, j < h.u ∧ orderAt h j = b := by simp [ranked]

/-- Ranks are arena indices: distinct byte values have distinct ranks. -/
theorem orderAt_injective (hnd : (ranked h).Nodup) {i j : Nat} (hi : i < h.u) (hj : j < h.u)
    (e : orderAt h i = orderAt h j) : i = j :=
  List.inj_on_of_nodup_map hnd (List.mem_range.mpr hi) (List.mem_range.mpr hj) e

/-- R196: the leaves on the paths from the root are those of the byte values with a rank. -/
theorem IsTree.leafAt_iff (ht : IsTree h t) {p : List Bool} {b : Byte} :
    leafAt t t.root p = some b ↔ ∃ j, j < h.u ∧ orderAt h j = b ∧ nodeOn t t.root p = some j := by
  rw [leafAt_eq_some_iff]
  constructor
  · rintro ⟨m, w, hm, hnode⟩
    have hlt := (ht.nodeOn_le ht.root_lt hm).trans_lt ht.root_lt
    obtain ⟨hj, w', hleaf⟩ | ⟨-, l, r, w', hint, -⟩ := ht.node_cases hlt
    · rw [hleaf] at hnode
      cases hnode
      exact ⟨m, hj, rfl, hm⟩
    · rw [hint] at hnode
      cases hnode
  · rintro ⟨j, hj, rfl, hm⟩
    exact ⟨j, _, hm, ht.leaves j hj⟩

theorem IsTree.leaf_path_unique (ht : IsTree h t) (hnd : (ranked h).Nodup) {p q : List Bool} {b : Byte}
    (hp : leafAt t t.root p = some b) (hq : leafAt t t.root q = some b) : p = q := by
  obtain ⟨i, hi, hib, hpi⟩ := ht.leafAt_iff.mp hp
  obtain ⟨j, hj, hjb, hqj⟩ := ht.leafAt_iff.mp hq
  obtain rfl := orderAt_injective hnd hi hj (hib.trans hjb.symm)
  exact ht.path_unique hpi hqj

theorem IsTree.exists_leaf_path (ht : IsTree h t) {b : Byte} (hb : b ∈ ranked h) :
    ∃ p, leafAt t t.root p = some b := by
  obtain ⟨j, hj, rfl⟩ := mem_ranked.mp hb
  obtain ⟨p, hp⟩ := ht.exists_path (m := j) (by have := ht.root; omega)
  exact ⟨p, ht.leafAt_iff.mpr ⟨j, hj, rfl, hp⟩⟩

theorem IsTree.u_eq (ht : IsTree h t) : t.u = h.u := by rw [ht.frame]

/-- R199: for U >= 2 the code of a leaf is its path. -/
theorem IsTree.codeOf_eq_path (ht : IsTree h t) (hu : 2 ≤ h.u) (hu' : h.u ≤ 256) (hnd : (ranked h).Nodup)
    {p : List Bool} {b : Byte} (hp : leafAt t t.root p = some b) : codeOf (encodingTable t) b = p := by
  have hlen := ht.depth_le hp
  rw [encodingTable_many (by rw [ht.u_eq]; exact hu)]
  refine codeOf_of_hasCode ?_ (by omega)
  exact assign_hasCode [] (by omega) hp fun q hq => ht.leaf_path_unique hnd hq hp

theorem codeOf_eq_nil {h : Huff} {b : Byte} (hb : tget h.codeLen b = 0#8) : codeOf h b = [] := by
  simp [codeOf, hb]

/-- R197: a byte value without a rank keeps its empty code. -/
theorem IsTree.codeOf_unranked (ht : IsTree h t) {b : Byte} (hb : b ∉ ranked h) (hlen : tget t.codeLen b = 0#8) :
    codeOf (encodingTable t) b = [] := by
  have hpos := ht.pos
  refine codeOf_eq_nil (Eq.trans ?_ hlen)
  by_cases hu : h.u = 1
  · rw [encodingTable_one (by rw [ht.u_eq]; exact hu)]
    refine (sameCode_setCode _ fun e => hb (mem_ranked.mpr ⟨0, hpos, ?_⟩)).1
    rw [e, ht.frame]
    rfl
  · rw [encodingTable_many (by rw [ht.u_eq]; omega)]
    refine (assign_sameCode 256 [] fun q hq => hb ?_).1
    obtain ⟨j, hj, hjb, -⟩ := ht.leafAt_iff.mp hq
    exact mem_ranked.mpr ⟨j, hj, hjb⟩

/-- R198: the one-symbol code. -/
theorem IsTree.codeOf_one (ht : IsTree h t) (hu : h.u = 1) {b : Byte} (hb : b ∈ ranked h) :
    codeOf (encodingTable t) b = [false] := by
  obtain ⟨j, hj, rfl⟩ := mem_ranked.mp hb
  have ho : orderAt t 0 = orderAt h j := by
    rw [ht.frame, show j = 0 by omega]
    rfl
  rw [encodingTable_one (by rw [ht.u_eq]; exact hu), ho]
  exact codeOf_of_hasCode (hasCode_setCode _ _ _) (by decide)

/-- R199: every code has a length of 1 to 255. -/
theorem IsTree.length_codeOf (ht : IsTree h t) (hu' : h.u ≤ 256) (hnd : (ranked h).Nodup) {b : Byte}
    (hb : b ∈ ranked h) : 1 ≤ (codeOf (encodingTable t) b).length ∧ (codeOf (encodingTable t) b).length ≤ 255 := by
  have hpos := ht.pos
  by_cases hu : h.u = 1
  · rw [ht.codeOf_one hu hb]
    decide
  · obtain ⟨p, hp⟩ := ht.exists_leaf_path hb
    rw [ht.codeOf_eq_path (by omega) hu' hnd hp]
    have hlen := ht.depth_le hp
    refine ⟨List.length_pos_iff.mpr fun hnil => ?_, by omega⟩
    obtain ⟨j, hj, -, hroot⟩ := ht.leafAt_iff.mp hp
    rw [hnil] at hroot
    cases hroot
    have := ht.root
    omega

/-- A path that goes on past a leaf ends nowhere. -/
theorem leafAt_append {n : Nat} {p q : List Bool} {b c : Byte} (hp : leafAt h n p = some b)
    (hq : leafAt h n (p ++ q) = some c) : b = c := by
  obtain ⟨m, w, hm, hnode⟩ := leafAt_eq_some_iff.mp hp
  obtain ⟨k, w', hk, hnode'⟩ := leafAt_eq_some_iff.mp hq
  rw [nodeOn_append, hm, Option.bind_some] at hk
  cases q with
  | nil =>
    cases hk
    rw [hnode] at hnode'
    cases hnode'
    rfl
  | cons d q => simp [nodeOn, hnode] at hk

/-- R199: no code begins another. -/
theorem IsTree.eq_of_codeOf_isPrefix (ht : IsTree h t) (hu' : h.u ≤ 256) (hnd : (ranked h).Nodup) {b c : Byte}
    (hb : b ∈ ranked h) (hc : c ∈ ranked h)
    (hpre : codeOf (encodingTable t) b <+: codeOf (encodingTable t) c) : b = c := by
  have hpos := ht.pos
  by_cases hu : h.u = 1
  · obtain ⟨i, hi, rfl⟩ := mem_ranked.mp hb
    obtain ⟨j, hj, rfl⟩ := mem_ranked.mp hc
    rw [show i = j by omega]
  · obtain ⟨p, hp⟩ := ht.exists_leaf_path hb
    obtain ⟨q, hq⟩ := ht.exists_leaf_path hc
    rw [ht.codeOf_eq_path (by omega) hu' hnd hp, ht.codeOf_eq_path (by omega) hu' hnd hq] at hpre
    obtain ⟨r, rfl⟩ := hpre
    exact leafAt_append hp hq

/-- From every node a path leads to a leaf. -/
theorem IsTree.exists_leaf_below (ht : IsTree h t) {n : Nat} (hn : n < t.nnodes) : ∃ p b, leafAt t n p = some b := by
  induction n using Nat.strong_induction_on with
  | _ n ih =>
    obtain ⟨-, w, hnode⟩ | ⟨-, l, r, w, hnode, hl, -⟩ := ht.node_cases hn
    · exact ⟨[], _, by rw [leafAt, hnode]⟩
    · obtain ⟨p, b, hp⟩ := ih l hl (hl.trans hn)
      exact ⟨false :: p, b, by rw [leafAt, hnode]; exact hp⟩

/-- R199: a bit string from a node passes a leaf or ends above one. -/
theorem IsTree.exists_leaf_along (ht : IsTree h t) {n : Nat} (hn : n < t.nnodes) (p : List Bool) :
    ∃ q b, leafAt t n q = some b ∧ (q <+: p ∨ p <+: q) := by
  induction p generalizing n with
  | nil =>
    obtain ⟨q, b, hq⟩ := ht.exists_leaf_below hn
    exact ⟨q, b, hq, .inr List.nil_prefix⟩
  | cons c p ih =>
    obtain ⟨-, w, hnode⟩ | ⟨-, l, r, w, hnode, hl, hr, -⟩ := ht.node_cases hn
    · exact ⟨[], _, by rw [leafAt, hnode], .inl List.nil_prefix⟩
    · have hlt : (if c then r else l) < n := by split_ifs <;> assumption
      obtain ⟨q, b, hq, hpq⟩ := ih (hlt.trans hn)
      refine ⟨c :: q, b, by rw [leafAt, hnode]; exact hq, ?_⟩
      exact hpq.imp (fun h => List.cons_prefix_cons.mpr ⟨rfl, h⟩) fun h => List.cons_prefix_cons.mpr ⟨rfl, h⟩

end

/-- Settles O39: for U >= 2 the code of a byte value is the one path to its leaf. -/
theorem encodingTableCodes : Obligations.EncodingTableCodes := by
  unfold Obligations.EncodingTableCodes
  intro s hq hu hu' hnd hlen
  have ht := builtTree_isTree hq hu
  have hpath (h2 : 2 ≤ s.huff.u) {p : List Bool} {b : Byte} :=
    ht.codeOf_eq_path (p := p) (b := b) h2 hu' hnd
  refine ⟨_, _, exec_buildTree s, exec_buildEncodingTable _,
    fun b hb => ht.length_codeOf hu' hnd hb, fun b hb => ht.codeOf_unranked hb ?_,
    fun b hb c hc => ht.eq_of_codeOf_isPrefix hu' hnd hb hc, fun h2 => ⟨fun b hb => ?_, fun p b hp => ⟨?_, ?_⟩,
      fun p => ?_⟩⟩
  · rw [ht.frame]
    show tget s.huff.codeLen b = 0#8
    rw [hlen, tget_replicate]
  · obtain ⟨p, hp⟩ := ht.exists_leaf_path hb
    show leafAt _ _ (codeOf (encodingTable (builtTree s.huff)) b) = some b
    rw [hpath h2 hp]
    exact hp
  · obtain ⟨j, hj, hjb, -⟩ := ht.leafAt_iff.mp hp
    exact mem_ranked.mpr ⟨j, hj, hjb⟩
  · exact hpath h2 hp
  · obtain ⟨q, b, hq, hpq⟩ := ht.exists_leaf_along ht.root_lt p
    obtain ⟨j, hj, hjb, -⟩ := ht.leafAt_iff.mp hq
    refine ⟨b, mem_ranked.mpr ⟨j, hj, hjb⟩, ?_⟩
    show codeOf (encodingTable (builtTree s.huff)) b <+: p ∨ p <+: codeOf (encodingTable (builtTree s.huff)) b
    rw [hpath h2 hq]
    exact hpq

end Sys2Proof.Machine

/-! PROOFS. The family of 42_huffman.md, ParseHeader (R205) and the inputs that HUFF_DECOMPRESS refuses or takes as
empty (R206, R212). -/

namespace Sys2Proof.Machine

/-! A command whose start checks pass (R141, R142) -/

/-- The state in which the operation of a command begins (R141). -/
def launched (op : BitVec 3) (s : State) : State := launch { s with regs := { s.regs with op := op } }

theorem startChecks_ok {s : State} (hop : ¬(s.regs.op.toNat = 0 ∨ 4 < s.regs.op.toNat)) (hreg : s.regs.RegionsOk) :
    startChecks s = .ok () s := by
  obtain ⟨hin, hout, hov⟩ := hreg
  rw [startChecks_run, if_neg hop, if_neg hin.not_gt, if_neg hout.not_gt, hov]
  rfl

theorem runCommand_completed {op : BitVec 3} {s t : State} (hop : ¬(op.toNat = 0 ∨ 4 < op.toNat))
    (hreg : s.regs.RegionsOk) (hrun : commandOf op (launched op s) = .ok () t) : runCommand op s = completed t := by
  rw [runCommand_started (startChecks_ok (s := launched op s) hop hreg), eng_bind, hrun]
  rfl

theorem runCommand_raised {op : BitVec 3} {s t : State} {e : Raise} (hop : ¬(op.toNat = 0 ∨ 4 < op.toNat))
    (hreg : s.regs.RegionsOk) (hrun : commandOf op (launched op s) = .error e t) :
    runCommand op s = raiseError e t := by
  rw [runCommand_started (startChecks_ok (s := launched op s) hop hreg), eng_bind, hrun]
  rfl

/-- R27, R144: a completed command that no error touched reads DONE alone. -/
theorem completed_succeeded {t : State} (herr : t.regs.error = false) (hcode : t.regs.errCode = 0#3)
    (hinfo : t.regs.errInfo = 0#32) : (completed t).Succeeded := by
  refine ⟨rfl, ?_, hinfo⟩
  rw [Regs.statusWord, completed_regs_busy, completed_regs_done, completed_regs_error, completed_regs_errCode, herr,
    hcode]
  decide

theorem raiseError_failed (k : ErrKind) (info : Nat) (t : State) :
    (raiseError ⟨k, BitVec.ofNat 32 info⟩ t).Failed k info := ⟨rfl, rfl, rfl, rfl, rfl, rfl⟩

/-! The pairs of the header (R205) -/

/-- The byte at offset p. -/
theorem get8_ok (p : Nat) {s : State} (hbus : s.NoBusError) (ha : inAddr s p < 2 ^ 32) :
    ∃ c d, get8 p s = .ok (Memory.read s.mem (inAddr s p)) { s with cur := c, draws := d }
      ∧ c.bitPos = s.cur.bitPos ∧ c.pass = s.cur.pass := by
  obtain ⟨d, -, hd⟩ := answered_eq s
  exact ⟨{ s.cur with inPos := p + 1 }, d, by rw [get8, inByte_ok p hbus ha, hd], rfl, rfl⟩

theorem ofNat_eight_inj {i j : Nat} (hi : i < 256) (hj : j < 256) (e : BitVec.ofNat 8 i = BitVec.ofNat 8 j) :
    i = j := by
  have := congrArg BitVec.toNat e
  simpa [Nat.mod_eq_of_lt, hi, hj] using this

theorem pairsTaken_zero {s : State} (hu : s.huff.u = 0) : s.PairsTaken 0 s.huff :=
  ⟨by rw [← hu], fun _ hj => absurd hj (Nat.not_lt_zero _), fun _ _ => ⟨rfl, rfl⟩, fun _ _ _ => rfl⟩

/-- R205: a fresh pair is taken after the pairs before it. -/
theorem pairsTaken_succ {s : State} {j : Nat} {h : Huff} (hp : s.PairsTaken j h) (hj : j < 256)
    (hfresh : ∀ i, i < j → s.pairSym i ≠ s.pairSym j) :
    s.PairsTaken (j + 1) (acceptPair j (s.pairSym j) (s.pairFreq j) h) := by
  have horder : ∀ i, i < 256 → i ≠ j →
      orderAt (acceptPair j (s.pairSym j) (s.pairFreq j) h) i = orderAt h i := fun i hi hne =>
    tget_tset_ne _ _ fun e => hne (ofNat_eight_inj hi hj e)
  refine ⟨?_, fun i hi => ?_, fun b hb => ?_, fun i hi hi' => ?_⟩
  · rw [hp.others]
    rfl
  · obtain hlt | rfl := Nat.lt_succ_iff_lt_or_eq.mp hi
    · obtain ⟨h1, h2, h3⟩ := hp.taken i hlt
      refine ⟨(horder i (by omega) hlt.ne).trans h1, ?_, ?_⟩
      · exact (tget_tset_ne _ _ (hfresh i hlt)).trans h2
      · exact (tget_tset_ne _ _ (hfresh i hlt)).trans h3
    · exact ⟨tget_tset_same _ _ _, tget_tset_same _ _ _, tget_tset_same _ _ _⟩
  · obtain ⟨h1, h2⟩ := hp.bytes b fun i hi => hb i (by omega)
    have hne : b ≠ s.pairSym j := (hb j (Nat.lt_succ_self j)).symm
    exact ⟨(tget_tset_ne _ _ hne).trans h1, (tget_tset_ne _ _ hne).trans h2⟩
  · exact (horder i hi' (by omega)).trans (hp.ranks i (by omega) hi')

/-- R205: the next pair, with no bus error, is read and taken. -/
theorem parsePair_ok {s : State} {j : Nat} {h : Huff} {c : Cursors} {d : Nat} (hbus : s.NoBusError)
    (hin : inAddr s (9 + 5 * j) ≤ 2 ^ 32) (hfreq : s.huff.freq = Vector.replicate 256 0#32)
    (hp : s.PairsTaken j h) (hok : s.PairsOk (j + 1)) :
    ∃ c' d', parsePair j { s with huff := h, cur := c, draws := d }
        = .ok () { s with huff := acceptPair j (s.pairSym j) (s.pairFreq j) h, cur := c', draws := d' }
      ∧ c'.bitPos = c.bitPos ∧ c'.pass = c.pass := by
  obtain ⟨hfresh, hpos⟩ := hok j (Nat.lt_succ_self j)
  have hzero : tget h.freq (s.pairSym j) = 0#32 := by
    rw [(hp.bytes _ hfresh).1, hfreq, tget_replicate]
  simp only [inAddr] at hin
  obtain ⟨c1, d1, hsym, hbit1, hpass1⟩ := get8_ok (s := { s with huff := h, cur := c, draws := d }) (4 + 5 * j)
    (hbus.of_cfg rfl) (by simp only [inAddr]; omega)
  obtain ⟨c2, d2, hfield, hbit2, hpass2⟩ := get32_ok (s := { s with huff := h, cur := c1, draws := d1 }) (5 + 5 * j)
    (hbus.of_cfg rfl) (by simp only [inAddr]; omega)
  refine ⟨c2, d2, ?_, hbit2.trans hbit1, hpass2.trans hpass1⟩
  have hsym' : get8 (4 + 5 * j) { s with huff := h, cur := c, draws := d }
      = .ok (s.pairSym j) { s with huff := h, cur := c1, draws := d1 } := hsym
  have hfield' : get32 (5 + 5 * j) { s with huff := h, cur := c1, draws := d1 }
      = .ok (s.pairFreq j) { s with huff := h, cur := c2, draws := d2 } := hfield
  simp only [parsePair, eng_bind, hsym', eng_get, hzero, ne_eq, not_true_eq_false, if_false, hfield',
    hpos.not_gt, eng_modify]

/-- R205: the pairs of an accepted header, with no bus error, are taken in turn. -/
theorem parsePairs_ok {s : State} {n : Nat} (hbus : s.NoBusError) (hin : inAddr s (4 + 5 * n) ≤ 2 ^ 32)
    (hfreq : s.huff.freq = Vector.replicate 256 0#32) (hu : s.huff.u = 0) (hn : n ≤ 256) (hok : s.PairsOk n) :
    ∃ h c d, forRange n parsePair s = .ok () { s with huff := h, cur := c, draws := d } ∧ s.PairsTaken n h
      ∧ c.bitPos = s.cur.bitPos ∧ c.pass = s.cur.pass := by
  obtain ⟨t, hrun, h, c, d, rfl, hp, hc⟩ := forRange_ok parsePair
    (fun j t => ∃ h c d, t = { s with huff := h, cur := c, draws := d } ∧ s.PairsTaken j h
      ∧ c.bitPos = s.cur.bitPos ∧ c.pass = s.cur.pass) n s
    ⟨s.huff, s.cur, s.draws, rfl, pairsTaken_zero hu, rfl, rfl⟩ fun j t hj ht => by
      obtain ⟨h, c, d, rfl, hp, hbit, hpass⟩ := ht
      obtain ⟨c', d', hstep, hbit', hpass'⟩ := parsePair_ok (c := c) (d := d) hbus
        (by simp only [inAddr] at hin ⊢; omega) hfreq hp fun i hi => hok i (by omega)
      exact ⟨_, hstep, _, c', d', rfl, pairsTaken_succ hp (by omega) (hok j hj).1, hbit'.trans hbit,
        hpass'.trans hpass⟩
  exact ⟨h, c, d, hrun, hp, hc⟩

/-! ParseHeader (R205) -/

theorem toInt_ofNat_of_le {n : Nat} (hn : n ≤ 256) : (BitVec.ofNat 32 n).toInt = n := by
  have htoNat : (BitVec.ofNat 32 n).toNat = n := by
    rw [BitVec.toNat_ofNat]
    omega
  rw [BitVec.toInt_eq_toNat_of_lt (by omega), htoNat]

/-- R205: an input of less than 12 bytes holds no header. -/
theorem parseHeader_short {s : State} (hbus : s.NoBusError) (hin : s.regs.inBase.toNat + s.regs.inLen.toNat ≤ 2 ^ 32)
    (hlen : s.regs.inLen.toNat < 12) :
    ∃ c d, parseHeader s = .error ⟨.corruptHeader, BitVec.ofNat 32 0⟩ { s with cur := c, draws := d } := by
  by_cases h4 : s.regs.inLen.toNat < 4
  · exact ⟨s.cur, s.draws, by simp only [parseHeader, eng_bind, eng_get, h4, if_true, eng_raise]⟩
  · obtain ⟨c, d, hcount, -⟩ := get32_ok (s := s) 0 hbus (by simp only [inAddr]; omega)
    refine ⟨c, d, ?_⟩
    have hlen' : s.regs.inLen.toNat < 12 + 5 * (s.inWord 0).toNat := by omega
    simp only [parseHeader, eng_bind, eng_get, h4, if_false, hcount, hlen', if_true]
    split_ifs <;> rfl

/-- R205: an accepted header, with no bus error. -/
theorem parseHeader_ok {s : State} {n : Nat} (hbus : s.NoBusError)
    (hin : s.regs.inBase.toNat + s.regs.inLen.toNat ≤ 2 ^ 32) (hfreq : s.huff.freq = Vector.replicate 256 0#32)
    (hu : s.huff.u = 0) (hn : n ≤ 256) (hlen : 12 + 5 * n ≤ s.regs.inLen.toNat)
    (hcount : s.inWord 0 = BitVec.ofNat 32 n) (hok : s.PairsOk n) (hsigned : 0 ≤ (s.inDouble (4 + 5 * n)).toInt)
    (hempty : n = 0 → s.inDouble (4 + 5 * n) = 0#64) :
    ∃ h c d, parseHeader s = .ok (n, s.inDouble (4 + 5 * n)) { s with
        huff := h, cur := c, draws := d
        regs := { s.regs with
          huffUnique := BitVec.ofNat 9 n, huffBitsLo := (s.inDouble (4 + 5 * n)).extractLsb' 0 32,
          huffBitsHi := (s.inDouble (4 + 5 * n)).extractLsb' 32 32 } }
      ∧ s.PairsTaken n h ∧ c.bitPos = s.cur.bitPos ∧ c.pass = s.cur.pass := by
  obtain ⟨c1, d1, hfield, hbit1, hpass1⟩ := get32_ok (s := s) 0 hbus (by simp only [inAddr]; omega)
  rw [hcount] at hfield
  obtain ⟨h, c2, d2, hpairs, hp, hbit2, hpass2⟩ := parsePairs_ok
    (s := { s with cur := c1, draws := d1, regs := { s.regs with huffUnique := BitVec.ofNat 9 n } }) (n := n)
    (hbus.of_cfg rfl) (by simp only [inAddr]; omega) hfreq hu hn hok
  obtain ⟨c3, d3, hT, hbit3, hpass3⟩ := get64_ok
    (s := { s with huff := h, cur := c2, draws := d2, regs := { s.regs with huffUnique := BitVec.ofNat 9 n } })
    (4 + 5 * n) (hbus.of_cfg rfl) (by simp only [inAddr]; omega)
  refine ⟨h, c3, d3, ?_, ⟨hp.others, hp.taken, hp.bytes, hp.ranks⟩, by simp only [hbit3, hbit2, hbit1],
    by simp only [hpass3, hpass2, hpass1]⟩
  have hT' : get64 (4 + 5 * n) { s with
        huff := h, cur := c2, draws := d2, regs := { s.regs with huffUnique := BitVec.ofNat 9 n } }
      = .ok (s.inDouble (4 + 5 * n)) { s with
        huff := h, cur := c3, draws := d3, regs := { s.regs with huffUnique := BitVec.ofNat 9 n } } := hT
  have h4 : ¬s.regs.inLen.toNat < 4 := by omega
  have hrange : ¬((BitVec.ofNat 32 n).toInt < 0 ∨ 256 < (BitVec.ofNat 32 n).toInt) := by
    rw [toInt_ofNat_of_le hn]
    omega
  have hn' : (BitVec.ofNat 32 n).toNat = n := by
    rw [BitVec.toNat_ofNat]
    omega
  have hempty' : ¬(n = 0 ∧ s.inDouble (4 + 5 * n) ≠ 0#64) := fun h => h.2 (hempty h.1)
  simp only [parseHeader, eng_bind, eng_get, h4, if_false, hfield, hrange, hn', hlen.not_gt, eng_modify, hpairs, hT',
    hsigned.not_gt, hempty', eng_pure]
  rfl

/-! Short inputs of HUFF_DECOMPRESS (R206, R212) -/

section
variable {s : State}

theorem huffBits_setHuffBits (T : BitVec 64) (t : State) : (setHuffBits T t).regs.huffBits = T.toNat := by
  have hT := T.isLt
  simp only [Regs.huffBits, setHuffBits_regs_huffBitsLo, setHuffBits_regs_huffBitsHi, BitVec.extractLsb'_toNat,
    Nat.shiftRight_eq_div_pow]
  omega

/-- R212: no byte, no output. -/
theorem huffDecompress_empty (hlen : s.regs.inLen = 0#32) : huffDecompress s = .ok () s := by
  simp only [huffDecompress, eng_bind, eng_get, hlen, if_true, eng_pure]

/-- R307: an error of ParseHeader ends HUFF_DECOMPRESS. -/
theorem huffDecompress_parse_error {t : State} {e : Raise} (hlen : s.regs.inLen ≠ 0#32)
    (hparse : parseHeader { s with phase := .hParse } = .error e t) : huffDecompress s = .error e t := by
  simp only [huffDecompress, eng_bind, eng_get, hlen, if_false, eng_setPhase, hparse]

/-- R206: a code stream longer than the payload ends HUFF_DECOMPRESS. -/
theorem huffDecompress_payload_error {t : State} {u : Nat} {T : BitVec 64} (hlen : s.regs.inLen ≠ 0#32)
    (hparse : parseHeader { s with phase := .hParse } = .ok (u, T) t)
    (hpay : 8 * ((t.regs.inLen.toNat : Int) - (12 + 5 * u : Nat)) < T.toInt) :
    huffDecompress s = .error ⟨.corruptData, BitVec.ofNat 32 (4 + 5 * u)⟩ t := by
  simp only [huffDecompress, eng_bind, eng_get, hlen, if_false, eng_setPhase, hparse, checkPayloadLength_run, hpay,
    if_true]

end

theorem toInt_of_lt {T : BitVec 64} (hT : T.toNat < 2 ^ 63) : T.toInt = T.toNat := by
  rw [BitVec.toInt_eq_toNat_of_lt]
  omega

/-- Settles O47: the command completes at once, or ParseHeader or the payload check raises before any output. -/
theorem huffDecompressShortInput : Obligations.HuffDecompressShortInput := by
  unfold Obligations.HuffDecompressShortInput
  intro s hreg hbus
  refine ⟨_, exec_decodeOp 2#3 s, fun hlen => ?_, fun hpos hlen => ?_,
    fun u hu hlen hcount hok hpos hsigned hpay => ?_⟩
  · rw [runCommand_completed (op := 2#3) (by decide) hreg (huffDecompress_empty (s := launched 2#3 s) hlen)]
    exact ⟨completed_succeeded rfl rfl rfl, rfl, rfl, rfl⟩
  · obtain ⟨c, d, hparse⟩ := parseHeader_short (s := { launched 2#3 s with phase := .hParse }) (hbus.of_cfg rfl)
      hreg.1 (Nat.lt_succ_of_le hlen)
    have hne : s.regs.inLen ≠ 0#32 := fun e => by simp [e] at hpos
    rw [runCommand_raised (op := 2#3) (by decide) hreg (huffDecompress_parse_error (s := launched 2#3 s) hne hparse)]
    exact ⟨raiseError_failed _ _ _, rfl⟩
  · have hne : s.regs.inLen ≠ 0#32 := fun e => by simp [e] at hlen
    have hT := toInt_of_lt hsigned
    obtain ⟨h, c, d, hparse, -⟩ := parseHeader_ok (s := { launched 2#3 s with phase := .hParse }) (n := u)
      (hbus.of_cfg rfl) hreg.1 rfl rfl hu hlen hcount hok (by
        show 0 ≤ (s.inDouble (4 + 5 * u)).toInt
        omega) (by omega)
    rw [runCommand_raised (op := 2#3) (by decide) hreg
      (huffDecompress_payload_error (s := launched 2#3 s) hne hparse (by
        show 8 * ((s.regs.inLen.toNat : Int) - (12 + 5 * u : Nat)) < (s.inDouble (4 + 5 * u)).toInt
        omega))]
    exact ⟨raiseError_failed _ _ _, rfl⟩

end Sys2Proof.Machine

/-! PROOFS. The family of 42_huffman.md, BuildFrequencyTable (R190): the tables of the first pass, and that the header
made of them leaves the same tables when it is parsed (R205). -/

namespace Sys2Proof.Machine

/-! The order of first appearance -/

theorem firstAppearances_append (bs : List Byte) (b : Byte) :
    firstAppearances (bs ++ [b])
      = if b ∈ firstAppearances bs then firstAppearances bs else firstAppearances bs ++ [b] := by
  rw [firstAppearances, List.foldl_append]
  rfl

@[simp] theorem mem_firstAppearances {bs : List Byte} {b : Byte} : b ∈ firstAppearances bs ↔ b ∈ bs := by
  induction bs using List.reverseRecOn with
  | nil => rfl
  | append_singleton bs c ih =>
    rw [firstAppearances_append, List.mem_append, List.mem_singleton]
    split_ifs with hc
    · rw [ih]
      refine ⟨.inl, fun h => h.elim id fun e => ?_⟩
      exact ih.mp (e ▸ hc)
    · rw [List.mem_append, List.mem_singleton, ih]

theorem nodup_firstAppearances (bs : List Byte) : (firstAppearances bs).Nodup := by
  induction bs using List.reverseRecOn with
  | nil => exact List.nodup_nil
  | append_singleton bs c ih =>
    rw [firstAppearances_append]
    split_ifs with hc
    · exact ih
    · exact List.nodup_append.mpr ⟨ih, List.nodup_singleton c, fun x hx y hy e => hc (by
        rw [List.mem_singleton.mp hy] at e
        exact e ▸ hx)⟩

/-- R50: there are 256 byte values. -/
theorem length_le_of_nodup {l : List Byte} (h : l.Nodup) : l.length ≤ 256 := by
  have hnd : (l.map BitVec.toNat).Nodup := h.map fun _ _ => BitVec.eq_of_toNat_eq
  have hsub : l.map BitVec.toNat ⊆ List.range 256 := fun n hn => by
    obtain ⟨b, -, rfl⟩ := List.mem_map.mp hn
    exact List.mem_range.mpr b.isLt
  simpa using (hnd.subperm hsub).length_le

theorem length_firstAppearances_le (bs : List Byte) : (firstAppearances bs).length ≤ 256 :=
  length_le_of_nodup (nodup_firstAppearances bs)

/-! The tables of a byte string -/

/-- HUFF after the bytes bs of the first pass (R190). -/
def countedBytes (bs : List Byte) (h : Huff) : Huff := bs.foldl (fun h b => countSymbol b h) h

theorem countedBytes_append (bs : List Byte) (b : Byte) (h : Huff) :
    countedBytes (bs ++ [b]) h = countSymbol b (countedBytes bs h) := by
  rw [countedBytes, List.foldl_append]
  rfl

/-- R190: the tables of h are those of the bytes bs, counted from the cleared tables of h0. -/
structure Counted (h0 : Huff) (bs : List Byte) (h : Huff) : Prop where
  frame   : h = { h0 with freq := h.freq, order := h.order, rank := h.rank, u := (firstAppearances bs).length }
  freq    : ∀ b, (tget h.freq b).toNat = bs.count b
  ranked  : ranked h = firstAppearances bs
  rank    : ∀ j, j < h.u → tget h.rank (orderAt h j) = BitVec.ofNat 8 j
  absent  : ∀ b, b ∉ bs → tget h.rank b = 0#8
  untaken : ∀ j, h.u ≤ j → j < 256 → orderAt h j = orderAt h0 j

section
variable {h0 h : Huff} {bs : List Byte}

theorem Counted.u_eq (hc : Counted h0 bs h) : h.u = (firstAppearances bs).length := by rw [hc.frame]

theorem Counted.u_le (hc : Counted h0 bs h) : h.u ≤ 256 := hc.u_eq ▸ length_firstAppearances_le bs

theorem Counted.nodup (hc : Counted h0 bs h) : (Machine.ranked h).Nodup := hc.ranked ▸ nodup_firstAppearances bs

theorem Counted.mem_ranked_iff (hc : Counted h0 bs h) {b : Byte} : b ∈ Machine.ranked h ↔ b ∈ bs := by
  rw [hc.ranked, mem_firstAppearances]

theorem counted_nil (hf : h0.freq = Vector.replicate 256 0#32) (hr : h0.rank = Vector.replicate 256 0#8)
    (hu : h0.u = 0) : Counted h0 [] h0 := by
  refine ⟨by rw [show (firstAppearances []).length = h0.u from hu.symm], fun b => by simp [hf], ?_, fun j hj => ?_,
    fun b _ => by simp [hr], fun _ _ _ => rfl⟩
  · rw [Machine.ranked, hu]
    rfl
  · omega

/-- R190: another occurrence only counts. -/
theorem Counted.again (hc : Counted h0 bs h) {b : Byte} (hb : b ∈ bs) (hlen : bs.length + 1 < 2 ^ 32) :
    Counted h0 (bs ++ [b]) (countSymbol b h) := by
  have hcount : bs.count b ≤ bs.length := List.count_le_length
  have hne : tget h.freq b ≠ 0#32 := fun e => by
    have h1 := hc.freq b
    have h2 := List.count_pos_iff.mpr hb
    rw [e, BitVec.toNat_zero] at h1
    omega
  have hfirst : firstAppearances (bs ++ [b]) = firstAppearances bs := by
    rw [firstAppearances_append, if_pos (mem_firstAppearances.mpr hb)]
  rw [countSymbol, if_neg hne]
  refine ⟨?_, fun c => ?_, ?_, hc.rank, fun c hcb => hc.absent c fun hcm => hcb (List.mem_append_left _ hcm),
    hc.untaken⟩
  · rw [hfirst]
    exact congrArg (fun g : Huff => { g with freq := tset h.freq b (tget h.freq b + 1#32) }) hc.frame
  · rw [tget_tset, List.count_append, List.count_singleton]
    by_cases hcb : c = b
    · subst hcb
      have h1 := hc.freq c
      rw [if_pos rfl, BitVec.toNat_add, h1]
      simp
      omega
    · rw [if_neg hcb, hc.freq c]
      simp [Ne.symm hcb]
  · rw [hfirst]
    exact hc.ranked

/-- R190: a first appearance gets the next rank. -/
theorem Counted.first (hc : Counted h0 bs h) {b : Byte} (hb : b ∉ bs) : Counted h0 (bs ++ [b]) (countSymbol b h) := by
  have hzero : tget h.freq b = 0#32 := BitVec.eq_of_toNat_eq (by
    rw [hc.freq b, List.count_eq_zero_of_not_mem hb]
    rfl)
  have hfirst : firstAppearances (bs ++ [b]) = firstAppearances bs ++ [b] := by
    rw [firstAppearances_append, if_neg (mem_firstAppearances.not.mpr hb)]
  have hu : h.u < 256 := by
    have hle := length_firstAppearances_le (bs ++ [b])
    rw [hfirst, List.length_append, List.length_singleton, ← hc.u_eq] at hle
    omega
  have hold : ∀ j, j < 256 → j ≠ h.u → orderAt (countSymbol b h) j = orderAt h j := fun j hj hne => by
    rw [countSymbol, if_pos hzero]
    exact tget_tset_ne _ _ fun e => hne (ofNat_eight_inj hj hu e)
  have hnew : orderAt (countSymbol b h) h.u = b := by
    rw [countSymbol, if_pos hzero]
    exact tget_tset_same _ _ _
  have hsucc : (countSymbol b h).u = h.u + 1 := by rw [countSymbol, if_pos hzero]
  have hrank : (countSymbol b h).rank = tset h.rank b (BitVec.ofNat 8 h.u) := by rw [countSymbol, if_pos hzero]
  have hfreq : (countSymbol b h).freq = tset h.freq b 1#32 := by rw [countSymbol, if_pos hzero]
  refine ⟨?_, fun c => ?_, ?_, fun j hj => ?_, fun c hcb => ?_, fun j hj hj' => ?_⟩
  · rw [hfirst, List.length_append, List.length_singleton, ← hc.u_eq, ← hsucc, countSymbol, if_pos hzero, hc.frame]
  · rw [hfreq, tget_tset, List.count_append, List.count_singleton]
    by_cases hcb : c = b
    · subst hcb
      rw [if_pos rfl, List.count_eq_zero_of_not_mem hb]
      simp
    · rw [if_neg hcb, hc.freq c]
      simp [Ne.symm hcb]
  · rw [hfirst, ← hc.ranked, Machine.ranked, Machine.ranked, hsucc, List.range_succ, List.map_append,
      List.map_singleton, hnew]
    congr 1
    exact List.map_congr_left fun j hj => hold j (by have := List.mem_range.mp hj; omega) (List.mem_range.mp hj).ne
  · rw [hsucc] at hj
    rw [hrank]
    obtain hlt | rfl := Nat.lt_succ_iff_lt_or_eq.mp hj
    · rw [hold j (by omega) hlt.ne, tget_tset_ne _ _ fun e => hb ?_]
      · exact hc.rank j hlt
      · exact hc.mem_ranked_iff.mp (mem_ranked.mpr ⟨j, hlt, e⟩)
    · rw [hnew, tget_tset_same]
  · rw [List.mem_append, List.mem_singleton, not_or] at hcb
    rw [hrank, tget_tset_ne _ _ hcb.2]
    exact hc.absent c hcb.1
  · rw [hsucc] at hj
    rw [hold j hj' (by omega)]
    exact hc.untaken j (by omega) hj'

end

theorem countedBytes_counted {h0 : Huff} {bs : List Byte} (hf : h0.freq = Vector.replicate 256 0#32)
    (hr : h0.rank = Vector.replicate 256 0#8) (hu : h0.u = 0) (hlen : bs.length < 2 ^ 32) :
    Counted h0 bs (countedBytes bs h0) := by
  induction bs using List.reverseRecOn with
  | nil => exact counted_nil hf hr hu
  | append_singleton bs b ih =>
    rw [List.length_append, List.length_singleton] at hlen
    have hc := ih (by omega)
    rw [countedBytes_append]
    by_cases hb : b ∈ bs
    · exact hc.again hb hlen
    · exact hc.first hb

/-! BuildFrequencyTable -/

@[simp] theorem length_input (s : State) : s.input.length = s.regs.inLen.toNat := Memory.length_readBytes _ _ _

theorem getElem_input (s : State) (i : Nat) (hi : i < s.input.length) :
    s.input[i] = Memory.read s.mem (inAddr s i) := Memory.getElem_readBytes _ _ _ _ hi

theorem take_input_succ (s : State) {i : Nat} (hi : i < s.regs.inLen.toNat) :
    s.input.take (i + 1) = s.input.take i ++ [Memory.read s.mem (inAddr s i)] := by
  rw [List.take_succ_eq_append_getElem (by simpa using hi), getElem_input]

/-- R190: the first pass with no bus error. -/
theorem buildFrequencyTable_ok {s : State} (hbus : s.NoBusError)
    (hin : s.regs.inBase.toNat + s.regs.inLen.toNat ≤ 2 ^ 32) :
    ∃ c d, buildFrequencyTable s = .ok () { s with
        huff := countedBytes s.input s.huff, cur := c, draws := d
        regs := { s.regs with huffUnique := BitVec.ofNat 9 (countedBytes s.input s.huff).u } }
      ∧ c.bitPos = s.cur.bitPos ∧ c.pass = s.cur.pass := by
  obtain ⟨t, hrun, c, d, rfl, hbit, hpass⟩ := forRange_ok countByte
    (fun k t => ∃ c d, t = { s with huff := countedBytes (s.input.take k) s.huff, cur := c, draws := d }
      ∧ c.bitPos = s.cur.bitPos ∧ c.pass = s.cur.pass) s.regs.inLen.toNat s
    ⟨s.cur, s.draws, rfl, rfl, rfl⟩ fun j t hj ht => by
      obtain ⟨c, d, rfl, hbit, hpass⟩ := ht
      obtain ⟨c', d', hread, hbit', hpass'⟩ :=
        get8_ok (s := { s with huff := countedBytes (s.input.take j) s.huff, cur := c, draws := d }) j
          (hbus.of_cfg rfl) (by simp only [inAddr]; omega)
      refine ⟨{ s with huff := countedBytes (s.input.take (j + 1)) s.huff, cur := c', draws := d' }, ?_, c', d', rfl,
        hbit'.trans hbit, hpass'.trans hpass⟩
      rw [get8] at hread
      simp only [countByte, eng_bind, hread, eng_modify, take_input_succ s hj, countedBytes_append]
      rfl
  rw [← length_input, List.take_length, length_input] at hrun
  refine ⟨c, d, ?_, hbit, hpass⟩
  simp only [buildFrequencyTable, eng_bind, eng_get, hrun, eng_modify]

/-! The tables and the header agree -/

theorem table_ext {α : Type} {t t' : Vector α 256} (h : ∀ b, tget t b = tget t' b) : t = t' :=
  Vector.ext fun i hi => by simpa [tget, Nat.mod_eq_of_lt hi] using h (BitVec.ofNat 8 i)

theorem orderAt_toNat (h : Huff) (b : Byte) : orderAt h b.toNat = tget h.order b := by
  rw [orderAt, BitVec.ofNat_toNat, BitVec.setWidth_eq]

/-- R205, R190: parsing the pairs that the first pass counted leaves the tables of the first pass. -/
theorem pairsTaken_eq_of_counted {s : State} {bs : List Byte} {h g : Huff} (hc : Counted Huff.cleared bs h)
    (hs : s.huff = Huff.cleared) (hsym : ∀ j, j < h.u → s.pairSym j = orderAt h j)
    (hfreq : ∀ j, j < h.u → s.pairFreq j = tget h.freq (orderAt h j)) (hp : s.PairsTaken h.u g) : g = h := by
  have habsent : ∀ b, b ∉ bs → ∀ j, j < h.u → s.pairSym j ≠ b := fun b hb j hj e =>
    hb (hc.mem_ranked_iff.mp (mem_ranked.mpr ⟨j, hj, (hsym j hj).symm.trans e⟩))
  have hfreq' : g.freq = h.freq := table_ext fun b => by
    by_cases hb : b ∈ bs
    · obtain ⟨j, hj, rfl⟩ := mem_ranked.mp (hc.mem_ranked_iff.mpr hb)
      rw [← hfreq j hj, ← hsym j hj, (hp.taken j hj).2.2]
    · rw [(hp.bytes b (habsent b hb)).1, hs]
      refine BitVec.eq_of_toNat_eq ?_
      rw [hc.freq b, List.count_eq_zero_of_not_mem hb]
      simp [Huff.cleared]
  have hrank' : g.rank = h.rank := table_ext fun b => by
    by_cases hb : b ∈ bs
    · obtain ⟨j, hj, rfl⟩ := mem_ranked.mp (hc.mem_ranked_iff.mpr hb)
      rw [hc.rank j hj, ← hsym j hj, (hp.taken j hj).2.1]
    · rw [(hp.bytes b (habsent b hb)).2, hs, hc.absent b hb]
      simp [Huff.cleared]
  have horder' : g.order = h.order := table_ext fun b => by
    rw [← orderAt_toNat, ← orderAt_toNat]
    obtain hlt | hle := Nat.lt_or_ge b.toNat h.u
    · rw [(hp.taken _ hlt).1, hsym _ hlt]
    · rw [hp.ranks _ hle b.isLt, hc.untaken _ hle b.isLt, hs]
  rw [hp.others, hc.frame, hs, hfreq', hrank', horder']

end Sys2Proof.Machine

/-! PROOFS. The family of 42_huffman.md, the header as bytes: SerializeHeader writes it (R201), and what its fields are
when it stands in the input (R109, R111). -/

namespace Sys2Proof.Machine

/-! Numbers as bytes (R79, R109) -/

@[simp] theorem length_leBytes (v n : Nat) : (leBytes v n).length = n := by
  induction n generalizing v with
  | zero => rfl
  | succ n ih => simp [leBytes, ih]

theorem leValue_leBytes (v n : Nat) : leValue (leBytes v n) = v % 256 ^ n := by
  induction n generalizing v with
  | zero => simp [leBytes, leValue, Nat.mod_one]
  | succ n ih =>
    rw [leBytes, leValue, ih, BitVec.toNat_ofNat, pow_succ' 256 n, Nat.mod_mul]

theorem leBytes_mod (v n : Nat) : leBytes (v % 256 ^ n) n = leBytes v n := by
  induction n generalizing v with
  | zero => rfl
  | succ n ih =>
    have hbyte : BitVec.ofNat 8 (v % 256 ^ (n + 1)) = BitVec.ofNat 8 v := by
      refine BitVec.eq_of_toNat_eq ?_
      rw [BitVec.toNat_ofNat, BitVec.toNat_ofNat, pow_succ']
      exact Nat.mod_mul_right_mod v 256 _
    have hrest : v % 256 ^ (n + 1) / 256 = v / 256 % 256 ^ n := by rw [pow_succ', Nat.mod_mul_right_div_self]
    rw [leBytes, leBytes, hbyte, hrest, ih]

/-! SerializeHeader (R201) -/

theorem outBytes_append (xs ys : List Byte) (s : State) :
    outBytes (xs ++ ys) s = (outBytes xs >>= fun _ => outBytes ys) s := by
  induction xs generalizing s with
  | nil => rfl
  | cons b rest ih =>
    rw [List.cons_append, outBytes, outBytes, eng_bind, eng_bind, eng_bind]
    cases outByte b s with
    | ok _ t => exact (ih t).trans (eng_bind ..)
    | error e t => rfl

/-- The part of a state that reading and writing bytes leaves: HUFF and every register but OUT_LEN. -/
def State.tables (s : State) : Huff × Regs := (s.huff, { s.regs with outLen := 0#32 })

/-- An engine computation that leaves HUFF and every register but OUT_LEN, whether it returns or raises. -/
def LeavesTables {α : Type} (x : Eng α) : Prop :=
  ∀ s, match x s with | .ok _ t => t.tables = s.tables | .error _ t => t.tables = s.tables

theorem LeavesTables.ok {α : Type} {x : Eng α} (h : LeavesTables x) {s t : State} {a : α} (e : x s = .ok a t) :
    t.tables = s.tables := by have := h s; rwa [e] at this

theorem LeavesTables.error {α : Type} {x : Eng α} (h : LeavesTables x) {s t : State} {r : Raise}
    (e : x s = .error r t) : t.tables = s.tables := by have := h s; rwa [e] at this

theorem leavesTables_pure {α : Type} (a : α) : LeavesTables (pure a : Eng α) := fun _ => rfl

theorem leavesTables_get : LeavesTables (get : Eng State) := fun _ => rfl

theorem leavesTables_raise {α : Type} (k : ErrKind) (i : Nat) : LeavesTables (raise k i : Eng α) := fun _ => rfl

theorem leavesTables_modify {f : State → State} (h : ∀ s, (f s).tables = s.tables) :
    LeavesTables (modify f : Eng Unit) := h

theorem leavesTables_bind {α β : Type} {x : Eng α} {f : α → Eng β} (hx : LeavesTables x)
    (hf : ∀ a, LeavesTables (f a)) : LeavesTables (x >>= f) := by
  intro s
  rw [eng_bind]
  cases e : x s with
  | error r t => exact hx.error e
  | ok a t =>
    have ht := hx.ok e
    cases e' : f a t with
    | ok b u => simpa only [e'] using ((hf a).ok e').trans ht
    | error r u => simpa only [e'] using ((hf a).error e').trans ht

theorem leavesTables_ite {α : Type} {p : Prop} [Decidable p] {x y : Eng α} (hx : LeavesTables x)
    (hy : LeavesTables y) : LeavesTables (if p then x else y) := by
  split_ifs
  · exact hx
  · exact hy

theorem leavesTables_forFrom {body : Nat → Eng Unit} (h : ∀ i, LeavesTables (body i)) :
    ∀ n i, LeavesTables (forFrom body i n)
  | 0, _ => leavesTables_pure ()
  | n + 1, i => leavesTables_bind (h i) fun _ => leavesTables_forFrom h n (i + 1)

theorem tables_drawn (s : State) (a : Nat) : (drawn s a).tables = s.tables := by
  obtain ⟨d, -, hd⟩ := drawn_eq s a
  rw [hd]
  rfl

theorem leavesTables_inByte (i : Nat) : LeavesTables (inByte i) := by
  intro s
  rw [inByte_run]
  split_ifs
  · exact tables_drawn s _
  · exact tables_drawn s _

theorem leavesTables_outByte (v : Byte) : LeavesTables (outByte v) := by
  intro s
  rw [outByte_run]
  split_ifs
  · rfl
  · exact tables_drawn s _
  · exact tables_drawn s _

theorem leavesTables_outBytes : ∀ bs, LeavesTables (outBytes bs)
  | [] => leavesTables_pure ()
  | b :: rest => leavesTables_bind (leavesTables_outByte b) fun _ => leavesTables_outBytes rest

theorem huff_of_tables {s t : State} (h : t.tables = s.tables) : t.huff = s.huff := congrArg Prod.fst h

/-- The bytes of a pair of the header (R111). -/
def pairBytes (p : Byte × Word) : List Byte := p.1 :: leBytes p.2.toNat 4

theorem headerBytes_eq (pairs : List (Byte × Word)) (T : Nat) :
    headerBytes pairs T = leBytes pairs.length 4 ++ pairs.flatMap pairBytes ++ leBytes T 8 := rfl

/-- R201: the pairs of the ranks from i on are one byte string. -/
theorem forFrom_putPair (i n : Nat) (s : State) :
    forFrom putPair i n s
      = outBytes ((List.range' i n).flatMap fun j =>
          pairBytes (orderAt s.huff j, tget s.huff.freq (orderAt s.huff j))) s := by
  induction n generalizing i s with
  | zero => rfl
  | succ n ih =>
    have hpair : putPair i s = outBytes (pairBytes (orderAt s.huff i, tget s.huff.freq (orderAt s.huff i))) s := rfl
    rw [forFrom_succ, hpair, List.range'_succ, List.flatMap_cons, outBytes_append, eng_bind]
    cases e : outBytes (pairBytes (orderAt s.huff i, tget s.huff.freq (orderAt s.huff i))) s with
    | error r t => rfl
    | ok _ t =>
      have hhuff := huff_of_tables ((leavesTables_outBytes _).ok e)
      exact (ih (i + 1) t).trans (by rw [hhuff])

/-- R201: SerializeHeader writes the header as one byte string. -/
theorem serializeHeader_eq (T : BitVec 64) (s : State) :
    serializeHeader T s = outBytes (headerBytes (headerPairs s.huff) T.toNat) s := by
  have hcount : (headerPairs s.huff).length = s.huff.u := by simp [headerPairs]
  have hput : put32 (BitVec.ofNat 32 s.huff.u) = outBytes (leBytes s.huff.u 4) := by
    rw [put32, BitVec.toNat_ofNat]
    exact congrArg outBytes (leBytes_mod s.huff.u 4)
  have hpairs (t : State) (ht : t.huff = s.huff) :
      forRange s.huff.u putPair t = outBytes ((headerPairs s.huff).flatMap pairBytes) t := by
    rw [forRange, forFrom_putPair, ← List.range_eq_range', headerPairs, List.flatMap_map, ht]
  rw [headerBytes_eq, hcount, outBytes_append, eng_bind, outBytes_append, eng_bind, serializeHeader, eng_bind,
    eng_get]
  simp only [eng_bind, hput]
  cases e : outBytes (leBytes s.huff.u 4) s with
  | error r t => rfl
  | ok _ t =>
    simp only [hpairs t (huff_of_tables ((leavesTables_outBytes _).ok e))]
    rfl

/-! Fields of the input (R109) -/

/-- A stretch of the input, by its offset. -/
theorem readBytes_of_input {s : State} {xs ys zs : List Byte} (h : s.input = xs ++ (ys ++ zs)) :
    Memory.readBytes s.mem (inAddr s xs.length) ys.length = ys := by
  have hlen : s.regs.inLen.toNat = xs.length + (ys.length + zs.length) := by
    rw [← length_input, h, List.length_append, List.length_append]
  rw [State.input, hlen, readBytes_append, readBytes_append] at h
  have h' := (List.append_inj h (Memory.length_readBytes _ _ _)).2
  exact (List.append_inj h' (Memory.length_readBytes _ _ _)).1

theorem read_of_input {s : State} {xs zs : List Byte} {b : Byte} (h : s.input = xs ++ (b :: zs)) :
    Memory.read s.mem (inAddr s xs.length) = b :=
  (List.cons_eq_cons.mp (readBytes_of_input (ys := [b]) h)).1

theorem inWord_of_input {s : State} {xs zs : List Byte} {v : Nat} (h : s.input = xs ++ (leBytes v 4 ++ zs)) :
    s.inWord xs.length = BitVec.ofNat 32 v := by
  have hread := readBytes_of_input h
  rw [length_leBytes] at hread
  rw [State.inWord, hread, leValue_leBytes]
  exact BitVec.eq_of_toNat_eq (by simp)

theorem inDouble_of_input {s : State} {xs zs : List Byte} {v : Nat} (h : s.input = xs ++ (leBytes v 8 ++ zs)) :
    s.inDouble xs.length = BitVec.ofNat 64 v := by
  have hread := readBytes_of_input h
  rw [length_leBytes] at hread
  rw [State.inDouble, hread, leValue_leBytes]
  exact BitVec.eq_of_toNat_eq (by simp)

/-! The header as input (R111) -/

theorem length_flatMap_pairBytes (pairs : List (Byte × Word)) :
    (pairs.flatMap pairBytes).length = 5 * pairs.length := by
  induction pairs with
  | nil => rfl
  | cons p rest ih =>
    rw [List.flatMap_cons, List.length_append, ih, pairBytes, List.length_cons, length_leBytes, List.length_cons]
    omega

theorem length_headerBytes (pairs : List (Byte × Word)) (T : Nat) :
    (headerBytes pairs T).length = 12 + 5 * pairs.length := by
  rw [headerBytes_eq, List.length_append, List.length_append, length_leBytes, length_leBytes,
    length_flatMap_pairBytes]
  omega

section
variable {r : State} {pairs : List (Byte × Word)} {T : Nat} {rest : List Byte}

theorem inWord_zero_of_header (h : r.input = headerBytes pairs T ++ rest) :
    r.inWord 0 = BitVec.ofNat 32 pairs.length := by
  refine inWord_of_input (xs := []) (zs := pairs.flatMap pairBytes ++ (leBytes T 8 ++ rest)) ?_
  rw [h, headerBytes_eq]
  simp only [List.append_assoc, List.nil_append]

/-- R111: the byte value and the frequency of pair j stand at 4 + 5j and 5 + 5j. -/
theorem pair_of_header (h : r.input = headerBytes pairs T ++ rest) {j : Nat} (hj : j < pairs.length) :
    (r.pairSym j, r.pairFreq j) = pairs[j] := by
  have hsplit : pairs.flatMap pairBytes
      = (pairs.take j).flatMap pairBytes
        ++ (pairs[j].1 :: (leBytes pairs[j].2.toNat 4 ++ (pairs.drop (j + 1)).flatMap pairBytes)) := by
    rw [← List.cons_append, ← pairBytes, ← List.flatMap_cons, ← List.drop_eq_getElem_cons hj, ← List.flatMap_append,
      List.take_append_drop]
  have hlen : (leBytes pairs.length 4 ++ (pairs.take j).flatMap pairBytes).length = 4 + 5 * j := by
    rw [List.length_append, length_leBytes, length_flatMap_pairBytes, List.length_take_of_le hj.le]
  have hsym := read_of_input (s := r) (xs := leBytes pairs.length 4 ++ (pairs.take j).flatMap pairBytes)
    (b := pairs[j].1) (zs := leBytes pairs[j].2.toNat 4
      ++ ((pairs.drop (j + 1)).flatMap pairBytes ++ (leBytes T 8 ++ rest))) (by
      rw [h, headerBytes_eq, hsplit]
      simp only [List.append_assoc, List.cons_append])
  have hfreq := inWord_of_input (s := r)
    (xs := leBytes pairs.length 4 ++ (pairs.take j).flatMap pairBytes ++ [pairs[j].1]) (v := pairs[j].2.toNat)
    (zs := (pairs.drop (j + 1)).flatMap pairBytes ++ (leBytes T 8 ++ rest)) (by
      rw [h, headerBytes_eq, hsplit]
      simp only [List.append_assoc, List.cons_append, List.nil_append])
  rw [hlen] at hsym
  rw [List.length_append, hlen, List.length_singleton, BitVec.ofNat_toNat, BitVec.setWidth_eq] at hfreq
  refine Prod.ext hsym ?_
  rw [← hfreq, State.pairFreq, show 5 + 5 * j = 4 + 5 * j + 1 by omega]

theorem inDouble_of_header (h : r.input = headerBytes pairs T ++ rest) :
    r.inDouble (4 + 5 * pairs.length) = BitVec.ofNat 64 T := by
  have hlen : (leBytes pairs.length 4 ++ pairs.flatMap pairBytes).length = 4 + 5 * pairs.length := by
    rw [List.length_append, length_leBytes, length_flatMap_pairBytes]
  rw [← hlen]
  refine inDouble_of_input (zs := rest) ?_
  rw [h, headerBytes_eq]
  simp only [List.append_assoc]

/-- R170: bit t of the code stream after the header. -/
theorem streamBit_of_header {bits : List Bool} (h : r.input = headerBytes pairs T ++ packedBytes bits) {t : Nat}
    (ht : t < bits.length) : streamBit r (12 + 5 * pairs.length) t = bits[t] := by
  have hm : t / 8 < (packedBytes bits).length := by
    rw [packedBytes_eq, List.length_map, List.length_range]
    omega
  have hbyte : (packedBytes bits)[t / 8] = packedByte bits (t / 8) := by
    simp only [packedBytes_eq, List.getElem_map, List.getElem_range]
  have hread := read_of_input (s := r) (xs := headerBytes pairs T ++ (packedBytes bits).take (t / 8))
    (b := packedByte bits (t / 8)) (zs := (packedBytes bits).drop (t / 8 + 1)) (by
      rw [h, List.append_assoc, ← hbyte, ← List.drop_eq_getElem_cons hm, List.take_append_drop])
  rw [List.length_append, length_headerBytes, List.length_take_of_le hm.le] at hread
  rw [streamBit, hread, getLsbD_packedByte _ _ (by omega), show 8 * (t / 8) + (7 - (7 - t % 8)) = t by omega,
    List.getD_eq_getElem _ _ ht]

end

end Sys2Proof.Machine

/-! PROOFS. The family of 42_huffman.md, HUFF_COMPRESS with no bus error (R202): the tables it makes, and the file it
writes when the file fits. -/

namespace Sys2Proof.Machine

/-- The next statement after one that returned. -/
theorem bind_ok {α β : Type} {x : Eng α} {f : α → Eng β} {s t : State} {a : α} (h : x s = .ok a t) :
    (x >>= f) s = f a t := by
  rw [eng_bind, h]

/-! An instruction's result taken back to its operation -/

/-- R307: an operation whose state after it shows no error has returned. -/
theorem ok_of_runOp {op : Eng Unit} {s t : State} (h : runOp op (fun _ => .none) s = .next t)
    (herr : t.regs.error = false) : ∃ u, op s = .ok () u ∧ t = { u with ret := .none } := by
  rw [runOp] at h
  cases e : op s with
  | ok a u =>
    rw [e] at h
    cases h
    exact ⟨u, rfl, rfl⟩
  | error k u =>
    rw [e] at h
    cases h
    cases herr

/-- What packing has done does not show what the last operation returned. -/
theorem State.Packed.of_ret {s t : State} {bits : List Bool} {r : Ret} (h : s.Packed bits { t with ret := r }) :
    s.Packed bits t := by
  obtain ⟨m, d, r', ht, hm⟩ := h
  exact ⟨m, d, t.ret, congrArg (fun u : State => { u with ret := t.ret }) ht, hm⟩

/-- Reading input moves the read cursor and the draws only. -/
theorem State.Packed.read {s t : State} {bits : List Bool} {c : Cursors} (h : { s with cur := c }.Packed bits t)
    (c' : Cursors) (d' : Nat) : { s with cur := c' }.Packed bits { t with cur := c', draws := d' } := by
  obtain ⟨m, d, r, rfl, hm⟩ := h
  exact ⟨m, d', r, rfl, hm⟩

theorem packBit_packed {s t : State} {bits : List Bool} (b : Bool) (hbus : s.NoBusError)
    (herr : s.regs.error = false) (hroom : s.Room (fullBytes (bits ++ [b])).length) (ht : s.Packed bits t) :
    ∃ u, packBit b t = .ok () u ∧ s.Packed (bits ++ [b]) u := by
  obtain ⟨t', hexec, ht'⟩ := exec_packBit_packed b hbus hroom ht
  have herr' : t'.regs.error = false := by
    obtain ⟨m, d, r, rfl, -⟩ := ht'
    exact herr
  obtain ⟨u, hu, rfl⟩ := ok_of_runOp (op := packBit b) hexec herr'
  exact ⟨u, hu, ht'.of_ret⟩

theorem packFlush_packed {s t : State} {bits : List Bool} (hbus : s.NoBusError) (herr : s.regs.error = false)
    (hroom : s.Room ((bits.length + 7) / 8)) (ht : s.Packed bits t) :
    ∃ m d r, packFlush t
        = .ok () (s.packing m d ((bits.length + 7) / 8) ⟨0#8, 0#3, s.pack.nbits + bits.length⟩ r)
      ∧ s.Appends m (packedBytes bits) := by
  obtain ⟨m, d, hexec, hm⟩ := exec_packFlush_packed hbus hroom ht
  obtain ⟨u, hu, he⟩ := ok_of_runOp (op := packFlush) hexec herr
  exact ⟨m, d, u.ret, hu.trans (congrArg _ (congrArg (fun v : State => { v with ret := u.ret }) he.symm)), hm⟩

/-! Codes and the total (R200) -/

@[simp] theorem length_codeOf (h : Huff) (b : Byte) : (codeOf h b).length = (tget h.codeLen b).toNat := by
  simp [codeOf]

/-- All byte values, each once. -/
def allBytes : List Byte := (List.range 256).map (BitVec.ofNat 8)

theorem nodup_allBytes : allBytes.Nodup :=
  List.nodup_range.map_on fun _ hi _ hj e => ofNat_eight_inj (List.mem_range.mp hi) (List.mem_range.mp hj) e

theorem mem_allBytes (b : Byte) : b ∈ allBytes :=
  List.mem_map.mpr ⟨b.toNat, List.mem_range.mpr b.isLt, by simp⟩

/-- A sum over a byte string, grouped by byte value. -/
theorem sum_map_eq_sum_count (f : Byte → Nat) (bs : List Byte) :
    (bs.map f).sum = (allBytes.map fun b => bs.count b * f b).sum := by
  rw [Finset.sum_list_map_count, ← List.sum_toFinset _ nodup_allBytes]
  refine Finset.sum_subset (fun b _ => List.mem_toFinset.mpr (mem_allBytes b)) fun b _ hb => ?_
  rw [List.count_eq_zero_of_not_mem fun h => hb (List.mem_toFinset.mpr h), zero_smul]

/-- R200: T is the length of the code stream of the input that was counted. -/
theorem length_codes_eq_bitCount {h : Huff} {bs : List Byte} (hf : ∀ b, (tget h.freq b).toNat = bs.count b) :
    (bs.flatMap (codeOf h)).length = bitCount h := by
  rw [List.length_flatMap, sum_map_eq_sum_count, allBytes, List.map_map, bitCount_eq]
  congr 1
  exact List.map_congr_left fun b _ => by simp only [Function.comp, hf, length_codeOf]

/-- R53: a code has at most 255 bits. -/
theorem length_codes_le (h : Huff) (bs : List Byte) : (bs.flatMap (codeOf h)).length ≤ 255 * bs.length := by
  rw [List.length_flatMap]
  refine (List.sum_le_card_nsmul _ 255 fun x hx => ?_).trans (by simp [Nat.mul_comm])
  obtain ⟨b, -, rfl⟩ := List.mem_map.mp hx
  have := (tget h.codeLen b).isLt
  simp only [length_codeOf]
  omega

/-- Ending a step of a command changes the phase only. -/
theorem State.Packed.phase {s t : State} {bits : List Bool} (h : s.Packed bits t) (p : Phase) :
    { s with phase := p }.Packed bits { t with phase := p } := by
  obtain ⟨m, d, r, rfl, hm⟩ := h
  exact ⟨m, d, r, rfl, hm⟩

/-! The second pass (R202, R203) -/

section
variable {s t : State} {bits : List Bool}

/-- R142: no output byte lies in the input region. -/
theorem inAddr_not_in_output (hreg : s.regs.RegionsOk) {n i : Nat} (hroom : s.Room n) (hi : i < s.regs.inLen.toNat) :
    ¬(outAddr s ≤ inAddr s i ∧ inAddr s i < outAddr s + n) := by
  obtain ⟨-, -, hov⟩ := hreg
  obtain ⟨hcap, -⟩ := hroom
  have hnot := (overlap_iff s.regs).not.mp (by rw [hov]; decide)
  simp only [inAddr, outAddr]
  omega

/-- So the input reads the same while output is written. -/
theorem read_input_of_appends (hreg : s.regs.RegionsOk) {m : List Host.Cell} {bs : List Byte}
    (hroom : s.Room bs.length) (hm : s.Appends m bs) {i : Nat} (hi : i < s.regs.inLen.toNat) :
    Memory.read m (inAddr s i) = Memory.read s.mem (inAddr s i) :=
  hm.2 _ (inAddr_not_in_output hreg hroom hi)

/-- R202: the code of a byte value, bit by bit. -/
theorem packCode_packed (hbus : s.NoBusError) (herr : s.regs.error = false) (b : Byte)
    (hroom : s.Room (fullBytes (bits ++ codeOf s.huff b)).length) (ht : s.Packed bits t) :
    ∃ u, forRange (tget s.huff.codeLen b).toNat (packCodeBit b) t = .ok () u
      ∧ s.Packed (bits ++ codeOf s.huff b) u := by
  have hrun := forRange_ok (packCodeBit b) (fun k u => s.Packed (bits ++ (codeOf s.huff b).take k) u)
    (tget s.huff.codeLen b).toNat t (by simpa using ht) fun k u hk hu => by
      have hk' : k < (codeOf s.huff b).length := by rwa [length_codeOf]
      have hhuff : u.huff = s.huff := by
        obtain ⟨m, d, r, rfl, -⟩ := hu
        rfl
      have hbit : (codeOf s.huff b)[k] = (tget s.huff.codeBits b).getLsbD k := by simp [codeOf]
      have hstep : packCodeBit b k u = packBit (codeOf s.huff b)[k] u := by
        simp only [packCodeBit, eng_bind, eng_get, hhuff, hbit]
      rw [hstep, List.take_succ_eq_append_getElem hk', ← List.append_assoc]
      refine packBit_packed _ hbus herr (hroom.of_le ?_) hu
      simp only [length_fullBytes, List.length_append, List.length_take, List.length_singleton]
      omega
  rwa [← length_codeOf, List.take_length, length_codeOf] at hrun

/-- R202, R203: one input byte of the second pass. -/
theorem encodeInput_packed {c : Cursors} {T : BitVec 64} {i : Nat} {b : Byte} (hreg : s.regs.RegionsOk)
    (hbus : s.NoBusError) (herr : s.regs.error = false) (hi : i < s.regs.inLen.toNat)
    (hb : Memory.read s.mem (inAddr s i) = b) (hcode : 1 ≤ (codeOf s.huff b).length)
    (hT : s.pack.nbits + (bits ++ codeOf s.huff b).length ≤ T.toNat)
    (hroom : s.Room (fullBytes (bits ++ codeOf s.huff b)).length) (ht : { s with cur := c }.Packed bits t) :
    ∃ c' u, encodeInput T i t = .ok () u ∧ { s with cur := c' }.Packed (bits ++ codeOf s.huff b) u := by
  obtain ⟨m, d, r, rfl, hm⟩ := id ht
  rw [List.length_append] at hT
  have hcode' : 1 ≤ (tget s.huff.codeLen b).toNat := by rwa [← length_codeOf]
  have hroom' : s.Room (fullBytes bits).length := hroom.of_le (by
    simp only [length_fullBytes, List.length_append]
    omega)
  have haddr : inAddr s i < 2 ^ 32 := by
    have := hreg.1
    simp only [inAddr]
    omega
  obtain ⟨c', d', hread, -⟩ := get8_ok i (hbus.of_cfg rfl) haddr
    (s := { s with cur := c }.packing m d (fullBytes bits).length (packerAfter s.pack.nbits bits) r)
  have hbyte : Memory.read m (inAddr s i) = b := (read_input_of_appends hreg hroom' hm hi).trans hb
  have hread' : inByte i ({ s with cur := c }.packing m d (fullBytes bits).length (packerAfter s.pack.nbits bits) r)
      = .ok b { { s with cur := c }.packing m d (fullBytes bits).length (packerAfter s.pack.nbits bits) r with
          cur := c', draws := d' } := by
    rw [← hbyte]
    exact hread
  obtain ⟨u, hu, hpacked⟩ := packCode_packed (s := { s with cur := c' }) (hbus.of_cfg rfl) herr b hroom
    (ht.read c' d')
  refine ⟨c', u, ?_, hpacked⟩
  have hcheck : ¬(tget s.huff.codeLen b = 0#8
      ∨ T.toNat < s.pack.nbits + bits.length + (tget s.huff.codeLen b).toNat) := by
    rw [length_codeOf] at hT
    rintro (h0 | hlt)
    · rw [h0] at hcode'
      exact absurd hcode' (by decide)
    · omega
  have hpass : checkPass2 T i b
      { { s with cur := c }.packing m d (fullBytes bits).length (packerAfter s.pack.nbits bits) r with
          cur := c', draws := d' }
      = .ok () { { s with cur := c }.packing m d (fullBytes bits).length (packerAfter s.pack.nbits bits) r with
          cur := c', draws := d' } := by
    rw [checkPass2, eng_bind, eng_get]
    exact congrFun (if_neg hcheck) _
  rw [encodeInput, eng_bind, hread']
  simp only [eng_bind, hpass, eng_get]
  exact hu

/-- R202, R203: the second pass packs the codes of the input. -/
theorem encodePass_packed {T : BitVec 64} (hreg : s.regs.RegionsOk) (hbus : s.NoBusError)
    (herr : s.regs.error = false) (hpack : s.pack = Packer.cleared)
    (hcode : ∀ b ∈ s.input, 1 ≤ (codeOf s.huff b).length)
    (hT : T.toNat = (s.input.flatMap (codeOf s.huff)).length) (hroom : s.Room ((T.toNat + 7) / 8)) :
    ∃ c u, forRange s.regs.inLen.toNat (encodeInput T) s = .ok () u
      ∧ { s with cur := c }.Packed (s.input.flatMap (codeOf s.huff)) u := by
  have hle : ∀ k, ((s.input.take k).flatMap (codeOf s.huff)).length ≤ T.toNat := fun k => by
    rw [hT, ← List.take_append_drop k s.input, List.flatMap_append, List.length_append, List.take_append_drop]
    exact Nat.le_add_right _ _
  obtain ⟨u, hrun, c, hu⟩ := forRange_ok (encodeInput T)
    (fun k u => ∃ c, { s with cur := c }.Packed ((s.input.take k).flatMap (codeOf s.huff)) u) s.regs.inLen.toNat s
    ⟨s.cur, packed_nil (by rw [hpack]; rfl) (by rw [hpack]; rfl)⟩ fun i t hi ht => by
      obtain ⟨c, ht⟩ := ht
      have hmem : Memory.read s.mem (inAddr s i) ∈ s.input := by
        rw [← getElem_input s i (by simpa using hi)]
        exact List.getElem_mem _
      have hle' := hle (i + 1)
      rw [take_input_succ s hi, List.flatMap_append, List.flatMap_singleton] at hle' ⊢
      obtain ⟨c', u, hu, hpacked⟩ := encodeInput_packed hreg hbus herr hi rfl (hcode _ hmem)
        (by rw [hpack]; simpa [Packer.cleared] using hle') (hroom.of_le (by rw [length_fullBytes]; omega)) ht
      exact ⟨u, hu, c', hpacked⟩
  rw [← length_input, List.take_length] at hu
  exact ⟨c, u, hrun, hu⟩

end

/-! The file -/

/-- HUFF_COMPRESS from the second pass on (R202). -/
def writeCodes (T : BitVec 64) : Eng Unit := do
  setPhase .hEncode
  startPass true
  let s ← get
  forRange s.regs.inLen.toNat (encodeInput T)
  checkPass2End T
  setPhase .hFlush
  packFlush

/-- HUFF_COMPRESS from the header on (R202). -/
def writeFile (T : BitVec 64) : Eng Unit := do
  serializeHeader T
  writeCodes T

/-- R202, R203: with room and no bus error the code stream of the input is written. -/
theorem writeCodes_ok {s : State} {T : BitVec 64} (hreg : s.regs.RegionsOk) (hbus : s.NoBusError)
    (herr : s.regs.error = false) (hpack : s.pack = Packer.cleared)
    (hcode : ∀ b ∈ s.input, 1 ≤ (codeOf s.huff b).length)
    (hT : T.toNat = (s.input.flatMap (codeOf s.huff)).length) (hroom : s.Room ((T.toNat + 7) / 8)) :
    ∃ m d c p r, writeCodes T s
        = .ok () { s.afterOut m d ((T.toNat + 7) / 8) with phase := .hFlush, cur := c, pack := p, ret := r }
      ∧ s.Appends m (packedBytes (s.input.flatMap (codeOf s.huff))) := by
  obtain ⟨c, u, hpass, hu⟩ := encodePass_packed (T := T)
    (s := { s with phase := .hEncode, cur := { s.cur with pass := true, inPos := 0 } }) hreg (hbus.of_cfg rfl) herr
    hpack hcode hT hroom
  have hend : checkPass2End T u = .ok () u := by
    have hbits : u.pack.nbits = T.toNat := by
      obtain ⟨m, d, r, rfl, -⟩ := hu
      show s.pack.nbits + _ = _
      rw [hpack, hT]
      exact Nat.zero_add _
    simp only [checkPass2End, eng_bind, eng_get, hbits, ne_eq, not_true_eq_false, if_false, eng_pure]
  rw [hT] at hroom ⊢
  obtain ⟨m, d, r, hflush, hm⟩ := packFlush_packed (s := { s with phase := .hFlush, cur := c }) (hbus.of_cfg rfl) herr
    hroom (hu.phase .hFlush)
  refine ⟨m, d, c, ⟨0#8, 0#3, s.pack.nbits + (s.input.flatMap (codeOf s.huff)).length⟩, r, ?_, hm⟩
  rw [writeCodes]
  refine (bind_ok (eng_setPhase _ _)).trans <| (bind_ok (eng_modify _ _)).trans <| (bind_ok (eng_get _)).trans <|
    (bind_ok hpass).trans <| (bind_ok hend).trans <| (bind_ok (eng_setPhase _ _)).trans ?_
  exact hflush

/-- R111, R202: the Huffman file of the byte string bs with the tables of h. -/
def huffFile (h : Huff) (bs : List Byte) : List Byte :=
  headerBytes (headerPairs h) (bs.flatMap (codeOf h)).length ++ packedBytes (bs.flatMap (codeOf h))

theorem length_packedBytes (bits : List Bool) : (packedBytes bits).length = (bits.length + 7) / 8 := by
  rw [packedBytes_eq, List.length_map, List.length_range]

@[simp] theorem length_headerPairs (h : Huff) : (headerPairs h).length = h.u := by simp [headerPairs]

theorem length_huffFile (h : Huff) (bs : List Byte) :
    (huffFile h bs).length = 12 + 5 * h.u + ((bs.flatMap (codeOf h)).length + 7) / 8 := by
  rw [huffFile, List.length_append, length_headerBytes, length_packedBytes, length_headerPairs]

/-- R201, R202: with room for the file and no bus error it is written. -/
theorem writeFile_ok {s : State} {T : BitVec 64} (hreg : s.regs.RegionsOk) (hbus : s.NoBusError)
    (herr : s.regs.error = false) (hpack : s.pack = Packer.cleared)
    (hcode : ∀ b ∈ s.input, 1 ≤ (codeOf s.huff b).length)
    (hT : T.toNat = (s.input.flatMap (codeOf s.huff)).length) (hroom : s.Room (huffFile s.huff s.input).length) :
    ∃ m d c p r, writeFile T s
        = .ok () { s.afterOut m d (huffFile s.huff s.input).length with
            phase := .hFlush, cur := c, pack := p, ret := r }
      ∧ s.Appends m (huffFile s.huff s.input) := by
  have hhead : (headerBytes (headerPairs s.huff) T.toNat).length = 12 + 5 * s.huff.u := by
    rw [length_headerBytes, length_headerPairs]
  have hlen : (huffFile s.huff s.input).length
      = (headerBytes (headerPairs s.huff) T.toNat).length + (T.toNat + 7) / 8 := by
    rw [length_huffFile, hhead, hT]
  rw [hlen] at hroom ⊢
  obtain ⟨m1, d1, hwrite, hm1⟩ := outBytes_ok (headerBytes (headerPairs s.huff) T.toNat) hbus
    (hroom.of_le (Nat.le_add_right _ _))
  have hinput : (s.afterOut m1 d1 (headerBytes (headerPairs s.huff) T.toNat).length).input = s.input := by
    refine readBytes_congr fun x hx1 hx2 => ?_
    obtain ⟨i, rfl⟩ := Nat.exists_eq_add_of_le hx1
    exact read_input_of_appends hreg (hroom.of_le (Nat.le_add_right _ _)) hm1 (Nat.lt_of_add_lt_add_left hx2)
  obtain ⟨m, d, c, p, r, hcodes, hm⟩ := writeCodes_ok (T := T)
    (s := s.afterOut m1 d1 (headerBytes (headerPairs s.huff) T.toNat).length) hreg (hbus.of_cfg rfl) herr hpack
    (by rw [hinput]; exact hcode) (by rw [hinput]; exact hT) (hroom.after m1 d1)
  rw [hinput] at hm
  refine ⟨m, d, c, p, r, ?_, ?_⟩
  · rw [writeFile]
    refine (bind_ok ((serializeHeader_eq _ _).trans hwrite)).trans (hcodes.trans ?_)
    rw [afterOut_afterOut]
  · rw [huffFile, ← hT]
    refine appends_append hm1 (d := d1) ?_ hm
    have := s.regs.outCap.isLt
    have := hroom.1
    omega

/-! HUFF_COMPRESS up to the file (R202) -/

/-- HUFF after the tables of HUFF_COMPRESS are made (R190, R194, R197). -/
def codedHuff (bs : List Byte) (h : Huff) : Huff := encodingTable (builtTree (countedBytes bs h))

/-- R202: with no bus error and every frequency in range, HUFF_COMPRESS makes its tables and then the file. -/
theorem huffCompress_tables {s : State} (hbus : s.NoBusError)
    (hin : s.regs.inBase.toNat + s.regs.inLen.toNat ≤ 2 ^ 32)
    (hfreq : frequencyTooLarge (countedBytes s.input s.huff) = false) :
    ∃ c d, huffCompress s
      = writeFile (BitVec.ofNat 64 (bitCount (codedHuff s.input s.huff)))
          (setHuffBits (BitVec.ofNat 64 (bitCount (codedHuff s.input s.huff))) { s with
            phase := .hHeader, huff := codedHuff s.input s.huff, cur := c, draws := d
            regs := { s.regs with huffUnique := BitVec.ofNat 9 (countedBytes s.input s.huff).u } }) := by
  obtain ⟨c, d, hcount, -⟩ := buildFrequencyTable_ok
    (s := { s with phase := .hCount, cur := { s.cur with pass := false, inPos := 0 } }) (hbus.of_cfg rfl) hin
  have hcheck (t : State) (ht : t.huff = countedBytes s.input s.huff) : checkFrequencyRange t = .ok () t := by
    rw [checkFrequencyRange_run, ht, hfreq]
    rfl
  refine ⟨c, d, ?_⟩
  rw [huffCompress]
  refine (bind_ok (eng_setPhase _ _)).trans <| (bind_ok (eng_modify _ _)).trans <| (bind_ok hcount).trans <|
    (bind_ok (hcheck _ rfl)).trans <| (bind_ok (eng_setPhase _ _)).trans <| (bind_ok (buildTree_run _)).trans <|
    (bind_ok (eng_setPhase _ _)).trans <| (bind_ok (buildEncodingTable_run _)).trans <|
    (bind_ok (totalBits_run _)).trans <| (bind_ok (eng_setPhase _ _)).trans ?_
  rfl

end Sys2Proof.Machine

/-! PROOFS. The family of 42_huffman.md, the decoder with no bus error (R208, R209): the walk over the paths of a tree,
and the one-symbol stream. -/

namespace Sys2Proof.Machine

section
variable {s : State} {S t k : Nat}

/-- R174: one bit of the code stream. -/
theorem unpackBit_ok (hbus : s.NoBusError) (ha : inAddr s (S + t / 8) < 2 ^ 32) :
    ∃ c d, unpackBit S t s = .ok (streamBit s S t) { s with cur := c, draws := d } ∧ c.pass = s.cur.pass := by
  obtain ⟨c, d, hread, -, hpass⟩ := get8_ok (S + t / 8) hbus ha
  rw [get8] at hread
  exact ⟨{ c with bitPos := t + 1 }, d, (bind_ok hread).trans ((bind_ok (eng_modify _ _)).trans rfl), hpass⟩

/-- R208: one bit of the walk, at an internal node. -/
theorem walk_step {n l r w : Nat} {b : Bool} {c : Cursors} {d : Nat} (hnode : nodeAt s.huff n = .internal l r w)
    (hread : unpackBit S t s = .ok b { s with cur := c, draws := d }) :
    walk S t (k + 1) n s = match nodeAt s.huff (if b then r else l) with
      | .leaf sym _ => (outByte sym >>= fun _ => walk S (t + 1) k s.huff.root) { s with cur := c, draws := d }
      | .internal _ _ _ => walk S (t + 1) k (if b then r else l) { s with cur := c, draws := d } := by
  have hchild : child s.huff n b = if b then r else l := by rw [child, hnode]
  rw [walk]
  refine (bind_ok hread).trans ((bind_ok (eng_get _)).trans ?_)
  simp only [hchild]
  cases nodeAt s.huff (if b then r else l) <;> rfl

/-- R208: the bits of a path from node n lead the walk to its leaf. -/
theorem walk_path {n : Nat} {p : List Bool} {b : Byte} (hbus : s.NoBusError) (hne : p ≠ [])
    (hleaf : leafAt s.huff n p = some b) (hbits : ∀ i (hi : i < p.length), streamBit s S (t + i) = p[i])
    (hin : ∀ i, i < p.length → inAddr s (S + (t + i) / 8) < 2 ^ 32) :
    ∃ c d, walk S t (p.length + k) n s
        = (outByte b >>= fun _ => walk S (t + p.length) k s.huff.root) { s with cur := c, draws := d }
      ∧ c.pass = s.cur.pass := by
  induction p generalizing n t s with
  | nil => exact absurd rfl hne
  | cons bit p ih =>
    rw [leafAt] at hleaf
    cases hnode : nodeAt s.huff n with
    | leaf sym w => simp [hnode] at hleaf
    | internal l r w =>
      simp only [hnode] at hleaf
      obtain ⟨c, d, hread, hpass⟩ := unpackBit_ok (S := S) (t := t) hbus (hin 0 (Nat.succ_pos _))
      rw [show streamBit s S t = bit from hbits 0 (Nat.succ_pos _)] at hread
      rw [List.length_cons, show p.length + 1 + k = p.length + k + 1 by omega, walk_step hnode hread]
      cases p with
      | nil =>
        rw [leafAt] at hleaf
        cases hchild : nodeAt s.huff (if bit then r else l) with
        | internal l' r' w' => simp [hchild] at hleaf
        | leaf sym w' =>
          simp only [hchild, Option.some.injEq] at hleaf
          rw [← hleaf]
          exact ⟨c, d, by rw [List.length_nil, Nat.zero_add], hpass⟩
      | cons bit' p =>
        cases hchild : nodeAt s.huff (if bit then r else l) with
        | leaf sym w' => simp [leafAt, hchild] at hleaf
        | internal l' r' w' =>
          obtain ⟨c', d', hrest, hpass'⟩ := ih (s := { s with cur := c, draws := d }) (t := t + 1) (hbus.of_cfg rfl)
            (List.cons_ne_nil _ _) hleaf
            (fun i hi => (congrArg (streamBit s S) (by omega)).trans (hbits (i + 1) (Nat.succ_lt_succ hi)))
            fun i hi => by
              have := hin (i + 1) (Nat.succ_lt_succ hi)
              rwa [show t + (i + 1) = t + 1 + i by omega] at this
          refine ⟨c', d', ?_, hpass'.trans hpass⟩
          rw [show t + ((bit' :: p).length + 1) = t + 1 + (bit' :: p).length by omega]
          exact hrest

/-- R75: one more output byte while a stream is decoded. -/
theorem outByte_decoded {m : List Host.Cell} {bs : List Byte} {d : Nat} {c : Cursors} (hbus : s.NoBusError)
    (hroom : s.Room (bs.length + 1)) (hm : s.Appends m bs) (v : Byte) :
    ∃ m' d', outByte v { s.afterOut m d bs.length with cur := c }
        = .ok () { s.afterOut m' d' (bs ++ [v]).length with cur := c }
      ∧ s.Appends m' (bs ++ [v]) := by
  obtain ⟨m', d', hout, hm'⟩ := outBytes_ok [v] (s := { s.afterOut m d bs.length with cur := c }) (hbus.of_cfg rfl)
    (State.Room.after (s := { s with cur := c }) hroom m d)
  have hout' : outByte v { s.afterOut m d bs.length with cur := c }
      = .ok () ({ s.afterOut m d bs.length with cur := c }.afterOut m' d' 1) := by
    rw [outBytes, eng_bind] at hout
    cases e : outByte v { s.afterOut m d bs.length with cur := c } with
    | ok _ u => rw [e] at hout; exact hout
    | error r u => rw [e] at hout; cases hout
  refine ⟨m', d', ?_, appends_append hm (d := d) ?_ hm'⟩
  · rw [hout', List.length_append, List.length_singleton]
    exact congrArg _ (afterOut_afterOut { s with cur := c } m m' d d' bs.length 1)
  · have := s.regs.outCap.isLt
    have := hroom.1
    omega

/-- R142: the code stream reads the same while output is written. -/
theorem streamBit_decoded {m : List Host.Cell} {bs : List Byte} {d : Nat} {c : Cursors} (hreg : s.regs.RegionsOk)
    (hroom : s.Room bs.length) (hm : s.Appends m bs) (hin : S + t / 8 < s.regs.inLen.toNat) :
    streamBit { s.afterOut m d bs.length with cur := c } S t = streamBit s S t :=
  congrArg (BitVec.getLsbD · (7 - t % 8)) (read_input_of_appends hreg hroom hm hin)

/-- R208: from the root the walk writes the leaves of the paths that the code stream is made of. -/
theorem walk_paths {paths : List (List Bool)} {msg bs : List Byte} {m : List Host.Cell} {d : Nat} {c : Cursors}
    (hreg : s.regs.RegionsOk) (hbus : s.NoBusError) (hroot : ∃ l r w, nodeAt s.huff s.huff.root = .internal l r w)
    (hpaths : paths.map (leafAt s.huff s.huff.root) = msg.map some)
    (hbits : ∀ i (hi : i < paths.flatten.length), streamBit s S (t + i) = paths.flatten[i])
    (hin : ∀ i, i < paths.flatten.length → S + (t + i) / 8 < s.regs.inLen.toNat)
    (hroom : s.Room (bs.length + msg.length)) (hm : s.Appends m bs) :
    ∃ m' d' c', walk S t (paths.flatten.length + k) s.huff.root { s.afterOut m d bs.length with cur := c }
        = walk S (t + paths.flatten.length) k s.huff.root { s.afterOut m' d' (bs ++ msg).length with cur := c' }
      ∧ s.Appends m' (bs ++ msg) ∧ c'.pass = c.pass := by
  induction paths generalizing msg bs t m d c with
  | nil =>
    obtain rfl : msg = [] := List.map_eq_nil_iff.mp hpaths.symm
    exact ⟨m, d, c, by simp, by rwa [List.append_nil], rfl⟩
  | cons p paths ih =>
    cases msg with
    | nil => cases hpaths
    | cons b msg =>
      obtain ⟨hleaf, hpaths⟩ := List.cons_eq_cons.mp hpaths
      rw [List.length_cons] at hroom
      have hlen : (p :: paths).flatten.length = p.length + paths.flatten.length := by
        rw [List.flatten_cons, List.length_append]
      have hne : p ≠ [] := by
        rintro rfl
        obtain ⟨l, r, w, hroot⟩ := hroot
        simp [leafAt, hroot] at hleaf
      have haddr : ∀ i, i < p.length → inAddr s (S + (t + i) / 8) < 2 ^ 32 := fun i hi => by
        have := hin i (by omega)
        have := hreg.1
        simp only [inAddr]
        omega
      obtain ⟨c1, d1, hwalk, hpass1⟩ := walk_path (s := { s.afterOut m d bs.length with cur := c }) (S := S) (t := t)
        (k := paths.flatten.length + k) (hbus.of_cfg rfl) hne hleaf (fun i hi => by
          have hi' : i < (p :: paths).flatten.length := by omega
          rw [streamBit_decoded hreg (hroom.of_le (by omega)) hm (hin i hi'), hbits i hi']
          simp only [List.flatten_cons, List.getElem_append_left hi]) haddr
      obtain ⟨m2, d2, hout, hm2⟩ := outByte_decoded (d := d1) (c := c1) hbus (hroom.of_le (by omega)) hm b
      obtain ⟨m3, d3, c3, hrest, hm3, hpass3⟩ := ih (t := t + p.length) (d := d2) (c := c1) hpaths (fun i hi => by
          rw [Nat.add_assoc, hbits (p.length + i) (by omega)]
          simp only [List.flatten_cons]
          rw [List.getElem_append_right (Nat.le_add_right _ _)]
          simp only [Nat.add_sub_cancel_left])
        (fun i hi => by rw [Nat.add_assoc]; exact hin _ (by omega))
        (hroom.of_le (by rw [List.length_append, List.length_singleton]; omega)) hm2
      rw [List.append_assoc, List.singleton_append] at hrest hm3
      refine ⟨m3, d3, c3, ?_, hm3, hpass3.trans hpass1⟩
      rw [hlen, Nat.add_assoc, hwalk, ← Nat.add_assoc, ← hrest]
      exact bind_ok hout

/-- R208: a code stream that is made of paths to leaves. -/
theorem decodeStream_ok {T : BitVec 64} {paths : List (List Bool)} {msg : List Byte} (hreg : s.regs.RegionsOk)
    (hbus : s.NoBusError) (hroot : ∃ l r w, nodeAt s.huff s.huff.root = .internal l r w)
    (hpaths : paths.map (leafAt s.huff s.huff.root) = msg.map some) (hT : T.toNat = paths.flatten.length)
    (hbits : ∀ i (hi : i < paths.flatten.length), streamBit s S i = paths.flatten[i])
    (hin : S + (T.toNat + 7) / 8 ≤ s.regs.inLen.toNat) (hroom : s.Room msg.length) :
    ∃ m d c, decodeStream S T s = .ok () { s.afterOut m d msg.length with cur := c } ∧ s.Appends m msg
      ∧ c.pass = s.cur.pass := by
  obtain ⟨m, d, c, hwalk, hm, hpass⟩ := walk_paths (S := S) (t := 0) (k := 0) (bs := []) (d := s.draws) (c := s.cur)
    hreg hbus hroot hpaths (by simpa using hbits) (fun i hi => by omega) (by simpa using hroom) (appends_nil s)
  refine ⟨m, d, c, ?_, hm, hpass⟩
  rw [List.length_nil, afterOut_zero, Nat.add_zero, ← hT] at hwalk
  rw [decodeStream]
  refine (bind_ok (eng_get _)).trans <| (bind_ok (hwalk.trans (by rw [walk, eng_pure]))).trans <|
    (bind_ok (eng_get _)).trans ?_
  exact congrFun (if_neg (not_not.mpr rfl)) _

/-- R209: a one-symbol stream of bits 0. -/
theorem decodeStream1_ok {T : BitVec 64} (hreg : s.regs.RegionsOk) (hbus : s.NoBusError)
    (hbits : ∀ i, i < T.toNat → streamBit s S i = false) (hin : S + (T.toNat + 7) / 8 ≤ s.regs.inLen.toNat)
    (hroom : s.Room T.toNat) :
    ∃ m d c, decodeStream1 S T s = .ok () { s.afterOut m d T.toNat with cur := c }
      ∧ s.Appends m (List.replicate T.toNat (orderAt s.huff 0)) ∧ c.pass = s.cur.pass := by
  obtain ⟨u, hrun, m, d, c, rfl, hm, hpass⟩ := forRange_ok (decodeBit1 S)
    (fun j u => ∃ m d c, u = { s.afterOut m d (List.replicate j (orderAt s.huff 0)).length with cur := c }
      ∧ s.Appends m (List.replicate j (orderAt s.huff 0)) ∧ c.pass = s.cur.pass) T.toNat s
    ⟨s.mem, s.draws, s.cur, by rw [List.replicate_zero, List.length_nil, afterOut_zero], appends_nil s, rfl⟩
    fun j u hj hu => by
      obtain ⟨m, d, c, rfl, hm, hpass⟩ := hu
      have hpos : S + j / 8 < s.regs.inLen.toNat := by omega
      have hroom1 : s.Room ((List.replicate j (orderAt s.huff 0)).length + 1) :=
        hroom.of_le (by rw [List.length_replicate]; omega)
      obtain ⟨c1, d1, hread, hpass1⟩ := unpackBit_ok (S := S) (t := j)
        (s := { s.afterOut m d (List.replicate j (orderAt s.huff 0)).length with cur := c }) (hbus.of_cfg rfl) (by
          have := hreg.1
          simp only [inAddr, State.afterOut]
          omega)
      rw [streamBit_decoded hreg (hroom1.of_le (Nat.le_succ _)) hm hpos, hbits j hj] at hread
      obtain ⟨m2, d2, hout, hm2⟩ := outByte_decoded (d := d1) (c := c1) hbus hroom1 hm (orderAt s.huff 0)
      rw [← List.replicate_succ'] at hout hm2
      exact ⟨_, (bind_ok hread).trans ((bind_ok (eng_get _)).trans hout), m2, d2, c1, rfl, hm2, hpass1.trans hpass⟩
  rw [List.length_replicate] at hrun
  exact ⟨m, d, c, hrun, hm, hpass⟩

end

end Sys2Proof.Machine

/-! PROOFS. The family of 42_huffman.md, the Huffman round trip (R215): the file that HUFF_COMPRESS writes, parsed and
decoded again. -/

namespace Sys2Proof.Machine

/-! The codes of a byte string (R190 to R199) -/

section
variable {bs : List Byte} {h0 h : Huff}

theorem Counted.queue_eq (hc : Counted h0 bs h) : h.queue = h0.queue := by rw [hc.frame]

/-- The tree and the codes leave the tables of the first pass. -/
theorem coded_frame (hq : h.queue = []) :
    encodingTable (builtTree h) = { h with
      node := (builtTree h).node, nnodes := (builtTree h).nnodes, root := (builtTree h).root
      queue := (builtTree h).queue, codeLen := (encodingTable (builtTree h)).codeLen
      codeBits := (encodingTable (builtTree h)).codeBits } :=
  (encodingTable_frame _).trans (congrArg (fun g : Huff => { g with
    codeLen := (encodingTable (builtTree h)).codeLen, codeBits := (encodingTable (builtTree h)).codeBits })
    (builtTree_merging hq).1.frame)

theorem headerPairs_coded (hq : h.queue = []) : headerPairs (encodingTable (builtTree h)) = headerPairs h := by
  rw [coded_frame hq]
  rfl

theorem freq_coded (hq : h.queue = []) : (encodingTable (builtTree h)).freq = h.freq := by rw [coded_frame hq]

theorem u_coded (hq : h.queue = []) : (encodingTable (builtTree h)).u = h.u := by rw [coded_frame hq]

theorem orderAt_coded (hq : h.queue = []) (j : Nat) : orderAt (encodingTable (builtTree h)) j = orderAt h j := by
  rw [coded_frame hq]
  rfl

theorem firstAppearances_eq_nil : firstAppearances bs = [] ↔ bs = [] := by
  simp only [List.eq_nil_iff_forall_not_mem, mem_firstAppearances]

/-- R190: only the empty string has no ranks. -/
theorem Counted.eq_nil (hc : Counted h0 bs h) (hu : h.u = 0) : bs = [] :=
  firstAppearances_eq_nil.mp (List.eq_nil_of_length_eq_zero (hc.u_eq ▸ hu))

/-- A byte string with a byte has a tree. -/
theorem Counted.isTree (hc : Counted h0 bs h) (hq : h0.queue = []) {b : Byte} (hb : b ∈ bs) :
    IsTree h (builtTree h) := by
  refine builtTree_isTree (hc.queue_eq.trans hq) ?_
  obtain ⟨j, hj, -⟩ := mem_ranked.mp (hc.mem_ranked_iff.mpr hb)
  omega

/-- R199: every byte of the string has a code. -/
theorem Counted.length_code_pos (hc : Counted h0 bs h) (hq : h0.queue = []) {b : Byte} (hb : b ∈ bs) :
    1 ≤ (codeOf (encodingTable (builtTree h)) b).length :=
  ((hc.isTree hq hb).length_codeOf hc.u_le hc.nodup (hc.mem_ranked_iff.mpr hb)).1

theorem Counted.bitCount_eq (hc : Counted h0 bs h) (hq : h0.queue = []) :
    bitCount (encodingTable (builtTree h)) = (bs.flatMap (codeOf (encodingTable (builtTree h)))).length := by
  refine (length_codes_eq_bitCount fun b => ?_).symm
  rw [freq_coded (hc.queue_eq.trans hq), hc.freq]

theorem Counted.frequencyTooLarge_eq (hc : Counted h0 bs h) (hcount : ∀ b, bs.count b ≤ 2 ^ 31 - 1) :
    frequencyTooLarge h = false := by
  refine Bool.eq_false_iff.mpr fun hlarge => ?_
  obtain ⟨b, hb⟩ := (frequencyTooLarge_iff h).mp hlarge
  exact absurd (hc.freq b ▸ hcount b) hb.not_ge

end

/-- HUFF when a command on the input bs has its tables (R59: from cleared state). -/
def commandHuff (bs : List Byte) : Huff := codedHuff bs Huff.cleared

theorem counted_cleared {bs : List Byte} (hlen : bs.length < 2 ^ 32) :
    Counted Huff.cleared bs (countedBytes bs Huff.cleared) := countedBytes_counted rfl rfl rfl hlen

theorem length_input_lt (s : State) : s.input.length < 2 ^ 32 := by
  rw [length_input]
  exact s.regs.inLen.isLt

/-! HUFF_COMPRESS -/

theorem leavesTables_packFlush : LeavesTables packFlush :=
  leavesTables_bind leavesTables_get fun _ =>
    leavesTables_ite (leavesTables_pure ())
      (leavesTables_bind (leavesTables_outByte _) fun _ => leavesTables_modify fun _ => rfl)

theorem leavesTables_packBit (b : Bool) : LeavesTables (packBit b) :=
  leavesTables_bind (leavesTables_modify fun _ => rfl) fun _ =>
    leavesTables_bind leavesTables_get fun _ =>
      leavesTables_ite (leavesTables_bind (leavesTables_outByte _) fun _ => leavesTables_modify fun _ => rfl)
        (leavesTables_modify fun _ => rfl)

theorem leavesTables_encodeInput (T : BitVec 64) (i : Nat) : LeavesTables (encodeInput T i) :=
  leavesTables_bind (leavesTables_inByte i) fun _ =>
    leavesTables_bind (leavesTables_bind leavesTables_get fun _ =>
        leavesTables_ite (leavesTables_raise _ _) (leavesTables_pure _)) fun _ =>
      leavesTables_bind leavesTables_get fun _ =>
        leavesTables_forFrom (fun _ => leavesTables_bind leavesTables_get fun _ => leavesTables_packBit _) _ 0

theorem leavesTables_serializeHeader (T : BitVec 64) : LeavesTables (serializeHeader T) := fun s => by
  rw [serializeHeader_eq]
  exact leavesTables_outBytes _ s

/-- R202: writing the file leaves the tables and the total, whether it fits or not. -/
theorem leavesTables_writeFile (T : BitVec 64) : LeavesTables (writeFile T) :=
  leavesTables_bind (leavesTables_serializeHeader T) fun _ =>
    leavesTables_bind (leavesTables_modify fun _ => rfl) fun _ =>
      leavesTables_bind (leavesTables_modify fun _ => rfl) fun _ =>
        leavesTables_bind leavesTables_get fun _ =>
          leavesTables_bind (leavesTables_forFrom (leavesTables_encodeInput T) _ 0) fun _ =>
            leavesTables_bind (leavesTables_bind leavesTables_get fun _ =>
                leavesTables_ite (leavesTables_raise _ _) (leavesTables_pure _)) fun _ =>
              leavesTables_bind (leavesTables_modify fun _ => rfl) fun _ => leavesTables_packFlush

theorem huffBits_of_tables {s t : State} (h : t.tables = s.tables) : t.regs.huffBits = s.regs.huffBits := by
  have hbits := congrArg (fun x : Huff × Regs => x.2.huffBits) h
  exact hbits

/-- R142: an output region with nothing in it yet has room for OUT_CAP bytes. -/
theorem room_of_outLen_zero {s t : State} {n : Nat} (hreg : s.regs.RegionsOk) (hcap : n ≤ s.regs.outCap.toNat)
    (hlen : t.regs.outLen = 0#32) (hbase : t.regs.outBase = s.regs.outBase) (hcap' : t.regs.outCap = s.regs.outCap) :
    t.Room n := by
  obtain ⟨-, hout, -⟩ := hreg
  constructor
  · rw [hlen, hcap', BitVec.toNat_zero]
    omega
  · rw [hlen, hbase, BitVec.toNat_zero]
    omega

/-- The output of a state that wrote bs from an empty output region on. -/
theorem output_of_appends {s : State} {m : List Host.Cell} {bs : List Byte} (hlen : s.regs.outLen = 0#32)
    (hroom : s.Room bs.length) (hm : s.Appends m bs) {t : State} (hmem : t.mem = m)
    (hbase : t.regs.outBase = s.regs.outBase) (hout : t.regs.outLen = s.regs.outLen + BitVec.ofNat 32 bs.length) :
    t.output = bs ∧ t.regs.outLen.toNat = bs.length := by
  have hcap := hroom.1
  have hlt := s.regs.outCap.isLt
  have hn : t.regs.outLen.toNat = bs.length := by
    rw [hout, hlen, BitVec.zero_add, BitVec.toNat_ofNat]
    omega
  refine ⟨?_, hn⟩
  have haddr : outAddr s = s.regs.outBase.toNat := by rw [outAddr, hlen]; rfl
  rw [State.output, hn, hmem, hbase, ← haddr]
  exact hm.1

/-- A HUFF_COMPRESS command on the input of s when it begins to write the file (R201). -/
def filingState (s : State) (c : Cursors) (d : Nat) : State :=
  setHuffBits (BitVec.ofNat 64 (bitCount (commandHuff s.input))) { launched 1#3 s with
    phase := .hHeader, huff := commandHuff s.input, cur := c, draws := d
    regs := { (launched 1#3 s).regs with huffUnique := BitVec.ofNat 9 (countedBytes s.input Huff.cleared).u } }

@[simp] theorem filingState_huff (s : State) (c : Cursors) (d : Nat) :
    (filingState s c d).huff = commandHuff s.input := rfl

@[simp] theorem filingState_input (s : State) (c : Cursors) (d : Nat) : (filingState s c d).input = s.input := rfl

/-- R200: HUFF_BITS holds T when the file is begun. -/
theorem filingState_huffBits (s : State) (c : Cursors) (d : Nat) :
    (filingState s c d).regs.huffBits = (s.input.flatMap (codeOf (commandHuff s.input))).length := by
  rw [filingState, huffBits_setHuffBits, BitVec.toNat_ofNat, Nat.mod_eq_of_lt (bitCount_lt _)]
  exact (counted_cleared (length_input_lt s)).bitCount_eq rfl

theorem completed_huffBits (t : State) : (completed t).regs.huffBits = t.regs.huffBits := rfl

theorem raiseError_huffBits (e : Raise) (t : State) : (raiseError e t).regs.huffBits = t.regs.huffBits := rfl

/-- R200: whether the file fits or not, HUFF_BITS holds T when the command has ended. -/
theorem runCommand_huffBits {s g : State} {T : BitVec 64} (hreg : s.regs.RegionsOk)
    (hrun : commandOf 1#3 (launched 1#3 s) = writeFile T g) :
    (runCommand 1#3 s).regs.huffBits = g.regs.huffBits := by
  cases hw : writeFile T g with
  | ok _ u =>
    rw [runCommand_completed (op := 1#3) (by decide) hreg (hrun.trans hw), completed_huffBits]
    exact huffBits_of_tables ((leavesTables_writeFile T).ok hw)
  | error e u =>
    rw [runCommand_raised (op := 1#3) (by decide) hreg (hrun.trans hw), raiseError_huffBits]
    exact huffBits_of_tables ((leavesTables_writeFile T).error hw)

/-- R202: HUFF_COMPRESS with no bus error and every frequency in range. -/
theorem huffCompress_file {s : State} (hreg : s.regs.RegionsOk) (hbus : s.NoBusError)
    (hcount : ∀ b, s.input.count b ≤ 2 ^ 31 - 1) :
    ∃ t, exec .huffCompress s = .next t
      ∧ t.regs.huffBits = (s.input.flatMap (codeOf (commandHuff s.input))).length
      ∧ ((huffFile (commandHuff s.input) s.input).length ≤ s.regs.outCap.toNat →
          t.Succeeded ∧ t.output = huffFile (commandHuff s.input) s.input
            ∧ t.regs.outLen.toNat = (huffFile (commandHuff s.input) s.input).length) := by
  have hc := counted_cleared (length_input_lt s)
  have hT : (BitVec.ofNat 64 (bitCount (commandHuff s.input))).toNat
      = (s.input.flatMap (codeOf (commandHuff s.input))).length := by
    rw [BitVec.toNat_ofNat, Nat.mod_eq_of_lt (bitCount_lt _)]
    exact hc.bitCount_eq rfl
  obtain ⟨c, d, htables⟩ := huffCompress_tables (s := launched 1#3 s) (hbus.of_cfg rfl) hreg.1
    (hc.frequencyTooLarge_eq hcount)
  have hrun : commandOf 1#3 (launched 1#3 s)
      = writeFile (BitVec.ofNat 64 (bitCount (commandHuff s.input))) (filingState s c d) := htables
  refine ⟨_, exec_decodeOp 1#3 s, (runCommand_huffBits hreg hrun).trans (filingState_huffBits s c d), fun hfit => ?_⟩
  have hroom : (filingState s c d).Room (huffFile (commandHuff s.input) s.input).length :=
    room_of_outLen_zero hreg hfit rfl rfl rfl
  have hwrite := writeFile_ok (s := filingState s c d) (T := BitVec.ofNat 64 (bitCount (commandHuff s.input))) hreg
    (hbus.of_cfg rfl) rfl rfl
  rw [filingState_huff, filingState_input] at hwrite
  obtain ⟨m, d', c', p, r, hw, hm⟩ := hwrite (fun b hb => hc.length_code_pos rfl hb) hT hroom
  rw [runCommand_completed (op := 1#3) (by decide) hreg (hrun.trans hw)]
  refine ⟨completed_succeeded rfl rfl rfl, ?_⟩
  exact output_of_appends (t := completed { (filingState s c d).afterOut m d'
    (huffFile (commandHuff s.input) s.input).length with phase := .hFlush, cur := c', pack := p, ret := r })
    rfl hroom hm rfl rfl rfl

/-! HUFF_DECOMPRESS of the file -/

/-- HUFF_DECOMPRESS when its tables are made (R211). -/
def decodeSymbols (S : Nat) (T : BitVec 64) : Eng Unit := do
  let s ← get
  if 2 ≤ s.huff.u then decodeStream S T
  else if s.huff.u = 1 then decodeStream1 S T
  else pure ()

section
variable {s : State} {bs : List Byte}

/-- R208: for two or more byte values the codes are walked to their leaves. -/
theorem decodeSymbols_many {T : BitVec 64} (hreg : s.regs.RegionsOk) (hbus : s.NoBusError)
    (hlen : bs.length < 2 ^ 32) (hhuff : s.huff = commandHuff bs) (hu : 2 ≤ s.huff.u)
    (hT : T.toNat = (bs.flatMap (codeOf s.huff)).length) (hinput : s.input = huffFile s.huff bs)
    (hroom : s.Room bs.length) :
    ∃ m d c, decodeStream (12 + 5 * s.huff.u) T s = .ok () { s.afterOut m d bs.length with cur := c }
      ∧ s.Appends m bs := by
  have hc := counted_cleared hlen
  have hcu : 2 ≤ (countedBytes bs Huff.cleared).u := by
    rw [hhuff, commandHuff, codedHuff, u_coded hc.queue_eq] at hu
    exact hu
  have ht := builtTree_isTree hc.queue_eq (Nat.le_of_succ_le hcu)
  have hnode : s.huff.node = (builtTree (countedBytes bs Huff.cleared)).node := by
    rw [hhuff, commandHuff, codedHuff, coded_frame hc.queue_eq]
  have hroot : s.huff.root = (builtTree (countedBytes bs Huff.cleared)).root := by
    rw [hhuff, commandHuff, codedHuff, coded_frame hc.queue_eq]
  have hlenIn : (huffFile s.huff bs).length = s.regs.inLen.toNat := by rw [← hinput, length_input]
  rw [length_huffFile] at hlenIn
  obtain ⟨m, d, c, hrun, hm, -⟩ := decodeStream_ok (s := s) (S := 12 + 5 * s.huff.u) (T := T)
    (paths := bs.map (codeOf s.huff)) (msg := bs) hreg hbus (by
      obtain ⟨hlt, -⟩ | ⟨-, l, r, w, hint, -⟩ := ht.node_cases ht.root_lt
      · have := ht.root
        omega
      · exact ⟨l, r, w, by rw [nodeAt, hnode, hroot]; exact hint⟩) (by
      rw [List.map_map]
      refine List.map_congr_left fun b hb => ?_
      obtain ⟨p, hp⟩ := ht.exists_leaf_path (hc.mem_ranked_iff.mpr hb)
      have hcode : codeOf s.huff b = p := by
        rw [hhuff]
        exact ht.codeOf_eq_path hcu hc.u_le hc.nodup hp
      rw [Function.comp, hcode, leafAt_congr hnode, hroot]
      exact hp) (by rw [hT, List.flatMap_def]) (fun i hi => by
      have hbit := streamBit_of_header (r := s) (pairs := headerPairs s.huff) hinput (t := i)
        (by rwa [List.flatMap_def])
      rw [length_headerPairs] at hbit
      rw [hbit]
      simp only [List.flatMap_def]) (by omega) hroom
  exact ⟨m, d, c, hrun, hm⟩

/-- R209: for one byte value each bit 0 is that byte value. -/
theorem decodeSymbols_one {T : BitVec 64} (hreg : s.regs.RegionsOk) (hbus : s.NoBusError)
    (hlen : bs.length < 2 ^ 32) (hhuff : s.huff = commandHuff bs) (hu : s.huff.u = 1)
    (hT : T.toNat = (bs.flatMap (codeOf s.huff)).length) (hinput : s.input = huffFile s.huff bs)
    (hroom : s.Room bs.length) :
    ∃ m d c, decodeStream1 (12 + 5 * s.huff.u) T s = .ok () { s.afterOut m d bs.length with cur := c }
      ∧ s.Appends m bs := by
  have hc := counted_cleared hlen
  have hcu : (countedBytes bs Huff.cleared).u = 1 := by
    rw [hhuff, commandHuff, codedHuff, u_coded hc.queue_eq] at hu
    exact hu
  have ht := builtTree_isTree hc.queue_eq hcu.ge
  have hcodes : bs.map (codeOf s.huff) = bs.map fun _ => [false] := List.map_congr_left fun b hb => by
    rw [hhuff]
    exact ht.codeOf_one hcu (hc.mem_ranked_iff.mpr hb)
  have hbits : bs.flatMap (codeOf s.huff) = List.replicate bs.length false := by
    rw [List.flatMap_def, hcodes, List.map_const', List.flatten_replicate_singleton]
  have hbs : bs = List.replicate bs.length (orderAt s.huff 0) := List.eq_replicate_of_mem fun b hb => by
    obtain ⟨j, hj, rfl⟩ := mem_ranked.mp (hc.mem_ranked_iff.mpr hb)
    rw [hhuff, commandHuff, codedHuff, orderAt_coded hc.queue_eq, show j = 0 by omega]
  have hlenIn : (huffFile s.huff bs).length = s.regs.inLen.toNat := by rw [← hinput, length_input]
  rw [length_huffFile] at hlenIn
  have hTlen : T.toNat = bs.length := by rw [hT, hbits, List.length_replicate]
  obtain ⟨m, d, c, hrun, hm, -⟩ := decodeStream1_ok (s := s) (S := 12 + 5 * s.huff.u) (T := T) hreg hbus
    (fun i hi => by
      have hbit := streamBit_of_header (r := s) (pairs := headerPairs s.huff) hinput (t := i) (by omega)
      rw [length_headerPairs] at hbit
      rw [hbit]
      simp only [hbits, List.getElem_replicate]) (by omega) (by rwa [hTlen])
  rw [hTlen, ← hbs] at hm
  rw [hTlen] at hrun
  exact ⟨m, d, c, hrun, hm⟩

/-- R208, R209, R211: the code stream of a file is decoded to the bytes it was made of. -/
theorem decodeSymbols_ok {T : BitVec 64} (hreg : s.regs.RegionsOk) (hbus : s.NoBusError) (hlen : bs.length < 2 ^ 32)
    (hhuff : s.huff = commandHuff bs) (hT : T.toNat = (bs.flatMap (codeOf s.huff)).length)
    (hinput : s.input = huffFile s.huff bs) (hroom : s.Room bs.length) :
    ∃ m d c, decodeSymbols (12 + 5 * s.huff.u) T s = .ok () { s.afterOut m d bs.length with cur := c }
      ∧ s.Appends m bs := by
  have hbranch : decodeSymbols (12 + 5 * s.huff.u) T s
      = (if 2 ≤ s.huff.u then decodeStream (12 + 5 * s.huff.u) T
        else if s.huff.u = 1 then decodeStream1 (12 + 5 * s.huff.u) T else pure ()) s := rfl
  rw [hbranch]
  by_cases h2 : 2 ≤ s.huff.u
  · rw [if_pos h2]
    exact decodeSymbols_many hreg hbus hlen hhuff h2 hT hinput hroom
  · rw [if_neg h2]
    by_cases h1 : s.huff.u = 1
    · rw [if_pos h1]
      exact decodeSymbols_one hreg hbus hlen hhuff h1 hT hinput hroom
    · rw [if_neg h1]
      have hc := counted_cleared hlen
      obtain rfl : bs = [] := hc.eq_nil (by
        rw [hhuff, commandHuff, codedHuff, u_coded hc.queue_eq] at h1 h2
        omega)
      exact ⟨s.mem, s.draws, s.cur, by rw [List.length_nil, afterOut_zero]; rfl, appends_nil s⟩

end

/-- The registers when ParseHeader has accepted a header of n pairs and the bit count T (R205). -/
def parsedRegs (n : Nat) (T : BitVec 64) (g : Regs) : Regs :=
  { g with huffUnique := BitVec.ofNat 9 n, huffBitsLo := T.extractLsb' 0 32, huffBitsHi := T.extractLsb' 32 32 }

/-- The bit count of the Huffman file of bs (R200). -/
def codeBitCount (bs : List Byte) : BitVec 64 := BitVec.ofNat 64 (bs.flatMap (codeOf (commandHuff bs))).length

theorem codeBitCount_toNat {bs : List Byte} (hlen : bs.length < 2 ^ 32) :
    (codeBitCount bs).toNat = (bs.flatMap (codeOf (commandHuff bs))).length := by
  have := length_codes_le (commandHuff bs) bs
  rw [codeBitCount, BitVec.toNat_ofNat, Nat.mod_eq_of_lt (by omega)]

theorem codeBitCount_toInt {bs : List Byte} (hlen : bs.length < 2 ^ 32) :
    (codeBitCount bs).toInt = (bs.flatMap (codeOf (commandHuff bs))).length := by
  have := length_codes_le (commandHuff bs) bs
  rw [toInt_of_lt, codeBitCount_toNat hlen]
  rw [codeBitCount_toNat hlen]
  omega

theorem codeBitCount_nil : codeBitCount [] = 0#64 := rfl

/-- R205: ParseHeader of a Huffman file gives the tables of the first pass back. -/
theorem parseHeader_file {s : State} {bs : List Byte} (hreg : s.regs.RegionsOk) (hbus : s.NoBusError)
    (hhuff : s.huff = Huff.cleared) (hlen : bs.length < 2 ^ 32) (hcount : ∀ b, bs.count b ≤ 2 ^ 31 - 1)
    (hinput : s.input = huffFile (commandHuff bs) bs) :
    ∃ c d, parseHeader s = .ok ((countedBytes bs Huff.cleared).u, codeBitCount bs) { s with
        huff := countedBytes bs Huff.cleared, cur := c, draws := d
        regs := parsedRegs (countedBytes bs Huff.cleared).u (codeBitCount bs) s.regs } := by
  have hc := counted_cleared hlen
  have hpairs : headerPairs (commandHuff bs) = headerPairs (countedBytes bs Huff.cleared) :=
    headerPairs_coded hc.queue_eq
  rw [huffFile, hpairs] at hinput
  have hpair : ∀ j, j < (countedBytes bs Huff.cleared).u →
      s.pairSym j = orderAt (countedBytes bs Huff.cleared) j
        ∧ s.pairFreq j
          = tget (countedBytes bs Huff.cleared).freq (orderAt (countedBytes bs Huff.cleared) j) := fun j hj => by
    have hget := pair_of_header hinput (j := j) (by rwa [length_headerPairs])
    simp only [headerPairs, List.getElem_map, List.getElem_range] at hget
    exact Prod.mk.inj hget
  have hok : s.PairsOk (countedBytes bs Huff.cleared).u := fun j hj => by
    obtain ⟨hsym, hfreq⟩ := hpair j hj
    refine ⟨fun i hi e => ?_, ?_⟩
    · rw [(hpair i (hi.trans hj)).1, hsym] at e
      exact hi.ne (orderAt_injective hc.nodup (hi.trans hj) hj e)
    · have hpos := List.count_pos_iff.mpr (hc.mem_ranked_iff.mp (mem_ranked.mpr ⟨j, hj, rfl⟩))
      have hle := hcount (orderAt (countedBytes bs Huff.cleared) j)
      rw [← hc.freq, ← hfreq] at hpos hle
      rw [BitVec.toInt_eq_toNat_of_lt (by omega)]
      omega
  have hfield := inWord_zero_of_header hinput
  have hT := inDouble_of_header hinput
  rw [length_headerPairs] at hfield hT
  rw [← codeBitCount] at hT
  have hlenIn := congrArg List.length hinput
  rw [length_input, List.length_append, length_headerBytes, length_headerPairs] at hlenIn
  obtain ⟨g, c, d, hparse, htaken, -⟩ := parseHeader_ok hbus hreg.1 (by rw [hhuff]; rfl) (by rw [hhuff]; rfl)
    hc.u_le (by omega) hfield hok (by rw [hT, codeBitCount_toInt hlen]; omega) fun hu => by
      rw [hT, hc.eq_nil hu, codeBitCount_nil]
  rw [hT, pairsTaken_eq_of_counted hc hhuff (fun j hj => (hpair j hj).1) (fun j hj => (hpair j hj).2) htaken]
    at hparse
  exact ⟨c, d, hparse⟩

/-- R206, R207, R211: HUFF_DECOMPRESS of a Huffman file makes the tables of HUFF_COMPRESS and then decodes. -/
theorem huffDecompress_tables {s : State} {bs : List Byte} (hreg : s.regs.RegionsOk) (hbus : s.NoBusError)
    (hhuff : s.huff = Huff.cleared) (hlen : bs.length < 2 ^ 32) (hcount : ∀ b, bs.count b ≤ 2 ^ 31 - 1)
    (hinput : s.input = huffFile (commandHuff bs) bs) :
    ∃ c d, huffDecompress s = decodeSymbols (12 + 5 * (commandHuff bs).u) (codeBitCount bs) { s with
        phase := .hDecode, huff := commandHuff bs, cur := c, draws := d
        regs := parsedRegs (countedBytes bs Huff.cleared).u (codeBitCount bs) s.regs } := by
  have hu : (commandHuff bs).u = (countedBytes bs Huff.cleared).u := u_coded (counted_cleared hlen).queue_eq
  have hlenIn := congrArg List.length hinput
  rw [length_input, length_huffFile, hu] at hlenIn
  have hne : s.regs.inLen ≠ 0#32 := fun e => by
    rw [e, BitVec.toNat_zero] at hlenIn
    omega
  obtain ⟨c, d, hparse⟩ := parseHeader_file (s := { s with phase := .hParse }) hreg (hbus.of_cfg rfl) hhuff hlen
    hcount hinput
  have hpay (t : State) (ht : t.regs.inLen = s.regs.inLen) :
      checkPayloadLength (countedBytes bs Huff.cleared).u (codeBitCount bs) t
        = .ok (12 + 5 * (countedBytes bs Huff.cleared).u) t := by
    rw [checkPayloadLength_run, ht, hlenIn, codeBitCount_toInt hlen, if_neg]
    omega
  refine ⟨c, d, ?_⟩
  rw [huffDecompress, hu]
  refine (bind_ok (eng_get _)).trans <| (congrFun (if_neg hne) _).trans <| (bind_ok (eng_setPhase _ _)).trans <|
    (bind_ok hparse).trans ?_
  refine (bind_ok (hpay _ ?_)).trans <| (bind_ok (buildTree_run _)).trans <|
    (bind_ok (buildEncodingTable_run _)).trans <| (bind_ok (eng_setPhase _ _)).trans ?_
  · rfl
  · rfl

/-- A HUFF_DECOMPRESS command when it begins to decode the Huffman file of bs (R211). -/
def decodingState (bs : List Byte) (c : Cursors) (d : Nat) (r : State) : State := { launched 2#3 r with
  phase := .hDecode, huff := commandHuff bs, cur := c, draws := d
  regs := parsedRegs (countedBytes bs Huff.cleared).u (codeBitCount bs) (launched 2#3 r).regs }

/-- R215: HUFF_DECOMPRESS of a Huffman file writes the bytes it was made of. -/
theorem huffDecompress_file {r : State} {bs : List Byte} (hreg : r.regs.RegionsOk) (hbus : r.NoBusError)
    (hlen : bs.length < 2 ^ 32) (hcount : ∀ b, bs.count b ≤ 2 ^ 31 - 1)
    (hinput : r.input = huffFile (commandHuff bs) bs) (hcap : bs.length ≤ r.regs.outCap.toNat) :
    ∃ v, exec .huffDecompress r = .next v ∧ v.Succeeded ∧ v.output = bs := by
  obtain ⟨c, d, hrun⟩ := huffDecompress_tables (s := launched 2#3 r) hreg (hbus.of_cfg rfl) rfl hlen hcount hinput
  have hroom : (decodingState bs c d r).Room bs.length := room_of_outLen_zero hreg hcap rfl rfl rfl
  obtain ⟨m, d', c', hdecode, hm⟩ := decodeSymbols_ok (s := decodingState bs c d r) (T := codeBitCount bs) hreg
    (hbus.of_cfg rfl) hlen rfl (codeBitCount_toNat hlen) hinput hroom
  refine ⟨_, exec_decodeOp 2#3 r, ?_⟩
  rw [runCommand_completed (op := 2#3) (by decide) hreg (hrun.trans hdecode)]
  refine ⟨completed_succeeded rfl rfl rfl, ?_⟩
  exact (output_of_appends (t := completed { (decodingState bs c d r).afterOut m d' bs.length with cur := c' })
    rfl hroom hm rfl rfl rfl).1

/-- Settles O48: the tables that the header gives back are those of the first pass, so the codes are the same. -/
theorem huffRoundTrip : Obligations.HuffRoundTrip := by
  unfold Obligations.HuffRoundTrip
  intro s hreg hbus hlen
  have hcount : ∀ b, s.input.count b ≤ 2 ^ 31 - 1 := fun b => by
    have hle : s.input.count b ≤ s.input.length := List.count_le_length
    rw [length_input] at hle
    omega
  have hc := counted_cleared (length_input_lt s)
  have hu : (commandHuff s.input).u = (firstAppearances s.input).length :=
    (u_coded hc.queue_eq).trans hc.u_eq
  obtain ⟨t, hexec, hbits, hfit⟩ := huffCompress_file hreg hbus hcount
  have hfile := length_huffFile (commandHuff s.input) s.input
  rw [hu] at hfile
  refine ⟨t, (huffFile (commandHuff s.input) s.input).length, hexec, by rw [hfile, hbits], ?_, fun hle => ?_⟩
  · have h1 := length_codes_le (commandHuff s.input) s.input
    have h2 := length_firstAppearances_le s.input
    rw [length_input] at h1
    omega
  · obtain ⟨hsucc, hout, houtLen⟩ := hfit hle
    refine ⟨hsucc, houtLen, fun r hregr hbusr hin hcap => ?_⟩
    exact huffDecompress_file hregr hbusr (length_input_lt s) hcount (hin.trans hout) (by rwa [length_input])

end Sys2Proof.Machine

/-! PROOFS. The family of 43_lzw.md, the dictionary: what Seed and Insert leave (R251, R252). -/

namespace Sys2Proof.Machine

/-! Sparse maps by their keys -/

theorem sparseGet?_append {α : Type} (m m' : List (Nat × α)) (k : Nat) :
    sparseGet? (m ++ m') k = (sparseGet? m k).or (sparseGet? m' k) := by
  induction m with
  | nil => rfl
  | cons p rest ih =>
    obtain ⟨a, v⟩ := p
    by_cases h : k = a
    · simp [sparseGet?, h]
    · simp [sparseGet?, h, ih]

theorem sparseGet?_filter_key {α : Type} (m : List (Nat × α)) (p : Nat → Bool) {k : Nat} (hk : p k = true) :
    sparseGet? (m.filter fun e => p e.1) k = sparseGet? m k := by
  induction m with
  | nil => rfl
  | cons e rest ih =>
    obtain ⟨a, v⟩ := e
    by_cases ha : p a = true
    · simp [sparseGet?, ha, ih]
    · have hne : k ≠ a := fun e => ha (e ▸ hk)
      simp [sparseGet?, ha, hne, ih]

/-- The keys of a rising list are not below its bound. -/
theorem le_of_sparseGet?_eq_some {α : Type} {m : List (Nat × α)} {lo k : Nat} {v : α}
    (hm : sparseRising lo m = true) (hk : sparseGet? m k = some v) : lo ≤ k := by
  induction m generalizing lo with
  | nil => cases hk
  | cons e rest ih =>
    obtain ⟨a, w⟩ := e
    simp only [sparseRising, Bool.and_eq_true, decide_eq_true_eq] at hm
    obtain ⟨hlo, hrest⟩ := hm
    by_cases h : k = a
    · rwa [h]
    · rw [sparseGet?, if_neg h] at hk
      exact hlo.trans (Nat.le_of_succ_le (ih hrest hk))

/-- A rising list holds each key once, so its members are what it maps. -/
theorem mem_iff_sparseGet? {α : Type} {m : List (Nat × α)} {lo k : Nat} {v : α} (hm : sparseRising lo m = true) :
    (k, v) ∈ m ↔ sparseGet? m k = some v := by
  induction m generalizing lo with
  | nil => simp [sparseGet?]
  | cons e rest ih =>
    obtain ⟨a, w⟩ := e
    simp only [sparseRising, Bool.and_eq_true, decide_eq_true_eq] at hm
    obtain ⟨-, hrest⟩ := hm
    by_cases h : k = a
    · subst h
      have hnot : (k, v) ∉ rest := fun hmem =>
        absurd (le_of_sparseGet?_eq_some hrest ((ih hrest).mp hmem)) (Nat.not_succ_le_self k)
      simp [sparseGet?, hnot, eq_comm]
    · simp [sparseGet?, h, ih hrest]

/-- Rising lists that map alike are one list. -/
theorem eq_of_sparseGet?_eq {α : Type} {m m' : List (Nat × α)} {lo lo' : Nat} (hm : sparseRising lo m = true)
    (hm' : sparseRising lo' m' = true) (h : ∀ k, sparseGet? m k = sparseGet? m' k) : m = m' := by
  induction m generalizing m' lo lo' with
  | nil =>
    cases m' with
    | nil => rfl
    | cons e' rest' => simpa [sparseGet?] using h e'.1
  | cons e rest ih =>
    cases m' with
    | nil => simpa [sparseGet?] using h e.1
    | cons e' rest' =>
      obtain ⟨a, v⟩ := e
      obtain ⟨a', v'⟩ := e'
      simp only [sparseRising, Bool.and_eq_true, decide_eq_true_eq] at hm hm'
      obtain ⟨-, hrest⟩ := hm
      obtain ⟨-, hrest'⟩ := hm'
      have hge : a' ≤ a := le_of_sparseGet?_eq_some (m := (a', v') :: rest') (v := v) (by simp [sparseRising, hrest'])
        ((h a).symm.trans (by simp [sparseGet?]))
      have hle : a ≤ a' := le_of_sparseGet?_eq_some (m := (a, v) :: rest) (v := v') (by simp [sparseRising, hrest])
        ((h a').trans (by simp [sparseGet?]))
      obtain rfl : a = a' := Nat.le_antisymm hle hge
      obtain rfl : v = v' := by simpa [sparseGet?] using h a
      have htail : rest = rest' := ih hrest hrest' fun k => by
        by_cases hk : k = a
        · have hnone {n : List (Nat × α)} (hn : sparseRising (a + 1) n = true) : sparseGet? n k = none :=
            Option.eq_none_iff_forall_ne_some.mpr fun w hw => by
              have := le_of_sparseGet?_eq_some hn hw
              omega
          rw [hnone hrest, hnone hrest']
        · simpa [sparseGet?, hk] using h k
      rw [htail]

/-! Seed (R251) -/

theorem sparseGet?_seedDict (d : List (Nat × DictEntry)) (k : Nat) :
    sparseGet? (seedDict d) k
      = if k < 256 then some ⟨none, BitVec.ofNat 8 k, BitVec.ofNat 8 k, 1⟩ else sparseGet? d k := by
  rw [seedDict, sparseGet?_append, sparseGet?_seedEntries]
  by_cases h : k < 256
  · simp [h]
  · rw [if_neg (by omega), if_neg h, Option.none_or,
      sparseGet?_filter_key d (fun a => decide (256 ≤ a)) (by simpa using h)]

theorem isSome_seedDict_nil (k : Nat) : (sparseGet? (seedDict []) k).isSome = true ↔ k < 256 := by
  rw [sparseGet?_seedDict]
  by_cases h : k < 256 <;> simp [h, sparseGet?]

theorem sparseRising_seedDict_nil : sparseRising 0 (seedDict []) = true := by
  rw [seedDict, List.filter_nil, List.append_nil]
  exact sparseRising_seedEntries 0 0 256 (Nat.le_refl 0)

/-! Insert (R252) -/

/-- NEXT below LZW_CAP has a successor. -/
theorem next_succ {s : State} (h : s.lzw.next.toNat < s.cfg.lzwCap.toNat) :
    (s.lzw.next + 1#32).toNat = s.lzw.next.toNat + 1 := by
  have := s.cfg.lzwCap.isLt
  rw [BitVec.toNat_add, BitVec.toNat_ofNat]
  omega

/-- R252: one entry more, when the valid entries are those below NEXT. -/
theorem isSome_sparseSet_next {α : Type} {d : List (Nat × α)} {n : Nat} (e : α)
    (hd : ∀ k, (sparseGet? d k).isSome = true ↔ k < n) (k : Nat) :
    (sparseGet? (sparseSet d n e) k).isSome = true ↔ k < n + 1 := by
  rw [sparseGet?_set]
  by_cases h : k = n
  · simp [h]
  · rw [if_neg h, hd]
    omega

/-! The operations as instructions -/

theorem exec_seed (s : State) : exec .seed s = .next { s with
    lzw := { s.lzw with dict := seedDict s.lzw.dict, next := 256#32 }
    regs := { s.regs with lzwNext := 256#32 }
    ret := .none } := runOp_ok (fun _ => .none) (seed_run s)

theorem exec_insert_room (p : Code) (c : Byte) {s : State} (h : s.lzw.next.toNat < s.cfg.lzwCap.toNat) :
    exec (.insert p c) s = .next { s with
      lzw := insertEntry p c s.lzw
      regs := { s.regs with lzwNext := s.lzw.next + 1#32 }
      ret := .none } := runOp_ok (fun _ => .none) (dictInsert_room p c h)

theorem exec_insert_full (p : Code) (c : Byte) {s : State} (h : s.cfg.lzwCap.toNat ≤ s.lzw.next.toNat) :
    exec (.insert p c) s = .next { s with ret := .none } := runOp_ok (fun _ => .none) (dictInsert_full p c h)

/-- Settles O49: the dictionaries are those that Seed and Insert make. -/
theorem seedAndInsert : Obligations.SeedAndInsert := by
  unfold Obligations.SeedAndInsert
  refine ⟨fun s => ⟨seedDict s.lzw.dict, exec_seed s, fun k hk => ?_, fun k hk => ?_, fun hd k => ?_⟩, fun p c s =>
    ⟨fun hlt => ⟨(insertEntry p c s.lzw).dict, exec_insert_room p c hlt, ?_, fun k hk => ?_, fun hd k => ?_⟩,
      exec_insert_full p c⟩⟩
  · rw [sparseGet?_seedDict, if_pos hk]
  · rw [sparseGet?_seedDict, if_neg hk.not_gt]
  · rw [hd, isSome_seedDict_nil]
  · exact sparseGet?_set_same _ _ _
  · exact sparseGet?_set_ne _ _ hk
  · rw [next_succ hlt]
    exact isSome_sparseSet_next _ hd k

end Sys2Proof.Machine

/-! PROOFS. The family of 43_lzw.md, the strings of the dictionary (R250), Find (R253), and that Seed and Insert keep
the dictionary's invariant. -/

namespace Sys2Proof.Machine

/-! DICT alone decides an entry and its string -/

theorem dictAt_congr {l l' : Lzw} (h : l'.dict = l.dict) (k : Code) : dictAt l' k = dictAt l k := by
  rw [dictAt, dictAt, h]

theorem entryString_congr {l l' : Lzw} (h : l'.dict = l.dict) (n : Nat) (k : Code) :
    entryString l' n k = entryString l n k := by
  induction n generalizing k with
  | zero => rfl
  | succ n ih =>
    rw [entryString, entryString, dictAt_congr h]
    cases (dictAt l k).pre with
    | none => rfl
    | some p => exact congrArg (· ++ [(dictAt l k).byte]) (ih p)

theorem stringOf_congr {l l' : Lzw} (h : l'.dict = l.dict) (k : Code) : stringOf l' k = stringOf l k := by
  rw [stringOf, stringOf, dictAt_congr h, entryString_congr h]

theorem dictAt_of_get {l : Lzw} {k : Code} {e : DictEntry} (h : sparseGet? l.dict k.toNat = some e) :
    dictAt l k = e := by
  rw [dictAt, h, Option.getD_some]

/-- The invariant speaks of DICT, NEXT and LZW_CAP only. -/
theorem State.DictOk.congr {s t : State} (h : s.DictOk) (hdict : t.lzw.dict = s.lzw.dict)
    (hnext : t.lzw.next = s.lzw.next) (hcfg : t.cfg = s.cfg) : t.DictOk where
  rising := by rw [hdict]; exact h.rising
  valid := by rw [hdict, hnext]; exact h.valid
  next := by rw [hnext, hcfg]; exact h.next
  seeds := by rw [hdict]; exact h.seeds
  longer := fun k e hk he => by
    obtain ⟨p, hpre, hlt, hfirst, hlen⟩ := h.longer k e hk (hdict ▸ he)
    exact ⟨p, hpre, hlt, by rw [dictAt_congr hdict]; exact hfirst, by rw [dictAt_congr hdict]; exact hlen⟩

/-! The strings (R250) -/

section
variable {s : State}

theorem State.DictOk.get_isSome (h : s.DictOk) {k : Code} (hk : k.toNat < s.lzw.next.toNat) :
    ∃ e, sparseGet? s.lzw.dict k.toNat = some e := Option.isSome_iff_exists.mp ((h.valid k.toNat).mpr hk)

theorem State.DictOk.lt_next (h : s.DictOk) {k : Nat} {e : DictEntry} (he : sparseGet? s.lzw.dict k = some e) :
    k < s.lzw.next.toNat := (h.valid k).mp (by rw [he]; rfl)

/-- R250: a seed extends no entry and stands for its byte. -/
theorem stringOf_of_pre_none {l : Lzw} {k : Code} (hpre : (dictAt l k).pre = none) (hlen : (dictAt l k).len = 1) :
    stringOf l k = [(dictAt l k).byte] := by
  rw [stringOf, hlen, entryString, hpre]

/-- R250: any other entry stands for the string of the entry it extends, followed by its byte. -/
theorem stringOf_of_pre_some {l : Lzw} {k p : Code} (hpre : (dictAt l k).pre = some p)
    (hlen : (dictAt l k).len = (dictAt l p).len + 1) :
    stringOf l k = stringOf l p ++ [(dictAt l k).byte] := by
  rw [stringOf, hlen, entryString, hpre, stringOf]

theorem State.DictOk.stringOf_seed (h : s.DictOk) {k : Code} (hk : k.toNat < 256) :
    stringOf s.lzw k = [BitVec.ofNat 8 k.toNat] := by
  have he := dictAt_of_get (h.seeds k.toNat hk)
  rw [stringOf_of_pre_none (by rw [he]) (by rw [he]), he]

theorem State.DictOk.stringOf_ofNat_seed (h : s.DictOk) {k : Nat} (hk : k < 256) :
    stringOf s.lzw (BitVec.ofNat 32 k) = [BitVec.ofNat 8 k] := by
  have hk' : (BitVec.ofNat 32 k).toNat = k := Nat.mod_eq_of_lt (hk.trans (by decide))
  rw [h.stringOf_seed (by rwa [hk']), hk']

/-- A seed, or the extension of an entry below it: the cases of every valid code. -/
theorem State.DictOk.code_cases (h : s.DictOk) {k : Code} (hk : k.toNat < s.lzw.next.toNat) :
    (k.toNat < 256 ∧ dictAt s.lzw k = ⟨none, BitVec.ofNat 8 k.toNat, BitVec.ofNat 8 k.toNat, 1⟩
        ∧ stringOf s.lzw k = [BitVec.ofNat 8 k.toNat])
      ∨ ∃ p : Code, 256 ≤ k.toNat ∧ p.toNat < k.toNat
        ∧ dictAt s.lzw k = extendEntry s.lzw p (dictAt s.lzw k).byte
        ∧ stringOf s.lzw k = stringOf s.lzw p ++ [(dictAt s.lzw k).byte] := by
  by_cases hseed : k.toNat < 256
  · exact .inl ⟨hseed, dictAt_of_get (h.seeds _ hseed), h.stringOf_seed hseed⟩
  · obtain ⟨e, he⟩ := h.get_isSome hk
    obtain ⟨p, hpre, hlt, hfirst, hlen⟩ := h.longer k.toNat e (Nat.le_of_not_lt hseed) he
    rw [← dictAt_of_get he] at hpre hfirst hlen
    refine .inr ⟨p, Nat.le_of_not_lt hseed, hlt, ?_, stringOf_of_pre_some hpre hlen⟩
    rw [extendEntry, ← hpre, ← hfirst, ← hlen]

/-- R250: an entry keeps the length and the first byte of its string, by induction along the codes it extends. -/
theorem State.DictOk.stringOf_spec (h : s.DictOk) {k : Code} (hk : k.toNat < s.lzw.next.toNat) :
    (stringOf s.lzw k).length = (dictAt s.lzw k).len ∧ (stringOf s.lzw k).head? = some (dictAt s.lzw k).first := by
  induction hn : k.toNat using Nat.strong_induction_on generalizing k with
  | _ n ih =>
    obtain ⟨-, he, hs⟩ | ⟨p, -, hlt, he, hs⟩ := h.code_cases hk
    · rw [hs, he]
      exact ⟨rfl, rfl⟩
    · obtain ⟨hlen, hhead⟩ := ih p.toNat (hn ▸ hlt) (hlt.trans hk) rfl
      rw [hs, he]
      exact ⟨by rw [List.length_append, hlen]; rfl, by rw [List.head?_append, hhead]; rfl⟩

theorem State.DictOk.stringOf_ne_nil (h : s.DictOk) {k : Code} (hk : k.toNat < s.lzw.next.toNat) :
    stringOf s.lzw k ≠ [] := fun e => by
  have hhead := (h.stringOf_spec hk).2
  rw [e] at hhead
  cases hhead

end

/-! Seed and Insert keep the invariant (R251, R252) -/

theorem dictOk_seed {s : State} (hdict : s.lzw.dict = seedDict []) (hnext : s.lzw.next = 256#32)
    (hcap : 256 ≤ s.cfg.lzwCap.toNat) : s.DictOk where
  rising := by rw [hdict]; exact sparseRising_seedDict_nil
  valid := fun k => by rw [hdict, hnext]; exact isSome_seedDict_nil k
  next := by rw [hnext]; exact ⟨Nat.le_refl _, hcap⟩
  seeds := fun k hk => by rw [hdict, sparseGet?_seedDict, if_pos hk]
  longer := fun k e hk he => by
    rw [hdict, sparseGet?_seedDict, if_neg hk.not_gt] at he
    cases he

theorem dictAt_insertEntry_ne (p : Code) (c : Byte) {l : Lzw} {k : Code} (hk : k.toNat ≠ l.next.toNat) :
    dictAt (insertEntry p c l) k = dictAt l k :=
  congrArg (Option.getD · _) (sparseGet?_set_ne _ _ hk)

theorem dictAt_insertEntry_next (p : Code) (c : Byte) (l : Lzw) :
    dictAt (insertEntry p c l) l.next = extendEntry l p c := dictAt_of_get (sparseGet?_set_same _ _ _)

section
variable {s : State} {p : Code}

/-- R252: the strings already there stay. -/
theorem State.DictOk.stringOf_insertEntry_lt (h : s.DictOk) (c : Byte) {k : Code}
    (hk : k.toNat < s.lzw.next.toNat) : stringOf (insertEntry p c s.lzw) k = stringOf s.lzw k := by
  induction hn : k.toNat using Nat.strong_induction_on generalizing k with
  | _ n ih =>
    have hat := dictAt_insertEntry_ne p c hk.ne
    obtain ⟨-, he, hs⟩ | ⟨q, -, hlt, he, hs⟩ := h.code_cases hk
    · rw [hs, stringOf_of_pre_none (by rw [hat, he]) (by rw [hat, he]), hat, he]
    · have hatq := dictAt_insertEntry_ne p c (hlt.trans hk).ne
      rw [hs, stringOf_of_pre_some (p := q) (by rw [hat, he]; rfl) (by rw [hat, hatq, he]; rfl), hat,
        ih q.toNat (hn ▸ hlt) (hlt.trans hk) rfl]

/-- R252: the new entry stands for string(p) followed by c. -/
theorem State.DictOk.stringOf_insertEntry_next (h : s.DictOk) (c : Byte) (hp : p.toNat < s.lzw.next.toNat) :
    stringOf (insertEntry p c s.lzw) s.lzw.next = stringOf s.lzw p ++ [c] := by
  have hat := dictAt_insertEntry_next p c s.lzw
  have hatp := dictAt_insertEntry_ne p c hp.ne
  rw [stringOf_of_pre_some (p := p) (by rw [hat]; rfl) (by rw [hat, hatp]; rfl), hat, h.stringOf_insertEntry_lt c hp]
  rfl

theorem State.DictOk.of_insertEntry (h : s.DictOk) (c : Byte) (hp : p.toNat < s.lzw.next.toNat)
    (hroom : s.lzw.next.toNat < s.cfg.lzwCap.toNat) {t : State} (hlzw : t.lzw = insertEntry p c s.lzw)
    (hcfg : t.cfg = s.cfg) : t.DictOk := by
  obtain ⟨hlo, -⟩ := h.next
  have hnext : t.lzw.next.toNat = s.lzw.next.toNat + 1 := by
    rw [hlzw]
    exact next_succ hroom
  have hdict : t.lzw.dict = sparseSet s.lzw.dict s.lzw.next.toNat (extendEntry s.lzw p c) := by rw [hlzw]; rfl
  have hat {q : Code} (hq : q.toNat < s.lzw.next.toNat) : dictAt t.lzw q = dictAt s.lzw q := by
    rw [hlzw, dictAt_insertEntry_ne p c hq.ne]
  refine ⟨?_, fun k => ?_, ?_, fun k hk => ?_, fun k e hk he => ?_⟩
  · rw [hdict]
    exact sparseRising_set _ 0 _ _ h.rising (Nat.zero_le _)
  · rw [hdict, hnext]
    exact isSome_sparseSet_next _ h.valid k
  · rw [hnext, hcfg]
    omega
  · rw [hdict, sparseGet?_set_ne _ _ (by omega), h.seeds k hk]
  · by_cases hk' : k = s.lzw.next.toNat
    · rw [hdict, hk', sparseGet?_set_same, Option.some.injEq] at he
      rw [← he, hk']
      exact ⟨p, rfl, hp, by rw [hat hp]; rfl, by rw [hat hp]; rfl⟩
    · rw [hdict, sparseGet?_set_ne _ _ hk'] at he
      obtain ⟨q, hpre, hlt, hfirst, hlen⟩ := h.longer k e hk he
      have hq := hlt.trans (h.lt_next he)
      exact ⟨q, hpre, hlt, by rw [hat hq]; exact hfirst, by rw [hat hq]; exact hlen⟩

end

/-! Find (R253) -/

theorem entryMatches_iff {l : Lzw} {w : Code} {c : Byte} {e : Nat × DictEntry} :
    entryMatches l w c e = true ↔ 256 ≤ e.1 ∧ e.1 < l.next.toNat ∧ e.2.pre = some w ∧ e.2.byte = c := by
  simp only [entryMatches, Bool.and_eq_true, decide_eq_true_eq, and_assoc]

section
variable {l : Lzw} {w : Code} {c : Byte} (hrise : sparseRising 0 l.dict = true)
include hrise

/-- R253: a code that Find returns is one whose entry matches. -/
theorem findCode_some {k : Code} (h : findCode l w c = some k) :
    ∃ e, sparseGet? l.dict k.toNat = some e ∧ 256 ≤ k.toNat ∧ k.toNat < l.next.toNat ∧ e.pre = some w ∧ e.byte = c := by
  obtain ⟨⟨j, e⟩, hfind, hk⟩ := Option.map_eq_some_iff.mp h
  obtain ⟨hlo, hhi, hpre, hbyte⟩ := entryMatches_iff.mp (List.find?_some hfind)
  have hj : k.toNat = j := by
    rw [← hk]
    exact Nat.mod_eq_of_lt (hhi.trans l.next.isLt)
  rw [hj]
  exact ⟨e, (mem_iff_sparseGet? hrise).mp (List.mem_of_find?_eq_some hfind), hlo, hhi, hpre, hbyte⟩

/-- R253: NONE says that no entry matches. -/
theorem findCode_none_iff : findCode l w c = none ↔ ∀ (k : Nat) (e : DictEntry), 256 ≤ k → k < l.next.toNat →
    sparseGet? l.dict k = some e → ¬(e.pre = some w ∧ e.byte = c) := by
  rw [findCode, Option.map_eq_none_iff, List.find?_eq_none]
  constructor
  · rintro h k e hlo hhi he ⟨hpre, hbyte⟩
    exact h (k, e) ((mem_iff_sparseGet? hrise).mpr he) (entryMatches_iff.mpr ⟨hlo, hhi, hpre, hbyte⟩)
  · rintro h ⟨k, e⟩ hmem hmatch
    obtain ⟨hlo, hhi, hpre, hbyte⟩ := entryMatches_iff.mp hmatch
    exact h k e hlo hhi ((mem_iff_sparseGet? hrise).mp hmem) ⟨hpre, hbyte⟩

end

/-- No two codes of the dictionary stand for one string. -/
def StringsDistinct (l : Lzw) : Prop :=
  ∀ j k : Code, j.toNat < l.next.toNat → k.toNat < l.next.toNat → stringOf l j = stringOf l k → j = k

section
variable {s : State} {w k : Code} {c : Byte}

/-- R253: what Find returns is valid and stands for string(w) followed by c. -/
theorem State.DictOk.stringOf_findCode (h : s.DictOk) (hfind : findCode s.lzw w c = some k) :
    k.toNat < s.lzw.next.toNat ∧ stringOf s.lzw k = stringOf s.lzw w ++ [c] := by
  obtain ⟨e, he, hlo, hhi, hpre, hbyte⟩ := findCode_some h.rising hfind
  refine ⟨hhi, ?_⟩
  have hat := dictAt_of_get he
  obtain ⟨hseed, -⟩ | ⟨p, -, -, hext, hs⟩ := h.code_cases hhi
  · exact absurd hlo hseed.not_ge
  · have hp : p = w := by
      rw [hat] at hext
      rw [hext] at hpre
      exact Option.some.inj hpre
    rw [hs, hp, hat, hbyte]

/-- R253: in a dictionary without repetitions Find is the code of string(w) followed by c. -/
theorem State.DictOk.findCode_eq_some_iff (h : s.DictOk) (hw : w.toNat < s.lzw.next.toNat)
    (hd : StringsDistinct s.lzw) : findCode s.lzw w c = some k ↔
      k.toNat < s.lzw.next.toNat ∧ stringOf s.lzw k = stringOf s.lzw w ++ [c] := by
  refine ⟨h.stringOf_findCode, fun ⟨hk, hs⟩ => ?_⟩
  cases hfind : findCode s.lzw w c with
  | some k' =>
    obtain ⟨hk', hs'⟩ := h.stringOf_findCode hfind
    rw [hd k' k hk' hk (hs'.trans hs.symm)]
  | none =>
    obtain ⟨e, he⟩ := h.get_isSome hk
    obtain ⟨-, -, hseed⟩ | ⟨p, hlo, hlt, hext, hlong⟩ := h.code_cases hk
    · have hlen := congrArg List.length (hseed.symm.trans hs)
      have hpos := List.length_pos_iff.mpr (h.stringOf_ne_nil hw)
      simp only [List.length_append, List.length_singleton] at hlen
      omega
    · obtain ⟨hpw, hbyte⟩ := List.append_inj' (hlong.symm.trans hs) rfl
      have hp : p = w := hd p w (hlt.trans hk) hw hpw
      rw [dictAt_of_get he] at hext hbyte
      refine absurd ⟨?_, List.singleton_inj.mp hbyte⟩ ((findCode_none_iff h.rising).mp hfind k.toNat e hlo hk he)
      rw [hext, hp]
      rfl

end

theorem exec_find (w : Code) (c : Byte) (s : State) :
    exec (.find w c) s = .next { s with ret := .code (findCode s.lzw w c) } := runOp_ok .code (dictFind_run w c s)

/-- Settles O51: Find matches by the extended code and the byte, which distinct strings determine. -/
theorem find : Obligations.Find := by
  unfold Obligations.Find
  refine ⟨fun w c s h hw hd => ⟨findCode s.lzw w c, exec_find w c s, fun k => h.findCode_eq_some_iff hw hd⟩,
    fun w c s hrise => ⟨fun k e hlo hhi he hpre hbyte huniq => ?_, fun hnone => ?_⟩⟩
  · rw [exec_find]
    cases hfind : findCode s.lzw w c with
    | none => exact absurd ⟨hpre, hbyte⟩ ((findCode_none_iff hrise).mp hfind k.toNat e hlo hhi he)
    | some k' =>
      obtain ⟨e', he', hlo', hhi', hpre', hbyte'⟩ := findCode_some hrise hfind
      rw [BitVec.eq_of_toNat_eq (huniq k'.toNat e' hlo' hhi' he' hpre' hbyte')]
  · rw [exec_find, (findCode_none_iff hrise).mpr hnone]

end Sys2Proof.Machine

/-! PROOFS. The family of 43_lzw.md, one byte of the encoder (R254): its three cases, and that it keeps the dictionary's
invariant. -/

namespace Sys2Proof.Machine

/-! Insert and the freeze policy, as one function of the LZW state (R252) -/

/-- The LZW state after Insert(p, c) with the capacity cap. -/
def insertedLzw (cap : Word) (p : Code) (c : Byte) (l : Lzw) : Lzw :=
  if l.next.toNat < cap.toNat then insertEntry p c l else l

/-- R252: Insert; LZW_NEXT follows NEXT. -/
theorem dictInsert_run (p : Code) (c : Byte) (s : State) :
    ∃ n, dictInsert p c s = .ok () { s with
        lzw := insertedLzw s.cfg.lzwCap p c s.lzw, regs := { s.regs with lzwNext := n } }
      ∧ (s.regs.lzwNext = s.lzw.next → n = (insertedLzw s.cfg.lzwCap p c s.lzw).next) := by
  by_cases h : s.lzw.next.toNat < s.cfg.lzwCap.toNat
  · rw [insertedLzw, if_pos h]
    exact ⟨s.lzw.next + 1#32, dictInsert_room p c h, fun _ => rfl⟩
  · rw [insertedLzw, if_neg h]
    exact ⟨s.regs.lzwNext, dictInsert_full p c (Nat.le_of_not_lt h), id⟩

section
variable {s : State} {p : Code}

/-- R252: Insert of a valid code keeps the invariant. -/
theorem State.DictOk.inserted (h : s.DictOk) (c : Byte) (hp : p.toNat < s.lzw.next.toNat) {t : State}
    (hdict : t.lzw.dict = (insertedLzw s.cfg.lzwCap p c s.lzw).dict)
    (hnext : t.lzw.next = (insertedLzw s.cfg.lzwCap p c s.lzw).next) (hcfg : t.cfg = s.cfg) : t.DictOk := by
  rw [insertedLzw] at hdict hnext
  by_cases hroom : s.lzw.next.toNat < s.cfg.lzwCap.toNat
  · rw [if_pos hroom] at hdict hnext
    have hok : ({ s with lzw := insertEntry p c s.lzw } : State).DictOk := h.of_insertEntry c hp hroom rfl rfl
    exact hok.congr hdict hnext hcfg
  · rw [if_neg hroom] at hdict hnext
    exact h.congr hdict hnext hcfg

end

/-! The cases of EncodeByte (R254) -/

section
variable {s : State} {c : Byte}

theorem encodeByte_first (hv : s.lzw.wValid = false) :
    encodeByte c s = .ok () { s with lzw := { s.lzw with w := c.setWidth 32, wValid := true } } := by
  rw [encodeByte]
  exact (bind_ok (eng_get s)).trans (congrFun (if_pos hv) s)

theorem encodeByte_extends {k : Code} (hv : s.lzw.wValid = true) (hfind : findCode s.lzw s.lzw.w c = some k) :
    encodeByte c s = .ok () { s with lzw := { s.lzw with w := k } } := by
  have hne : ¬ s.lzw.wValid = false := by rw [hv]; decide
  rw [encodeByte]
  refine (bind_ok (eng_get s)).trans <| (congrFun (if_neg hne) s).trans <| (bind_ok (dictFind_run _ _ s)).trans ?_
  rw [hfind]
  rfl

/-- R254: the match is not extended, and no insertion that strict mode forbids is skipped. -/
theorem encodeByte_emits (hv : s.lzw.wValid = true) (hfind : findCode s.lzw s.lzw.w c = none)
    (hstrict : ¬(s.lzw.next = s.cfg.lzwCap ∧ s.regs.lzwStrict = true)) (hbus : s.NoBusError) (hroom : s.Room 4) :
    ∃ m d n, encodeByte c s = .ok () { s.afterOut m d 4 with
        lzw := { insertedLzw s.cfg.lzwCap s.lzw.w c s.lzw with w := c.setWidth 32 }
        regs := { (s.afterOut m d 4).regs with lzwCodes := s.regs.lzwCodes + 1#32, lzwNext := n } }
      ∧ s.Appends m (leBytes s.lzw.w.toNat 4)
      ∧ (s.regs.lzwNext = s.lzw.next → n = (insertedLzw s.cfg.lzwCap s.lzw.w c s.lzw).next) := by
  have hne : ¬ s.lzw.wValid = false := by rw [hv]; decide
  have hfull : ¬ strictFull s = true := by
    rwa [strictFull, Bool.and_eq_true, decide_eq_true_eq]
  obtain ⟨m, d, hemit, hm⟩ := emitCode_ok s.lzw.w hbus hroom
  obtain ⟨n, hinsert, hn⟩ := dictInsert_run s.lzw.w c { s.afterOut m d 4 with
    regs := { (s.afterOut m d 4).regs with lzwCodes := s.regs.lzwCodes + 1#32 } }
  refine ⟨m, d, n, ?_, hm, hn⟩
  rw [encodeByte]
  refine (bind_ok (eng_get s)).trans <| (congrFun (if_neg hne) s).trans <| (bind_ok (dictFind_run _ _ s)).trans ?_
  rw [hfind]
  exact (congrFun (if_neg hfull) s).trans <| (bind_ok hemit).trans <| (bind_ok hinsert).trans (eng_modify _ _)

end

theorem byte_toNat_setWidth (c : Byte) : (c.setWidth 32 : Word).toNat = c.toNat := by
  rw [BitVec.toNat_setWidth, Nat.mod_eq_of_lt (c.isLt.trans (by decide))]

/-- A byte value is a seed code. -/
theorem State.DictOk.byte_lt_next {s : State} (h : s.DictOk) (c : Byte) :
    (c.setWidth 32 : Word).toNat < s.lzw.next.toNat := by
  rw [byte_toNat_setWidth]
  exact c.isLt.trans_le h.next.1

/-- R254: EncodeByte keeps the invariant and leaves a valid match. -/
theorem encodeByte_keeps {s : State} (c : Byte) (h : s.DictOk) (hbus : s.NoBusError) (hroom : s.Room 4)
    (hw : s.lzw.wValid = true → s.lzw.w.toNat < s.lzw.next.toNat)
    (hstrict : ¬(s.lzw.next = s.cfg.lzwCap ∧ s.regs.lzwStrict = true)) :
    ∃ t, encodeByte c s = .ok () t ∧ t.DictOk ∧ t.lzw.wValid = true ∧ t.lzw.w.toNat < t.lzw.next.toNat := by
  cases hv : s.lzw.wValid with
  | false => exact ⟨_, encodeByte_first hv, h.congr rfl rfl rfl, rfl, h.byte_lt_next c⟩
  | true =>
    cases hfind : findCode s.lzw s.lzw.w c with
    | some k => exact ⟨_, encodeByte_extends hv hfind, h.congr rfl rfl rfl, hv, (h.stringOf_findCode hfind).1⟩
    | none =>
      obtain ⟨m, d, n, hrun, -⟩ := encodeByte_emits hv hfind hstrict hbus hroom
      refine ⟨_, hrun, ?_⟩
      have hok := h.inserted c (hw hv) (t := { s.afterOut m d 4 with
        lzw := { insertedLzw s.cfg.lzwCap s.lzw.w c s.lzw with w := c.setWidth 32 } }) rfl rfl rfl
      refine ⟨hok.congr rfl rfl rfl, ?_, hok.byte_lt_next c⟩
      rw [← hv, insertedLzw]
      split <;> rfl

/-- Settles O50: a code is a seed or extends a code below it, and the operations keep that. -/
theorem dictionaryStrings : Obligations.DictionaryStrings := by
  unfold Obligations.DictionaryStrings
  refine ⟨fun s k e h he => ?_, fun s hdict hcap => ?_, fun s p c h hp => ?_, fun s c h hbus hroom hw hstrict => ?_⟩
  · have hat := dictAt_of_get he
    obtain ⟨hlen, hhead⟩ := h.stringOf_spec (h.lt_next he)
    rw [hat] at hlen hhead
    refine ⟨hlen, hhead, ?_⟩
    obtain ⟨-, hseed, hs⟩ | ⟨q, -, -, hext, hs⟩ := h.code_cases (h.lt_next he)
    · rw [hat] at hseed
      rw [hs, hseed]
      exact ⟨fun _ => rfl, nofun⟩
    · rw [hat] at hext hs
      have hpre : e.pre = some q := by rw [hext]; rfl
      rw [hpre]
      exact ⟨nofun, fun p hp => by rw [← Option.some.inj hp]; exact hs⟩
  · have hok (t : State) (hd : t.lzw.dict = seedDict s.lzw.dict) (hn : t.lzw.next = 256#32) (hc : t.cfg = s.cfg) :
        t.DictOk ∧ ∀ k, k < 256 → stringOf t.lzw (BitVec.ofNat 32 k) = [BitVec.ofNat 8 k] :=
      have h : t.DictOk := dictOk_seed (by rw [hd, hdict]) hn (by rw [hc]; exact hcap)
      ⟨h, fun _ hk => h.stringOf_ofNat_seed hk⟩
    exact ⟨_, exec_seed s, hok _ rfl rfl rfl⟩
  · by_cases hlt : s.lzw.next.toNat < s.cfg.lzwCap.toNat
    · exact ⟨_, exec_insert_room p c hlt, h.of_insertEntry c hp hlt rfl rfl, fun k hk => h.stringOf_insertEntry_lt c hk,
        fun _ => h.stringOf_insertEntry_next c hp, fun hle => absurd hlt hle.not_gt⟩
    · exact ⟨_, exec_insert_full p c (Nat.le_of_not_lt hlt), h.congr rfl rfl rfl, fun _ _ => rfl,
        fun hroom => absurd hroom hlt, fun _ => rfl⟩
  · obtain ⟨t, hrun, hok, hv, hlt⟩ := encodeByte_keeps c h hbus hroom hw hstrict
    exact ⟨_, runOp_ok (fun _ => .none) hrun, hok.congr rfl rfl rfl, hv, hlt⟩

end Sys2Proof.Machine

/-! PROOFS. The family of 43_lzw.md, the string algorithm that the codec is held against: decoding what it encodes
gives the input back and the same dictionary (R264, R265). -/

namespace Sys2Proof.Machine

/-! The dictionary of the string algorithm -/

/-- R252: the dictionary after the insertion of a string, if capacity remains. -/
def grown (cap : Nat) (d : List (List Byte)) (x : List Byte) : List (List Byte) :=
  if d.length < cap then d ++ [x] else d

/-- R254, R257: the dictionary when the input is encoded, from the dictionary d and the match w on. -/
def encodeDict (cap : Nat) : (d : List (List Byte)) → (w : List Byte) → List Byte → List (List Byte)
  | d, _, [] => d
  | d, w, c :: rest =>
    if (stringCode d (w ++ [c])).isSome then encodeDict cap d (w ++ [c]) rest
    else encodeDict cap (grown cap d (w ++ [c])) [c] rest

/-- R260: the string that a later code stands for. -/
def stringEntry (cap : Nat) (d : List (List Byte)) (prev : List Byte) (k : Nat) : Option (List Byte) :=
  if k < d.length then some (d.getD k [])
  else if k = d.length ∧ d.length < cap then some (prev ++ prev.take 1) else none

/-- R261, R263: the dictionary when later codes are decoded, from the dictionary d and the previous string on. -/
def decodeDict (cap : Nat) : (d : List (List Byte)) → (prev : List Byte) → List Nat → List (List Byte)
  | d, _, [] => d
  | d, prev, k :: rest =>
    decodeDict cap (grown cap d (prev ++ ((stringEntry cap d prev k).getD []).take 1))
      ((stringEntry cap d prev k).getD []) rest

section
variable {cap : Nat} {d : List (List Byte)} {w x : List Byte} {c : Byte} {rest : List Byte}

theorem length_grown_le : (grown cap d x).length ≤ d.length + 1 := by
  rw [grown]
  split
  · rw [List.length_append, List.length_singleton]
  · exact Nat.le_succ _

theorem grown_of_lt (h : d.length < cap) : grown cap d x = d ++ [x] := if_pos h

theorem mem_grown_of_mem {y : List Byte} (h : y ∈ d) : y ∈ grown cap d x := by
  rw [grown]
  split
  · exact List.mem_append_left _ h
  · exact h

theorem nodup_grown (h : d.Nodup) (hx : x ∉ d) : (grown cap d x).Nodup := by
  rw [grown]
  split
  · exact List.nodup_append_comm.mp (List.nodup_cons.mpr ⟨hx, h⟩)
  · exact h

/-! The code of a string -/

theorem stringCode_isSome : (stringCode d w).isSome = true ↔ w ∈ d := by
  rw [stringCode, List.findIdx?_isSome, List.any_eq_true]
  simp

theorem stringCode_eq_some {k : Nat} (h : stringCode d w = some k) : ∃ hk : k < d.length, d[k] = w := by
  obtain ⟨hk, heq, -⟩ := List.findIdx?_eq_some_iff_getElem.mp h
  exact ⟨hk, of_decide_eq_true heq⟩

theorem getElem_stringCode (h : w ∈ d) : ∃ hk : (stringCode d w).getD 0 < d.length, d[(stringCode d w).getD 0] = w := by
  obtain ⟨k, hk⟩ := Option.isSome_iff_exists.mp (stringCode_isSome.mpr h)
  rw [hk]
  exact stringCode_eq_some hk

/-- In a dictionary without repetitions a string has one code. -/
theorem stringCode_getElem (hd : d.Nodup) {k : Nat} (hk : k < d.length) : stringCode d d[k] = some k := by
  obtain ⟨j, hj⟩ := Option.isSome_iff_exists.mp (stringCode_isSome.mpr (List.getElem_mem hk))
  obtain ⟨hlt, heq⟩ := stringCode_eq_some hj
  rw [hj, hd.getElem_inj_iff.mp heq]

/-! One step of the encoder and of the decoder -/

theorem stringEncode_nil (hw : w ≠ []) : stringEncode cap d w [] = [(stringCode d w).getD 0] := by
  rw [stringEncode, if_neg hw]

theorem stringEncode_extend (h : w ++ [c] ∈ d) :
    stringEncode cap d w (c :: rest) = stringEncode cap d (w ++ [c]) rest := by
  rw [stringEncode, if_pos (stringCode_isSome.mpr h)]

theorem stringEncode_emit (h : w ++ [c] ∉ d) : stringEncode cap d w (c :: rest)
    = (stringCode d w).getD 0 :: stringEncode cap (grown cap d (w ++ [c])) [c] rest := by
  rw [stringEncode, if_neg (stringCode_isSome.not.mpr h), grown]

theorem encodeDict_extend (h : w ++ [c] ∈ d) :
    encodeDict cap d w (c :: rest) = encodeDict cap d (w ++ [c]) rest := by
  rw [encodeDict, if_pos (stringCode_isSome.mpr h)]

theorem encodeDict_emit (h : w ++ [c] ∉ d) :
    encodeDict cap d w (c :: rest) = encodeDict cap (grown cap d (w ++ [c])) [c] rest := by
  rw [encodeDict, if_neg (stringCode_isSome.not.mpr h)]

/-- A match that is not empty is emitted in the end. -/
theorem stringEncode_ne_nil (hw : w ≠ []) : stringEncode cap d w rest ≠ [] := by
  induction rest generalizing d w with
  | nil => rw [stringEncode_nil hw]; exact List.cons_ne_nil _ _
  | cons c rest ih =>
    by_cases h : w ++ [c] ∈ d
    · rw [stringEncode_extend h]
      exact ih (by simp)
    · rw [stringEncode_emit h]
      exact List.cons_ne_nil _ _

theorem stringDecode_cons {prev e : List Byte} {k : Nat} {codes : List Nat} (h : stringEntry cap d prev k = some e) :
    stringDecode cap d prev (k :: codes)
      = (stringDecode cap (grown cap d (prev ++ e.take 1)) e codes).map (e ++ ·) := by
  rw [stringEntry] at h
  rw [stringDecode, h, grown]

theorem decodeDict_cons {prev e : List Byte} {k : Nat} {codes : List Nat} (h : stringEntry cap d prev k = some e) :
    decodeDict cap d prev (k :: codes) = decodeDict cap (grown cap d (prev ++ e.take 1)) e codes := by
  rw [decodeDict, h, Option.getD_some]

/-! The round trip -/

theorem ne_nil_of_head? (hc : w.head? = some c) : w ≠ [] := fun e => by
  rw [e] at hc
  cases hc

theorem take_one_of_head? (hc : w.head? = some c) : w.take 1 = [c] := by
  rw [List.take_one, hc]
  rfl

/-- R264: the decoder is one insertion behind the encoder, whose new string ends in the first byte of the match w; the
code of w gives it w, also when w is the new string itself (R260). -/
theorem stringEntry_lockstep {prev : List Byte} (hprev : prev ≠ []) (hc : w.head? = some c)
    (hw : w ∈ grown cap d (prev ++ [c])) :
    stringEntry cap d prev ((stringCode (grown cap d (prev ++ [c])) w).getD 0) = some w := by
  obtain ⟨hk, hget⟩ := getElem_stringCode hw
  generalize (stringCode (grown cap d (prev ++ [c])) w).getD 0 = k at hk hget
  rw [stringEntry]
  simp only [grown] at hk hget
  by_cases hroom : d.length < cap
  · simp only [if_pos hroom] at hk hget
    by_cases hlt : k < d.length
    · rw [List.getElem_append_left hlt] at hget
      rw [if_pos hlt, List.getD_eq_getElem _ _ hlt, hget]
    · obtain rfl : k = d.length := by
        rw [List.length_append, List.length_singleton] at hk
        omega
      rw [List.getElem_concat_length] at hget
      · obtain ⟨a, prev', rfl⟩ := List.exists_cons_of_ne_nil hprev
        have ha : a = c := by
          rw [← hget] at hc
          exact Option.some.inj hc
        rw [if_neg hlt, if_pos ⟨rfl, hroom⟩, ← hget, ha]
        rfl
      · rfl
  · simp only [if_neg hroom] at hk hget
    rw [if_pos hk, List.getD_eq_getElem _ _ hk, hget]

/-- R264, R265: decoding the codes of the rest of the input, one insertion behind the encoder. -/
theorem stringDecode_stringEncode {prev : List Byte} (hseeds : ∀ b : Byte, [b] ∈ d) (hprev : prev ≠ [])
    (hc : w.head? = some c) (hw : w ∈ grown cap d (prev ++ [c])) :
    stringDecode cap d prev (stringEncode cap (grown cap d (prev ++ [c])) w rest) = some (w ++ rest)
      ∧ decodeDict cap d prev (stringEncode cap (grown cap d (prev ++ [c])) w rest)
        = encodeDict cap (grown cap d (prev ++ [c])) w rest := by
  induction rest generalizing d prev w c with
  | nil =>
    have hentry := stringEntry_lockstep hprev hc hw
    rw [stringEncode_nil (ne_nil_of_head? hc), stringDecode_cons hentry, decodeDict_cons hentry, take_one_of_head? hc]
    exact ⟨rfl, rfl⟩
  | cons b rest ih =>
    by_cases hin : w ++ [b] ∈ grown cap d (prev ++ [c])
    · have hc' : (w ++ [b]).head? = some c := by rw [List.head?_append, hc]; rfl
      rw [stringEncode_extend hin, encodeDict_extend hin, List.append_cons w b rest]
      exact ih hseeds hprev hc' hin
    · have hentry := stringEntry_lockstep hprev hc hw
      have hseeds' : ∀ a : Byte, [a] ∈ grown cap d (prev ++ [c]) := fun a => mem_grown_of_mem (hseeds a)
      obtain ⟨hdec, hdict⟩ := ih hseeds' (ne_nil_of_head? hc) rfl (mem_grown_of_mem (x := w ++ [b]) (hseeds' b))
      rw [stringEncode_emit hin, encodeDict_emit hin, stringDecode_cons hentry, decodeDict_cons hentry,
        take_one_of_head? hc, hdec, hdict]
      exact ⟨rfl, rfl⟩

end

/-! The seeds and the first code (R251, R259) -/

theorem length_seedStrings : seedStrings.length = 256 := by rw [seedStrings, List.length_map, List.length_range]

theorem seedStrings_getElem {k : Nat} (hk : k < seedStrings.length) : seedStrings[k] = [BitVec.ofNat 8 k] := by
  simp only [seedStrings, List.getElem_map, List.getElem_range]

theorem nodup_seedStrings : seedStrings.Nodup :=
  List.nodup_range.map_on fun _ hi _ hj e =>
    ofNat_eight_inj (List.mem_range.mp hi) (List.mem_range.mp hj) (List.singleton_inj.mp e)

theorem seed_mem_seedStrings (b : Byte) : [b] ∈ seedStrings :=
  List.mem_map.mpr ⟨b.toNat, List.mem_range.mpr b.isLt, by rw [BitVec.ofNat_toNat, BitVec.setWidth_eq]⟩

theorem stringCode_seed (b : Byte) : stringCode seedStrings [b] = some b.toNat := by
  have hk : b.toNat < seedStrings.length := by rw [length_seedStrings]; exact b.isLt
  have hcode := stringCode_getElem nodup_seedStrings hk
  rwa [seedStrings_getElem hk, BitVec.ofNat_toNat, BitVec.setWidth_eq] at hcode

theorem pair_not_mem_seedStrings (a b : Byte) : [a] ++ [b] ∉ seedStrings := fun h => by
  obtain ⟨k, -, hk⟩ := List.mem_map.mp h
  cases hk

/-- R265: the first code is the seed of the first byte, and the later codes decode to the bytes after it, with the
encoder's dictionary. -/
theorem lzwCodesOf_cons (cap : Nat) (b : Byte) (rest : List Byte) :
    ∃ codes, lzwCodesOf cap (b :: rest) = b.toNat :: codes
    ∧ stringDecode cap seedStrings [b] codes = some rest
    ∧ decodeDict cap seedStrings [b] codes = encodeDict cap seedStrings [] (b :: rest) := by
  have hb : [] ++ [b] ∈ seedStrings := seed_mem_seedStrings b
  rw [lzwCodesOf, stringEncode_extend hb, encodeDict_extend hb, List.nil_append]
  cases rest with
  | nil =>
    rw [stringEncode_nil (List.cons_ne_nil _ _), stringCode_seed]
    exact ⟨[], rfl, rfl, rfl⟩
  | cons c rest =>
    have hnot := pair_not_mem_seedStrings b c
    rw [stringEncode_emit hnot, encodeDict_emit hnot, stringCode_seed]
    exact ⟨_, rfl, stringDecode_stringEncode seed_mem_seedStrings (List.cons_ne_nil _ _) rfl
      (mem_grown_of_mem (seed_mem_seedStrings c))⟩

end Sys2Proof.Machine

/-! PROOFS. The family of 43_lzw.md, the dictionary as the list of its strings (R250): what Seed and Insert make of the
list, Find as a search in it, and that a list without repetitions determines the dictionary. -/

namespace Sys2Proof.Machine

/-- The strings of the valid codes, by rising code (R250). -/
def dictStrings (l : Lzw) : List (List Byte) := (List.range l.next.toNat).map fun k => stringOf l (BitVec.ofNat 32 k)

/-- The dictionary satisfies its invariant, and its strings are those of the list D. -/
structure State.Holds (s : State) (D : List (List Byte)) : Prop where
  ok      : s.DictOk
  strings : dictStrings s.lzw = D

section
variable {s t : State} {D : List (List Byte)} {w : Code} {c : Byte}

theorem State.Holds.congr (h : s.Holds D) (hdict : t.lzw.dict = s.lzw.dict) (hnext : t.lzw.next = s.lzw.next)
    (hcfg : t.cfg = s.cfg) : t.Holds D := by
  refine ⟨h.ok.congr hdict hnext hcfg, ?_⟩
  rw [← h.strings, dictStrings, dictStrings, hnext]
  exact List.map_congr_left fun k _ => stringOf_congr hdict _

theorem State.Holds.length (h : s.Holds D) : D.length = s.lzw.next.toNat := by
  rw [← h.strings, dictStrings, List.length_map, List.length_range]

/-- R256: strict mode forbids no insertion while there is capacity. -/
theorem State.Holds.not_strictFull (h : s.Holds D)
    (hstrict : s.regs.lzwStrict = false ∨ D.length < s.cfg.lzwCap.toNat) :
    ¬(s.lzw.next = s.cfg.lzwCap ∧ s.regs.lzwStrict = true) := fun ⟨hnext, hs⟩ => by
  rw [hs, h.length, hnext] at hstrict
  exact hstrict.elim nofun (Nat.lt_irrefl _)

/-- The string of a valid code stands at its place in the list. -/
theorem State.Holds.getElem (h : s.Holds D) {k : Nat} (hk : k < D.length) :
    D[k] = stringOf s.lzw (BitVec.ofNat 32 k) := by
  simp only [← h.strings, dictStrings, List.getElem_map, List.getElem_range]

theorem State.Holds.getElem_code (h : s.Holds D) {k : Code} (hk : k.toNat < D.length) :
    D[k.toNat] = stringOf s.lzw k := by
  rw [h.getElem hk, BitVec.ofNat_toNat, BitVec.setWidth_eq]

theorem State.Holds.mem_iff (h : s.Holds D) {x : List Byte} :
    x ∈ D ↔ ∃ k : Code, k.toNat < s.lzw.next.toNat ∧ stringOf s.lzw k = x := by
  rw [List.mem_iff_getElem, ← h.length]
  constructor
  · rintro ⟨k, hk, rfl⟩
    have hk' : (BitVec.ofNat 32 k).toNat = k := Nat.mod_eq_of_lt (by
      rw [h.length] at hk
      exact hk.trans s.lzw.next.isLt)
    exact ⟨BitVec.ofNat 32 k, by rwa [hk'], (h.getElem hk).symm⟩
  · rintro ⟨k, hk, rfl⟩
    exact ⟨k.toNat, hk, h.getElem_code hk⟩

theorem State.Holds.distinct (h : s.Holds D) (hD : D.Nodup) : StringsDistinct s.lzw := fun j k hj hk e => by
  rw [← h.length] at hj hk
  rw [← h.getElem_code hj, ← h.getElem_code hk] at e
  exact BitVec.eq_of_toNat_eq (hD.getElem_inj_iff.mp e)

theorem State.Holds.stringCode_eq (h : s.Holds D) (hD : D.Nodup) (hw : w.toNat < s.lzw.next.toNat) :
    stringCode D (stringOf s.lzw w) = some w.toNat := by
  rw [← h.length] at hw
  rw [← h.getElem_code hw]
  exact stringCode_getElem hD hw

/-- R251: Seed makes the list of the seeds. -/
theorem holds_seed (hdict : s.lzw.dict = seedDict []) (hnext : s.lzw.next = 256#32) (hcap : 256 ≤ s.cfg.lzwCap.toNat) :
    s.Holds seedStrings := by
  have hok := dictOk_seed hdict hnext hcap
  refine ⟨hok, ?_⟩
  rw [dictStrings, hnext, seedStrings]
  exact List.map_congr_left fun k hk => hok.stringOf_ofNat_seed (List.mem_range.mp hk)

/-- R252: Insert appends string(p) followed by c, if capacity remains. -/
theorem State.Holds.inserted (h : s.Holds D) (c : Byte) {p : Code} (hp : p.toNat < s.lzw.next.toNat)
    (hdict : t.lzw.dict = (insertedLzw s.cfg.lzwCap p c s.lzw).dict)
    (hnext : t.lzw.next = (insertedLzw s.cfg.lzwCap p c s.lzw).next) (hcfg : t.cfg = s.cfg) :
    t.Holds (grown s.cfg.lzwCap.toNat D (stringOf s.lzw p ++ [c])) := by
  by_cases hroom : s.lzw.next.toNat < s.cfg.lzwCap.toNat
  · rw [insertedLzw, if_pos hroom] at hdict hnext
    have hok : ({ s with lzw := insertEntry p c s.lzw } : State).DictOk := h.ok.of_insertEntry c hp hroom rfl rfl
    refine ⟨hok.congr hdict hnext hcfg, ?_⟩
    have hnext' : t.lzw.next.toNat = s.lzw.next.toNat + 1 := by
      rw [hnext]
      exact next_succ hroom
    rw [grown_of_lt (by rwa [h.length]), ← h.strings, dictStrings, dictStrings, hnext', List.range_succ,
      List.map_append, List.map_singleton, BitVec.ofNat_toNat, BitVec.setWidth_eq, stringOf_congr hdict,
      h.ok.stringOf_insertEntry_next c hp]
    refine congrArg (· ++ _) (List.map_congr_left fun k hk => ?_)
    rw [stringOf_congr hdict]
    refine h.ok.stringOf_insertEntry_lt c ?_
    have hlt := List.mem_range.mp hk
    rwa [BitVec.toNat_ofNat, Nat.mod_eq_of_lt (hlt.trans s.lzw.next.isLt)]
  · rw [insertedLzw, if_neg hroom] at hdict hnext
    rw [grown, if_neg (by rwa [h.length])]
    exact h.congr hdict hnext hcfg

/-- R253: Find searches the list for string(w) followed by c. -/
theorem State.Holds.findCode_isSome_iff (h : s.Holds D) (hD : D.Nodup) (hw : w.toNat < s.lzw.next.toNat) :
    (findCode s.lzw w c).isSome = true ↔ stringOf s.lzw w ++ [c] ∈ D := by
  rw [h.mem_iff, Option.isSome_iff_exists]
  exact exists_congr fun k => h.ok.findCode_eq_some_iff hw (h.distinct hD)

/-- R250: the strings of the list determine the entries: the code that an entry extends is that of its string without the
last byte. By induction along these codes. -/
theorem State.Holds.dictAt_eq (hs : s.Holds D) (ht : t.Holds D) (hD : D.Nodup) {k : Code}
    (hk : k.toNat < D.length) : dictAt s.lzw k = dictAt t.lzw k := by
  induction hn : k.toNat using Nat.strong_induction_on generalizing k with
  | _ n ih =>
    have heq : stringOf s.lzw k = stringOf t.lzw k := by rw [← hs.getElem_code hk, ht.getElem_code hk]
    obtain ⟨hseed, he, -⟩ | ⟨p, hlo, hlt, he, hstr⟩ := hs.ok.code_cases (hs.length ▸ hk)
    · obtain ⟨-, he', -⟩ | ⟨-, hlo', -⟩ := ht.ok.code_cases (ht.length ▸ hk)
      · rw [he, he']
      · exact absurd hlo' hseed.not_ge
    · obtain ⟨hseed', -⟩ | ⟨q, -, hlt', he', hstr'⟩ := ht.ok.code_cases (ht.length ▸ hk)
      · exact absurd hlo hseed'.not_ge
      · obtain ⟨hpq, hbyte⟩ := List.append_inj' (hstr.symm.trans (heq.trans hstr')) rfl
        have hp : p.toNat < D.length := hlt.trans hk
        rw [← hs.getElem_code hp, ← ht.getElem_code (hlt'.trans hk)] at hpq
        obtain rfl : p = q := BitVec.eq_of_toNat_eq (hD.getElem_inj_iff.mp hpq)
        rw [he, he', extendEntry, extendEntry, ih p.toNat (hn ▸ hlt) hp rfl, List.singleton_inj.mp hbyte]

/-- R264: equal strings, none twice, make equal dictionaries. -/
theorem State.Holds.dict_eq (hs : s.Holds D) (ht : t.Holds D) (hD : D.Nodup) : s.lzw.dict = t.lzw.dict := by
  refine eq_of_sparseGet?_eq hs.ok.rising ht.ok.rising fun k => ?_
  have hnext : s.lzw.next.toNat = t.lzw.next.toNat := by rw [← hs.length, ht.length]
  by_cases hk : k < s.lzw.next.toNat
  · have hk' : (BitVec.ofNat 32 k).toNat = k := Nat.mod_eq_of_lt (hk.trans s.lzw.next.isLt)
    obtain ⟨e, he⟩ := hs.ok.get_isSome (k := BitVec.ofNat 32 k) (by rwa [hk'])
    obtain ⟨e', he'⟩ := ht.ok.get_isSome (k := BitVec.ofNat 32 k) (by rwa [hk', ← hnext])
    have hee := hs.dictAt_eq ht hD (k := BitVec.ofNat 32 k) (by rwa [hk', hs.length])
    rw [dictAt_of_get he, dictAt_of_get he'] at hee
    rw [hk'] at he he'
    rw [he, he', hee]
  · have hnone {u : State} (hu : u.Holds D) (hku : ¬ k < u.lzw.next.toNat) : sparseGet? u.lzw.dict k = none :=
      Option.not_isSome_iff_eq_none.mp ((hu.ok.valid k).not.mpr hku)
    rw [hnone hs hk, hnone ht (hnext ▸ hk)]

end

end Sys2Proof.Machine

/-! PROOFS. The family of 43_lzw.md, LZW_COMPRESS with no bus error (R254 to R257): it follows the string algorithm,
code by code. -/

namespace Sys2Proof.Machine

/-! LZW files (R115) -/

theorem lzwFile_append (es es' : List Nat) : lzwFile (es ++ es') = lzwFile es ++ lzwFile es' := List.flatMap_append

theorem lzwFile_singleton (k : Nat) : lzwFile [k] = leBytes k 4 := List.flatMap_singleton _ _

theorem length_lzwFile (es : List Nat) : (lzwFile es).length = 4 * es.length := by
  induction es with
  | nil => rfl
  | cons k es ih =>
    rw [lzwFile, List.flatMap_cons, ← lzwFile, List.length_append, length_leBytes, ih, List.length_cons]
    omega

theorem length_lzwFile_concat (es : List Nat) (k : Nat) : (lzwFile (es ++ [k])).length = (lzwFile es).length + 4 := by
  rw [lzwFile_append, lzwFile_singleton, List.length_append, length_leBytes]

/-! Input and output of a command -/

section
variable {s : State}

/-- R142: an input field lies inside buffer memory. -/
theorem inAddr_add_le (hreg : s.regs.RegionsOk) {p n : Nat} (h : p + n ≤ s.regs.inLen.toNat) :
    inAddr s p + n ≤ 2 ^ 32 := by
  have := hreg.1
  simp only [inAddr]
  omega

/-- Bytes written after bs, when the output region has room for all. -/
theorem appends_append_of_room {m m' : List Host.Cell} {d : Nat} {bs cs : List Byte} (hm : s.Appends m bs)
    (hroom : s.Room (bs.length + cs.length)) (hm' : (s.afterOut m d bs.length).Appends m' cs) :
    s.Appends m' (bs ++ cs) := by
  refine appends_append hm (d := d) ?_ hm'
  have := hroom.1
  have := s.regs.outCap.isLt
  omega

/-- R254: one more code in the file. -/
theorem appends_lzwFile_concat {m m' : List Host.Cell} {d k : Nat} {es : List Nat} (hm : s.Appends m (lzwFile es))
    (hroom : s.Room ((lzwFile es).length + 4)) (hm' : (s.afterOut m d (lzwFile es).length).Appends m' (leBytes k 4)) :
    s.Appends m' (lzwFile (es ++ [k])) := by
  rw [lzwFile_append, lzwFile_singleton]
  exact appends_append_of_room hm (by rwa [length_leBytes]) hm'

end

/-! A command of the codec on its way -/

/-- The state s with n output bytes written, k codes counted and the LZW state l. -/
def State.coding (s : State) (m : List Host.Cell) (d : Nat) (c : Cursors) (n k : Nat) (l : Lzw) : State :=
  { s.afterOut m d n with
    lzw := l
    cur := c
    regs := { (s.afterOut m d n).regs with lzwCodes := BitVec.ofNat 32 k, lzwNext := l.next } }

/-- Nothing written and nothing counted yet. -/
theorem coding_start {s : State} (hcodes : s.regs.lzwCodes = 0#32) (l : Lzw) :
    { s with lzw := l, regs := { s.regs with lzwNext := l.next } } = s.coding s.mem s.draws s.cur 0 0 l := by
  rw [State.coding, afterOut_zero, show BitVec.ofNat 32 0 = s.regs.lzwCodes from hcodes.symm]

/-- The LZW state when Seed has made its entries (R251). -/
def seededLzw : Lzw := { Lzw.cleared with dict := seedDict [], next := 256#32 }

/-- R251: Seed at the start of a command of the codec. -/
theorem seed_coding {s : State} (hlzw : s.lzw = Lzw.cleared) (hcodes : s.regs.lzwCodes = 0#32) :
    seed s = .ok () (s.coding s.mem s.draws s.cur 0 0 seededLzw) := by
  rw [seed_run, ← coding_start hcodes seededLzw, hlzw]
  rfl

theorem holds_seeded {s : State} (hcap : 256 ≤ s.cfg.lzwCap.toNat) :
    (s.coding s.mem s.draws s.cur 0 0 seededLzw).Holds seedStrings := holds_seed rfl rfl hcap

/-- One more code written and counted. -/
theorem coding_coding (s : State) (m m' : List Host.Cell) (d d' : Nat) (c : Cursors) (n n' k : Nat) (l l' : Lzw) :
    { (s.coding m d c n k l).afterOut m' d' n' with
      lzw := l'
      regs := { ((s.coding m d c n k l).afterOut m' d' n').regs with
        lzwCodes := (s.coding m d c n k l).regs.lzwCodes + 1#32, lzwNext := l'.next } }
      = s.coding m' d' c (n + n') (k + 1) l' := by
  simp [State.coding, State.afterOut, BitVec.add_assoc, BitVec.ofNat_add]

/-- R254: the code of a match that the next byte does not extend, while the command is on its way. -/
theorem encodeByte_coding {s : State} {m : List Host.Cell} {d : Nat} {cur : Cursors} {n k : Nat} {l : Lzw} {c : Byte}
    (hv : l.wValid = true) (hfind : findCode l l.w c = none)
    (hstrict : ¬(l.next = s.cfg.lzwCap ∧ s.regs.lzwStrict = true)) (hbus : s.NoBusError) (hroom : s.Room (n + 4)) :
    ∃ m' d', encodeByte c (s.coding m d cur n k l) = .ok () (s.coding m' d' cur (n + 4) (k + 1)
        { insertedLzw s.cfg.lzwCap l.w c l with w := c.setWidth 32 })
      ∧ (s.afterOut m d n).Appends m' (leBytes l.w.toNat 4) := by
  obtain ⟨m', d', next, hrun, hm, hnext⟩ := encodeByte_emits (s := s.coding m d cur n k l) (c := c) hv hfind hstrict
    (hbus.of_cfg rfl) (hroom.after m d)
  refine ⟨m', d', hrun.trans (congrArg (EStateM.Result.ok ()) ?_), hm⟩
  rw [hnext rfl]
  exact coding_coding s m m' d d' cur n 4 k l { insertedLzw s.cfg.lzwCap l.w c l with w := c.setWidth 32 }

/-- The encoder's match W stands for the string w (R56): w is empty exactly when W_VALID is 0. -/
def Lzw.Matches (l : Lzw) (w : List Byte) : Prop :=
  (l.wValid = false ∧ w = []) ∨ (l.wValid = true ∧ l.w.toNat < l.next.toNat ∧ stringOf l l.w = w)

theorem stringOf_setMatch (l : Lzw) (w : Code) (v : Bool) (k : Code) :
    stringOf { l with w := w, wValid := v } k = stringOf l k :=
  stringOf_congr (l := l) (l' := { l with w := w, wValid := v }) rfl k

/-- R251: the seed of a byte value. -/
theorem State.DictOk.stringOf_byte {s : State} (h : s.DictOk) (c : Byte) : stringOf s.lzw (c.setWidth 32) = [c] := by
  have hc := byte_toNat_setWidth c
  rw [h.stringOf_seed (by rw [hc]; exact c.isLt), hc, BitVec.ofNat_toNat, BitVec.setWidth_eq]

/-- t is s with the codes es written and counted, the dictionary D and the match w. -/
def State.Encoded (s : State) (es : List Nat) (D : List (List Byte)) (w : List Byte) (t : State) : Prop :=
  ∃ m d c l, t = s.coding m d c (lzwFile es).length es.length l ∧ s.Appends m (lzwFile es) ∧ t.Holds D ∧ l.Matches w

section
variable {s t : State} {es : List Nat} {D : List (List Byte)} {w : List Byte} {c : Byte}

/-- Reading input moves the read cursor and the draws only. -/
theorem State.Encoded.read (h : s.Encoded es D w t) (c : Cursors) (d : Nat) :
    s.Encoded es D w { t with cur := c, draws := d } := by
  obtain ⟨m, d', c', l, rfl, hm, hD, hw⟩ := h
  exact ⟨m, d, c, l, rfl, hm, hD.congr rfl rfl rfl, hw⟩

/-- R254: the dictionary extends the match by c. -/
theorem encodeByte_encoded_extend (h : s.Encoded es D w t) (hD : D.Nodup) (hin : w ++ [c] ∈ D) :
    ∃ u, encodeByte c t = .ok () u ∧ s.Encoded es D (w ++ [c]) u := by
  obtain ⟨m, d, cur, l, rfl, hm, hholds, hw⟩ := h
  obtain ⟨hv, rfl⟩ | ⟨hv, hlt, rfl⟩ := hw
  · refine ⟨_, encodeByte_first hv, m, d, cur, { l with w := c.setWidth 32, wValid := true }, rfl, hm,
      hholds.congr rfl rfl rfl, .inr ⟨rfl, hholds.ok.byte_lt_next c, ?_⟩⟩
    exact (stringOf_setMatch l _ _ _).trans (hholds.ok.stringOf_byte c)
  · obtain ⟨k, hk⟩ := Option.isSome_iff_exists.mp ((hholds.findCode_isSome_iff hD hlt).mpr hin)
    obtain ⟨hklt, hks⟩ := hholds.ok.stringOf_findCode hk
    exact ⟨_, encodeByte_extends hv hk, m, d, cur, { l with w := k }, rfl, hm, hholds.congr rfl rfl rfl,
      .inr ⟨hv, hklt, (stringOf_setMatch l _ _ _).trans hks⟩⟩

/-- R254: the dictionary does not extend the match, whose code is written and whose string with c is inserted. -/
theorem encodeByte_encoded_emit (h : s.Encoded es D w t) (hbus : s.NoBusError) (hD : D.Nodup)
    (hseeds : ∀ b : Byte, [b] ∈ D) (hnot : w ++ [c] ∉ D) (hroom : s.Room ((lzwFile es).length + 4))
    (hstrict : s.regs.lzwStrict = false ∨ D.length < s.cfg.lzwCap.toNat) :
    ∃ u, encodeByte c t = .ok () u
      ∧ s.Encoded (es ++ [(stringCode D w).getD 0]) (grown s.cfg.lzwCap.toNat D (w ++ [c])) [c] u := by
  obtain ⟨m, d, cur, l, rfl, hm, hholds, hw⟩ := h
  obtain ⟨hv, rfl⟩ | ⟨hv, hlt, rfl⟩ := hw
  · exact absurd (hseeds c) hnot
  have hfind : findCode l l.w c = none :=
    Option.not_isSome_iff_eq_none.mp ((hholds.findCode_isSome_iff hD hlt).not.mpr hnot)
  obtain ⟨m', d', hrun, hm'⟩ := encodeByte_coding (s := s) (m := m) (d := d) (cur := cur) (k := es.length) hv hfind
    (hholds.not_strictFull hstrict) hbus hroom
  have hcode : stringCode D (stringOf l l.w) = some l.w.toNat := hholds.stringCode_eq hD hlt
  have hholds' : (s.coding m' d' cur ((lzwFile es).length + 4) (es.length + 1)
      { insertedLzw s.cfg.lzwCap l.w c l with w := c.setWidth 32 }).Holds
        (grown s.cfg.lzwCap.toNat D (stringOf l l.w ++ [c])) := hholds.inserted c hlt rfl rfl rfl
  rw [hcode, Option.getD_some]
  rw [← length_lzwFile_concat es l.w.toNat] at hrun hholds'
  refine ⟨_, hrun, m', d', cur, _, ?_, appends_lzwFile_concat hm hroom hm', hholds',
    .inr ⟨?_, hholds'.ok.byte_lt_next c, hholds'.ok.stringOf_byte c⟩⟩
  · rw [List.length_append, List.length_singleton]
    rfl
  · rw [← hv, insertedLzw]
    split <;> rfl

/-- R255: a match that is not empty is written in the end. -/
theorem encodeEnd_encoded (h : s.Encoded es D w t) (hbus : s.NoBusError) (hD : D.Nodup)
    (hroom : s.Room (lzwFile (es ++ stringEncode s.cfg.lzwCap.toNat D w [])).length) :
    ∃ u, encodeEnd t = .ok () u ∧ s.Encoded (es ++ stringEncode s.cfg.lzwCap.toNat D w []) D w u := by
  obtain ⟨m, d, cur, l, rfl, hm, hholds, hw⟩ := id h
  obtain ⟨hv, rfl⟩ | ⟨hv, hlt, hs⟩ := hw
  · refine ⟨_, (bind_ok (eng_get _)).trans (congrFun (if_neg (Bool.eq_false_iff.mp hv)) _), ?_⟩
    rw [stringEncode, if_pos rfl, List.append_nil]
    exact h
  · have hcode : stringCode D w = some l.w.toNat := by
      rw [← hs]
      exact hholds.stringCode_eq hD hlt
    rw [stringEncode_nil (hs ▸ hholds.ok.stringOf_ne_nil hlt), hcode, Option.getD_some] at hroom ⊢
    rw [length_lzwFile_concat] at hroom
    obtain ⟨m', d', hrun, hm'⟩ := emitCode_ok (s := s.coding m d cur (lzwFile es).length es.length l) l.w
      (hbus.of_cfg rfl) (hroom.after m d)
    refine ⟨s.coding m' d' cur (lzwFile (es ++ [l.w.toNat])).length (es ++ [l.w.toNat]).length l, ?_, m', d', cur, l,
      rfl, appends_lzwFile_concat hm (d := d) hroom hm', hholds.congr rfl rfl rfl, .inr ⟨hv, hlt, hs⟩⟩
    refine (bind_ok (eng_get _)).trans <| (congrFun (if_pos hv) _).trans <| hrun.trans ?_
    rw [length_lzwFile_concat, List.length_append, List.length_singleton]
    exact congrArg _ (coding_coding s m m' d d' cur _ 4 es.length l l)

/-! The loop of LzwCompress (R257) -/

/-- R74: an input byte, while output is written. -/
theorem inByte_encoded {i : Nat} (hreg : s.regs.RegionsOk) (hbus : s.NoBusError) (hi : i < s.input.length)
    (hroom : s.Room (lzwFile es).length) (h : s.Encoded es D w t) :
    ∃ u, inByte i t = .ok s.input[i] u ∧ s.Encoded es D w u := by
  obtain ⟨m, d, cur, l, rfl, hm, -⟩ := id h
  have hi' : i < s.regs.inLen.toNat := by rwa [length_input] at hi
  have haddr : inAddr s i < 2 ^ 32 := inAddr_add_le (n := 1) hreg hi'
  obtain ⟨c', d', hread, -⟩ := get8_ok i (s := s.coding m d cur (lzwFile es).length es.length l) (hbus.of_cfg rfl) haddr
  rw [getElem_input, ← read_input_of_appends hreg hroom hm hi']
  exact ⟨_, hread, h.read c' d'⟩

/-- LzwCompress when PHASE is L_ENCODE (R257). -/
def compressAll : Eng Unit := do
  seed
  let s ← get
  forRange s.regs.inLen.toNat compressByte
  encodeEnd

theorem lzwCompress_eq (s : State) : lzwCompress s = compressAll { s with phase := .lEncode } := rfl

/-- LZW_COMPRESS of the input of s after i bytes, in state t: the codes es are written, D is the dictionary, w the
match; with what is to come they are the codes of the string algorithm, and strict mode forbids no insertion. -/
structure State.Compressing (s : State) (i : Nat) (es : List Nat) (D : List (List Byte)) (w : List Byte) (t : State) :
    Prop where
  encoded : s.Encoded es D w t
  nodup   : D.Nodup
  seeds   : ∀ b : Byte, [b] ∈ D
  codes   : es ++ stringEncode s.cfg.lzwCap.toNat D w (s.input.drop i) = lzwCodesOf s.cfg.lzwCap.toNat s.input
  dict    : encodeDict s.cfg.lzwCap.toNat D w (s.input.drop i) = encodeDict s.cfg.lzwCap.toNat seedStrings [] s.input
  strict  : s.regs.lzwStrict = false
    ∨ D.length + (stringEncode s.cfg.lzwCap.toNat D w (s.input.drop i)).length ≤ s.cfg.lzwCap.toNat + 1

theorem compressByte_compressing {i : Nat} (hreg : s.regs.RegionsOk) (hbus : s.NoBusError)
    (hroom : s.Room (lzwFile (lzwCodesOf s.cfg.lzwCap.toNat s.input)).length) (hi : i < s.regs.inLen.toNat)
    (h : s.Compressing i es D w t) :
    ∃ u, compressByte i t = .ok () u ∧ ∃ es' D' w', s.Compressing (i + 1) es' D' w' u := by
  obtain ⟨hencoded, hD, hseeds, hcodes, hdict, hstrict⟩ := h
  rw [← length_input] at hi
  rw [List.drop_eq_getElem_cons hi] at hcodes hdict hstrict
  rw [← hcodes, lzwFile_append, List.length_append] at hroom
  obtain ⟨t', hread, ht'⟩ := inByte_encoded hreg hbus hi (hroom.of_le (Nat.le_add_right _ _)) hencoded
  by_cases hin : w ++ [s.input[i]] ∈ D
  · obtain ⟨u, hrun, hu⟩ := encodeByte_encoded_extend ht' hD hin
    rw [stringEncode_extend hin] at hcodes hstrict
    rw [encodeDict_extend hin] at hdict
    exact ⟨u, (bind_ok hread).trans hrun, es, D, w ++ [s.input[i]], hu, hD, hseeds, hcodes, hdict, hstrict⟩
  · rw [stringEncode_emit hin] at hcodes hstrict hroom
    rw [encodeDict_emit hin] at hdict
    rw [length_lzwFile (_ :: _), List.length_cons] at hroom
    have hmore := List.length_pos_iff.mpr (stringEncode_ne_nil (cap := s.cfg.lzwCap.toNat)
      (d := grown s.cfg.lzwCap.toNat D (w ++ [s.input[i]])) (rest := s.input.drop (i + 1))
      (List.cons_ne_nil s.input[i] []))
    rw [List.length_cons] at hstrict
    have hfits : s.regs.lzwStrict = false ∨ D.length < s.cfg.lzwCap.toNat := hstrict.imp_right fun hle => by omega
    obtain ⟨u, hrun, hu⟩ := encodeByte_encoded_emit ht' hbus hD hseeds hin (hroom.of_le (by omega)) hfits
    refine ⟨u, (bind_ok hread).trans hrun, _, _, _, hu, nodup_grown hD hin, fun b => mem_grown_of_mem (hseeds b), ?_,
      hdict, ?_⟩
    · rw [List.append_assoc]
      exact hcodes
    · refine hstrict.imp_right fun hle => ?_
      have hgrown := length_grown_le (cap := s.cfg.lzwCap.toNat) (d := D) (x := w ++ [s.input[i]])
      omega

/-- R257: the body of LzwCompress from a cleared LZW state on, when the codes fit and strict mode forbids no
insertion. -/
theorem compressAll_ok (hreg : s.regs.RegionsOk) (hbus : s.NoBusError) (hcap : 256 ≤ s.cfg.lzwCap.toNat)
    (hlzw : s.lzw = Lzw.cleared) (hcount : s.regs.lzwCodes = 0#32)
    (hroom : s.Room (lzwFile (lzwCodesOf s.cfg.lzwCap.toNat s.input)).length)
    (hstrict : s.regs.lzwStrict = false
      ∨ (lzwCodesOf s.cfg.lzwCap.toNat s.input).length - 1 ≤ s.cfg.lzwCap.toNat - 256) :
    ∃ t w, compressAll s = .ok () t
      ∧ s.Encoded (lzwCodesOf s.cfg.lzwCap.toNat s.input) (encodeDict s.cfg.lzwCap.toNat seedStrings [] s.input) w t
      ∧ (encodeDict s.cfg.lzwCap.toNat seedStrings [] s.input).Nodup := by
  have hstart : s.Compressing 0 [] seedStrings [] (s.coding s.mem s.draws s.cur 0 0 seededLzw) := by
    refine ⟨⟨s.mem, s.draws, s.cur, seededLzw, rfl, appends_nil s, holds_seeded hcap, .inl ⟨rfl, rfl⟩⟩,
      nodup_seedStrings, seed_mem_seedStrings, rfl, rfl, hstrict.imp_right fun hle => ?_⟩
    rw [lzwCodesOf] at hle
    rw [List.drop_zero, length_seedStrings]
    omega
  obtain ⟨u, hloop, es, D, w, hencoded, hD, -, hcodes, hdict, -⟩ := forRange_ok compressByte
    (fun i t => ∃ es D w, s.Compressing i es D w t) s.regs.inLen.toNat _
    ⟨[], seedStrings, [], hstart⟩ fun i t hi ⟨es, D, w, ht⟩ => compressByte_compressing hreg hbus hroom hi ht
  rw [List.drop_eq_nil_of_le (length_input s).le] at hcodes hdict
  rw [← hcodes] at hroom ⊢
  rw [← hdict, encodeDict]
  obtain ⟨t, hend, ht⟩ := encodeEnd_encoded hencoded hbus hD hroom
  refine ⟨t, w, ?_, ht, hD⟩
  rw [compressAll]
  exact (bind_ok (seed_coding hlzw hcount)).trans <| (bind_ok (eng_get _)).trans <| (bind_ok hloop).trans hend

end

end Sys2Proof.Machine

/-! PROOFS. The family of 43_lzw.md, LZW_DECOMPRESS with no bus error (R258 to R263): it follows the string algorithm,
code by code. -/

namespace Sys2Proof.Machine

/-! One code as the string algorithm reads it -/

section
variable {cap : Nat} {D : List (List Byte)} {p e r : List Byte} {k : Nat} {codes : List Nat}

/-- R260: a defined code, or the code about to be defined. -/
theorem stringEntry_cases (h : stringEntry cap D p k = some e) :
    (∃ hk : k < D.length, D[k] = e) ∨ (k = D.length ∧ D.length < cap ∧ p ++ p.take 1 = e) := by
  rw [stringEntry] at h
  by_cases hlt : k < D.length
  · rw [if_pos hlt, Option.some.injEq, List.getD_eq_getElem _ _ hlt] at h
    exact .inl ⟨hlt, h⟩
  · rw [if_neg hlt] at h
    by_cases heq : k = D.length ∧ D.length < cap
    · rw [if_pos heq, Option.some.injEq] at h
      exact .inr ⟨heq.1, heq.2, h⟩
    · rw [if_neg heq] at h
      cases h

theorem stringEntry_le (h : stringEntry cap D p k = some e) : k ≤ D.length := by
  obtain ⟨hlt, -⟩ | ⟨heq, -⟩ := stringEntry_cases h
  · exact hlt.le
  · exact heq.le

/-- R261: after its insertion the decoder has the code it has just read, in the KwKwK case too. -/
theorem getElem_grown_of_stringEntry (hp : p ≠ []) (h : stringEntry cap D p k = some e) :
    (grown cap D (p ++ e.take 1))[k]? = some e := by
  obtain ⟨hlt, rfl⟩ | ⟨rfl, hroom, rfl⟩ := stringEntry_cases h
  · have hold : D[k]? = some D[k] := List.getElem?_eq_getElem hlt
    rw [grown]
    split
    · rw [List.getElem?_append_left hlt, hold]
    · exact hold
  · obtain ⟨a, q, rfl⟩ := List.exists_cons_of_ne_nil hp
    rw [grown_of_lt hroom, List.getElem?_concat_length]
    rfl

theorem stringDecode_cons_eq_some (h : stringDecode cap D p (k :: codes) = some r) :
    ∃ e r', stringEntry cap D p k = some e ∧ stringDecode cap (grown cap D (p ++ e.take 1)) e codes = some r'
      ∧ r = e ++ r' := by
  cases he : stringEntry cap D p k with
  | none =>
    rw [stringEntry] at he
    rw [stringDecode, he] at h
    cases h
  | some e =>
    rw [stringDecode_cons he] at h
    obtain ⟨r', hr', rfl⟩ := Option.map_eq_some_iff.mp h
    exact ⟨e, r', rfl, hr', rfl⟩

end

section
variable {s t : State} {D : List (List Byte)} {p e bs : List Byte} {k : Code} {f : Byte} {j : Nat}

/-- R260: the string of a code, and its first byte, as the machine finds them. -/
theorem State.Holds.entryIs (h : s.Holds D) (hprev : s.lzw.prev.toNat < s.lzw.next.toNat)
    (he : stringEntry s.cfg.lzwCap.toNat D (stringOf s.lzw s.lzw.prev) k.toNat = some e) :
    ∃ f, s.EntryIs k e f ∧ e.take 1 = [f] := by
  obtain ⟨hlt, rfl⟩ | ⟨heq, hroom, rfl⟩ := stringEntry_cases he
  · have hk : k.toNat < s.lzw.next.toNat := by rwa [← h.length]
    rw [h.getElem_code hlt]
    exact ⟨_, .inl ⟨hk, rfl, rfl⟩, take_one_of_head? (h.ok.stringOf_spec hk).2⟩
  · rw [h.length] at heq hroom
    have hhead := (h.ok.stringOf_spec hprev).2
    rw [take_one_of_head? hhead]
    exact ⟨_, .inr ⟨BitVec.eq_of_toNat_eq heq, hroom, rfl, rfl⟩,
      take_one_of_head? (by rw [List.head?_append, hhead]; rfl)⟩

/-! DecodeNext and DecodeFirst (R259, R261) -/

theorem afterCode_run (k : Code) (f : Byte) (s : State) :
    ∃ n, afterCode k f s = .ok () { s with
        lzw := { insertedLzw s.cfg.lzwCap s.lzw.prev f s.lzw with prev := k }
        regs := { s.regs with lzwCodes := s.regs.lzwCodes + 1#32, lzwNext := n } }
      ∧ (s.regs.lzwNext = s.lzw.next → n = (insertedLzw s.cfg.lzwCap s.lzw.prev f s.lzw).next) := by
  obtain ⟨n, hinsert, hn⟩ := dictInsert_run s.lzw.prev f
    { s with regs := { s.regs with lzwCodes := s.regs.lzwCodes + 1#32 } }
  refine ⟨n, ?_, hn⟩
  rw [afterCode]
  exact (bind_ok (eng_modify _ _)).trans <| (bind_ok (eng_get _)).trans <| (bind_ok hinsert).trans (eng_modify _ _)

/-- R261: with room, no bus error and no insertion that strict mode forbids, DecodeNext writes the entry of its code. -/
theorem decodeNext_emits (hbus : s.NoBusError) (ha : inAddr s (4 * j) + 4 ≤ 2 ^ 32)
    (hentry : s.EntryIs (s.inWord (4 * j)) e f)
    (hstrict : ¬(s.lzw.next = s.cfg.lzwCap ∧ s.regs.lzwStrict = true)) (hroom : s.Room e.length) :
    ∃ m d c, decodeNext j s = afterCode (s.inWord (4 * j)) f { s.afterOut m d e.length with cur := c }
      ∧ s.Appends m e ∧ c.bitPos = s.cur.bitPos ∧ c.pass = s.cur.pass := by
  obtain ⟨c, d, hget, hbit, hpass⟩ := get32_ok (4 * j) hbus ha
  have hfull : ¬ strictFull { s with cur := c, draws := d } = true := by
    rwa [strictFull, Bool.and_eq_true, decide_eq_true_eq]
  obtain ⟨hlt, rfl, rfl⟩ | ⟨heq, hlt, rfl, rfl⟩ := hentry
  · obtain ⟨m, d', hemit, hm⟩ := emitString_ok (s := { s with cur := c, draws := d }) (s.inWord (4 * j))
      (hbus.of_cfg rfl) hroom
    have hclass : classify { s with cur := c, draws := d } (s.inWord (4 * j)) = .defined := if_pos hlt
    refine ⟨m, d', c, ?_, hm, hbit, hpass⟩
    rw [decodeNext]
    refine (bind_ok hget).trans <| (bind_ok (eng_get _)).trans ?_
    rw [hclass]
    exact (congrFun (if_neg hfull) _).trans (bind_ok hemit)
  · rw [List.length_append, List.length_singleton] at hroom
    obtain ⟨m, d', hemit, hm⟩ := emitString_ok (s := { s with cur := c, draws := d }) s.lzw.prev (hbus.of_cfg rfl)
      (hroom.of_le (Nat.le_succ _))
    obtain ⟨m', d'', hout, hm'⟩ := outByte_decoded (d := d') (c := c) hbus hroom hm (dictAt s.lzw s.lzw.prev).first
    have hclass : classify { s with cur := c, draws := d } (s.inWord (4 * j)) = .kwkwk := by
      rw [classify, if_neg (by rw [heq]; exact Nat.lt_irrefl _), if_pos ⟨heq, hlt⟩]
    refine ⟨m', d'', c, ?_, hm', hbit, hpass⟩
    rw [decodeNext]
    refine (bind_ok hget).trans <| (bind_ok (eng_get _)).trans ?_
    rw [hclass]
    exact (congrFun (if_neg hfull) _).trans <| (bind_ok hemit).trans (bind_ok hout)

/-- R259: with room and no bus error, DecodeFirst writes the string of a first code that is a seed. -/
theorem decodeFirst_emits (hbus : s.NoBusError) (ha : inAddr s 0 + 4 ≤ 2 ^ 32) (hk : (s.inWord 0).toNat < 256)
    (hroom : s.Room (stringOf s.lzw (s.inWord 0)).length) :
    ∃ m d c, decodeFirst s = .ok () { s.afterOut m d (stringOf s.lzw (s.inWord 0)).length with
        lzw := { s.lzw with prev := s.inWord 0 }
        regs := { (s.afterOut m d (stringOf s.lzw (s.inWord 0)).length).regs with lzwCodes := 1#32 }
        cur := c }
      ∧ s.Appends m (stringOf s.lzw (s.inWord 0)) ∧ c.bitPos = s.cur.bitPos ∧ c.pass = s.cur.pass := by
  obtain ⟨c, d, hget, hbit, hpass⟩ := get32_ok 0 hbus ha
  obtain ⟨m, d', hemit, hm⟩ := emitString_ok (s := { s with cur := c, draws := d }) (s.inWord 0) (hbus.of_cfg rfl) hroom
  refine ⟨m, d', c, ?_, hm, hbit, hpass⟩
  rw [decodeFirst]
  exact (bind_ok hget).trans <| (congrFun (if_neg hk.not_ge) _).trans <| (bind_ok hemit).trans <|
    (bind_ok (eng_modify _ _)).trans (eng_modify _ _)

end

/-! The decoder on its way -/

/-- t is s with the bytes bs written, k codes counted, the dictionary D and the previous string p. -/
def State.Decoded (s : State) (bs : List Byte) (k : Nat) (D : List (List Byte)) (p : List Byte) (t : State) : Prop :=
  ∃ m d c l, t = s.coding m d c bs.length k l ∧ s.Appends m bs ∧ t.Holds D ∧ l.prev.toNat < l.next.toNat
    ∧ stringOf l l.prev = p

section
variable {s t : State} {D : List (List Byte)} {p e bs : List Byte} {j k : Nat}

theorem afterOut_coding (s : State) (m m' : List Host.Cell) (d d' n n' k : Nat) (c c' : Cursors) (l : Lzw) :
    { (s.coding m d c n k l).afterOut m' d' n' with cur := c' } = s.coding m' d' c' (n + n') k l := by
  simp [State.coding, State.afterOut, BitVec.add_assoc, BitVec.ofNat_add]

theorem afterCode_coding (q : Code) (f : Byte) (s : State) (m : List Host.Cell) (d n k : Nat) (c : Cursors) (l : Lzw) :
    afterCode q f (s.coding m d c n k l)
      = .ok () (s.coding m d c n (k + 1) { insertedLzw s.cfg.lzwCap l.prev f l with prev := q }) := by
  obtain ⟨next, hrun, hnext⟩ := afterCode_run q f (s.coding m d c n k l)
  have hcfg : (s.afterOut m d n).cfg = s.cfg := rfl
  rw [hrun, hnext rfl]
  simp [State.coding, BitVec.ofNat_add, hcfg]

/-- R142: the codes of the input read the same while output is written. -/
theorem inWord_coding {m : List Host.Cell} {d n : Nat} {c : Cursors} {l : Lzw} {q : Nat} (hreg : s.regs.RegionsOk)
    (hroom : s.Room bs.length) (hm : s.Appends m bs) (hq : q + 4 ≤ s.regs.inLen.toNat) :
    (s.coding m d c n k l).inWord q = s.inWord q := by
  refine congrArg (fun bs => BitVec.ofNat 32 (leValue bs)) (readBytes_congr fun x hlo hhi => ?_)
  obtain ⟨i, rfl⟩ := Nat.exists_eq_add_of_le hlo
  have hi : q + i < s.regs.inLen.toNat := by omega
  have hread := read_input_of_appends hreg hroom hm hi
  rwa [inAddr, ← Nat.add_assoc] at hread

/-- R261: a later code that the string algorithm reads. -/
theorem decodeNext_decoded (hreg : s.regs.RegionsOk) (hbus : s.NoBusError) (h : s.Decoded bs k D p t)
    (hin : 4 * j + 4 ≤ s.regs.inLen.toNat)
    (he : stringEntry s.cfg.lzwCap.toNat D p (s.inWord (4 * j)).toNat = some e) (hroom : s.Room (bs ++ e).length)
    (hstrict : s.regs.lzwStrict = false ∨ D.length < s.cfg.lzwCap.toNat) :
    ∃ u, decodeNext j t = .ok () u
      ∧ s.Decoded (bs ++ e) (k + 1) (grown s.cfg.lzwCap.toNat D (p ++ e.take 1)) e u := by
  obtain ⟨m, d, cur, l, rfl, hm, hholds, hprev, rfl⟩ := h
  rw [List.length_append] at hroom
  have hword := inWord_coding (d := d) (n := bs.length) (c := cur) (k := k) (l := l) hreg
    (hroom.of_le (Nat.le_add_right _ _)) hm hin
  obtain ⟨f, hentry, hf⟩ := hholds.entryIs hprev he
  obtain ⟨m', d', c', hrun, hm', -⟩ := decodeNext_emits (s := s.coding m d cur bs.length k l) (hbus.of_cfg rfl)
    (inAddr_add_le hreg hin) (hword.symm ▸ hentry) (hholds.not_strictFull hstrict) (hroom.after m d)
  rw [hword, afterOut_coding, afterCode_coding] at hrun
  have hp : stringOf l l.prev ≠ [] := hholds.ok.stringOf_ne_nil hprev
  have hholds' : (s.coding m' d' c' (bs.length + e.length) (k + 1)
      { insertedLzw s.cfg.lzwCap l.prev f l with prev := s.inWord (4 * j) }).Holds
        (grown s.cfg.lzwCap.toNat D (stringOf l l.prev ++ e.take 1)) := by
    rw [hf]
    exact hholds.inserted f hprev rfl rfl rfl
  obtain ⟨hlt, hget⟩ := List.getElem?_eq_some_iff.mp (getElem_grown_of_stringEntry hp he)
  rw [hholds'.getElem_code hlt] at hget
  rw [hholds'.length] at hlt
  have hbytes : s.Appends m' (bs ++ e) := appends_append_of_room hm (d := d) hroom hm'
  rw [← List.length_append] at hrun hholds'
  exact ⟨_, hrun, m', d', c', _, rfl, hbytes, hholds', hlt, hget⟩

theorem stringOf_setPrev (l : Lzw) (q : Code) (k : Code) : stringOf { l with prev := q } k = stringOf l k :=
  stringOf_congr (l := l) (l' := { l with prev := q }) rfl k

/-- R259: the first code, a seed. -/
theorem decodeFirst_decoded {b : Byte} (hreg : s.regs.RegionsOk) (hbus : s.NoBusError) (hcap : 256 ≤ s.cfg.lzwCap.toNat)
    (hin : 4 ≤ s.regs.inLen.toNat) (hword : s.inWord 0 = b.setWidth 32) (hroom : s.Room 1) :
    ∃ u, decodeFirst (s.coding s.mem s.draws s.cur 0 0 seededLzw) = .ok () u ∧ s.Decoded [b] 1 seedStrings [b] u := by
  have hholds := holds_seeded hcap
  have hstr : stringOf (s.coding s.mem s.draws s.cur 0 0 seededLzw).lzw
      ((s.coding s.mem s.draws s.cur 0 0 seededLzw).inWord 0) = [b] :=
    (congrArg (stringOf seededLzw) hword).trans (hholds.ok.stringOf_byte b)
  have hseed : (s.inWord 0).toNat < 256 := by
    rw [hword, byte_toNat_setWidth]
    exact b.isLt
  obtain ⟨m, d, c, hrun, hm, -⟩ := decodeFirst_emits (s := s.coding s.mem s.draws s.cur 0 0 seededLzw) (hbus.of_cfg rfl)
    (inAddr_add_le hreg (by omega)) hseed (by rw [hstr]; exact State.Room.after hroom s.mem s.draws)
  rw [hstr] at hrun hm
  refine ⟨_, hrun, m, d, c, { seededLzw with prev := (s.coding s.mem s.draws s.cur 0 0 seededLzw).inWord 0 }, ?_,
    appends_append_of_room (appends_nil s) (d := s.draws) hroom hm, hholds.congr rfl rfl rfl, hseed, ?_⟩
  · simp [State.coding, State.afterOut]
  · exact (stringOf_setPrev seededLzw _ _).trans hstr

end

/-! The loop of LzwDecompress (R263) -/

/-- LzwDecompress when PHASE is L_DECODE (R263). -/
def decompressAll : Eng Unit := do
  seed
  lengthCheck
  let s ← get
  if s.regs.inLen = 0#32 then pure ()
  else
    decodeFirst
    forFrom decodeNext 1 (s.regs.inLen.toNat / 4 - 1)

theorem lzwDecompress_eq (s : State) : lzwDecompress s = decompressAll { s with phase := .lDecode } := rfl

theorem lengthCheck_coding {s : State} (h : s.regs.inLen.toNat % 4 = 0) (m : List Host.Cell) (d : Nat) (c : Cursors)
    (n k : Nat) (l : Lzw) : lengthCheck (s.coding m d c n k l) = .ok () (s.coding m d c n k l) := by
  rw [lengthCheck_run]
  exact if_neg (not_not.mpr h)

/-- R115: code j of an LZW file in the input. -/
theorem inWord_of_lzwFile {s : State} {codes : List Nat} (h : s.input = lzwFile codes) {j : Nat}
    (hj : j < codes.length) :
    s.inWord (4 * j) = BitVec.ofNat 32 codes[j] := by
  have hword := inWord_of_input (s := s) (xs := lzwFile (codes.take j)) (v := codes[j])
    (zs := lzwFile (codes.drop (j + 1))) (by
      rw [h, ← lzwFile_singleton, ← lzwFile_append, ← lzwFile_append, List.singleton_append,
        ← List.drop_eq_getElem_cons hj, List.take_append_drop])
  rwa [length_lzwFile, List.length_take_of_le hj.le] at hword

/-- LZW_DECOMPRESS of the codes in the input of s after j codes, in state t: the bytes bs are written, D is the
dictionary, p the previous string; what is to come makes the bytes out and the dictionary D', and strict mode forbids
no insertion. -/
structure State.Decompressing (s : State) (codes : List Nat) (out : List Byte) (D' : List (List Byte)) (j : Nat)
    (bs : List Byte) (D : List (List Byte)) (p : List Byte) (t : State) : Prop where
  decoded : s.Decoded bs j D p t
  bytes   : ∃ r, stringDecode s.cfg.lzwCap.toNat D p (codes.drop j) = some r ∧ bs ++ r = out
  dict    : decodeDict s.cfg.lzwCap.toNat D p (codes.drop j) = D'
  strict  : s.regs.lzwStrict = false ∨ D.length + (codes.drop j).length ≤ s.cfg.lzwCap.toNat

section
variable {s t : State} {codes : List Nat} {out bs p : List Byte} {D D' : List (List Byte)} {j : Nat}

theorem decodeNext_decompressing (hreg : s.regs.RegionsOk) (hbus : s.NoBusError) (hinput : s.input = lzwFile codes)
    (hroom : s.Room out.length) (hj : j < codes.length) (h : s.Decompressing codes out D' j bs D p t) :
    ∃ u, decodeNext j t = .ok () u ∧ ∃ bs' D₁ p', s.Decompressing codes out D' (j + 1) bs' D₁ p' u := by
  obtain ⟨hdecoded, ⟨r, hr, rfl⟩, hdict, hstrict⟩ := h
  rw [List.drop_eq_getElem_cons hj] at hr hdict hstrict
  obtain ⟨e, r', he, hr', rfl⟩ := stringDecode_cons_eq_some hr
  rw [decodeDict_cons he] at hdict
  rw [List.length_cons] at hstrict
  have hlen := congrArg List.length hinput
  rw [length_input, length_lzwFile] at hlen
  have hword : (s.inWord (4 * j)).toNat = codes[j] := by
    obtain ⟨m, d, c, l, rfl, -, hholds, -⟩ := id hdecoded
    have hle := stringEntry_le he
    rw [hholds.length] at hle
    rw [inWord_of_lzwFile hinput hj, BitVec.toNat_ofNat, Nat.mod_eq_of_lt (hle.trans_lt (BitVec.isLt _))]
  rw [← List.append_assoc, List.length_append] at hroom
  obtain ⟨u, hrun, hu⟩ := decodeNext_decoded (j := j) hreg hbus hdecoded (by omega) (by rwa [hword])
    (hroom.of_le (Nat.le_add_right _ _)) (hstrict.imp_right fun hle => by omega)
  refine ⟨u, hrun, bs ++ e, _, e, hu, ⟨r', hr', List.append_assoc _ _ _⟩, hdict, hstrict.imp_right fun hle => ?_⟩
  have hgrown := length_grown_le (cap := s.cfg.lzwCap.toNat) (d := D) (x := p ++ e.take 1)
  omega

/-- R263: an LZW file whose codes the string algorithm decodes, when the bytes fit and strict mode forbids no
insertion. -/
theorem decompressAll_ok {b : Byte} (hreg : s.regs.RegionsOk) (hbus : s.NoBusError) (hcap : 256 ≤ s.cfg.lzwCap.toNat)
    (hlzw : s.lzw = Lzw.cleared) (hcount : s.regs.lzwCodes = 0#32) (hinput : s.input = lzwFile (b.toNat :: codes))
    (hdec : stringDecode s.cfg.lzwCap.toNat seedStrings [b] codes = some out) (hroom : s.Room (b :: out).length)
    (hstrict : s.regs.lzwStrict = false ∨ codes.length ≤ s.cfg.lzwCap.toNat - 256) :
    ∃ t p, decompressAll s = .ok () t
      ∧ s.Decoded (b :: out) (codes.length + 1) (decodeDict s.cfg.lzwCap.toNat seedStrings [b] codes) p t := by
  have hlen := congrArg List.length hinput
  rw [length_input, length_lzwFile, List.length_cons] at hlen
  have hword : s.inWord 0 = b.setWidth 32 := by
    rw [inWord_of_lzwFile hinput (j := 0) (Nat.succ_pos _), List.getElem_cons_zero]
    exact BitVec.ofNat_toNat _ b
  obtain ⟨u, hfirst, hu⟩ := decodeFirst_decoded hreg hbus hcap (by omega) hword (hroom.of_le (by simp))
  have hstart : s.Decompressing (b.toNat :: codes) (b :: out) (decodeDict s.cfg.lzwCap.toNat seedStrings [b] codes) 1
      [b] seedStrings [b] u := by
    refine ⟨hu, ⟨out, hdec, rfl⟩, rfl, hstrict.imp_right fun hle => ?_⟩
    rw [length_seedStrings, List.drop_one, List.tail_cons]
    omega
  obtain ⟨t, hloop, bs, D, p, hdecoded, ⟨r, hr, hbytes⟩, hdict, -⟩ := forFrom_ok decodeNext
    (fun j t => ∃ bs D p, s.Decompressing (b.toNat :: codes) (b :: out)
      (decodeDict s.cfg.lzwCap.toNat seedStrings [b] codes) j bs D p t) 1 codes.length u ⟨[b], seedStrings, [b], hstart⟩
    fun j t _ hj ⟨bs, D, p, ht⟩ =>
      decodeNext_decompressing hreg hbus hinput hroom (by rw [List.length_cons]; omega) ht
  have hdrop : (b.toNat :: codes).drop (1 + codes.length) = [] := List.drop_eq_nil_of_le (by simp [Nat.add_comm])
  rw [hdrop] at hr hdict
  obtain rfl : [] = r := Option.some.inj hr
  rw [← hbytes, ← hdict, decodeDict, List.append_nil, Nat.add_comm]
  refine ⟨t, p, ?_, hdecoded⟩
  have hne : ¬ s.regs.inLen = 0#32 := fun e => by
    rw [e, BitVec.toNat_zero] at hlen
    omega
  have hrest : s.regs.inLen.toNat / 4 - 1 = codes.length := by omega
  rw [decompressAll]
  refine (bind_ok (seed_coding hlzw hcount)).trans <| (bind_ok (lengthCheck_coding (by omega) _ _ _ _ _ _)).trans <|
    (bind_ok (eng_get _)).trans <| (congrFun (if_neg hne) _).trans <| (bind_ok hfirst).trans ?_
  rw [← hrest] at hloop
  exact hloop

/-- R263: an empty input. -/
theorem decompressAll_nil (hcap : 256 ≤ s.cfg.lzwCap.toNat) (hlzw : s.lzw = Lzw.cleared)
    (hcount : s.regs.lzwCodes = 0#32) (hinput : s.input = []) :
    ∃ t p, decompressAll s = .ok () t ∧ s.Decoded [] 0 seedStrings p t := by
  have hlen := congrArg List.length hinput
  rw [length_input] at hlen
  have hzero : s.regs.inLen = 0#32 := BitVec.eq_of_toNat_eq hlen
  have hmod : s.regs.inLen.toNat % 4 = 0 := by rw [hlen]; rfl
  rw [decompressAll]
  refine ⟨_, _, (bind_ok (seed_coding hlzw hcount)).trans <| (bind_ok (lengthCheck_coding hmod _ _ _ _ _ _)).trans <|
    (bind_ok (eng_get _)).trans (congrFun (if_pos hzero) _), s.mem, s.draws, s.cur, seededLzw, rfl, appends_nil s,
    holds_seeded hcap, ?_, rfl⟩
  show 0 < 256
  decide

end

/-! The round trip -/

/-- R144: a command of the codec that raised nothing succeeds, and its output is what it wrote. -/
theorem completed_coding {s : State} {m : List Host.Cell} {d k : Nat} {c : Cursors} {l : Lzw} {bs : List Byte}
    (hlen : s.regs.outLen = 0#32) (herr : s.regs.error = false) (hcode : s.regs.errCode = 0#3)
    (hinfo : s.regs.errInfo = 0#32) (hroom : s.Room bs.length) (hm : s.Appends m bs) :
    (completed (s.coding m d c bs.length k l)).Succeeded ∧ (completed (s.coding m d c bs.length k l)).output = bs :=
  ⟨completed_succeeded herr hcode hinfo, (output_of_appends (t := completed (s.coding m d c bs.length k l)) hlen
    hroom hm rfl rfl rfl).1⟩

/-- R257: LZW_COMPRESS, when the codes fit and strict mode forbids no insertion. -/
theorem lzwCompress_file {s : State} (hreg : s.regs.RegionsOk) (hbus : s.NoBusError) (hcap : 256 ≤ s.cfg.lzwCap.toNat)
    (hfit : 4 * (lzwCodesOf s.cfg.lzwCap.toNat s.input).length ≤ s.regs.outCap.toNat)
    (hstrict : s.regs.lzwStrict = false
      ∨ (lzwCodesOf s.cfg.lzwCap.toNat s.input).length - 1 ≤ s.cfg.lzwCap.toNat - 256) :
    ∃ t, exec .lzwCompress s = .next t ∧ t.Succeeded ∧ t.output = lzwFile (lzwCodesOf s.cfg.lzwCap.toNat s.input)
      ∧ t.Holds (encodeDict s.cfg.lzwCap.toNat seedStrings [] s.input)
      ∧ (encodeDict s.cfg.lzwCap.toNat seedStrings [] s.input).Nodup
      ∧ t.regs.lzwCodes = BitVec.ofNat 32 (lzwCodesOf s.cfg.lzwCap.toNat s.input).length
      ∧ t.regs.lzwNext = t.lzw.next := by
  have hroom : ({ launched 3#3 s with phase := .lEncode } : State).Room
      (lzwFile (lzwCodesOf s.cfg.lzwCap.toNat s.input)).length :=
    room_of_outLen_zero hreg (by rwa [length_lzwFile]) rfl rfl rfl
  obtain ⟨t, w, hrun, ⟨m, d, c, l, rfl, hm, hholds, -⟩, hD⟩ := compressAll_ok
    (s := { launched 3#3 s with phase := .lEncode }) hreg (hbus.of_cfg rfl) hcap rfl rfl hroom hstrict
  refine ⟨_, exec_decodeOp 3#3 s, ?_⟩
  rw [runCommand_completed (op := 3#3) (by decide) hreg ((lzwCompress_eq _).trans hrun)]
  obtain ⟨hsucc, hout⟩ := completed_coding (s := { launched 3#3 s with phase := .lEncode }) (d := d) (c := c) (l := l)
    (k := (lzwCodesOf s.cfg.lzwCap.toNat s.input).length) rfl rfl rfl rfl hroom hm
  exact ⟨hsucc, hout, hholds.congr rfl rfl rfl, hD, rfl, rfl⟩

/-- R265: LZW_DECOMPRESS of the file of bs, with the same capacity and strict mode. -/
theorem lzwDecompress_file {r : State} {bs : List Byte} (hreg : r.regs.RegionsOk) (hbus : r.NoBusError)
    (hcap : 256 ≤ r.cfg.lzwCap.toNat) (hinput : r.input = lzwFile (lzwCodesOf r.cfg.lzwCap.toNat bs))
    (hfit : bs.length ≤ r.regs.outCap.toNat)
    (hstrict : r.regs.lzwStrict = false
      ∨ (lzwCodesOf r.cfg.lzwCap.toNat bs).length - 1 ≤ r.cfg.lzwCap.toNat - 256) :
    ∃ v, exec .lzwDecompress r = .next v ∧ v.Succeeded ∧ v.output = bs
      ∧ v.Holds (encodeDict r.cfg.lzwCap.toNat seedStrings [] bs)
      ∧ v.regs.lzwCodes = BitVec.ofNat 32 (lzwCodesOf r.cfg.lzwCap.toNat bs).length
      ∧ v.regs.lzwNext = v.lzw.next := by
  have hroom : ({ launched 4#3 r with phase := .lDecode } : State).Room bs.length :=
    room_of_outLen_zero hreg hfit rfl rfl rfl
  have hdec : ∃ t p, decompressAll { launched 4#3 r with phase := .lDecode } = .ok () t
      ∧ ({ launched 4#3 r with phase := .lDecode } : State).Decoded bs (lzwCodesOf r.cfg.lzwCap.toNat bs).length
          (encodeDict r.cfg.lzwCap.toNat seedStrings [] bs) p t := by
    cases bs with
    | nil =>
      exact decompressAll_nil (s := { launched 4#3 r with phase := .lDecode }) hcap rfl rfl hinput
    | cons b rest =>
      obtain ⟨codes, hcodes, hdecode, hdict⟩ := lzwCodesOf_cons r.cfg.lzwCap.toNat b rest
      rw [hcodes] at hinput hstrict ⊢
      rw [← hdict]
      exact decompressAll_ok (s := { launched 4#3 r with phase := .lDecode }) hreg (hbus.of_cfg rfl) hcap rfl rfl hinput
        hdecode hroom hstrict
  obtain ⟨t, p, hrun, m, d, c, l, rfl, hm, hholds, -⟩ := hdec
  refine ⟨_, exec_decodeOp 4#3 r, ?_⟩
  rw [runCommand_completed (op := 4#3) (by decide) hreg ((lzwDecompress_eq _).trans hrun)]
  obtain ⟨hsucc, hout⟩ := completed_coding (s := { launched 4#3 r with phase := .lDecode }) (d := d) (c := c) (l := l)
    (k := (lzwCodesOf r.cfg.lzwCap.toNat bs).length) rfl rfl rfl rfl hroom hm
  exact ⟨hsucc, hout, hholds.congr rfl rfl rfl, rfl, rfl⟩

/-- Settles O60: encoder and decoder follow the string algorithm, whose two sides insert the same strings, and a
dictionary without repetitions is determined by its strings. -/
theorem lzwRoundTrip : Obligations.LzwRoundTrip := by
  unfold Obligations.LzwRoundTrip
  intro s hreg hbus hcap _ hfit hstrict
  obtain ⟨t, hexec, hsucc, hout, hholds, hD, hcount, hnext⟩ := lzwCompress_file hreg hbus hcap hfit hstrict
  refine ⟨t, hexec, hsucc, hout, fun r hregr hbusr hcapr hstrictr hin hfitr => ?_⟩
  rw [← hcapr] at hcap hout hstrict hholds hD hcount
  rw [← hstrictr] at hstrict
  obtain ⟨v, hexecv, hsuccv, houtv, hholdsv, hcountv, hnextv⟩ := lzwDecompress_file hregr hbusr hcap (hin.trans hout)
    (by rwa [length_input]) hstrict
  have hnext' : v.lzw.next = t.lzw.next := BitVec.eq_of_toNat_eq (by rw [← hholdsv.length, hholds.length])
  exact ⟨v, hexecv, hsuccv, houtv, hholdsv.dict_eq hholds hD, by rw [hnextv, hnext, hnext'], by rw [hcountv, hcount]⟩

end Sys2Proof.Machine

/-! PROOFS. The family of 60_exceptions.md: what error termination leaves (R307) and the codes of the error kinds
(R300). -/

namespace Sys2Proof.Machine

/-- R307: the whole state error termination leaves. ELAPSED is the next free value (R34, R315). -/
theorem raiseError_eq (e : Raise) (s : State) :
    raiseError e s = { s with
      phase := .idle
      regs := { s.regs with
        errCode := e.kind.code, error := true, errInfo := e.info, busy := false, done := true,
        elapsed := Config.elapsedTicks s.draws }
      draws := s.draws + 1 } := rfl

/-- Settles O22: the free value drawn at the raise is ELAPSED's, and the codes are R300's table. -/
theorem errorTermination : Obligations.ErrorTermination := by
  unfold Obligations.ErrorTermination
  have hcodes : ErrKind.code .ioOpen = 1#3 ∧ ErrKind.code .ioRead = 2#3 ∧ ErrKind.code .ioWrite = 3#3
      ∧ ErrKind.code .corruptHeader = 4#3 ∧ ErrKind.code .corruptData = 5#3
      ∧ ErrKind.code .unsupportedConfiguration = 6#3 := by decide
  exact ⟨fun e s => ⟨Config.elapsedTicks s.draws, raiseError_eq e s⟩, hcodes⟩

end Sys2Proof.Machine

/-! PROOFS. The family of 70_reset_and_hazards.md: the software reset with its abort of a running command (R341,
R342), the state after reset (R343), and the status that stays readable after START (R346). -/

namespace Sys2Proof.Machine

/-! The software reset -/

/-- R143: the command in flight is the one of CMD.OP. -/
theorem exec_inFlight (s : State) : exec (decodeCmd (s.regWord 0x0C#8)) s = .next (runCommand s.regs.op s) := by
  have hword : s.regWord 0x0C#8 = s.regs.op.setWidth 32 := rfl
  rw [hword, decodeCmd_op, exec_decodeOp]

/-- R341: with no command in flight. -/
theorem softReset_idle {s : State} (hb : s.regs.busy = false) : softReset s = resetCore s := by
  simp only [softReset, hb, Bool.false_eq_true, if_false]

/-- R342: with a command in flight. -/
theorem softReset_busy {s : State} (hb : s.regs.busy = true) :
    softReset s = resetCore { s with mem := abortedMem s, draws := (runCommand s.regs.op s).draws + 1 } := by
  simp only [softReset, hb, if_true]

/-- R342: after an abort, memory holds the first n of the bytes that the command would have written. -/
theorem read_abortedMem (s : State) : ∃ n, n ≤ (runCommand s.regs.op s).regs.outLen.toNat
    ∧ ∀ a, Memory.read (abortedMem s) a =
        if s.regs.outBase.toNat ≤ a ∧ a < s.regs.outBase.toNat + n then
          Memory.read (runCommand s.regs.op s).mem a
        else Memory.read s.mem a :=
  ⟨min (Config.abortWrites s.draws) (inFlightWrites s), Nat.min_le_right _ _, Memory.read_copyFrom _ _ _ _⟩

/-- R108: SRESET is the write that SOFT_RESET is. -/
theorem exec_sreset (s : State) : exec .sreset s = exec .softReset s := rfl

/-- Settles O9: an idle reset clears, and an abort also leaves the first bytes of the command's output. -/
theorem softReset_outcome : Obligations.SoftReset := by
  unfold Obligations.SoftReset
  intro s i hr hi
  have hexec : exec i s = .next (softReset s) := by
    obtain rfl | rfl := hi
    · exact exec_softReset hr
    · rw [exec_sreset, exec_softReset hr]
  rw [hexec]
  refine ⟨fun hb => ?idle, fun u hb hu => ?abort⟩
  case idle =>
    rw [softReset_idle hb]
    rfl
  case abort =>
    obtain rfl : runCommand s.regs.op s = u := Host.Outcome.next.inj ((exec_inFlight s).symm.trans hu)
    obtain ⟨n, hn, hmem⟩ := read_abortedMem s
    refine ⟨n, abortedMem s, (runCommand s.regs.op s).draws + 1, hn, ?_, hmem⟩
    rw [softReset_busy hb]
    rfl

/-! BUSY or DONE stays 1 -/

/-- R346: BUSY or DONE is 1. -/
def State.BusyOrDone (s : State) : Prop := s.regs.busy = true ∨ s.regs.done = true

section
variable {s t : State} {off : Byte} {v : Word}

theorem State.BusyOrDone.of_regs (h : s.BusyOrDone) (e : t.regs = s.regs) : t.BusyOrDone := by
  unfold State.BusyOrDone
  rwa [e]

theorem runCommand_busyOrDone (op : BitVec 3) (s : State) : (runCommand op s).BusyOrDone :=
  .inr (runCommand_done op s)

/-! Register writes -/

/-- R140: a CTRL write that does not reset leaves BUSY and DONE or launches a command. -/
theorem hostWriteCtrl_busyOrDone (h : s.BusyOrDone) (h1 : v.getLsbD 1 = false) :
    (hostWriteCtrl v s).BusyOrDone := by
  cases hb : s.regs.busy with
  | true =>
    rw [hostWriteCtrl_busy h1 hb]
    exact .inl hb
  | false =>
    cases h0 : v.getLsbD 0 with
    | true =>
      rw [hostWriteCtrl_start h1 hb h0]
      exact .inl rfl
    | false =>
      rw [hostWriteCtrl_idle h1 hb h0]
      exact h

/-- R147: only CTRL and STATUS writes reach BUSY and DONE. -/
theorem writeReg_flags (hctrl : off ≠ offCtrl) (hstatus : off ≠ offStatus) (v : Word) (s : State) :
    (writeReg off v s).regs.busy = s.regs.busy ∧ (writeReg off v s).regs.done = s.regs.done := by
  simp only [writeReg, writeConfig, hctrl, hstatus, if_false]
  split_ifs <;> exact ⟨rfl, rfl⟩

/-- A register write resets FCCORE (R146) or clears DONE (R145). -/
def ClearingWrite (off : Byte) (v : Word) : Prop := (off = offCtrl ∨ off = offStatus) ∧ v.getLsbD 1 = true

theorem writeReg_busyOrDone (h : s.BusyOrDone) (hclear : ¬ClearingWrite off v) : (writeReg off v s).BusyOrDone := by
  have hbit (hoff : off = offCtrl ∨ off = offStatus) : v.getLsbD 1 = false :=
    Bool.eq_false_iff.mpr fun h1 => hclear ⟨hoff, h1⟩
  by_cases hctrl : off = offCtrl
  · subst hctrl
    exact hostWriteCtrl_busyOrDone h (hbit (.inl rfl))
  · by_cases hstatus : off = offStatus
    · subst hstatus
      have hkeep : writeReg offStatus v s = s := hostWriteStatus_noDone (hbit (.inr rfl)) s
      rwa [hkeep]
    · obtain ⟨hbusy, hdone⟩ := writeReg_flags hctrl hstatus v s
      unfold State.BusyOrDone
      rwa [hbusy, hdone]

theorem hostWrite_next (h : hostWrite off v s = .next t) : t = writeReg off v s := by
  unfold hostWrite at h
  split at h
  · cases h
  · exact (Host.Outcome.next.inj h).symm

theorem hostWrites_busyOrDone {ws : List (Byte × Word)} (h : s.BusyOrDone)
    (hclear : ∀ w ∈ ws, ¬ClearingWrite w.1 w.2) (ht : hostWrites ws s = .next t) : t.BusyOrDone := by
  induction ws generalizing s with
  | nil => exact Host.Outcome.next.inj ht ▸ h
  | cons w rest ih =>
    obtain ⟨hfirst, hrest⟩ := List.forall_mem_cons.mp hclear
    rw [hostWrites] at ht
    split at ht
    case h_1 u hu =>
      have hu' : u.BusyOrDone := hostWrite_next hu ▸ writeReg_busyOrDone h hfirst
      exact ih hu' hrest ht
    case h_2 => cases ht
    case h_3 => cases ht

/-! Host entries that write no register -/

/-- R22: a register read has no side effect on the registers. -/
theorem readReg_regs (off : Byte) (s : State) : (readReg off s).2.regs = s.regs := by
  unfold readReg
  split_ifs <;> rfl

theorem hostRd_regs (h : hostRd off s = .next t) : t.regs = s.regs := by
  unfold hostRd at h
  split at h
  · cases h
  · cases h
    exact readReg_regs off s

theorem hostPoll_regs {mask val : Word} (h : hostPoll off mask val s = .next t) : t.regs = s.regs := by
  unfold hostPoll at h
  split at h
  · cases h
  · split_ifs at h <;> cases h <;> exact readReg_regs off s

theorem hostWaitIrq_regs (h : hostWaitIrq s = .next t) : t.regs = s.regs := by
  unfold hostWaitIrq at h
  split_ifs at h <;> cases h <;> rfl

theorem hostMem_regs {addr : Word} {bytes : List Byte} (h : hostMem addr bytes s = .next t) :
    t.regs = s.regs := by
  unfold hostMem at h
  split_ifs at h
  cases h
  rfl

theorem hostMemRd_regs {addr : Word} (h : hostMemRd addr s = .next t) : t.regs = s.regs := by
  unfold hostMemRd at h
  split_ifs at h
  cases h
  rfl

theorem hostBusRead_regs {addr : Word} {width : Nat} (h : hostBusRead addr width s = .next t) :
    t.regs = s.regs := by
  unfold hostBusRead at h
  split at h
  · cases h
  · split_ifs at h
    exact hostRd_regs h

/-- R22: a bus write that takes effect is a register write. -/
theorem hostBusWrite_next {addr : Word} {bytes : List Byte} (h : hostBusWrite addr bytes s = .next t) :
    ∃ off v, HostOp.writes s (.busWrite addr bytes) off v ∧ t = writeReg off v s := by
  unfold hostBusWrite at h
  split at h
  case h_1 => cases h
  case h_2 off hoff =>
    split_ifs at h with hlen
    rw [hostWr_eq_hostWrite] at h
    exact ⟨off, _, .inr ⟨addr, bytes, rfl, hlen, hoff, rfl⟩, hostWrite_next h⟩

theorem hostInstr_next {i : Instr} (h : hostInstr i s = .next t) : i.hostIssuable = true ∧ exec i s = .next t := by
  unfold hostInstr at h
  split_ifs at h with hi
  exact ⟨hi, h⟩

/-- R104: what one entry of the host can do to the registers: nothing, a register write, the reset input, or an
instruction. -/
theorem hostTurn_cases {op : HostOp} (h : hostTurn op s = .next t) :
    t.regs = s.regs ∨ (∃ off v, op.writes s off v ∧ t = writeReg off v s) ∨ (∃ b, op = .hwReset b)
      ∨ ∃ i, op = .instr i ∧ i.hostIssuable = true ∧ exec i s = .next t := by
  cases op with
  | wr off v => exact .inr (.inl ⟨off, v, .inl rfl, hostWrite_next (hostWr_eq_hostWrite off v s ▸ h)⟩)
  | rd off => exact .inl (hostRd_regs h)
  | poll off mask val => exact .inl (hostPoll_regs h)
  | waitIrq => exact .inl (hostWaitIrq_regs h)
  | mem addr bytes => exact .inl (hostMem_regs h)
  | memRd addr => exact .inl (hostMemRd_regs h)
  | busWrite addr bytes => exact .inr (.inl (hostBusWrite_next h))
  | busRead addr width => exact .inl (hostBusRead_regs h)
  | hwReset b => exact .inr (.inr (.inl ⟨b, rfl⟩))
  | latency n =>
    cases h
    exact .inl rfl
  | instr i =>
    obtain ⟨hi, hexec⟩ := hostInstr_next h
    exact .inr (.inr (.inr ⟨i, rfl, hi, hexec⟩))

/-! Instructions -/

/-- R103 to R108: a host issues a control action or a pseudo-instruction. -/
theorem hostIssuable_cases {i : Instr} (h : i.hostIssuable = true) :
    (i = .softReset ∨ i = .sreset ∨ i = .clearDone ∨ i = .clrdone) ∨ (∃ a b, i = .start a b) ∨ i = .waitdone
      ∨ ∃ op inBase inLen outBase outCap cfg, i = .run op inBase inLen outBase outCap cfg := by
  cases i
  case softReset => exact .inl (.inl rfl)
  case sreset => exact .inl (.inr (.inl rfl))
  case clearDone => exact .inl (.inr (.inr (.inl rfl)))
  case clrdone => exact .inl (.inr (.inr (.inr rfl)))
  case start a b => exact .inr (.inl ⟨a, b, rfl⟩)
  case waitdone => exact .inr (.inr (.inl rfl))
  case run => exact .inr (.inr (.inr ⟨_, _, _, _, _, _, rfl⟩))
  all_goals exact absurd h Bool.false_ne_true

/-- R105: the CTRL word of RUN is a START without a reset. -/
theorem runCtrlWord_one (cfg : Word) : (runCtrlWord cfg)[1] = false := by
  simp [runCtrlWord]

/-- R105: none of RUN's six writes resets or clears DONE. -/
theorem exec_run_busyOrDone {op inBase inLen outBase outCap cfg : Word} (h : s.BusyOrDone)
    (ht : exec (.run op inBase inLen outBase outCap cfg) s = .next t) : t.BusyOrDone := by
  refine hostWrites_busyOrDone h ?_ ht
  simp [ClearingWrite, runCtrlWord_one, offCtrl, offStatus, offInBase, offInLen, offOutBase, offOutCap, offCmd]

/-- R346: an instruction of a host that neither resets nor clears DONE. -/
theorem exec_hostIssuable_busyOrDone {i : Instr} (h : s.BusyOrDone) (hi : i.hostIssuable = true)
    (hclear : ¬(HostOp.instr i).clearsDone s) (ht : exec i s = .next t) : t.BusyOrDone := by
  obtain hreset | ⟨a, b, rfl⟩ | rfl | ⟨op, inBase, inLen, outBase, outCap, cfg, rfl⟩ := hostIssuable_cases hi
  case inl =>
    refine absurd (.inr ?_) hclear
    obtain rfl | rfl | rfl | rfl := hreset <;> simp
  case inr.inl =>
    obtain ⟨-, h1, -, -⟩ := getLsbD_startWord a b
    have hwrite : t = writeReg offCtrl (startWord a b) s := hostWrite_next ht
    rw [hwrite]
    exact hostWriteCtrl_busyOrDone h h1
  case inr.inr.inl => exact h.of_regs (hostPoll_regs ht)
  case inr.inr.inr => exact exec_run_busyOrDone h ht

theorem hostTurn_busyOrDone {op : HostOp} (h : s.BusyOrDone) (hclear : ¬op.clearsDone s)
    (ht : hostTurn op s = .next t) : t.BusyOrDone := by
  obtain hregs | ⟨off, v, hwrites, rfl⟩ | ⟨b, rfl⟩ | ⟨i, rfl, hi, hexec⟩ := hostTurn_cases ht
  · exact h.of_regs hregs
  · exact writeReg_busyOrDone h fun ⟨hoff, h1⟩ => hclear (.inl ⟨off, v, hwrites, hoff, h1⟩)
  · exact absurd (by simp [HostOp.clearsDone]) hclear
  · exact exec_hostIssuable_busyOrDone h hi hclear hexec

/-- R143: the step in which the engine has its turn. -/
theorem step_engineTurn (hdue : engineDue s = true) : step s = .next (runCommand s.regs.op s) := by
  rw [step, turn, if_pos hdue]
  exact exec_inFlight s

/-- START leaves BUSY = 1, whether it launches a command (R141) or finds one in flight. -/
theorem exec_start_busy (a b : Bool) (hr : s.hwReset = false) :
    ∃ t, exec (.start a b) s = .next t ∧ t.regs.busy = true := by
  cases hb : s.regs.busy with
  | false => exact ⟨_, exec_start_idle a b hr hb, rfl⟩
  | true =>
    obtain ⟨-, h1, -, -⟩ := getLsbD_startWord a b
    exact ⟨_, (hostWrite_ctrl hr _).trans (congrArg _ (hostWriteCtrl_busy h1 hb)), hb⟩

end

/-- Settles O25: the engine's turn ends in DONE, and each host entry that does not clear or reset keeps BUSY or DONE
or launches. -/
theorem statusAfterStart : Obligations.StatusAfterStart := by
  unfold Obligations.StatusAfterStart
  refine ⟨fun s a b hr => exec_start_busy a b hr, fun s t (h : s.BusyOrDone) ht hclear => ?_⟩
  cases hdue : engineDue s with
  | true =>
    obtain rfl : runCommand s.regs.op s = t := Host.Outcome.next.inj ((step_engineTurn hdue).symm.trans ht)
    exact runCommand_busyOrDone _ s
  | false =>
    have hclear' := hclear.resolve_left (by simp [hdue])
    cases hhost : s.host with
    | nil =>
      have hstay : step s = .next s := by simp [step, turn, hdue, hhost]
      exact Host.Outcome.next.inj (hstay.symm.trans ht) ▸ h
    | cons op rest =>
      rw [step_hostTurn hdue hhost] at ht
      exact hostTurn_busyOrDone (s := takeEntry rest s) h (hclear' op rest hhost) ht

/-! The state after reset -/

/-- R44: a byte value without a code shows no code bit. -/
theorem symCodeBits_zero (bits : BitVec 255) (m j : Nat) : symCodeBits 0 bits m j = 0#32 := by
  induction j with
  | zero => rfl
  | succ j ih => simp [symCodeBits, ih, flagAt]

theorem symCode_reset (m : Nat) : State.reset.symCode m = 0#32 := by
  have hlen : tget State.reset.huff.codeLen State.reset.regs.symSel = 0#8 := tget_replicate _ _
  rw [State.symCode, hlen]
  exact symCodeBits_zero _ m 32

/-- R343: every register but the three constant ones reads 0. -/
theorem regWord_reset {off : Byte} (hid : off ≠ 0x00#8) (hversion : off ≠ 0x04#8) (hcap : off ≠ 0x44#8) :
    State.reset.regWord off = 0#32 := by
  unfold State.regWord
  split
  case h_1 e => exact absurd (BitVec.eq_of_toNat_eq e) hid
  case h_2 e => exact absurd (BitVec.eq_of_toNat_eq e) hversion
  case h_18 e => exact absurd (BitVec.eq_of_toNat_eq e) hcap
  all_goals rfl

/-- Settles O6: every item is the reset value of its field. -/
theorem resetState : Obligations.ResetState := by
  unfold Obligations.ResetState
  refine ⟨rfl, rfl, fun off => regWord_reset, rfl, rfl, rfl, fun b => ?_, rfl, rfl, rfl, rfl, rfl, rfl, rfl, rfl,
    fun a => rfl, rfl⟩
  exact ⟨tget_replicate _ b, tget_replicate _ b, tget_replicate _ b, tget_replicate _ b, tget_replicate _ b⟩

end Sys2Proof.Machine

/-! PROOFS. The family of 30_encoding.md: decoding gives back what the encoder writes (R101, R103, R105). -/

namespace Sys2Proof.Machine

/-- R105: RUN's CTRL word with the bits of cfg masked off is START alone. -/
theorem runCtrlWord_action (cfg : Word) : runCtrlWord cfg &&& 0xFFFFFFF3#32 = 1#32 := by
  have hlow : (cfg &&& 12#32) &&& 0xFFFFFFF3#32 = 0#32 := by
    rw [BitVec.and_assoc]
    exact BitVec.and_zero
  have hdistrib : runCtrlWord cfg &&& 0xFFFFFFF3#32
      = ((cfg &&& 12#32) &&& 0xFFFFFFF3#32) ||| (1#32 &&& 0xFFFFFFF3#32) := by
    rw [runCtrlWord, BitVec.and_comm, BitVec.and_or_distrib_left, BitVec.and_comm,
      BitVec.and_comm (0xFFFFFFF3#32) (1#32)]
  rw [hdistrib, hlow]
  rfl

/-- R105: RUN's CTRL word keeps IRQ_EN and LZW_STRICT of cfg. -/
theorem runCtrlWord_cfg (cfg : Word) : runCtrlWord cfg &&& 12#32 = cfg &&& 12#32 := by
  have hdistrib : runCtrlWord cfg &&& 12#32 = ((cfg &&& 12#32) &&& 12#32) ||| (1#32 &&& 12#32) := by
    rw [runCtrlWord, BitVec.and_comm, BitVec.and_or_distrib_left, BitVec.and_comm, BitVec.and_comm (12#32) (1#32)]
  rw [hdistrib, BitVec.and_assoc]
  exact BitVec.or_zero

/-- R103: the CTRL word of START is decoded to START. -/
theorem decode_start (a b : Bool) : decode (wr offCtrl (startWord a b)) = .ok (.start a b) := by
  obtain ⟨h0, h1, h2, h3⟩ := getLsbD_startWord a b
  have hact : decode (wr offCtrl (startWord a b)) = decodeAction 0x08#8 (startWord a b) := rfl
  rw [hact, decodeAction_ctrl, h0, h1, h2, h3]
  rfl

/-- R101, R103: one transaction encodes a command or a control action. -/
theorem decodeList_encode {i : Instr} (hi : i.isCommand = true ∨ i.isControl = true) :
    decodeList (encode i) = .ok i := by
  cases i
  case start a b => exact decode_start a b
  case huffCompress | huffDecompress | lzwCompress | lzwDecompress => rfl
  case reserved0 | reserved5 | reserved6 | reserved7 => rfl
  case softReset | clearDone => rfl
  all_goals exact absurd hi (by simp [Instr.isCommand, Instr.isControl])

/-- R105: the six transactions of RUN. -/
theorem decodeList_encode_run (op inBase inLen outBase outCap cfg : Word) :
    decodeList (encode (.run op inBase inLen outBase outCap cfg))
      = .ok (.run op inBase inLen outBase outCap (cfg &&& 12#32)) := by
  rw [← runCtrlWord_cfg]
  exact if_pos (by rw [runCtrlWord_action]; decide)

/-- R102: every OP value selects a command. -/
theorem isCommand_decodeOp (op : BitVec 3) : (decodeOp op).isCommand = true := by
  revert op
  decide

/-- R103: what a CTRL or STATUS write encodes is a control action. -/
theorem isControl_of_decodeAction {off : Byte} {v : Word} {i : Instr} (h : decodeAction off v = .ok i) :
    i.isControl = true := by
  rw [decodeAction] at h
  split_ifs at h <;> cases h <;> rfl

/-- Settles O3: each instruction's transactions decode to it, and a transaction decodes to a command or a control
action only. -/
theorem decodeOfEncode : Obligations.DecodeOfEncode := by
  unfold Obligations.DecodeOfEncode
  refine ⟨fun i => decodeList_encode, decodeList_encode_run, rfl, rfl, fun t i ht => ?_⟩
  have hi : i.isCommand = true ∨ i.isControl = true := by
    rw [decode] at ht
    cases hdir : t.dir with
    | read => simp [hdir] at ht
    | write =>
      simp only [hdir] at ht
      split_ifs at ht
      · cases ht
        exact .inl (isCommand_decodeOp _)
      · exact .inr (isControl_of_decodeAction ht)
  exact ⟨hi, decodeList_encode hi⟩

/-- Settles O4: each word is run through the decoder. -/
theorem sampleWordsDecode : Obligations.SampleWordsDecode := by
  unfold Obligations.SampleWordsDecode
  decide

end Sys2Proof.Machine

/-! PROOFS. The invariant of every state a run reaches (10_state.md, 60_exceptions.md, 70_reset_and_hazards.md): it holds
after reset and every step keeps it. -/

namespace Sys2Proof.Machine

/-! The invariant -/

/-- What the invariant says of the registers: BUSY, DONE, ERROR, ERR_CODE and ERR_INFO. -/
def Regs.flags (r : Regs) : Bool × Bool × Bool × BitVec 3 × Word := (r.busy, r.done, r.error, r.errCode, r.errInfo)

section
variable {s t : State} {op : BitVec 3}

/-- The invariant speaks of memory, PHASE, the parameters, the reset input and the flags only. -/
theorem State.Inv.congr (h : s.Inv) (hmem : Memory.wf t.mem = true) (hphase : t.phase = s.phase) (hcfg : t.cfg = s.cfg)
    (hreset : t.hwReset = s.hwReset) (hflags : t.regs.flags = s.regs.flags) : t.Inv := by
  simp only [Regs.flags, Prod.mk.injEq] at hflags
  obtain ⟨hbusy, hdone, herror, hcode, hinfo⟩ := hflags
  refine ⟨hmem, ?_, ?_, ?_, ?_, ?_, ?_, ?_⟩
  · rw [hbusy, hphase]; exact h.busy
  · rw [hbusy, hdone]; exact h.done
  · rw [herror, hcode]; exact h.error
  · rw [hcode]; exact h.code
  · rw [herror, hinfo]; exact h.info
  · rw [hcfg]; exact h.cap
  · rw [hreset, hbusy]; exact h.inReset

/-- R341: reset leaves the invariant, whatever the registers held. -/
theorem inv_resetCore (hmem : Memory.wf s.mem = true) (hcap : 256 ≤ s.cfg.lzwCap.toNat ∧ s.cfg.lzwCap.toNat ≤ 2 ^ 31)
    (b : Bool) : ({ resetCore s with hwReset := b } : State).Inv :=
  ⟨hmem, by simp [Regs.reset], by simp [Regs.reset], by simp [Regs.reset], by simp [Regs.reset], by simp [Regs.reset],
    hcap, fun _ => rfl⟩

/-- Settles O7: after reset every flag is clear and nothing is written. -/
theorem resetInvariant : Obligations.ResetInvariant := by
  unfold Obligations.ResetInvariant
  exact inv_resetCore (s := State.reset) rfl (by decide) false

/-! Whole commands -/

/-- R300: the codes of the six kinds are 1 to 6. -/
theorem errCode_of_kind (k : ErrKind) : k.code ≠ 0#3 ∧ k.code ≠ 7#3 := by cases k <;> decide

/-- A launched command has written nothing yet. -/
theorem outOk_launch (s : State) : (launch s).OutOk :=
  ⟨Nat.zero_le _, Nat.le_of_lt s.regs.outBase.isLt⟩

/-- R144, R307: how a command ends: without an error and with the flags of no error, or with one of the six kinds. -/
theorem runCommand_flags (op : BitVec 3) (s : State) :
    ((runCommand op s).regs.error = false ∧ (runCommand op s).regs.errCode = 0#3
        ∧ (runCommand op s).regs.errInfo = 0#32)
      ∨ (runCommand op s).regs.error = true ∧ (runCommand op s).regs.errCode ≠ 0#3
        ∧ (runCommand op s).regs.errCode ≠ 7#3 := by
  obtain ⟨t, hkeeps, hend | ⟨e, hend⟩⟩ := runCommand_ends op s
  · have hregs := fixedPart_regs hkeeps.fixed
    rw [hend]
    exact .inl ⟨congrArg Regs.error hregs, congrArg Regs.errCode hregs, congrArg Regs.errInfo hregs⟩
  · rw [hend]
    exact .inr ⟨rfl, errCode_of_kind e.kind⟩

/-- R144, R307: a command that has ended is idle with DONE. -/
theorem runCommand_idle (op : BitVec 3) (s : State) :
    (runCommand op s).phase = .idle ∧ (runCommand op s).regs.busy = false ∧ (runCommand op s).regs.done = true := by
  obtain ⟨t, -, hend | ⟨e, hend⟩⟩ := runCommand_ends op s <;> rw [hend] <;> exact ⟨rfl, rfl, rfl⟩

/-- A command leaves the parameters. -/
theorem runCommand_cfg (op : BitVec 3) (s : State) : (runCommand op s).cfg = s.cfg := by
  obtain ⟨t, hkeeps, hend⟩ := runCommand_ends op s
  have hcfg : t.cfg = s.cfg := (fixed_cfg hkeeps.fixed).trans rfl
  obtain hend | ⟨e, hend⟩ := hend <;> rw [hend] <;> exact hcfg

/-- R352: a command writes its output region only, and keeps memory in canonical form. -/
theorem runCommand_out (op : BitVec 3) (s : State) :
    (runCommand op s).regs.outLen.toNat ≤ s.regs.outCap.toNat
      ∧ s.regs.outBase.toNat + (runCommand op s).regs.outLen.toNat ≤ 2 ^ 32
      ∧ SameMemBut s.regs.outBase.toNat (runCommand op s).regs.outLen.toNat s (runCommand op s)
      ∧ (Memory.wf s.mem = true → Memory.wf (runCommand op s).mem = true) := by
  obtain ⟨t, hkeeps, hend⟩ := runCommand_ends op s
  obtain ⟨⟨hcap, hbase⟩, -, hmem, hwf⟩ := hkeeps.out (outOk_launch _)
  have hbound : t.regs.outLen.toNat ≤ s.regs.outCap.toNat ∧ s.regs.outBase.toNat + t.regs.outLen.toNat ≤ 2 ^ 32
      ∧ SameMemBut s.regs.outBase.toNat t.regs.outLen.toNat s t
      ∧ (Memory.wf s.mem = true → Memory.wf t.mem = true) := by
    rw [fixed_outCap hkeeps.fixed] at hcap
    rw [fixed_outBase hkeeps.fixed] at hbase
    exact ⟨hcap, hbase, hmem, hwf⟩
  obtain hend | ⟨e, hend⟩ := hend <;> rw [hend] <;> exact hbound

theorem inv_runCommand (hmem : Memory.wf s.mem = true)
    (hcap : 256 ≤ s.cfg.lzwCap.toNat ∧ s.cfg.lzwCap.toNat ≤ 2 ^ 31) : (runCommand op s).Inv := by
  obtain ⟨hphase, hbusy, -⟩ := runCommand_idle op s
  obtain ⟨-, -, -, hwf⟩ := runCommand_out op s
  have herr := runCommand_flags op s
  refine ⟨hwf hmem, by simp [hbusy, hphase], by simp [hbusy], ?_, ?_, ?_, by rwa [runCommand_cfg], fun _ => hbusy⟩
  all_goals obtain ⟨he, hc, hi⟩ | ⟨he, hc, hc'⟩ := herr
  · simp [he, hc]
  · simp [he, hc]
  · simp [hc]
  · exact hc'
  · exact fun _ => hi
  · simp [he]

/-! Resets -/

/-- R342: memory after an abort is in canonical form. -/
theorem wf_abortedMem (hmem : Memory.wf s.mem = true) : Memory.wf (abortedMem s) = true := by
  obtain ⟨-, hbase, -⟩ := runCommand_out s.regs.op s
  refine Memory.wf_copyFrom _ hmem ?_
  have hle := Nat.min_le_right (Config.abortWrites s.draws) (inFlightWrites s)
  rw [inFlightWrites] at hle ⊢
  omega

/-- What the reset input or a soft reset leaves. -/
theorem State.Inv.softReset (h : s.Inv) (b : Bool) : ({ Machine.softReset s with hwReset := b } : State).Inv := by
  cases hb : s.regs.busy with
  | false =>
    rw [softReset_idle hb]
    exact inv_resetCore h.mem h.cap b
  | true =>
    rw [softReset_busy hb]
    exact inv_resetCore (s := { s with mem := abortedMem s, draws := (runCommand s.regs.op s).draws + 1 })
      (wf_abortedMem h.mem) h.cap b

theorem softReset_hwReset (s : State) : (softReset s).hwReset = s.hwReset := by
  unfold softReset
  split_ifs <;> rfl

theorem State.Inv.driveHwReset (h : s.Inv) (b : Bool) : (Machine.driveHwReset b s).Inv := by
  rw [Machine.driveHwReset]
  split_ifs
  · exact h.softReset true
  · exact inv_resetCore h.mem h.cap false
  · exact h

/-! Register writes -/

/-- R141: START, outside the reset. -/
theorem State.Inv.launch (h : s.Inv) (hr : s.hwReset = false) : (Machine.launch s).Inv :=
  ⟨h.mem, by simp, by simp, by simp, by simp, by simp, h.cap, fun hreset => by simp [hr] at hreset⟩

theorem State.Inv.hostWriteCtrl (h : s.Inv) (hr : s.hwReset = false) (v : Word) : (Machine.hostWriteCtrl v s).Inv := by
  cases h1 : v.getLsbD 1 with
  | true =>
    rw [hostWriteCtrl_softReset h1]
    have hsoft := h.softReset s.hwReset
    rwa [← softReset_hwReset s] at hsoft
  | false =>
    cases hb : s.regs.busy with
    | true =>
      rw [hostWriteCtrl_busy h1 hb]
      exact h.congr h.mem rfl rfl rfl rfl
    | false =>
      have hset : ({ s with regs := { s.regs with
          irqEn := v.getLsbD 2, lzwStrict := v.getLsbD 3 } } : State).Inv := h.congr h.mem rfl rfl rfl rfl
      cases h0 : v.getLsbD 0 with
      | true =>
        rw [hostWriteCtrl_start h1 hb h0]
        exact hset.launch hr
      | false =>
        rw [hostWriteCtrl_idle h1 hb h0]
        exact hset

theorem State.Inv.hostWriteStatus (h : s.Inv) (v : Word) : (Machine.hostWriteStatus v s).Inv := by
  cases h1 : v.getLsbD 1 with
  | true =>
    rw [hostWriteStatus_done h1]
    exact ⟨h.mem, h.busy, by simp, h.error, h.code, h.info, h.cap, h.inReset⟩
  | false =>
    rw [hostWriteStatus_noDone h1]
    exact h

/-- R147: a write to any other register leaves the flags, PHASE and the reset input. -/
theorem writeReg_other {off : Byte} (hctrl : off ≠ offCtrl) (hstatus : off ≠ offStatus) (v : Word) (s : State) :
    ∃ r, writeReg off v s = { s with regs := r } ∧ r.flags = s.regs.flags := by
  simp only [writeReg, writeConfig, hctrl, hstatus, if_false]
  split_ifs <;> exact ⟨_, rfl, rfl⟩

theorem State.Inv.writeReg (h : s.Inv) (hr : s.hwReset = false) (off : Byte) (v : Word) :
    (Machine.writeReg off v s).Inv := by
  by_cases hctrl : off = offCtrl
  · subst hctrl
    exact h.hostWriteCtrl hr v
  · by_cases hstatus : off = offStatus
    · subst hstatus
      exact h.hostWriteStatus v
    · obtain ⟨r, hwrite, hflags⟩ := writeReg_other hctrl hstatus v s
      rw [hwrite]
      exact h.congr h.mem rfl rfl rfl hflags

/-- R340: a register write takes effect outside the reset only. -/
theorem hwReset_of_hostWrite {off : Byte} {v : Word} (h : hostWrite off v s = .next t) : s.hwReset = false := by
  unfold hostWrite accessRefusal at h
  split_ifs at h with hoff hreset
  exact Bool.eq_false_iff.mpr hreset

theorem State.Inv.hostWrite (h : s.Inv) {off : Byte} {v : Word} (ht : Machine.hostWrite off v s = .next t) : t.Inv :=
  hostWrite_next ht ▸ h.writeReg (hwReset_of_hostWrite ht) off v

theorem State.Inv.hostWrites (h : s.Inv) {ws : List (Byte × Word)} (ht : Machine.hostWrites ws s = .next t) : t.Inv := by
  induction ws generalizing s with
  | nil => exact Host.Outcome.next.inj ht ▸ h
  | cons w rest ih =>
    rw [Machine.hostWrites] at ht
    split at ht
    case h_1 u hu => exact ih (h.hostWrite hu) ht
    case h_2 => cases ht
    case h_3 => cases ht

/-! Host entries that write no register -/

/-- R22: a register read draws at most a free value. -/
theorem readReg_frame (off : Byte) (s : State) : ∃ d, (readReg off s).2 = { s with draws := d } := by
  unfold readReg
  split_ifs
  · exact ⟨_, rfl⟩
  · exact ⟨s.draws, rfl⟩

theorem State.Inv.hostRd (h : s.Inv) {off : Byte} (ht : Machine.hostRd off s = .next t) : t.Inv := by
  unfold Machine.hostRd at ht
  split at ht
  · cases ht
  · obtain ⟨d, hd⟩ := readReg_frame off s
    rw [hd] at ht
    cases ht
    exact h.congr h.mem rfl rfl rfl rfl

theorem State.Inv.hostPoll (h : s.Inv) {off : Byte} {mask val : Word}
    (ht : Machine.hostPoll off mask val s = .next t) : t.Inv := by
  unfold Machine.hostPoll at ht
  split at ht
  · cases ht
  · obtain ⟨d, hd⟩ := readReg_frame off s
    rw [hd] at ht
    split_ifs at ht <;> cases ht <;> exact h.congr h.mem rfl rfl rfl rfl

theorem State.Inv.hostWaitIrq (h : s.Inv) (ht : Machine.hostWaitIrq s = .next t) : t.Inv := by
  unfold Machine.hostWaitIrq at ht
  split_ifs at ht <;> cases ht <;> exact h.congr h.mem rfl rfl rfl rfl

theorem State.Inv.hostMem (h : s.Inv) {addr : Word} {bytes : List Byte}
    (ht : Machine.hostMem addr bytes s = .next t) : t.Inv := by
  unfold Machine.hostMem at ht
  split_ifs at ht with hfit hduty
  cases ht
  exact h.congr (Memory.wf_writeBytes bytes h.mem (Nat.le_of_not_lt hfit)) rfl rfl rfl rfl

theorem State.Inv.hostMemRd (h : s.Inv) {addr : Word} (ht : Machine.hostMemRd addr s = .next t) : t.Inv := by
  unfold Machine.hostMemRd at ht
  split_ifs at ht
  cases ht
  exact h.congr h.mem rfl rfl rfl rfl

theorem State.Inv.hostBusRead (h : s.Inv) {addr : Word} {width : Nat}
    (ht : Machine.hostBusRead addr width s = .next t) : t.Inv := by
  unfold Machine.hostBusRead at ht
  split at ht
  · cases ht
  · split_ifs at ht
    exact h.hostRd ht

theorem State.Inv.hostBusWrite (h : s.Inv) {addr : Word} {bytes : List Byte}
    (ht : Machine.hostBusWrite addr bytes s = .next t) : t.Inv := by
  unfold Machine.hostBusWrite at ht
  split at ht
  · cases ht
  · split_ifs at ht
    rw [hostWr_eq_hostWrite] at ht
    exact h.hostWrite ht

/-! The step -/

/-- R103 to R108: an instruction that a host issues. -/
theorem State.Inv.exec_hostIssuable (h : s.Inv) {i : Instr} (hi : i.hostIssuable = true)
    (ht : exec i s = .next t) : t.Inv := by
  obtain hwrite | ⟨a, b, rfl⟩ | rfl | ⟨op, inBase, inLen, outBase, outCap, cfg, rfl⟩ := hostIssuable_cases hi
  case inl => obtain rfl | rfl | rfl | rfl := hwrite <;> exact h.hostWrite ht
  case inr.inl => exact h.hostWrite ht
  case inr.inr.inl => exact h.hostPoll ht
  case inr.inr.inr => exact h.hostWrites ht

theorem State.Inv.hostTurn (h : s.Inv) {op : HostOp} (ht : Machine.hostTurn op s = .next t) : t.Inv := by
  cases op with
  | wr off v => exact h.hostWrite ((hostWr_eq_hostWrite off v s).symm.trans ht)
  | rd off => exact h.hostRd ht
  | poll off mask val => exact h.hostPoll ht
  | waitIrq => exact h.hostWaitIrq ht
  | mem addr bytes => exact h.hostMem ht
  | memRd addr => exact h.hostMemRd ht
  | busWrite addr bytes => exact h.hostBusWrite ht
  | busRead addr width => exact h.hostBusRead ht
  | hwReset b => exact Host.Outcome.next.inj ht ▸ h.driveHwReset b
  | latency n => exact Host.Outcome.next.inj ht ▸ h.congr h.mem rfl rfl rfl rfl
  | instr i =>
    obtain ⟨hi, hexec⟩ := hostInstr_next ht
    exact h.exec_hostIssuable hi hexec

/-- R343: an idle machine without a host entry stays. -/
theorem step_idle (hdue : engineDue s = false) (hhost : s.host = []) : step s = .next s := by
  simp [step, turn, hdue, hhost]

/-- Settles O8: the engine's turn is a whole command, and no host entry breaks the invariant. -/
theorem stepKeepsInvariant : Obligations.StepKeepsInvariant := by
  unfold Obligations.StepKeepsInvariant
  intro s t h ht
  cases hdue : engineDue s with
  | true =>
    obtain rfl := Host.Outcome.next.inj ((step_engineTurn hdue).symm.trans ht)
    exact inv_runCommand h.mem h.cap
  | false =>
    cases hhost : s.host with
    | nil => exact Host.Outcome.next.inj ((step_idle hdue hhost).symm.trans ht) ▸ h
    | cons op rest =>
      rw [step_hostTurn hdue hhost] at ht
      have hentry : (takeEntry rest s).Inv := h.congr h.mem rfl rfl rfl rfl
      exact hentry.hostTurn ht

/-- A command leaves its fixed part. -/
theorem runCommand_commandFixedPart (op : BitVec 3) (s : State) :
    (runCommand op s).commandFixedPart = s.commandFixedPart := by
  obtain ⟨t, hkeeps, hend⟩ := runCommand_ends op s
  have hblank (u v : State) (h : u.fixedPart = v.fixedPart) : u.commandFixedPart = v.commandFixedPart := by
    have hregs := fixedPart_regs h
    rw [State.commandFixedPart, State.commandFixedPart, h, hregs]
  have hpart : t.commandFixedPart = s.commandFixedPart := (hblank _ _ hkeeps.fixed).trans rfl
  obtain hend | ⟨e, hend⟩ := hend <;> rw [hend] <;> exact hpart

/-- A command leaves CMD.OP what it was run with. -/
theorem runCommand_op (op : BitVec 3) (s : State) : (runCommand op s).regs.op = op := by
  obtain ⟨t, hkeeps, hend | ⟨e, hend⟩⟩ := runCommand_ends op s <;> rw [hend] <;>
    exact congrArg Regs.op (fixedPart_regs hkeeps.fixed)

/-- Settles O23: every command completes or raises, and no engine operation leaves its output slots. -/
theorem commandsEnd : Obligations.CommandsEnd := by
  unfold Obligations.CommandsEnd
  intro s op
  obtain ⟨hphase, hbusy, hdone⟩ := runCommand_idle op s
  obtain ⟨hcap, -, hmem, -⟩ := runCommand_out op s
  exact ⟨_, exec_decodeOp op s, hphase, hbusy, hdone, runCommand_op op s, runCommand_flags op s,
    runCommand_commandFixedPart op s, hcap, hmem⟩

end

/-! START -/

/-- Settles O12: START is the launch, the launched command is due, and it ends. -/
theorem startLaunchesCommand : Obligations.StartLaunchesCommand := by
  unfold Obligations.StartLaunchesCommand
  intro s irqEn lzwStrict hr
  refine ⟨fun hb => ⟨_, rfl, exec_start_idle irqEn lzwStrict hr hb, fun hlat => ?_⟩, fun hb => ?_⟩
  · have hdue : engineDue (launch { s with regs := { s.regs with irqEn := irqEn, lzwStrict := lzwStrict } }) = true := by
      simp [engineDue, hr, hlat]
    obtain ⟨hphase, hbusy, hdone⟩ := runCommand_idle s.regs.op
      (launch { s with regs := { s.regs with irqEn := irqEn, lzwStrict := lzwStrict } })
    exact ⟨_, (step_engineTurn hdue).trans (exec_decodeOp _ _).symm, exec_decodeOp _ _, hbusy, hdone, hphase⟩
  · obtain ⟨-, h1, h2, -⟩ := getLsbD_startWord irqEn lzwStrict
    refine (hostWrite_ctrl hr _).trans (congrArg _ ?_)
    rw [hostWriteCtrl_busy h1 hb, h2]

end Sys2Proof.Machine

/-! PROOFS. The families of 20_memory.md and 41_bitpacker.md, one byte of the engine: InByte (R74), OutByte (R75),
UnpackBit (R174). -/

namespace Sys2Proof.Machine

/-- R74: InByte at an address of buffer memory. -/
theorem inByte_answered {i : Nat} {s : State} (ha : inAddr s i < 2 ^ 32) :
    (s.busAnswer (inAddr s i) .read = true → inByte i s = .error ⟨.ioRead, BitVec.ofNat 32 i⟩ s.answered)
      ∧ (s.busAnswer (inAddr s i) .read = false →
        inByte i s = .ok (Memory.read s.mem (inAddr s i)) { s.answered with cur := { s.cur with inPos := i + 1 } }) := by
  obtain ⟨d, -, hd⟩ := answered_eq s
  rw [inByte_run, drawn_of_lt ha, hd]
  constructor <;> intro hbus <;> rw [hbus] <;> rfl

/-- The detail of an OutByte error is OUT_LEN itself (R75). -/
theorem ofNat_toNat_word (w : Word) : BitVec.ofNat 32 w.toNat = w := by rw [BitVec.ofNat_toNat, BitVec.setWidth_eq]

/-- Settles O27: InByte and OutByte each ask the platform once. -/
theorem bytePrimitives : Obligations.BytePrimitives := by
  unfold Obligations.BytePrimitives
  refine ⟨fun i s ha => ?_, fun v s => ⟨fun hfull => ?_, fun hne ha => ⟨fun hbus => ?_, fun hbus => ?_⟩⟩⟩
  · obtain ⟨herror, hok⟩ := inByte_answered ha
    exact ⟨herror, fun hbus => ⟨_, hok hbus, rfl, rfl⟩⟩
  · rw [outByte_full v hfull, ofNat_toNat_word]
  · rw [outByte_busError v hne ha hbus, ofNat_toNat_word]
  · rw [outByte_written v hne ha hbus]
    obtain ⟨d, -, hd⟩ := answered_eq s
    rw [hd]
    rfl

/-- Settles O31: UnpackBit is one InByte and the choice of a bit. -/
theorem unpackBit_outcome : Obligations.UnpackBit := by
  unfold Obligations.UnpackBit
  intro S t s ha
  obtain ⟨herror, hok⟩ := inByte_answered ha
  refine ⟨fun hbus => runOp_error .bit ?_, fun hbus => ⟨{ s.cur with inPos := S + t / 8 + 1, bitPos := t + 1 }, ?_, rfl⟩⟩
  · rw [unpackBit, eng_bind, herror hbus]
  · exact runOp_ok .bit (op := unpackBit S t) ((bind_ok (hok hbus)).trans ((bind_ok (eng_modify _ _)).trans rfl))

end Sys2Proof.Machine

/-! PROOFS. The family of the host's side: RUN (R105), WAITDONE (R106), whose turn it is and what it runs (R143, R104),
refused accesses (R22, R92) and the hardware reset input (R340). -/

namespace Sys2Proof.Machine

/-! RUN and WAITDONE -/

/-- R105: the bits of RUN's CTRL word. -/
theorem getLsbD_runCtrlWord (cfg : Word) :
    (runCtrlWord cfg).getLsbD 0 = true ∧ (runCtrlWord cfg).getLsbD 1 = false
      ∧ (runCtrlWord cfg).getLsbD 2 = cfg.getLsbD 2 ∧ (runCtrlWord cfg).getLsbD 3 = cfg.getLsbD 3 := by
  simp [runCtrlWord]

/-- R105: outside the reset a list of writes to aligned offsets is made in order. -/
theorem hostWrites_cons {off : Byte} {v : Word} {ws : List (Byte × Word)} {s : State} (hr : s.hwReset = false)
    (ha : off.toNat % 4 = 0) : hostWrites ((off, v) :: ws) s = hostWrites ws (writeReg off v s) := by
  rw [hostWrites, hostWrite_aligned hr ha]

/-- R147: a write to a configuration register leaves the reset input. -/
theorem writeConfig_hwReset (f : Regs → Regs) (s : State) : (writeConfig f s).hwReset = s.hwReset := by
  unfold writeConfig
  split_ifs <;> rfl

/-- R105: RUN's writes, one after the other. -/
theorem exec_run {op inBase inLen outBase outCap cfg : Word} {s : State} (hr : s.hwReset = false) :
    exec (.run op inBase inLen outBase outCap cfg) s
      = .next (hostWriteCtrl (runCtrlWord cfg) (writeConfig (fun r => { r with op := opField op })
          (writeConfig (fun r => { r with outCap := outCap }) (writeConfig (fun r => { r with outBase := outBase })
            (writeConfig (fun r => { r with inLen := inLen }) (writeConfig (fun r => { r with inBase := inBase }) s)))))) := by
  show hostWrites [(0x14#8, inBase), (0x18#8, inLen), (0x1C#8, outBase), (0x20#8, outCap), (0x0C#8, op),
    (0x08#8, runCtrlWord cfg)] s = _
  rw [hostWrites_cons hr rfl, hostWrites_cons (by simp [writeConfig_hwReset, hr]) rfl,
    hostWrites_cons (by simp [writeConfig_hwReset, hr]) rfl, hostWrites_cons (by simp [writeConfig_hwReset, hr]) rfl,
    hostWrites_cons (by simp [writeConfig_hwReset, hr]) rfl, hostWrites_cons (by simp [writeConfig_hwReset, hr]) rfl,
    hostWrites, writeReg_ctrl, writeReg_cmd, writeReg_outCap, writeReg_outBase, writeReg_inLen, writeReg_inBase]

/-- Settles O15: the five configuration writes take effect when idle, and the CTRL word is a START. -/
theorem runWrites : Obligations.RunWrites := by
  unfold Obligations.RunWrites
  intro op inBase inLen outBase outCap cfg
  obtain ⟨h0, h1, h2, h3⟩ := getLsbD_runCtrlWord cfg
  refine ⟨rfl, fun s hr => ⟨fun hb => ?_, fun hb => ?_⟩⟩
  · rw [exec_run hr]
    simp only [writeConfig, hb, Bool.false_eq_true, if_false]
    refine congrArg _ ((hostWriteCtrl_start h1 ?_ h0).trans ?_)
    · rfl
    · rw [h2, h3]
      rfl
  · rw [exec_run hr, writeConfig_busy hb, writeConfig_busy hb, writeConfig_busy hb, writeConfig_busy hb,
      writeConfig_busy hb, hostWriteCtrl_busy h1 hb, h2]

/-- R106: bit 1 of STATUS is DONE. -/
theorem statusWord_and_two (r : Regs) : (r.statusWord &&& 2#32 = 2#32) ↔ r.done = true := by
  have hbit : (r.statusWord &&& 2#32).getLsbD 1 = r.done := by
    rw [BitVec.getLsbD_and, getLsbD_statusWord]
    simp
  constructor
  · intro h
    rw [h] at hbit
    exact hbit.symm
  · intro h
    refine BitVec.eq_of_getLsbD_eq fun i hi => ?_
    by_cases h1 : i = 1
    · rw [h1, hbit, h]
      rfl
    · rw [BitVec.getLsbD_and, show (2#32).getLsbD i = false by
        rw [show (2#32 : Word) = BitVec.twoPow 32 1 from rfl, BitVec.getLsbD_twoPow]
        simp [Ne.symm h1], Bool.and_false]

/-- R106: one round of WAITDONE. -/
theorem exec_waitdone {s : State} (hr : s.hwReset = false) :
    exec .waitdone s
      = if s.regs.done then .next s else .next { s with host := .poll 0x10#8 2#32 2#32 :: s.host } := by
  have hread : readReg offStatus s = (s.regs.statusWord, s) := readReg_visible (.inr rfl)
  have hallow : accessRefusal offStatus s = none := by simp [accessRefusal, hr, offStatus]
  show hostPoll offStatus 2#32 2#32 s = _
  rw [hostPoll, hallow, hread]
  simp only [statusWord_and_two]
  rfl

/-- Settles O16: the poll passes exactly when DONE is 1. -/
theorem waitdonePolls : Obligations.WaitdonePolls := by
  unfold Obligations.WaitdonePolls
  intro s hr
  rw [exec_waitdone hr]
  exact ⟨fun hdone => if_pos hdone, fun hdone => if_neg (Bool.eq_false_iff.mp hdone)⟩

/-! Refused accesses -/

section
variable {s : State} {off : Byte} {v : Word} {rest : List HostOp}

theorem accessRefusal_misaligned (ha : off.toNat % 4 ≠ 0) (s : State) :
    accessRefusal off s = some .badRegisterAccess := if_pos ha

theorem accessRefusal_inReset (hr : s.hwReset = true) (ha : off.toNat % 4 = 0) :
    accessRefusal off s = some .accessDuringReset := by
  simp [accessRefusal, hr, ha]

theorem hostWrite_refused {r : Refusal} (h : accessRefusal off s = some r) (v : Word) :
    hostWrite off v s = .refused r := by rw [hostWrite, h]

theorem hostWr_refused {r : Refusal} (h : accessRefusal off s = some r) (v : Word) : hostWr off v s = .refused r := by
  rw [hostWr_eq_hostWrite, hostWrite_refused h]

theorem hostRd_refused {r : Refusal} (h : accessRefusal off s = some r) : hostRd off s = .refused r := by
  rw [hostRd, h]

theorem hostPoll_refused {r : Refusal} (h : accessRefusal off s = some r) (mask val : Word) :
    hostPoll off mask val s = .refused r := by rw [hostPoll, h]

/-- R22: the block's bus addresses and its offsets. -/
theorem blockOffset_add (s : State) (off : Byte) : blockOffset s (s.cfg.regBase + off.setWidth 32) = some off := by
  have hsub : s.cfg.regBase + off.setWidth 32 - s.cfg.regBase = off.setWidth 32 := by
    rw [BitVec.add_comm, BitVec.add_sub_cancel]
  have hlt : (off.setWidth 32).toNat < 256 := byte_toNat_setWidth off ▸ off.isLt
  rw [blockOffset, hsub, if_pos hlt, BitVec.setWidth_setWidth_of_le _ (by decide), BitVec.setWidth_eq]

/-- R22: four bytes, least significant first, are one word. -/
theorem ofNat_leValue_four (b0 b1 b2 b3 : Byte) :
    BitVec.ofNat 32 (leValue [b0, b1, b2, b3]) = b3 ++ b2 ++ b1 ++ b0 := by
  refine BitVec.eq_of_toNat_eq ?_
  have h0 := b0.isLt
  have h1 := b1.isLt
  have h2 := b2.isLt
  have h3 := b3.isLt
  rw [BitVec.toNat_ofNat, BitVec.toNat_append, BitVec.toNat_append, BitVec.toNat_append,
    ← Nat.shiftLeft_add_eq_or_of_lt h0, ← Nat.shiftLeft_add_eq_or_of_lt h1, ← Nat.shiftLeft_add_eq_or_of_lt h2]
  simp only [leValue, Nat.shiftLeft_eq]
  omega

/-- The host's turn does not depend on which entry it takes. -/
theorem engineDue_otherEntry {op : HostOp} (hdue : engineDue s = false) (hhost : s.host = op :: rest) (op' : HostOp) :
    engineDue { s with host := op' :: rest } = false := by
  rw [← hdue]
  simp [engineDue, hhost]

/-- R22: a 4-byte bus access is that of its register. -/
theorem step_eq_of_hostTurn_eq {op op' : HostOp} (hdue : engineDue s = false) (hhost : s.host = op :: rest)
    (h : hostTurn op (takeEntry rest s) = hostTurn op' (takeEntry rest s)) :
    step s = step { s with host := op' :: rest } := by
  rw [step_hostTurn hdue hhost, step_hostTurn (engineDue_otherEntry hdue hhost op') rfl, h]
  rfl

theorem touchesRegions_iff (s : State) (a n : Nat) :
    touchesRegions s a n = true ↔ ∃ i, i < n ∧ (s.inInput (a + i) = true ∨ s.inOutput (a + i) = true) := by
  simp [touchesRegions]

end

/-- Settles O19: a refusal comes before any effect. -/
theorem refusedAccesses : Obligations.RefusedAccesses := by
  unfold Obligations.RefusedAccesses
  intro s rest hdue
  refine ⟨fun off v ha => ?_, fun addr off haddr => ?_, fun hb => ?_⟩
  case refine_1 =>
    have hrefuse := accessRefusal_misaligned ha (takeEntry rest s)
    refine ⟨fun hhost => ?_, fun hhost => ?_, fun mask val hhost => ?_⟩ <;> rw [step_hostTurn hdue hhost]
    · exact hostWr_refused hrefuse v
    · exact hostRd_refused hrefuse
    · exact hostPoll_refused hrefuse mask val
  case refine_2 =>
    have hoff : blockOffset (takeEntry rest s) addr = some off := by
      rw [haddr]
      exact blockOffset_add (takeEntry rest s) off
    have hwrite (bs : List Byte) : hostBusWrite addr bs (takeEntry rest s)
        = if bs.length = 4 then hostWr off (BitVec.ofNat 32 (leValue bs)) (takeEntry rest s)
          else .refused .badRegisterAccess := by rw [hostBusWrite, hoff]
    have hread (w : Nat) : hostBusRead addr w (takeEntry rest s)
        = if w = 4 then hostRd off (takeEntry rest s) else .refused .badRegisterAccess := by rw [hostBusRead, hoff]
    refine ⟨fun bs hlen hhost => ?_, fun w hw hhost => ?_, fun b0 b1 b2 b3 hhost => ?_, fun hhost => ?_⟩
    · rw [step_hostTurn hdue hhost]
      exact (hwrite bs).trans (if_neg hlen)
    · rw [step_hostTurn hdue hhost]
      exact (hread w).trans (if_neg hw)
    · refine step_eq_of_hostTurn_eq hdue hhost ?_
      rw [← ofNat_leValue_four]
      exact (hwrite _).trans (if_pos rfl)
    · exact step_eq_of_hostTurn_eq hdue hhost ((hread 4).trans (if_pos rfl))
  case refine_3 =>
    refine ⟨fun addr bs n hfit hn hregion hhost => ?_, fun addr hout hhost => ?_⟩ <;> rw [step_hostTurn hdue hhost]
    · have htouch : touchesRegions (takeEntry rest s) addr.toNat bs.length = true :=
        (touchesRegions_iff _ _ _).mpr ⟨n, hn, hregion⟩
      show hostMem addr bs (takeEntry rest s) = _
      rw [hostMem, if_neg hfit.not_gt, htouch, takeEntry_regs, hb]
      rfl
    · have hout' : (takeEntry rest s).inOutput addr.toNat = true := hout
      show hostMemRd addr (takeEntry rest s) = _
      rw [hostMemRd, hout', takeEntry_regs, hb]
      rfl

/-! The hardware reset input -/

section
variable {s : State} {rest : List HostOp}

/-- R340: an engine held in reset has no turn. -/
theorem engineDue_inReset (hr : s.hwReset = true) : engineDue s = false := by simp [engineDue, hr]

/-- R340: while the reset is asserted an instruction of the host is refused. -/
theorem exec_hostIssuable_inReset {i : Instr} (hr : s.hwReset = true) (hi : i.hostIssuable = true) :
    exec i s = .refused .accessDuringReset := by
  have hctrl := accessRefusal_inReset (off := offCtrl) hr rfl
  have hstatus := accessRefusal_inReset (off := offStatus) hr rfl
  obtain (rfl | rfl | rfl | rfl) | ⟨a, b, rfl⟩ | rfl | ⟨op, inBase, inLen, outBase, outCap, cfg, rfl⟩ :=
    hostIssuable_cases hi
  · exact hostWrite_refused hctrl _
  · exact hostWrite_refused hctrl _
  · exact hostWrite_refused hstatus _
  · exact hostWrite_refused hstatus _
  · exact hostWrite_refused hctrl _
  · exact hostPoll_refused hstatus _ _
  · show hostWrites _ s = _
    rw [hostWrites, hostWrite_refused (accessRefusal_inReset hr rfl)]

/-- R340: the entry that drives the reset input. -/
theorem step_hwReset {b : Bool} (hdue : engineDue s = false) (hhost : s.host = .hwReset b :: rest) :
    step s = .next (driveHwReset b (takeEntry rest s)) := step_hostTurn hdue hhost

end

/-- Settles O10: asserting the input is a soft reset, and releasing it a reset of an idle machine. -/
theorem hardwareReset : Obligations.HardwareReset := by
  unfold Obligations.HardwareReset
  refine ⟨fun s => engineDue_inReset, fun s rest => ⟨fun hdue hhost hb => ?_, fun u hdue hhost hb hu => ?_,
    fun hr hhost => ⟨(takeEntry rest s).latency, ?_⟩, fun off v w hr ha hhost => ?_, fun i hr hi hhost => ?_⟩⟩
  · have hidle : (takeEntry rest s).regs.busy = false := hb
    rw [step_hwReset hdue hhost, driveHwReset, if_pos rfl, softReset_idle hidle]
    simp [resetCore, takeEntry, hb]
  · have hbusy : (takeEntry rest s).regs.busy = true := hb
    obtain rfl : runCommand s.regs.op (takeEntry rest s) = u :=
      Host.Outcome.next.inj ((exec_inFlight (takeEntry rest s)).symm.trans hu)
    obtain ⟨n, hn, hmem⟩ := read_abortedMem (takeEntry rest s)
    refine ⟨n, abortedMem (takeEntry rest s), (takeEntry rest s).latency,
      (runCommand s.regs.op (takeEntry rest s)).draws + 1, hn, ?_, hmem⟩
    rw [step_hwReset hdue hhost, driveHwReset, if_pos rfl, softReset_busy hbusy]
    rfl
  · rw [step_hwReset (engineDue_inReset hr) hhost]
    have hreset : (takeEntry rest s).hwReset = true := hr
    rw [driveHwReset, if_neg (by decide), if_pos hreset]
    rfl
  · have hrefuse : accessRefusal off (takeEntry rest s) = some .accessDuringReset := accessRefusal_inReset hr ha
    obtain hhost | hhost | hhost := hhost <;> rw [step_hostTurn (engineDue_inReset hr) hhost]
    · exact hostWr_refused hrefuse v
    · exact hostRd_refused hrefuse
    · exact hostPoll_refused hrefuse v w
  · rw [step_hostTurn (engineDue_inReset hr) hhost]
    exact (if_pos hi).trans (exec_hostIssuable_inReset (s := takeEntry rest s) hr hi)

/-! Whose turn it is -/

section
variable {s : State} {rest : List HostOp}

/-- R104: MEM outside the regions of a running command. -/
theorem hostMem_placed {addr : Word} {bs : List Byte} (hfit : addr.toNat + bs.length ≤ 2 ^ 32)
    (hfree : s.regs.busy = true → ∀ n, n < bs.length →
      s.inInput (addr.toNat + n) = false ∧ s.inOutput (addr.toNat + n) = false) :
    hostMem addr bs s = .next { s with mem := Memory.writeBytes s.mem addr.toNat bs } := by
  have hduty : ¬((s.regs.busy && touchesRegions s addr.toNat bs.length) = true) := by
    rw [Bool.and_eq_true, touchesRegions_iff]
    rintro ⟨hb, n, hn, hin | hout⟩
    · exact absurd ((hfree hb n hn).1.symm.trans hin) Bool.false_ne_true
    · exact absurd ((hfree hb n hn).2.symm.trans hout) Bool.false_ne_true
  rw [hostMem, if_neg hfit.not_gt, if_neg hduty]

/-- R104: a host read of memory outside the output region of a running command. -/
theorem hostMemRd_read {addr : Word} (hfree : s.regs.busy = false ∨ s.inOutput addr.toNat = false) :
    hostMemRd addr s = .next { s with results := (Memory.read s.mem addr.toNat).setWidth 32 :: s.results } := by
  refine if_neg ?_
  obtain h | h := hfree <;> simp [h]

/-- R104: an aligned POLL reads its register as RD does, and passes when the masked value is the one it waits for. -/
theorem hostPoll_aligned {off : Byte} {mask val : Word} (hr : s.hwReset = false) (ha : off.toNat % 4 = 0) :
    hostPoll off mask val s
      = if (readReg off s).1 &&& mask = val then .next (readReg off s).2
        else .next { (readReg off s).2 with host := .poll off mask val :: (readReg off s).2.host } := by
  have hallow : accessRefusal off s = none := by simp [accessRefusal, hr, ha]
  rw [hostPoll, hallow]

/-- R143: the word that a fetch loads is that of a launched command, and its turn is the next step. -/
theorem step_withFetchWord (s : State) {nbits : Nat} (w : Nat) (hn : nbits ≤ 32) :
    step (s.withFetchWord nbits w) = exec (decodeCmd (BitVec.ofNat 32 w)) (s.withFetchWord nbits w) := by
  have hdue : engineDue (s.withFetchWord nbits w) = true := by
    rw [State.withFetchWord, if_pos hn]
    rfl
  have hop : (s.withFetchWord nbits w).regs.op = opField (BitVec.ofNat 32 w) := by
    rw [State.withFetchWord, if_pos hn]
    rfl
  rw [step_engineTurn hdue, hop]
  exact (exec_decodeOp _ _).symm

end

/-- Settles O5: each entry's turn is its host operation on the state with the entry taken. -/
theorem stepRunsInstruction : Obligations.StepRunsInstruction := by
  unfold Obligations.StepRunsInstruction
  refine ⟨fun s hdue => (step_engineTurn hdue).trans (exec_inFlight s).symm, fun s off v rest i hdue hhost hact => ?wr,
    fun s rest i hdue hhost hi => ?instr, fun s addr bs rest hdue hhost hfit hfree => ?mem,
    fun s addr rest hdue hhost hfree => ?memRd, fun s rest hdue hhost => ?waitIrq,
    fun s off mask val rest hdue hr ha hhost => ?poll, fun s => step_idle,
    fun s nbits w hn => step_withFetchWord s w hn⟩
  case wr =>
    rw [step_hostTurn hdue hhost]
    show hostWr off v (takeEntry rest s) = _
    rw [hostWr, hact]
  case instr =>
    rw [step_hostTurn hdue hhost]
    exact if_pos hi
  case mem =>
    refine ⟨Memory.writeBytes s.mem addr.toNat bs, ?_, Memory.readBytes_writeBytes _ _ _, fun a ha => ?_⟩
    · rw [step_hostTurn hdue hhost]
      exact hostMem_placed (s := takeEntry rest s) hfit hfree
    · rw [Memory.read_writeBytes, dif_neg ha]
  case memRd =>
    rw [step_hostTurn hdue hhost]
    exact hostMemRd_read (s := takeEntry rest s) hfree
  case waitIrq =>
    rw [step_hostTurn hdue hhost, hhost]
    exact ⟨fun hirq => if_pos hirq, fun hirq => if_neg (Bool.eq_false_iff.mp hirq)⟩
  case poll =>
    have hdue' := engineDue_otherEntry hdue hhost (.rd off)
    have hpoll : step s = _ := (step_hostTurn hdue hhost).trans
      (hostPoll_aligned (s := takeEntry rest s) (mask := mask) (val := val) hr ha)
    obtain ⟨d, hd⟩ := readReg_frame off (takeEntry rest s)
    rw [hd] at hpoll
    refine ⟨(readReg off (takeEntry rest s)).1, { takeEntry rest s with draws := d }, ?_, rfl,
      fun hval => hpoll.trans (if_pos hval), fun hval => ?_⟩
    · rw [step_hostTurn hdue' rfl]
      have hrd := hostRd_aligned (off := off) (s := takeEntry rest s) hr ha
      rw [hd] at hrd
      exact hrd
    · rw [hhost]
      exact hpoll.trans (if_neg hval)

end Sys2Proof.Machine

/-! PROOFS. Two runs of the engine side by side: a relation of states that reading and writing single bytes and the
engine's own updates keep is kept by every engine operation. It is used for two inputs that agree (R93), for a failing
platform against a smaller output region (R75), and for a failing platform against one without errors (R74). -/

namespace Sys2Proof.Machine

/-! What the engine owns -/

/-- The part of a state that engine operations write, besides output and PHASE. -/
structure View where
  huff       : Huff
  pack       : Packer
  lzw        : Lzw
  cur        : Cursors
  huffUnique : BitVec 9
  huffBitsLo : Word
  huffBitsHi : Word
  lzwCodes   : Word
  lzwNext    : Word

def State.view (s : State) : View :=
  ⟨s.huff, s.pack, s.lzw, s.cur, s.regs.huffUnique, s.regs.huffBitsLo, s.regs.huffBitsHi, s.regs.lzwCodes,
    s.regs.lzwNext⟩

def State.setView (s : State) (v : View) : State :=
  { s with
    huff := v.huff, pack := v.pack, lzw := v.lzw, cur := v.cur
    regs := { s.regs with
      huffUnique := v.huffUnique, huffBitsLo := v.huffBitsLo, huffBitsHi := v.huffBitsHi, lzwCodes := v.lzwCodes,
      lzwNext := v.lzwNext } }

/-- Two results are alike: the same value or the same error, and related states. -/
def SimResult {α : Type} (R : State → State → Prop) :
    EStateM.Result Raise State α → EStateM.Result Raise State α → Prop
  | .ok a t, .ok a' t' => a' = a ∧ R t t'
  | .error e t, .error e' t' => e' = e ∧ R t t'
  | _, _ => False

/-- Related states give results that are alike. -/
def Sim {α : Type} (R : State → State → Prop) (x : Eng α) : Prop := ∀ s s', R s s' → SimResult R (x s) (x s')

/-- The relation covers all that the engine reads of what it owns, and the engine's own updates keep it. -/
structure ReadRel (R : State → State → Prop) : Prop where
  view : ∀ {s s'}, R s s' → s'.view = s.view
  set  : ∀ {s s'}, R s s' → ∀ v, R (s.setView v) (s'.setView v)

/-- It also covers the settings that the engine reads, and writing a byte and PHASE keep it. -/
structure EngineRel (R : State → State → Prop) : Prop extends ReadRel R where
  strict : ∀ {s s'}, R s s' → s'.regs.lzwStrict = s.regs.lzwStrict
  cap    : ∀ {s s'}, R s s' → s'.cfg.lzwCap = s.cfg.lzwCap
  phase  : ∀ {s s'}, R s s' → ∀ p, R { s with phase := p } { s' with phase := p }
  out    : ∀ v, Sim R (outByte v)

/-! Rules -/

section
variable {R : State → State → Prop} {α β : Type}

theorem Sim.ok {x : Eng α} (h : Sim R x) {s s' t : State} {a : α} (hR : R s s') (e : x s = .ok a t) :
    ∃ t', x s' = .ok a t' ∧ R t t' := by
  have hs := h s s' hR
  rw [e] at hs
  cases e' : x s' with
  | ok a' t' =>
    rw [e'] at hs
    obtain ⟨rfl, ht⟩ := hs
    exact ⟨t', rfl, ht⟩
  | error r t' =>
    rw [e'] at hs
    exact hs.elim

theorem Sim.error {x : Eng α} (h : Sim R x) {s s' t : State} {r : Raise} (hR : R s s') (e : x s = .error r t) :
    ∃ t', x s' = .error r t' ∧ R t t' := by
  have hs := h s s' hR
  rw [e] at hs
  cases e' : x s' with
  | ok a' t' =>
    rw [e'] at hs
    exact hs.elim
  | error r' t' =>
    rw [e'] at hs
    obtain ⟨rfl, ht⟩ := hs
    exact ⟨t', rfl, ht⟩

theorem sim_pure (a : α) : Sim R (pure a : Eng α) := fun _ _ h => ⟨rfl, h⟩

theorem sim_raise (k : ErrKind) (info : Nat) : Sim R (raise k info : Eng α) := fun _ _ h => ⟨rfl, h⟩

theorem sim_modify {f : State → State} (h : ∀ s s', R s s' → R (f s) (f s')) : Sim R (modify f : Eng Unit) :=
  fun s s' hs => ⟨rfl, h s s' hs⟩

/-- A sequence, when what is known of the first result is used in the rest. -/
theorem sim_bind_of {x : Eng α} {f : α → Eng β} {P : α → Prop} (hx : Sim R x)
    (hval : ∀ s s' a t, R s s' → x s = .ok a t → P a) (hf : ∀ a, P a → Sim R (f a)) : Sim R (x >>= f) := by
  intro s s' h
  rw [eng_bind, eng_bind]
  cases e : x s with
  | ok a t =>
    obtain ⟨t', e', ht⟩ := hx.ok h e
    rw [e']
    exact hf a (hval s s' a t h e) t t' ht
  | error r t =>
    obtain ⟨t', e', ht⟩ := hx.error h e
    rw [e']
    exact ⟨rfl, ht⟩

theorem sim_bind {x : Eng α} {f : α → Eng β} (hx : Sim R x) (hf : ∀ a, Sim R (f a)) : Sim R (x >>= f) :=
  sim_bind_of (P := fun _ => True) hx (fun _ _ _ _ _ _ => trivial) fun a _ => hf a

/-- Reading the state: what is read must be the same in related states. -/
theorem sim_get {f : State → Eng α} (h : ∀ s s', R s s' → f s' = f s ∧ Sim R (f s)) :
    Sim R ((get : Eng State) >>= f) := by
  intro s s' hs
  obtain ⟨hf, hsim⟩ := h s s' hs
  have hrun (t : State) : ((get : Eng State) >>= f) t = f t t := bind_ok (eng_get t)
  rw [hrun, hrun, hf]
  exact hsim s s' hs

theorem sim_ite {p : Prop} [Decidable p] {x y : Eng α} (hx : p → Sim R x) (hy : ¬p → Sim R y) :
    Sim R (if p then x else y) := by
  split_ifs with h
  · exact hx h
  · exact hy h

theorem sim_forFrom {body : Nat → Eng Unit} {n i : Nat} (h : ∀ j, i ≤ j → j < i + n → Sim R (body j)) :
    Sim R (forFrom body i n) := by
  induction n generalizing i with
  | zero => exact sim_pure ()
  | succ n ih =>
    exact sim_bind (h i (Nat.le_refl i) (by omega)) fun _ => ih fun j h1 h2 => h j (by omega) (by omega)

theorem sim_forRange {body : Nat → Eng Unit} {n : Nat} (h : ∀ j, j < n → Sim R (body j)) : Sim R (forRange n body) :=
  sim_forFrom fun j _ hj => h j (by omega)

end

/-- What an engine computation can return. -/
def Returns {α : Type} (x : Eng α) (P : α → Prop) : Prop := ∀ s a t, x s = .ok a t → P a

section
variable {α β : Type}

theorem returns_pure {P : α → Prop} {a : α} (h : P a) : Returns (pure a : Eng α) P := fun _ _ _ e => by
  cases e
  exact h

theorem returns_raise (k : ErrKind) (info : Nat) (P : α → Prop) : Returns (raise k info : Eng α) P :=
  fun s a t e => by
    rw [eng_raise] at e
    cases e

theorem returns_bind {x : Eng α} {f : α → Eng β} {P : β → Prop} (hf : ∀ a, Returns (f a) P) :
    Returns (x >>= f) P := fun s b t e => by
  rw [eng_bind] at e
  cases hx : x s with
  | ok a u =>
    rw [hx] at e
    exact hf a u b t e
  | error r u =>
    rw [hx] at e
    cases e

theorem returns_ite {p : Prop} [Decidable p] {x y : Eng α} {P : α → Prop} (hx : p → Returns x P)
    (hy : ¬p → Returns y P) : Returns (if p then x else y) P := by
  split_ifs with h
  · exact hx h
  · exact hy h

end

/-! The engine's operations -/

section
variable {R : State → State → Prop}

theorem sim_inBytes : ∀ n p, (∀ i, p ≤ i → i < p + n → Sim R (inByte i)) → Sim R (inBytes p n)
  | 0, _, _ => sim_pure _
  | n + 1, p, h =>
    sim_bind (h p (Nat.le_refl p) (by omega)) fun _ =>
      sim_bind (sim_inBytes n (p + 1) fun i h1 h2 => h i (by omega) (by omega)) fun _ => sim_pure _

theorem sim_get32 {p : Nat} (h : ∀ i, p ≤ i → i < p + 4 → Sim R (inByte i)) : Sim R (get32 p) :=
  sim_bind (sim_inBytes 4 p h) fun _ => sim_pure _

theorem sim_get64 {p : Nat} (h : ∀ i, p ≤ i → i < p + 8 → Sim R (inByte i)) : Sim R (get64 p) :=
  sim_bind (sim_inBytes 8 p h) fun _ => sim_pure _

end

section
variable {R : State → State → Prop} (hR : ReadRel R) {s s' : State}
include hR

theorem ReadRel.huff (h : R s s') : s'.huff = s.huff := congrArg View.huff (hR.view h)

theorem ReadRel.pack (h : R s s') : s'.pack = s.pack := congrArg View.pack (hR.view h)

theorem ReadRel.lzw (h : R s s') : s'.lzw = s.lzw := congrArg View.lzw (hR.view h)

/-- An update of what the engine owns that reads nothing else. -/
theorem ReadRel.update (h : R s s') (g : View → View) : R (s.setView (g s.view)) (s'.setView (g s'.view)) := by
  rw [hR.view h]
  exact hR.set h _

theorem ReadRel.sim_update (g : View → View) {f : State → State} (hf : ∀ s, f s = s.setView (g s.view)) :
    Sim R (modify f : Eng Unit) := sim_modify fun s s' h => by
  rw [hf, hf]
  exact hR.update h g

/-- A computation whose run is such an update. -/
theorem ReadRel.sim_of_run {x : Eng Unit} (g : View → View) (hx : ∀ s, x s = .ok () (s.setView (g s.view))) : Sim R x :=
  fun s s' h => by
    rw [hx, hx]
    exact ⟨rfl, hR.update h g⟩

theorem ReadRel.sim_setHuffBits (T : BitVec 64) : Sim R (modify (setHuffBits T) : Eng Unit) :=
  hR.sim_update (fun v => { v with huffBitsLo := T.extractLsb' 0 32, huffBitsHi := T.extractLsb' 32 32 }) fun _ => rfl

theorem ReadRel.sim_parsePair {j : Nat} (h : ∀ i, 4 + 5 * j ≤ i → i < 9 + 5 * j → Sim R (inByte i)) :
    Sim R (parsePair j) :=
  sim_bind (h _ (Nat.le_refl _) (by omega)) fun sym =>
    sim_get fun s s' hs => ⟨by rw [hR.huff hs],
      sim_ite (fun _ => sim_raise _ _) fun _ =>
        sim_bind (sim_get32 fun i h1 h2 => h i (by omega) (by omega)) fun f =>
          sim_ite (fun _ => sim_raise _ _) fun _ =>
            hR.sim_update (fun v => { v with huff := acceptPair j sym f v.huff }) fun _ => rfl⟩

theorem ReadRel.sim_parseHeader {L : Word} (hlen : ∀ {s s'}, R s s' → s.regs.inLen = L ∧ s'.regs.inLen = L)
    (hread : ∀ i, i < L.toNat → Sim R (inByte i)) : Sim R parseHeader := by
  refine sim_get fun s s' h => ⟨by rw [(hlen h).1, (hlen h).2], ?_⟩
  rw [(hlen h).1]
  refine sim_ite (fun _ => sim_raise _ _) fun h4 => ?_
  refine sim_bind (sim_get32 fun i _ hi => hread i (by omega)) fun uw => ?_
  refine sim_ite (fun _ => sim_raise _ _) fun _ => sim_ite (fun _ => sim_raise _ _) fun hfit => ?_
  refine sim_bind (hR.sim_update (fun v => { v with huffUnique := BitVec.ofNat 9 uw.toNat }) fun _ => rfl) fun _ => ?_
  refine sim_bind (sim_forRange fun j hj => hR.sim_parsePair fun i _ hi => hread i (by omega)) fun _ => ?_
  refine sim_bind (sim_get64 fun i _ hi => hread i (by omega)) fun T => ?_
  refine sim_ite (fun _ => sim_raise _ _) fun _ => sim_ite (fun _ => sim_raise _ _) fun _ => ?_
  exact sim_bind (hR.sim_setHuffBits T) fun _ => sim_pure _

end

section
variable {R : State → State → Prop} (hR : EngineRel R) {s s' : State}
include hR

theorem sim_setPhase (p : Phase) : Sim R (setPhase p) := sim_modify fun _ _ h => hR.phase h p

theorem sim_outBytes : ∀ bs, Sim R (outBytes bs)
  | [] => sim_pure ()
  | b :: rest => sim_bind (hR.out b) fun _ => sim_outBytes rest

/-! BitPacker -/

theorem sim_packBit (b : Bool) : Sim R (packBit b) :=
  sim_bind (hR.sim_update (fun v => { v with pack := packerPlace b v.pack }) fun _ => rfl) fun _ =>
    sim_get fun s s' h => ⟨by rw [hR.pack h],
      sim_ite
        (fun _ => sim_bind (hR.out _) fun _ => hR.sim_update (fun v => { v with pack := packerEmpty v.pack }) fun _ => rfl)
        fun _ => hR.sim_update (fun v => { v with pack := { v.pack with pcnt := v.pack.pcnt + 1#3 } }) fun _ => rfl⟩

theorem sim_packFlush : Sim R packFlush :=
  sim_get fun s s' h => ⟨by rw [hR.pack h],
    sim_ite (fun _ => sim_pure ()) fun _ =>
      sim_bind (hR.out _) fun _ => hR.sim_update (fun v => { v with pack := packerEmpty v.pack }) fun _ => rfl⟩

theorem sim_unpackBit {S t : Nat} (h : Sim R (inByte (S + t / 8))) : Sim R (unpackBit S t) :=
  sim_bind h fun _ =>
    sim_bind (hR.sim_update (fun v => { v with cur := { v.cur with bitPos := t + 1 } }) fun _ => rfl) fun _ => sim_pure _

/-! HuffmanCodec -/

theorem sim_countByte {i : Nat} (h : Sim R (inByte i)) : Sim R (countByte i) :=
  sim_bind h fun b => hR.sim_update (fun v => { v with huff := countSymbol b v.huff }) fun _ => rfl

theorem sim_checkFrequencyRange : Sim R checkFrequencyRange :=
  sim_get fun s s' h => ⟨by rw [hR.huff h], sim_ite (fun _ => sim_raise _ _) fun _ => sim_pure ()⟩

theorem sim_seedLeaves : Sim R seedLeaves := hR.sim_of_run (fun v => { v with huff := seeded v.huff }) seedLeaves_run

theorem sim_buildTree : Sim R buildTree := hR.sim_of_run (fun v => { v with huff := builtTree v.huff }) buildTree_run

theorem sim_buildEncodingTable : Sim R buildEncodingTable :=
  hR.sim_of_run (fun v => { v with huff := encodingTable v.huff }) buildEncodingTable_run

theorem sim_totalBits : Sim R totalBits :=
  sim_get fun s s' h => ⟨by rw [hR.huff h], sim_bind (hR.sim_setHuffBits _) fun _ => sim_pure _⟩

theorem sim_serializeHeader (T : BitVec 64) : Sim R (serializeHeader T) := fun s s' h => by
  rw [serializeHeader_eq, serializeHeader_eq, hR.huff h]
  exact sim_outBytes hR _ s s' h

theorem sim_packCodeBit (b : Byte) (k : Nat) : Sim R (packCodeBit b k) :=
  sim_get fun s s' h => ⟨by rw [hR.huff h], sim_packBit hR _⟩

theorem sim_checkPass2 (T : BitVec 64) (i : Nat) (b : Byte) : Sim R (checkPass2 T i b) :=
  sim_get fun s s' h => ⟨by rw [hR.huff h, hR.pack h], sim_ite (fun _ => sim_raise _ _) fun _ => sim_pure _⟩

theorem sim_encodeInput (T : BitVec 64) {i : Nat} (h : Sim R (inByte i)) : Sim R (encodeInput T i) :=
  sim_bind h fun b =>
    sim_bind (sim_checkPass2 hR T i b) fun _ =>
      sim_get fun s s' hs => ⟨by rw [hR.huff hs], sim_forRange fun k _ => sim_packCodeBit hR b k⟩

theorem sim_startPass (p : Bool) : Sim R (startPass p) :=
  hR.sim_update (fun v => { v with cur := { v.cur with pass := p, inPos := 0 } }) fun _ => rfl

theorem sim_walk {S : Nat} : ∀ n t node, (∀ i, i < n → Sim R (inByte (S + (t + i) / 8))) → Sim R (walk S t n node)
  | 0, _, _, _ => sim_pure _
  | n + 1, t, node, h => by
    have hrest (m : Nat) : Sim R (walk S (t + 1) n m) := sim_walk n (t + 1) m fun i hi => by
      have := h (i + 1) (by omega)
      rwa [← Nat.add_assoc, Nat.add_right_comm] at this
    refine sim_bind (sim_unpackBit hR (h 0 (Nat.succ_pos n))) fun bit => sim_get fun s s' hs => ⟨by rw [hR.huff hs], ?_⟩
    cases nodeAt s.huff (child s.huff node bit) with
    | leaf sym w => exact sim_bind (hR.out sym) fun _ => hrest _
    | internal l r w => exact hrest _

theorem sim_decodeStream {S : Nat} {T : BitVec 64} (h : ∀ t, t < T.toNat → Sim R (inByte (S + t / 8))) :
    Sim R (decodeStream S T) :=
  sim_get fun s s' hs => ⟨by rw [hR.huff hs],
    sim_bind (sim_walk hR _ 0 _ fun i hi => by rw [Nat.zero_add]; exact h i hi) fun node =>
      sim_get fun s s' hs => ⟨by rw [hR.huff hs], sim_ite (fun _ => sim_raise _ _) fun _ => sim_pure _⟩⟩

theorem sim_decodeBit1 {S t : Nat} (h : Sim R (inByte (S + t / 8))) : Sim R (decodeBit1 S t) :=
  sim_bind (sim_unpackBit hR h) fun _ =>
    sim_ite (fun _ => sim_raise _ _) fun _ => sim_get fun s s' hs => ⟨by rw [hR.huff hs], hR.out _⟩

theorem sim_decodeStream1 {S : Nat} {T : BitVec 64} (h : ∀ t, t < T.toNat → Sim R (inByte (S + t / 8))) :
    Sim R (decodeStream1 S T) := sim_forRange fun t ht => sim_decodeBit1 hR (h t ht)

/-! LZWCodec -/

theorem sim_seed : Sim R seed :=
  hR.sim_update (fun v => { v with
    lzw := { v.lzw with dict := seedDict v.lzw.dict, next := 256#32 }, lzwNext := 256#32 }) fun _ => rfl

theorem sim_dictInsert (p : Code) (c : Byte) : Sim R (dictInsert p c) := sim_modify fun s s' h => by
  by_cases hroom : s.lzw.next.toNat < s.cfg.lzwCap.toNat
  · have hroom' : s'.lzw.next.toNat < s'.cfg.lzwCap.toNat := by rwa [hR.lzw h, hR.cap h]
    rw [if_pos hroom, if_pos hroom']
    exact hR.update h fun v => { v with lzw := insertEntry p c v.lzw, lzwNext := v.lzw.next + 1#32 }
  · have hroom' : ¬s'.lzw.next.toNat < s'.cfg.lzwCap.toNat := by rwa [hR.lzw h, hR.cap h]
    rwa [if_neg hroom, if_neg hroom']

theorem sim_dictFind (w : Code) (c : Byte) : Sim R (dictFind w c) :=
  sim_get fun s s' h => ⟨by rw [hR.lzw h], sim_pure _⟩

theorem EngineRel.strictFull (h : R s s') : Machine.strictFull s' = Machine.strictFull s := by
  rw [Machine.strictFull, Machine.strictFull, hR.lzw h, hR.cap h, hR.strict h]

theorem EngineRel.classify (h : R s s') (k : Code) : Machine.classify s' k = Machine.classify s k := by
  rw [Machine.classify, Machine.classify, hR.lzw h, hR.cap h]

theorem sim_countCode : Sim R countCode := hR.sim_update (fun v => { v with lzwCodes := v.lzwCodes + 1#32 }) fun _ => rfl

theorem sim_emitCode (k : Code) : Sim R (emitCode k) := sim_bind (sim_outBytes hR _) fun _ => sim_countCode hR

theorem sim_setW (k : Code) : Sim R (setW k) :=
  hR.sim_update (fun v => { v with lzw := { v.lzw with w := k } }) fun _ => rfl

theorem sim_setPrev (k : Code) : Sim R (setPrev k) :=
  hR.sim_update (fun v => { v with lzw := { v.lzw with prev := k } }) fun _ => rfl

theorem sim_encodeByte (c : Byte) : Sim R (encodeByte c) := by
  refine sim_get fun s s' h => ⟨by rw [hR.lzw h, hR.strictFull h], sim_ite (fun _ => ?_) fun _ => ?_⟩
  · exact hR.sim_update (fun v => { v with lzw := { v.lzw with w := c.setWidth 32, wValid := true } }) fun _ => rfl
  · refine sim_bind (sim_dictFind hR _ _) fun r => ?_
    cases r with
    | some k => exact sim_setW hR k
    | none =>
      exact sim_ite (fun _ => sim_raise _ _) fun _ =>
        sim_bind (sim_emitCode hR _) fun _ => sim_bind (sim_dictInsert hR _ _) fun _ => sim_setW hR _

theorem sim_encodeEnd : Sim R encodeEnd :=
  sim_get fun s s' h => ⟨by rw [hR.lzw h], sim_ite (fun _ => sim_emitCode hR _) fun _ => sim_pure ()⟩

theorem sim_compressByte {i : Nat} (h : Sim R (inByte i)) : Sim R (compressByte i) :=
  sim_bind h fun c => sim_encodeByte hR c

theorem sim_emitString (k : Code) : Sim R (emitString k) :=
  sim_get fun s s' h => ⟨by rw [hR.lzw h], sim_outBytes hR _⟩

theorem sim_decodeFirst (h : ∀ i, i < 4 → Sim R (inByte i)) : Sim R decodeFirst :=
  sim_bind (sim_get32 fun i _ hi => h i (by omega)) fun k =>
    sim_ite (fun _ => sim_raise _ _) fun _ =>
      sim_bind (sim_emitString hR k) fun _ =>
        sim_bind (hR.sim_update (fun v => { v with lzwCodes := 1#32 }) fun _ => rfl) fun _ => sim_setPrev hR k

theorem sim_afterCode (k : Code) (f : Byte) : Sim R (afterCode k f) :=
  sim_bind (sim_countCode hR) fun _ =>
    sim_get fun s s' h => ⟨by rw [hR.lzw h], sim_bind (sim_dictInsert hR _ _) fun _ => sim_setPrev hR k⟩

theorem sim_decodeNext {j : Nat} (h : ∀ i, 4 * j ≤ i → i < 4 * j + 4 → Sim R (inByte i)) : Sim R (decodeNext j) := by
  refine sim_bind (sim_get32 h) fun k =>
    sim_get fun s s' hs => ⟨by rw [hR.classify hs, hR.strictFull hs, hR.lzw hs], ?_⟩
  cases Machine.classify s k with
  | undefined => exact sim_raise _ _
  | defined =>
    exact sim_ite (fun _ => sim_raise _ _) fun _ => sim_bind (sim_emitString hR _) fun _ => sim_afterCode hR _ _
  | kwkwk =>
    exact sim_ite (fun _ => sim_raise _ _) fun _ =>
      sim_bind (sim_emitString hR _) fun _ => sim_bind (hR.out _) fun _ => sim_afterCode hR _ _

end

/-! The operations that read IN_LEN, and the commands -/

theorem returns_parseHeader : Returns parseHeader fun r => 0 ≤ r.2.toInt :=
  returns_bind fun _ => returns_ite (fun _ => returns_raise _ _ _) fun _ =>
    returns_bind fun _ => returns_ite (fun _ => returns_raise _ _ _) fun _ =>
      returns_ite (fun _ => returns_raise _ _ _) fun _ =>
        returns_bind fun _ => returns_bind fun _ => returns_bind fun _ =>
          returns_ite (fun _ => returns_raise _ _ _) fun hsigned =>
            returns_ite (fun _ => returns_raise _ _ _) fun _ =>
              returns_bind fun _ => returns_pure (Int.not_lt.mp hsigned)

section
variable {R : State → State → Prop} (hR : EngineRel R) {L : Word}
  (hlen : ∀ {s s'}, R s s' → s.regs.inLen = L ∧ s'.regs.inLen = L) (hread : ∀ i, i < L.toNat → Sim R (inByte i))
include hR hlen hread

theorem sim_buildFrequencyTable : Sim R buildFrequencyTable :=
  sim_get fun s s' h => ⟨by rw [(hlen h).1, (hlen h).2],
    sim_bind (sim_forRange fun i hi => sim_countByte hR (hread i ((hlen h).1 ▸ hi))) fun _ =>
      hR.sim_update (fun v => { v with huffUnique := BitVec.ofNat 9 v.huff.u }) fun _ => rfl⟩

omit hR hread in
theorem sim_checkPayloadLength (u : Nat) (T : BitVec 64) : Sim R (checkPayloadLength u T) :=
  sim_get fun s s' h => ⟨by rw [(hlen h).1, (hlen h).2], sim_ite (fun _ => sim_raise _ _) fun _ => sim_pure _⟩

omit hR hread in
theorem sim_lengthCheck : Sim R lengthCheck :=
  sim_get fun s s' h => ⟨by rw [(hlen h).1, (hlen h).2], sim_ite (fun _ => sim_raise _ _) fun _ => sim_pure _⟩

omit hread in
theorem sim_checkPass2End (T : BitVec 64) : Sim R (checkPass2End T) :=
  sim_get fun s s' h => ⟨by rw [hR.pack h, (hlen h).1, (hlen h).2],
    sim_ite (fun _ => sim_raise _ _) fun _ => sim_pure _⟩

theorem sim_huffCompress : Sim R huffCompress :=
  sim_bind (sim_setPhase hR _) fun _ => sim_bind (sim_startPass hR _) fun _ =>
    sim_bind (sim_buildFrequencyTable hR hlen hread) fun _ => sim_bind (sim_checkFrequencyRange hR) fun _ =>
    sim_bind (sim_setPhase hR _) fun _ => sim_bind (sim_buildTree hR) fun _ =>
    sim_bind (sim_setPhase hR _) fun _ => sim_bind (sim_buildEncodingTable hR) fun _ =>
    sim_bind (sim_totalBits hR) fun T => sim_bind (sim_setPhase hR _) fun _ =>
    sim_bind (sim_serializeHeader hR T) fun _ => sim_bind (sim_setPhase hR _) fun _ =>
    sim_bind (sim_startPass hR _) fun _ => sim_get fun s s' h => ⟨by rw [(hlen h).1, (hlen h).2],
      sim_bind (sim_forRange fun i hi => sim_encodeInput hR T (hread i ((hlen h).1 ▸ hi))) fun _ =>
        sim_bind (sim_checkPass2End hR hlen T) fun _ => sim_bind (sim_setPhase hR _) fun _ => sim_packFlush hR⟩

/-- R206: the code stream lies inside the input. -/
theorem sim_huffDecompress : Sim R huffDecompress := by
  refine sim_get fun s s' h => ⟨by rw [(hlen h).1, (hlen h).2], sim_ite (fun _ => sim_pure ()) fun _ => ?_⟩
  refine sim_bind (sim_setPhase hR _) fun _ => ?_
  refine sim_bind_of (hR.sim_parseHeader hlen hread) (fun s _ r t _ e => returns_parseHeader s r t e) fun r hT => ?_
  obtain ⟨u, T⟩ := r
  refine sim_bind_of (P := fun S => S = 12 + 5 * u ∧ T.toInt ≤ 8 * ((L.toNat : Int) - (12 + 5 * u : Nat)))
    (sim_checkPayloadLength hlen u T) (fun s s' S t h e => ?_) fun S hS => ?_
  · rw [checkPayloadLength_run, (hlen h).1] at e
    split_ifs at e with hpay
    cases e
    exact ⟨rfl, Int.not_lt.mp hpay⟩
  · obtain ⟨rfl, hpay⟩ := hS
    have hin : ∀ t, t < T.toNat → Sim R (inByte (12 + 5 * u + t / 8)) := fun t ht => hread _ (by
      have hT' : T.toInt = T.toNat := BitVec.toInt_eq_toNat_of_msb (by
        rw [BitVec.msb_eq_toInt]
        exact decide_eq_false (Int.not_lt.mpr hT))
      omega)
    refine sim_bind (sim_buildTree hR) fun _ => sim_bind (sim_buildEncodingTable hR) fun _ =>
      sim_bind (sim_setPhase hR _) fun _ => sim_get fun s s' h => ⟨by rw [hR.huff h], ?_⟩
    exact sim_ite (fun _ => sim_decodeStream hR hin) fun _ =>
      sim_ite (fun _ => sim_decodeStream1 hR hin) fun _ => sim_pure ()

theorem sim_lzwCompress : Sim R lzwCompress :=
  sim_bind (sim_setPhase hR _) fun _ => sim_bind (sim_seed hR) fun _ =>
    sim_get fun s s' h => ⟨by rw [(hlen h).1, (hlen h).2],
      sim_bind (sim_forRange fun i hi => sim_compressByte hR (hread i ((hlen h).1 ▸ hi))) fun _ => sim_encodeEnd hR⟩

theorem sim_lzwDecompress : Sim R lzwDecompress := by
  refine sim_bind (sim_setPhase hR _) fun _ => sim_bind (sim_seed hR) fun _ => ?_
  refine sim_bind_of (P := fun _ => L.toNat % 4 = 0) (sim_lengthCheck hlen) (fun s s' _ t h e => ?_) fun _ hmod => ?_
  · rw [lengthCheck_run, (hlen h).1] at e
    split_ifs at e with hmod
    exact not_not.mp hmod
  · refine sim_get fun s s' h => ⟨by rw [(hlen h).1, (hlen h).2], ?_⟩
    rw [(hlen h).1]
    refine sim_ite (fun _ => sim_pure ()) fun hne => ?_
    have hpos : L.toNat ≠ 0 := fun e => hne (BitVec.eq_of_toNat_eq e)
    exact sim_bind (sim_decodeFirst hR fun i hi => hread i (by omega)) fun _ =>
      sim_forFrom fun j h1 h2 => sim_decodeNext hR fun i _ hi => hread i (by omega)

theorem sim_commandOf (op : BitVec 3) : Sim R (commandOf op) := by
  unfold commandOf
  split
  · exact sim_huffCompress hR hlen hread
  · exact sim_huffDecompress hR hlen hread
  · exact sim_lzwCompress hR hlen hread
  · exact sim_lzwDecompress hR hlen hread
  · exact sim_pure ()

end

end Sys2Proof.Machine

/-! PROOFS. The family of noninterference (R93, R59): two inputs that agree are compressed or decompressed alike. -/

namespace Sys2Proof.Machine

/-! States that agree on what a command can see -/

/-- The registers that the engine reads or writes: all but IRQ_EN and SYM_SEL. -/
def Regs.engine (r : Regs) : Regs := { r with irqEn := false, symSel := 0#8 }

/-- Address a lies in the input region or holds an output byte already written. -/
def State.Sees (s : State) (a : Nat) : Prop :=
  s.inInput a = true ∨ (s.regs.outBase.toNat ≤ a ∧ a < s.regs.outBase.toNat + s.regs.outLen.toNat)

/-- Two states on the platform rs with equal engine registers and internal state and equal memory where they see it. -/
structure Alike (rs : List ErrRange) (s s' : State) : Prop where
  bus   : s.cfg.busErr = some rs
  bus'  : s'.cfg.busErr = some rs
  cap   : s'.cfg.lzwCap = s.cfg.lzwCap
  regs  : s'.regs.engine = s.regs.engine
  phase : s'.phase = s.phase
  huff  : s'.huff = s.huff
  pack  : s'.pack = s.pack
  lzw   : s'.lzw = s.lzw
  cur   : s'.cur = s.cur
  mem   : ∀ a, s.Sees a → Memory.read s'.mem a = Memory.read s.mem a

/-- A known platform's answer draws nothing. -/
theorem drawn_known {s : State} {rs : List ErrRange} (h : s.cfg.busErr = some rs) (a : Nat) : drawn s a = s := by
  simp only [drawn, h]
  exact ite_self s

theorem busAnswer_known {s : State} {rs : List ErrRange} (h : s.cfg.busErr = some rs) (a : Nat) (d : Dir) :
    s.busAnswer a d = (decide (2 ^ 32 ≤ a) || knownBusError rs a d) := by rw [State.busAnswer, h]

section
variable {rs : List ErrRange} {s s' : State}

/-- Equal engine registers are equal in each register but IRQ_EN and SYM_SEL. -/
theorem Alike.reg {α : Type} (h : Alike rs s s') (f : Regs → α) (hf : ∀ r, f r.engine = f r) :
    f s'.regs = f s.regs := by rw [← hf s'.regs, h.regs, hf]

theorem Alike.inAddr_eq (h : Alike rs s s') (i : Nat) : inAddr s' i = inAddr s i := by
  rw [inAddr, inAddr, h.reg Regs.inBase fun _ => rfl]

theorem Alike.outAddr_eq (h : Alike rs s s') : outAddr s' = outAddr s := by
  rw [outAddr, outAddr, h.reg Regs.outBase fun _ => rfl, h.reg Regs.outLen fun _ => rfl]

theorem Alike.busAnswer_eq (h : Alike rs s s') (a : Nat) (d : Dir) : s'.busAnswer a d = s.busAnswer a d := by
  rw [busAnswer_known h.bus, busAnswer_known h.bus']

/-- The cursors are no part of what a state sees. -/
theorem Alike.setView (h : Alike rs s s') (v : View) : Alike rs (s.setView v) (s'.setView v) where
  bus := h.bus
  bus' := h.bus'
  cap := h.cap
  regs := congrArg (fun r : Regs => { r with
    huffUnique := v.huffUnique, huffBitsLo := v.huffBitsLo, huffBitsHi := v.huffBitsHi, lzwCodes := v.lzwCodes
    lzwNext := v.lzwNext }) h.regs
  phase := h.phase
  huff := rfl
  pack := rfl
  lzw := rfl
  cur := rfl
  mem := h.mem

theorem Alike.setPhase (h : Alike rs s s') (p : Phase) : Alike rs { s with phase := p } { s' with phase := p } :=
  { h with phase := rfl }

theorem Alike.view_eq (h : Alike rs s s') : s'.view = s.view := by
  rw [State.view, State.view, h.huff, h.pack, h.lzw, h.cur, h.reg Regs.huffUnique fun _ => rfl,
    h.reg Regs.huffBitsLo fun _ => rfl, h.reg Regs.huffBitsHi fun _ => rfl, h.reg Regs.lzwCodes fun _ => rfl,
    h.reg Regs.lzwNext fun _ => rfl]

/-- R74: the same input byte. -/
theorem Alike.inByte (h : Alike rs s s') {i : Nat} (hi : i < s.regs.inLen.toNat) :
    SimResult (Alike rs) (Machine.inByte i s) (Machine.inByte i s') := by
  have hread : Memory.read s'.mem (inAddr s i) = Memory.read s.mem (inAddr s i) := h.mem (inAddr s i) (.inl (by
    simp only [State.inInput, inRegion, inAddr, Bool.and_eq_true]
    exact ⟨decide_eq_true (by omega), decide_eq_true (by omega)⟩))
  rw [inByte_run, inByte_run, h.inAddr_eq, h.busAnswer_eq, drawn_known h.bus, drawn_known h.bus', hread]
  split_ifs
  · exact ⟨rfl, h⟩
  · exact ⟨rfl, { h with cur := by rw [h.cur] }⟩

/-- R75: the same output byte at the same address. -/
theorem Alike.storeOut (h : Alike rs s s') (v : Byte) : Alike rs (Machine.storeOut v s) (Machine.storeOut v s') where
  bus := h.bus
  bus' := h.bus'
  cap := h.cap
  regs := congrArg (fun r : Regs => { r with outLen := r.outLen + 1#32 }) h.regs
  phase := h.phase
  huff := h.huff
  pack := h.pack
  lzw := h.lzw
  cur := h.cur
  mem := fun a ha => by
    rw [storeOut_mem, storeOut_mem, h.outAddr_eq, Memory.read_write, Memory.read_write]
    by_cases hnew : a = outAddr s
    · rw [if_pos hnew, if_pos hnew]
    · rw [if_neg hnew, if_neg hnew]
      refine h.mem a (ha.imp_right fun ⟨hlo, hhi⟩ => ⟨hlo, ?_⟩)
      simp only [Machine.storeOut, BitVec.toNat_add, outAddr] at hhi hnew
      change a < s.regs.outBase.toNat + (s.regs.outLen.toNat + 1) % 2 ^ 32 at hhi
      have := Nat.mod_le (s.regs.outLen.toNat + 1) (2 ^ 32)
      omega

theorem Alike.outByte (h : Alike rs s s') (v : Byte) :
    SimResult (Alike rs) (Machine.outByte v s) (Machine.outByte v s') := by
  rw [outByte_run, outByte_run, h.outAddr_eq, h.busAnswer_eq, drawn_known h.bus, drawn_known h.bus',
    h.reg Regs.outLen fun _ => rfl, h.reg Regs.outCap fun _ => rfl]
  split_ifs
  · exact ⟨rfl, h⟩
  · exact ⟨rfl, h⟩
  · exact ⟨rfl, h.storeOut v⟩

end

/-- Alike, with the input length L. -/
def AlikeOf (rs : List ErrRange) (L : Word) (s s' : State) : Prop := Alike rs s s' ∧ s.regs.inLen = L

section
variable {rs : List ErrRange} {L : Word} {s s' : State}

theorem AlikeOf.inLen (h : AlikeOf rs L s s') : s.regs.inLen = L ∧ s'.regs.inLen = L :=
  ⟨h.2, (h.1.reg Regs.inLen fun _ => rfl).trans h.2⟩

/-- The input length stays, since no engine operation writes it. -/
theorem sim_alikeOf {α : Type} {x : Eng α} (hx : KeepsAll x)
    (h : ∀ s s', AlikeOf rs L s s' → SimResult (Alike rs) (x s) (x s')) : Sim (AlikeOf rs L) x := fun s s' hs => by
  have hsim := h s s' hs
  cases e : x s <;> cases e' : x s' <;> rw [e, e'] at hsim <;> try exact hsim.elim
  · exact ⟨hsim.1, hsim.2, (fixed_inLen (hx.ok e).fixed).trans hs.2⟩
  · exact ⟨hsim.1, hsim.2, (fixed_inLen (hx.error e).fixed).trans hs.2⟩

theorem alikeOf_engineRel (rs : List ErrRange) (L : Word) : EngineRel (AlikeOf rs L) where
  view := fun h => h.1.view_eq
  strict := fun h => h.1.reg Regs.lzwStrict fun _ => rfl
  cap := fun h => h.1.cap
  set := fun h v => ⟨h.1.setView v, h.2⟩
  phase := fun h p => ⟨h.1.setPhase p, h.2⟩
  out := fun v => sim_alikeOf (keepsAll_outByte v) fun _ _ h => h.1.outByte v

theorem sim_inByte_alikeOf {i : Nat} (hi : i < L.toNat) : Sim (AlikeOf rs L) (inByte i) :=
  sim_alikeOf (keepsAll_inByte i) fun _ _ h => h.1.inByte (h.2 ▸ hi)

/-- R142: the start checks read engine registers only. -/
theorem sim_startChecks_alikeOf : Sim (AlikeOf rs L) startChecks :=
  sim_get fun s s' h => ⟨by
    rw [h.1.reg Regs.op fun _ => rfl, h.1.reg Regs.inBase fun _ => rfl, h.1.reg Regs.inLen fun _ => rfl,
      h.1.reg Regs.outBase fun _ => rfl, h.1.reg Regs.outCap fun _ => rfl, h.1.reg Regs.overlap fun _ => rfl],
    sim_ite (fun _ => sim_raise _ _) fun _ => sim_ite (fun _ => sim_raise _ _) fun _ =>
      sim_ite (fun _ => sim_raise _ _) fun _ => sim_ite (fun _ => sim_raise _ _) fun _ => sim_pure ()⟩

end

/-! Commands on inputs that agree -/

/-- A command up to its completion: the start checks and the operation (R141). -/
def commandRun (op : BitVec 3) : Eng Unit := startChecks >>= fun _ => commandOf op

/-- R144, R307: a command completes or ends on its error. -/
theorem runCommand_eq (op : BitVec 3) (s : State) :
    runCommand op s = match commandRun op (launched op s) with
      | .ok _ t => completed t
      | .error e t => raiseError e t := by
  rw [runCommand, commandBody, commandRun, eng_bind, eng_bind, ← launched]
  cases startChecks (launched op s) with
  | error e t => rfl
  | ok _ t =>
    simp only [eng_bind]
    cases commandOf op t <;> rfl

/-- What R93 speaks of: status, error detail, result registers, internal state and output. -/
structure SameOutcome (t t' : State) : Prop where
  status     : t.regs.statusWord = t'.regs.statusWord
  errInfo    : t.regs.errInfo = t'.regs.errInfo
  outLen     : t.regs.outLen = t'.regs.outLen
  huffUnique : t.regs.huffUnique = t'.regs.huffUnique
  huffBitsLo : t.regs.huffBitsLo = t'.regs.huffBitsLo
  huffBitsHi : t.regs.huffBitsHi = t'.regs.huffBitsHi
  lzwCodes   : t.regs.lzwCodes = t'.regs.lzwCodes
  lzwNext    : t.regs.lzwNext = t'.regs.lzwNext
  huff       : t.huff = t'.huff
  pack       : t.pack = t'.pack
  lzw        : t.lzw = t'.lzw
  cur        : t.cur = t'.cur
  output     : t.output = t'.output

/-- Ending a command on states that agree, in one way g that sets PHASE, the flags, ELAPSED and the draws only. -/
theorem Alike.sameOutcome {rs : List ErrRange} {s s' t t' : State} (h : Alike rs s s')
    (hregs : { t'.regs.engine with elapsed := 0#32 } = { t.regs.engine with elapsed := 0#32 })
    (hout : t.regs.outLen = s.regs.outLen) (hbase : t.regs.outBase = s.regs.outBase) (hmem : t.mem = s.mem)
    (hmem' : t'.mem = s'.mem) (hhuff : t.huff = s.huff ∧ t'.huff = s'.huff) (hpack : t.pack = s.pack ∧ t'.pack = s'.pack)
    (hlzw : t.lzw = s.lzw ∧ t'.lzw = s'.lzw) (hcur : t.cur = s.cur ∧ t'.cur = s'.cur) : SameOutcome t t' := by
  have hreg {α : Type} (f : Regs → α) (hf : ∀ r : Regs, f { r.engine with elapsed := 0#32 } = f r) :
      f t.regs = f t'.regs := by rw [← hf t.regs, ← hregs, hf]
  refine ⟨hreg Regs.statusWord fun _ => rfl, hreg Regs.errInfo fun _ => rfl, hreg Regs.outLen fun _ => rfl,
    hreg Regs.huffUnique fun _ => rfl, hreg Regs.huffBitsLo fun _ => rfl, hreg Regs.huffBitsHi fun _ => rfl,
    hreg Regs.lzwCodes fun _ => rfl, hreg Regs.lzwNext fun _ => rfl, ?_, ?_, ?_, ?_, ?_⟩
  · rw [hhuff.1, hhuff.2, h.huff]
  · rw [hpack.1, hpack.2, h.pack]
  · rw [hlzw.1, hlzw.2, h.lzw]
  · rw [hcur.1, hcur.2, h.cur]
  · rw [State.output, State.output, ← hreg Regs.outLen fun _ => rfl, ← hreg Regs.outBase fun _ => rfl, hmem, hmem']
    refine readBytes_congr fun a hlo hhi => (h.mem a (.inr ?_)).symm
    rw [← hout, ← hbase]
    exact ⟨hlo, hhi⟩

/-- R141: START's clearing leaves nothing of an earlier command. -/
theorem alike_launched {s1 s2 : State} {rs : List ErrRange} (op : BitVec 3) (hbus1 : s1.cfg.busErr = some rs)
    (hbus2 : s2.cfg.busErr = some rs) (hcap : s1.cfg.lzwCap = s2.cfg.lzwCap) (hinBase : s1.regs.inBase = s2.regs.inBase)
    (hinLen : s1.regs.inLen = s2.regs.inLen) (houtBase : s1.regs.outBase = s2.regs.outBase)
    (houtCap : s1.regs.outCap = s2.regs.outCap) (hstrict : s1.regs.lzwStrict = s2.regs.lzwStrict)
    (hinput : s1.input = s2.input) : Alike rs (launched op s1) (launched op s2) where
  bus := hbus1
  bus' := hbus2
  cap := hcap.symm
  regs := by simp [launched, launch, Regs.flagsStart, Regs.engine, hinBase, hinLen, houtBase, houtCap, hstrict]
  phase := rfl
  huff := rfl
  pack := rfl
  lzw := rfl
  cur := rfl
  mem := fun a ha => by
    obtain hin | ⟨hlo, hhi⟩ := ha
    · simp only [State.inInput, inRegion, Bool.and_eq_true, decide_eq_true_eq] at hin
      obtain ⟨i, rfl⟩ := Nat.exists_eq_add_of_le hin.1
      have hi1 : i < s1.input.length := by
        rw [length_input]
        exact Nat.lt_of_add_lt_add_left hin.2
      have hi2 : i < s2.input.length := hinput ▸ hi1
      have heq : s2.input[i] = s1.input[i] := by simp only [hinput]
      rw [getElem_input, getElem_input, inAddr, inAddr, ← hinBase] at heq
      exact heq
    · exact absurd hhi (Nat.not_lt.mpr hlo)

/-- Settles O26: the engine sees no more than the two states agree on. -/
theorem commandsDependOnInputOnly : Obligations.CommandsDependOnInputOnly := by
  unfold Obligations.CommandsDependOnInputOnly
  intro s1 s2 op rs hbus1 hbus2 hcap hinBase hinLen houtBase houtCap hstrict hinput
  have hstart := alike_launched op hbus1 hbus2 hcap hinBase hinLen houtBase houtCap hstrict hinput
  have hsim : Sim (AlikeOf rs s1.regs.inLen) (commandRun op) := sim_bind sim_startChecks_alikeOf fun _ =>
    sim_commandOf (alikeOf_engineRel rs _) AlikeOf.inLen (fun _ hi => sim_inByte_alikeOf hi) op
  have hend : SameOutcome (runCommand op s1) (runCommand op s2) := by
    rw [runCommand_eq, runCommand_eq]
    cases hrun : commandRun op (launched op s1) with
    | ok a t =>
      obtain ⟨t', hrun', hlike, -⟩ := hsim.ok ⟨hstart, rfl⟩ hrun
      rw [hrun']
      exact hlike.sameOutcome (congrArg (fun r : Regs => { r.flagsComplete with elapsed := 0#32 }) hlike.regs) rfl rfl
        rfl rfl ⟨rfl, rfl⟩ ⟨rfl, rfl⟩ ⟨rfl, rfl⟩ ⟨rfl, rfl⟩
    | error e t =>
      obtain ⟨t', hrun', hlike, -⟩ := hsim.error ⟨hstart, rfl⟩ hrun
      rw [hrun']
      exact hlike.sameOutcome
        (congrArg (fun r : Regs => { r.flagsError e.kind with errInfo := e.info, elapsed := 0#32 }) hlike.regs) rfl rfl
        rfl rfl ⟨rfl, rfl⟩ ⟨rfl, rfl⟩ ⟨rfl, rfl⟩ ⟨rfl, rfl⟩
  obtain ⟨h1, h2, h3, h4, h5, h6, h7, h8, h9, h10, h11, h12, h13⟩ := hend
  exact ⟨_, _, exec_decodeOp op s1, exec_decodeOp op s2, h1, h2, h3, h4, h5, h6, h7, h8, h9, h10, h11, h12, h13⟩

end Sys2Proof.Machine

/-! PROOFS. The family of 43_lzw.md, each operation of the codec on its own (R254, R255, R259, R261, R262): what it
writes, and what an error that ends it leaves. -/

namespace Sys2Proof.Machine

/-- An error ends a sequence. -/
theorem bind_error {α β : Type} {x : Eng α} {f : α → Eng β} {s t : State} {r : Raise} (h : x s = .error r t) :
    (x >>= f) s = .error r t := by
  rw [eng_bind, h]

theorem strictFull_iff {s : State} :
    strictFull s = true ↔ s.lzw.next = s.cfg.lzwCap ∧ s.regs.lzwStrict = true := by
  rw [strictFull, Bool.and_eq_true, decide_eq_true_eq]

/-- What Find returned as an instruction is the code it finds. -/
theorem findCode_of_exec {s : State} {w : Code} {c : Byte} {r : Option Code}
    (h : exec (.find w c) s = .next { s with ret := .code r }) : findCode s.lzw w c = r := by
  rw [exec_find] at h
  injection h with h
  exact Ret.code.inj (congrArg State.ret h)

/-- R252: the entry at NEXT that Insert makes, and every other entry. -/
theorem sparseGet?_insertEntry (p : Code) (c : Byte) (l : Lzw) :
    sparseGet? (insertEntry p c l).dict l.next.toNat = some (extendEntry l p c)
      ∧ ∀ k, k ≠ l.next.toNat → sparseGet? (insertEntry p c l).dict k = sparseGet? l.dict k :=
  ⟨sparseGet?_set_same _ _ _, fun _ hk => sparseGet?_set_ne _ _ hk⟩

/-! The encoder (R254, R255) -/

section
variable {s : State} {c : Byte}

/-- R254: a match that is not extended is emitted, once strict mode has let it pass. -/
theorem encodeByte_unextended (hv : s.lzw.wValid = true) (hfind : findCode s.lzw s.lzw.w c = none) :
    encodeByte c s = (if strictFull s then raise .unsupportedConfiguration 3
      else emitCode s.lzw.w >>= fun _ => dictInsert s.lzw.w c >>= fun _ => setW (c.setWidth 32) : Eng Unit) s := by
  have hne : ¬ s.lzw.wValid = false := by rw [hv]; decide
  rw [encodeByte]
  refine (bind_ok (eng_get s)).trans <| (congrFun (if_neg hne) s).trans <| (bind_ok (dictFind_run _ _ s)).trans ?_
  rw [hfind]

theorem encodeByte_strict (hv : s.lzw.wValid = true) (hfind : findCode s.lzw s.lzw.w c = none)
    (hstrict : s.lzw.next = s.cfg.lzwCap ∧ s.regs.lzwStrict = true) :
    encodeByte c s = .error ⟨.unsupportedConfiguration, BitVec.ofNat 32 3⟩ s :=
  (encodeByte_unextended hv hfind).trans (congrFun (if_pos (strictFull_iff.mpr hstrict)) s)

theorem encodeByte_passes (hv : s.lzw.wValid = true) (hfind : findCode s.lzw s.lzw.w c = none)
    (hstrict : ¬(s.lzw.next = s.cfg.lzwCap ∧ s.regs.lzwStrict = true)) : encodeByte c s
      = (emitCode s.lzw.w >>= fun _ => dictInsert s.lzw.w c >>= fun _ => setW (c.setWidth 32) : Eng Unit) s :=
  (encodeByte_unextended hv hfind).trans (congrFun (if_neg (strictFull_iff.not.mpr hstrict)) s)

theorem encodeEnd_no_match (hv : s.lzw.wValid = false) : encodeEnd s = .ok () s :=
  (bind_ok (eng_get s)).trans (congrFun (if_neg (Bool.eq_false_iff.mp hv)) s)

theorem encodeEnd_match (hv : s.lzw.wValid = true) : encodeEnd s = emitCode s.lzw.w s :=
  (bind_ok (eng_get s)).trans (congrFun (if_pos hv) s)

/-- R254, R302: a code that does not fit. -/
theorem emitCode_full (k : Code) {n : Nat} (hbus : s.NoBusError)
    (hcap : s.regs.outBase.toNat + s.regs.outCap.toNat ≤ 2 ^ 32)
    (hn : s.regs.outLen.toNat + n = s.regs.outCap.toNat) (hlt : n < 4) :
    ∃ m d, emitCode k s = .error ⟨.ioWrite, BitVec.ofNat 32 s.regs.outCap.toNat⟩ (s.afterOut m d n)
      ∧ s.Appends m ((leBytes k.toNat 4).take n) := by
  obtain ⟨m, d, hrun, hm⟩ := outBytes_full (leBytes k.toNat 4) n hbus hcap hn (by rwa [length_leBytes])
  exact ⟨m, d, bind_error hrun, hm⟩

end

/-- Settles O52: the four cases of EncodeByte. -/
theorem encodeByte_outcome : Obligations.EncodeByte := by
  unfold Obligations.EncodeByte
  refine fun c s => ⟨fun hv => runOp_ok (fun _ => .none) (encodeByte_first hv),
    fun k hv hfind => runOp_ok (fun _ => .none) (encodeByte_extends hv (findCode_of_exec hfind)), fun hv hfind =>
    ⟨fun hnext hs => runOp_error (fun _ => .none) (encodeByte_strict hv (findCode_of_exec hfind) ⟨hnext, hs⟩),
      fun hstrict hbus hroom => ?_⟩⟩
  obtain ⟨m, d, hemit, hm⟩ := emitCode_ok s.lzw.w hbus hroom
  have hrun := (encodeByte_passes hv (findCode_of_exec hfind) hstrict).trans (bind_ok hemit)
  obtain ⟨hnew, hold⟩ := sparseGet?_insertEntry s.lzw.w c s.lzw
  refine ⟨m, d, (insertEntry s.lzw.w c s.lzw).dict, hm, fun hlt => ⟨?_, hnew, hold⟩, fun hle => ?_⟩
  · exact runOp_ok (fun _ => .none) (hrun.trans (bind_ok (dictInsert_room _ _ hlt)))
  · exact runOp_ok (fun _ => .none) (hrun.trans (bind_ok (dictInsert_full _ _ hle)))

/-- Settles O53: EncodeEnd emits the match that is left. -/
theorem encodeEnd_outcome : Obligations.EncodeEnd := by
  unfold Obligations.EncodeEnd
  refine fun s => ⟨fun hv => runOp_ok (fun _ => .none) (encodeEnd_no_match hv), fun hv hbus hroom => ?_⟩
  obtain ⟨m, d, hemit, hm⟩ := emitCode_ok s.lzw.w hbus hroom
  exact ⟨m, d, hm, runOp_ok (fun _ => .none) ((encodeEnd_match hv).trans hemit)⟩

/-! The decoder (R259 to R262) -/

/-- R262: a valid code's string is no longer than its place above the seeds. -/
theorem State.DictOk.length_stringOf_le {s : State} (h : s.DictOk) {k : Code} (hk : k.toNat < s.lzw.next.toNat) :
    (stringOf s.lzw k).length ≤ max 1 (k.toNat - 254) := by
  induction hn : k.toNat using Nat.strong_induction_on generalizing k with
  | _ n ih =>
    obtain ⟨-, -, hs⟩ | ⟨p, hlo, hlt, -, hs⟩ := h.code_cases hk
    · rw [hs]
      exact Nat.le_max_left _ _
    · have hp := ih p.toNat (hn ▸ hlt) (hlt.trans hk) rfl
      rw [hs, List.length_append, List.length_singleton]
      omega

/-- Settles O56: a string is one byte longer than the one it extends, which has a lower code. -/
theorem emitString_outcome : Obligations.EmitString := by
  unfold Obligations.EmitString
  refine ⟨fun k s h hk => ?_, fun k s hbus hroom => ?_⟩
  · have hlen := h.length_stringOf_le hk
    have hnext := h.next
    omega
  · obtain ⟨m, d, hrun, hm⟩ := emitString_ok k hbus hroom
    exact ⟨m, d, hm, runOp_ok (fun _ => .none) hrun⟩

section
variable {s : State} {j : Nat}

/-- R259: the first code is no seed. -/
theorem decodeFirst_corrupt (hbus : s.NoBusError) (ha : inAddr s 0 + 4 ≤ 2 ^ 32) (hk : 256 ≤ (s.inWord 0).toNat) :
    ∃ c d, decodeFirst s = .error ⟨.corruptData, BitVec.ofNat 32 0⟩ { s with cur := c, draws := d }
      ∧ c.bitPos = s.cur.bitPos ∧ c.pass = s.cur.pass := by
  obtain ⟨c, d, hget, hbit, hpass⟩ := get32_ok 0 hbus ha
  exact ⟨c, d, (bind_ok hget).trans (congrFun (if_pos hk) _), hbit, hpass⟩

/-- R259: a seed's string is written before anything else. -/
theorem decodeFirst_seed (hbus : s.NoBusError) (ha : inAddr s 0 + 4 ≤ 2 ^ 32) (hk : (s.inWord 0).toNat < 256) :
    ∃ c d, decodeFirst s = (outBytes (stringOf s.lzw (s.inWord 0)) >>= fun _ =>
        (modify fun s => { s with regs := { s.regs with lzwCodes := 1#32 } } : Eng Unit) >>= fun _ =>
          setPrev (s.inWord 0)) { s with cur := c, draws := d }
      ∧ c.bitPos = s.cur.bitPos ∧ c.pass = s.cur.pass := by
  obtain ⟨c, d, hget, hbit, hpass⟩ := get32_ok 0 hbus ha
  exact ⟨c, d, (bind_ok hget).trans (congrFun (if_neg hk.not_ge) _), hbit, hpass⟩

/-- R260: neither below NEXT nor the entry about to be made. -/
theorem classify_undefined {k : Code}
    (hk : s.lzw.next.toNat < k.toNat ∨ (k = s.lzw.next ∧ s.cfg.lzwCap.toNat ≤ s.lzw.next.toNat)) :
    classify s k = .undefined := by
  obtain hlt | ⟨rfl, hfull⟩ := hk
  · have hne : k ≠ s.lzw.next := fun e => Nat.lt_irrefl _ (e ▸ hlt)
    rw [classify, if_neg hlt.not_gt, if_neg fun h => hne h.1]
  · rw [classify, if_neg (Nat.lt_irrefl _), if_neg fun h => h.2.not_ge hfull]

/-- R261: an undefined code. -/
theorem decodeNext_corrupt (hbus : s.NoBusError) (ha : inAddr s (4 * j) + 4 ≤ 2 ^ 32)
    (hk : s.lzw.next.toNat < (s.inWord (4 * j)).toNat
      ∨ (s.inWord (4 * j) = s.lzw.next ∧ s.cfg.lzwCap.toNat ≤ s.lzw.next.toNat)) :
    ∃ c d, decodeNext j s = .error ⟨.corruptData, BitVec.ofNat 32 (4 * j)⟩ { s with cur := c, draws := d }
      ∧ c.bitPos = s.cur.bitPos ∧ c.pass = s.cur.pass := by
  obtain ⟨c, d, hget, hbit, hpass⟩ := get32_ok (4 * j) hbus ha
  have hclass : classify { s with cur := c, draws := d } (s.inWord (4 * j)) = .undefined := classify_undefined hk
  refine ⟨c, d, (bind_ok hget).trans ((bind_ok (eng_get _)).trans ?_), hbit, hpass⟩
  rw [hclass]
  rfl

/-- R261: the strict check comes before a defined code's output. -/
theorem decodeNext_strict (hbus : s.NoBusError) (ha : inAddr s (4 * j) + 4 ≤ 2 ^ 32)
    (hk : (s.inWord (4 * j)).toNat < s.lzw.next.toNat)
    (hstrict : s.lzw.next = s.cfg.lzwCap ∧ s.regs.lzwStrict = true) :
    ∃ c d, decodeNext j s = .error ⟨.unsupportedConfiguration, BitVec.ofNat 32 3⟩ { s with cur := c, draws := d }
      ∧ c.bitPos = s.cur.bitPos ∧ c.pass = s.cur.pass := by
  obtain ⟨c, d, hget, hbit, hpass⟩ := get32_ok (4 * j) hbus ha
  have hclass : classify { s with cur := c, draws := d } (s.inWord (4 * j)) = .defined := if_pos hk
  refine ⟨c, d, (bind_ok hget).trans ((bind_ok (eng_get _)).trans ?_), hbit, hpass⟩
  rw [hclass]
  exact congrFun (if_pos (strictFull_iff.mpr hstrict)) _

/-- The first byte of the KwKwK case is written like the string before it. -/
theorem outBytes_concat_bind (bs : List Byte) (b : Byte) (k : Eng Unit) (u : State) :
    (outBytes (bs ++ [b]) >>= fun _ => k) u = (outBytes bs >>= fun _ => outByte b >>= fun _ => k) u := by
  rw [eng_bind, outBytes_append, eng_bind, eng_bind]
  cases outBytes bs u with
  | error r v => rfl
  | ok _ v =>
    simp only [outBytes, eng_bind]
    cases outByte b v <;> rfl

/-- R261: the string of the code, or PREV's string and its first byte, is written before anything else. -/
theorem decodeNext_entry {entry : List Byte} {f : Byte} (hbus : s.NoBusError) (ha : inAddr s (4 * j) + 4 ≤ 2 ^ 32)
    (hentry : s.EntryIs (s.inWord (4 * j)) entry f)
    (hstrict : ¬(s.lzw.next = s.cfg.lzwCap ∧ s.regs.lzwStrict = true)) :
    ∃ c d, decodeNext j s
        = (outBytes entry >>= fun _ => afterCode (s.inWord (4 * j)) f) { s with cur := c, draws := d }
      ∧ c.bitPos = s.cur.bitPos ∧ c.pass = s.cur.pass := by
  obtain ⟨c, d, hget, hbit, hpass⟩ := get32_ok (4 * j) hbus ha
  have hfull : ¬ strictFull { s with cur := c, draws := d } = true := strictFull_iff.not.mpr hstrict
  refine ⟨c, d, (bind_ok hget).trans ((bind_ok (eng_get _)).trans ?_), hbit, hpass⟩
  obtain ⟨hlt, rfl, rfl⟩ | ⟨heq, hlt, rfl, rfl⟩ := hentry
  · have hclass : classify { s with cur := c, draws := d } (s.inWord (4 * j)) = .defined := if_pos hlt
    rw [hclass]
    exact congrFun (if_neg hfull) _
  · have hclass : classify { s with cur := c, draws := d } (s.inWord (4 * j)) = .kwkwk := by
      rw [classify, if_neg (by rw [heq]; exact Nat.lt_irrefl _), if_pos ⟨heq, hlt⟩]
    rw [hclass, outBytes_concat_bind]
    exact congrFun (if_neg hfull) _

/-- R261: what follows the output of a code, with capacity and without. -/
theorem afterCode_room (k : Code) (f : Byte) (h : s.lzw.next.toNat < s.cfg.lzwCap.toNat) :
    afterCode k f s = .ok () { s with
      lzw := { insertEntry s.lzw.prev f s.lzw with prev := k }
      regs := { s.regs with lzwCodes := s.regs.lzwCodes + 1#32, lzwNext := s.lzw.next + 1#32 } } :=
  (bind_ok (eng_modify _ s)).trans <| (bind_ok (eng_get _)).trans <| bind_ok (dictInsert_room (s := { s with
    regs := { s.regs with lzwCodes := s.regs.lzwCodes + 1#32 } }) _ _ h)

theorem afterCode_full (k : Code) (f : Byte) (h : s.cfg.lzwCap.toNat ≤ s.lzw.next.toNat) :
    afterCode k f s = .ok () { s with
      lzw := { s.lzw with prev := k }, regs := { s.regs with lzwCodes := s.regs.lzwCodes + 1#32 } } :=
  (bind_ok (eng_modify _ s)).trans <| (bind_ok (eng_get _)).trans <| bind_ok (dictInsert_full (s := { s with
    regs := { s.regs with lzwCodes := s.regs.lzwCodes + 1#32 } }) _ _ h)

end

/-- Settles O54: the two cases of the first code. -/
theorem decodeFirst_outcome : Obligations.DecodeFirst := by
  unfold Obligations.DecodeFirst
  refine fun s hbus ha => ⟨fun hk => ?_, fun hk hroom => ?_⟩
  · obtain ⟨c, d, hrun, hbit, hpass⟩ := decodeFirst_corrupt hbus ha hk
    exact ⟨c, d, runOp_error (fun _ => .none) hrun, hbit, hpass⟩
  · obtain ⟨m, d, c, hrun, hm, hbit, hpass⟩ := decodeFirst_emits hbus ha hk hroom
    exact ⟨m, c, d, hm, runOp_ok (fun _ => .none) hrun, hbit, hpass⟩

/-- Settles O55: the code's class, then its string, then the insertion. -/
theorem decodeNext_outcome : Obligations.DecodeNext := by
  unfold Obligations.DecodeNext
  rintro j s k hbus ha rfl
  refine ⟨fun hk => ?_, fun hk hnext hs => ?_, fun entry f hstrict hentry hroom => ?_⟩
  · obtain ⟨c, d, hrun, hbit, hpass⟩ := decodeNext_corrupt hbus ha hk
    exact ⟨c, d, hbit, hpass, runOp_error (fun _ => .none) hrun⟩
  · obtain ⟨c, d, hrun, hbit, hpass⟩ := decodeNext_strict hbus ha hk ⟨hnext, hs⟩
    exact ⟨c, d, hbit, hpass, runOp_error (fun _ => .none) hrun⟩
  · obtain ⟨m, d, c, hrun, hm, hbit, hpass⟩ := decodeNext_emits hbus ha hentry hstrict hroom
    obtain ⟨hnew, hold⟩ := sparseGet?_insertEntry s.lzw.prev f s.lzw
    exact ⟨m, c, d, (insertEntry s.lzw.prev f s.lzw).dict, hm, hbit, hpass,
      fun hlt => ⟨runOp_ok (fun _ => .none) (hrun.trans (afterCode_room _ f hlt)), hnew, hold⟩,
      fun hle => runOp_ok (fun _ => .none) (hrun.trans (afterCode_full _ f hle))⟩

end Sys2Proof.Machine

/-! PROOFS. One command or operation on two platforms (R74, R75, R78): a platform that fails the write of output byte n
against one without errors whose output region has n bytes, and a platform that fails a read against one without
errors. -/

namespace Sys2Proof.Machine

/-- t as it is on another platform and with another output capacity. -/
def State.onPlatform (t : State) (c : Platform) (cap : Word) : State :=
  { t with cfg := c, regs := { t.regs with outCap := cap } }

/-- t' is t moved to the platform and the output capacity of s0; t itself is on a platform without errors and has the
output capacity cap, and either cap is that of s0 or what t wrote lies below it. No free value has been drawn. -/
structure Moved (s0 : State) (cap : Word) (t t' : State) : Prop where
  eq      : t' = t.onPlatform s0.cfg s0.regs.outCap
  cfg     : t.cfg = { s0.cfg with busErr := some [] }
  inBase  : t.regs.inBase = s0.regs.inBase
  inLen   : t.regs.inLen = s0.regs.inLen
  outBase : t.regs.outBase = s0.regs.outBase
  outCap  : t.regs.outCap = cap
  fits    : cap = s0.regs.outCap ∨ t.regs.outLen.toNat ≤ cap.toNat
  draws   : t.draws = s0.draws

/-- The state s on a platform without errors and with the output capacity cap. -/
def State.calm (s : State) (cap : Word) : State := s.onPlatform { s.cfg with busErr := some [] } cap

theorem moved_calm {s : State} {cap : Word} (h : cap = s.regs.outCap ∨ s.regs.outLen.toNat ≤ cap.toNat) :
    Moved s cap (s.calm cap) s := ⟨rfl, rfl, rfl, rfl, rfl, rfl, h, rfl⟩

theorem noBusError_calm (s : State) (cap : Word) : (s.calm cap).NoBusError := fun _ _ _ => rfl

section
variable {s0 t t' : State} {cap : Word}

theorem Moved.setView (h : Moved s0 cap t t') (v : View) : Moved s0 cap (t.setView v) (t'.setView v) :=
  ⟨by rw [h.eq]; rfl, h.cfg, h.inBase, h.inLen, h.outBase, h.outCap, h.fits, h.draws⟩

theorem Moved.setPhase (h : Moved s0 cap t t') (p : Phase) :
    Moved s0 cap { t with phase := p } { t' with phase := p } :=
  ⟨by rw [h.eq]; rfl, h.cfg, h.inBase, h.inLen, h.outBase, h.outCap, h.fits, h.draws⟩

theorem Moved.inAddr_eq (h : Moved s0 cap t t') (i : Nat) : inAddr t i = inAddr s0 i := by
  rw [inAddr, inAddr, h.inBase]

theorem Moved.cfg' (h : Moved s0 cap t t') : t'.cfg = s0.cfg := by rw [h.eq]; rfl

/-- R78: the platform without errors answers an error outside memory only. -/
theorem Moved.busAnswer_eq (h : Moved s0 cap t t') (a : Nat) (d : Dir) : t.busAnswer a d = decide (2 ^ 32 ≤ a) := by
  rw [busAnswer_known (rs := []) (by rw [h.cfg])]
  exact Bool.or_false _

theorem Moved.drawn_eq (h : Moved s0 cap t t') (a : Nat) : drawn t a = t := drawn_known (rs := []) (by rw [h.cfg]) a

section
variable {rs : List ErrRange} (hrs : s0.cfg.busErr = some rs)
include hrs

theorem Moved.busAnswer_eq' (h : Moved s0 cap t t') (a : Nat) (d : Dir) :
    t'.busAnswer a d = (decide (2 ^ 32 ≤ a) || knownBusError rs a d) := busAnswer_known (by rw [h.cfg', hrs]) a d

theorem Moved.drawn_eq' (h : Moved s0 cap t t') (a : Nat) : drawn t' a = t' := drawn_known (by rw [h.cfg', hrs]) a

/-- R74: a byte whose read the platform of s0 does not fail. -/
theorem sim_inByte_moved {i : Nat} (hi : knownBusError rs (inAddr s0 i) .read = false) :
    Sim (Moved s0 cap) (inByte i) := fun t t' h => by
  have haddr : inAddr t' i = inAddr t i := by rw [h.eq]; rfl
  have hmem : t'.mem = t.mem := by rw [h.eq]; rfl
  rw [inByte_run, inByte_run, haddr, h.busAnswer_eq, h.busAnswer_eq' hrs, h.drawn_eq, h.drawn_eq' hrs, h.inAddr_eq, hi,
    Bool.or_false, hmem]
  split_ifs
  · exact ⟨rfl, h⟩
  · exact ⟨rfl, by rw [h.eq]; rfl, h.cfg, h.inBase, h.inLen, h.outBase, h.outCap, h.fits, h.draws⟩

/-- R74: the byte whose read it fails. -/
theorem inByte_fails {i : Nat} (hi : knownBusError rs (inAddr s0 i) .read = true) (hcfg : t'.cfg = s0.cfg)
    (hbase : t'.regs.inBase = s0.regs.inBase) : inByte i t' = .error ⟨.ioRead, BitVec.ofNat 32 i⟩ t' := by
  have hbus : t'.cfg.busErr = some rs := by rw [hcfg, hrs]
  have haddr : inAddr t' i = inAddr s0 i := by rw [inAddr, inAddr, hbase]
  rw [inByte_run, busAnswer_known hbus, drawn_known hbus, haddr, hi, Bool.or_true, if_pos rfl]

end

theorem Moved.storeOut (h : Moved s0 cap t t') (v : Byte)
    (hfits : cap = s0.regs.outCap ∨ t.regs.outLen.toNat + 1 ≤ cap.toNat) :
    Moved s0 cap (Machine.storeOut v t) (Machine.storeOut v t') := by
  refine ⟨by rw [h.eq]; rfl, h.cfg, h.inBase, h.inLen, h.outBase, h.outCap, hfits.imp_right fun hlt => ?_,
    h.draws⟩
  have := cap.isLt
  show (t.regs.outLen + 1#32).toNat ≤ _
  rw [BitVec.toNat_add, BitVec.toNat_ofNat]
  omega

end

/-- R14: the rules of the engine for two platforms, when OutByte keeps the relation. -/
theorem moved_engineRel {s0 : State} {cap : Word} (hout : ∀ v, Sim (Moved s0 cap) (outByte v)) :
    EngineRel (Moved s0 cap) where
  view := fun h => by rw [h.eq]; rfl
  strict := fun h => by rw [h.eq]; rfl
  cap := fun h => by rw [h.cfg', h.cfg]
  set := fun h v => h.setView v
  phase := fun h p => h.setPhase p
  out := hout

theorem Moved.inLen_eq {s0 t t' : State} {cap : Word} (h : Moved s0 cap t t') :
    t.regs.inLen = s0.regs.inLen ∧ t'.regs.inLen = s0.regs.inLen := ⟨h.inLen, by rw [h.eq]; exact h.inLen⟩

/-! A write that fails (R75) -/

section
variable {s0 : State} {n : Nat}

/-- R75: the output byte that the platform fails is the one that has no room in n bytes. -/
theorem sim_outByte_writeFails (hfail : s0.WriteFails n)
    (hroom : s0.regs.outBase.toNat + s0.regs.outCap.toNat ≤ 2 ^ 32) (hn : n < s0.regs.outCap.toNat) (v : Byte) :
    Sim (Moved s0 (BitVec.ofNat 32 n)) (outByte v) := fun t t' h => by
  obtain ⟨rs, hrs, -, hbelow, hat⟩ := hfail
  have hlt := s0.regs.outCap.isLt
  have hcapn : (BitVec.ofNat 32 n).toNat = n := Nat.mod_eq_of_lt (hn.trans hlt)
  have hfits : t.regs.outLen.toNat ≤ n := by
    obtain hcap | hle := h.fits
    · rw [← hcap, hcapn] at hn
      exact absurd hn (Nat.lt_irrefl n)
    · rwa [hcapn] at hle
  have haddr : outAddr t = s0.regs.outBase.toNat + t.regs.outLen.toNat := by rw [outAddr, h.outBase]
  have haddr' : outAddr t' = outAddr t := by rw [h.eq]; rfl
  have hlen' : t'.regs.outLen = t.regs.outLen := by rw [h.eq]; rfl
  have hcap' : t'.regs.outCap = s0.regs.outCap := by rw [h.eq]; rfl
  have hne : t.regs.outLen ≠ s0.regs.outCap := fun e => by rw [e] at hfits; omega
  have hin : ¬ 2 ^ 32 ≤ outAddr t := by omega
  rw [outByte_run, outByte_run, h.busAnswer_eq, h.busAnswer_eq' hrs, h.drawn_eq, h.drawn_eq' hrs, haddr', hlen', hcap',
    h.outCap, if_neg hne, decide_eq_false hin, Bool.false_or, haddr]
  by_cases hfull : t.regs.outLen = BitVec.ofNat 32 n
  · rw [if_pos hfull, hfull, hcapn, hat, if_pos rfl]
    exact ⟨rfl, h⟩
  · have hltn : t.regs.outLen.toNat < n := lt_of_le_of_ne hfits fun e => hfull (BitVec.eq_of_toNat_eq (by rw [e, hcapn]))
    rw [if_neg hfull, hbelow _ hltn]
    exact ⟨rfl, h.storeOut v (.inr (by rwa [hcapn]))⟩

theorem writeFails_engineRel (hfail : s0.WriteFails n)
    (hroom : s0.regs.outBase.toNat + s0.regs.outCap.toNat ≤ 2 ^ 32) (hn : n < s0.regs.outCap.toNat) :
    EngineRel (Moved s0 (BitVec.ofNat 32 n)) := moved_engineRel (sim_outByte_writeFails hfail hroom hn)

/-- R75: such a platform fails no read inside memory. -/
theorem sim_inByte_writeFails (hfail : s0.WriteFails n) (i : Nat) :
    Sim (Moved s0 (BitVec.ofNat 32 n)) (inByte i) := by
  obtain ⟨rs, hrs, hread, -⟩ := hfail
  by_cases hin : inAddr s0 i < 2 ^ 32
  · exact sim_inByte_moved hrs (hread _ hin)
  · intro t t' h
    have hle : 2 ^ 32 ≤ inAddr s0 i := Nat.le_of_not_lt hin
    have haddr : inAddr t' i = inAddr t i := by rw [h.eq]; rfl
    rw [inByte_run, inByte_run, haddr, h.busAnswer_eq, h.busAnswer_eq' hrs, h.drawn_eq, h.drawn_eq' hrs, h.inAddr_eq,
      decide_eq_true hle, Bool.true_or, if_pos rfl, if_pos rfl]
    exact ⟨rfl, h⟩

end

/-! A read that fails (R74) -/

section
variable {s0 : State} {k : Nat}

theorem sim_outByte_readFails (hfail : s0.ReadFails k) (v : Byte) :
    Sim (Moved s0 s0.regs.outCap) (outByte v) := fun t t' h => by
  obtain ⟨rs, hrs, hwrite, -⟩ := hfail
  have haddr' : outAddr t' = outAddr t := by rw [h.eq]; rfl
  have hlen' : t'.regs.outLen = t.regs.outLen := by rw [h.eq]; rfl
  have hcap' : t'.regs.outCap = s0.regs.outCap := by rw [h.eq]; rfl
  have hbus : t'.busAnswer (outAddr t) .write = t.busAnswer (outAddr t) .write := by
    rw [h.busAnswer_eq, h.busAnswer_eq' hrs]
    by_cases hin : outAddr t < 2 ^ 32
    · rw [hwrite _ hin, Bool.or_false]
    · rw [decide_eq_true (Nat.le_of_not_lt hin), Bool.true_or]
  rw [outByte_run, outByte_run, haddr', hbus, h.drawn_eq, h.drawn_eq' hrs, hlen', hcap', h.outCap]
  split_ifs
  · exact ⟨rfl, h⟩
  · exact ⟨rfl, h⟩
  · exact ⟨rfl, h.storeOut v (.inl rfl)⟩

theorem readFails_engineRel (hfail : s0.ReadFails k) : EngineRel (Moved s0 s0.regs.outCap) :=
  moved_engineRel (sim_outByte_readFails hfail)

/-- R74: it reads the bytes before k like a platform without errors, -/
theorem sim_inByte_readFails (hfail : s0.ReadFails k) {i : Nat} (hi : i < k) :
    Sim (Moved s0 s0.regs.outCap) (inByte i) := by
  obtain ⟨rs, hrs, -, hread, -⟩ := hfail
  exact sim_inByte_moved hrs (hread i hi)

/-- and fails byte k. -/
theorem State.ReadFails.inByte (hfail : s0.ReadFails k) {t : State} (hcfg : t.cfg = s0.cfg)
    (hbase : t.regs.inBase = s0.regs.inBase) : Machine.inByte k t = .error ⟨.ioRead, BitVec.ofNat 32 k⟩ t := by
  obtain ⟨rs, hrs, -, -, hat, -⟩ := hfail
  exact inByte_fails hrs hat hcfg hbase

/-- ReadFails is about the platform and IN_BASE. -/
theorem State.ReadFails.congr (hfail : s0.ReadFails k) {t : State} (hcfg : t.cfg = s0.cfg)
    (hbase : t.regs.inBase = s0.regs.inBase) : t.ReadFails k := by
  have haddr (i : Nat) : inAddr t i = inAddr s0 i := by rw [inAddr, inAddr, hbase]
  simp only [State.ReadFails, hcfg, haddr]
  exact hfail

end

/-! Instructions on a platform that fails a write -/

theorem SimResult.mono {R Q : State → State → Prop} {α : Type} {x y : EStateM.Result Raise State α}
    (h : SimResult R x y) (hRQ : ∀ t t', R t t' → Q t t') : SimResult Q x y := by
  cases x <;> cases y <;> try exact h.elim
  · exact ⟨h.1, hRQ _ _ h.2⟩
  · exact ⟨h.1, hRQ _ _ h.2⟩

section
variable {s : State}

/-- An operation run as an instruction, on both platforms. -/
theorem runOp_moved {α : Type} {x : Eng α} (toRet : α → Ret) {s' : State}
    (hx : SimResult (fun u u' => u' = u.onPlatform s.cfg s.regs.outCap) (x s') (x s)) :
    ∃ t, runOp x toRet s' = .next t ∧ runOp x toRet s = .next (t.onPlatform s.cfg s.regs.outCap) := by
  cases e : x s' <;> cases e' : x s <;> rw [e, e'] at hx <;> try exact hx.elim
  · obtain ⟨rfl, rfl⟩ := hx
    exact ⟨_, by rw [runOp, e], by rw [runOp, e']; rfl⟩
  · obtain ⟨rfl, rfl⟩ := hx
    exact ⟨_, by rw [runOp, e], by rw [runOp, e']; rfl⟩

/-- A whole command, on both platforms. -/
theorem runCommand_moved {op : BitVec 3} {cap : Word} (hx : Sim (Moved (launched op s) cap) (commandRun op)) {s' : State}
    (h : Moved (launched op s) cap (launched op s') (launched op s)) :
    runCommand op s = (runCommand op s').onPlatform s.cfg s.regs.outCap := by
  rw [runCommand_eq, runCommand_eq]
  cases e : commandRun op (launched op s') with
  | ok a u =>
    obtain ⟨u', e', hu⟩ := hx.ok h e
    rw [e', hu.eq]
    rfl
  | error r u =>
    obtain ⟨u', e', hu⟩ := hx.error h e
    rw [e', hu.eq]
    rfl

end

/-- R142: the start checks pass alike when the regions of s0 pass them and cap is no more than their OUT_CAP. -/
theorem sim_startChecks_moved {s0 : State} {cap : Word} (hreg : s0.regs.RegionsOk)
    (hcap : cap.toNat ≤ s0.regs.outCap.toNat) : Sim (Moved s0 cap) startChecks := fun t t' h => by
  have hov : ¬ s0.regs.overlap = true := by rw [hreg.2.2]; decide
  have hregt' : t'.regs.RegionsOk := by
    rw [h.eq]
    simp only [Regs.RegionsOk, State.onPlatform, Regs.overlap, h.inBase, h.inLen, h.outBase]
    exact hreg
  have hregt : t.regs.RegionsOk := by
    obtain ⟨hin, hout, -⟩ := hreg
    refine ⟨by rwa [h.inBase, h.inLen], by rw [h.outBase, h.outCap]; omega, ?_⟩
    refine Bool.eq_false_iff.mpr fun e => hov ((overlap_iff _).mpr ?_)
    rw [overlap_iff, h.inBase, h.inLen, h.outBase, h.outCap] at e
    omega
  by_cases hop : t.regs.op.toNat = 0 ∨ 4 < t.regs.op.toNat
  · have hop' : t'.regs.op.toNat = 0 ∨ 4 < t'.regs.op.toNat := by rw [h.eq]; exact hop
    rw [startChecks_run, startChecks_run, if_pos hop, if_pos hop']
    exact ⟨rfl, h⟩
  · have hop' : ¬(t'.regs.op.toNat = 0 ∨ 4 < t'.regs.op.toNat) := by rw [h.eq]; exact hop
    rw [startChecks_ok hop hregt, startChecks_ok hop' hregt']
    exact ⟨rfl, h⟩

/-- R193: PopMin reads HUFF and, on an empty QUEUE, draws a free value. -/
theorem simResult_popMin (t : State) (c : Platform) (cap : Word) :
    SimResult (fun u u' => u' = u.onPlatform c cap) (popMin t) (popMin (t.onPlatform c cap)) := by
  have hrun (u : State) : popMin u = match argminKey u.huff u.huff.queue with
      | some n => .ok n { u with huff := { u.huff with queue := u.huff.queue.erase n } }
      | none => .ok (Config.emptyQueueNode u.draws) { u with draws := u.draws + 1 } := by
    rw [popMin]
    refine (bind_ok (eng_get u)).trans ?_
    cases argminKey u.huff u.huff.queue <;> rfl
  rw [hrun, hrun, show (t.onPlatform c cap).huff = t.huff from rfl]
  cases argminKey t.huff t.huff.queue <;> exact ⟨rfl, rfl⟩

/-- R75, R308: an instruction on a platform that fails the write of output byte n, and with an output region of n bytes on
one that fails nothing. -/
theorem exec_writeFails {s : State} {i : Instr} {n : Nat} (hi : i.hostIssuable = false)
    (hreg : i.isCommand = true → s.regs.RegionsOk) (hfail : s.WriteFails n)
    (hroom : s.regs.outBase.toNat + s.regs.outCap.toNat ≤ 2 ^ 32)
    (hlen : i.isCommand = false → s.regs.outLen.toNat ≤ n) (hn : n < s.regs.outCap.toNat) :
    ∃ t, exec i (s.calm (BitVec.ofNat 32 n)) = .next t
      ∧ exec i s = .next (t.onPlatform s.cfg s.regs.outCap) := by
  have hcapn : (BitVec.ofNat 32 n).toNat = n := Nat.mod_eq_of_lt (hn.trans s.regs.outCap.isLt)
  have hR := writeFails_engineRel hfail hroom hn
  have hread := sim_inByte_writeFails hfail
  have hop {α : Type} {x : Eng α} (toRet : α → Ret) (hi : i.isCommand = false)
      (hx : Sim (Moved s (BitVec.ofNat 32 n)) x) :
      ∃ t, runOp x toRet (s.calm (BitVec.ofNat 32 n)) = .next t
        ∧ runOp x toRet s = .next (t.onPlatform s.cfg s.regs.outCap) :=
    runOp_moved toRet ((hx _ _ (moved_calm (.inr (hcapn.symm ▸ hlen hi)))).mono fun _ _ h => h.eq)
  have hcommand (op : BitVec 3) (hi : i.isCommand = true) :
      ∃ t, exec (decodeOp op) (s.calm (BitVec.ofNat 32 n)) = .next t
        ∧ exec (decodeOp op) s = .next (t.onPlatform s.cfg s.regs.outCap) := by
    have hfail' : (launched op s).WriteFails n := hfail
    have hsim := sim_bind (sim_startChecks_moved (s0 := launched op s) (hreg hi) (hcapn.symm ▸ hn.le))
      fun _ => sim_commandOf (writeFails_engineRel hfail' hroom hn) Moved.inLen_eq
        (fun i _ => sim_inByte_writeFails hfail' i) op
    exact ⟨_, exec_decodeOp op _, (exec_decodeOp op s).trans
      (congrArg _ (runCommand_moved hsim ⟨rfl, rfl, rfl, rfl, rfl, rfl, .inr (Nat.zero_le _), rfl⟩))⟩
  cases i with
  | huffCompress => exact hcommand 1#3 rfl
  | huffDecompress => exact hcommand 2#3 rfl
  | lzwCompress => exact hcommand 3#3 rfl
  | lzwDecompress => exact hcommand 4#3 rfl
  | reserved0 => exact hcommand 0#3 rfl
  | reserved5 => exact hcommand 5#3 rfl
  | reserved6 => exact hcommand 6#3 rfl
  | reserved7 => exact hcommand 7#3 rfl
  | packBit b => exact hop _ rfl (sim_packBit hR b)
  | packFlush => exact hop _ rfl (sim_packFlush hR)
  | unpackBit S t => exact hop _ rfl (sim_unpackBit hR (hread _))
  | buildFrequencyTable => exact hop _ rfl (sim_buildFrequencyTable hR Moved.inLen_eq fun i _ => hread i)
  | checkFrequencyRange => exact hop _ rfl (sim_checkFrequencyRange hR)
  | seedLeaves => exact hop _ rfl (sim_seedLeaves hR)
  | popMin => exact runOp_moved _ (simResult_popMin _ _ _)
  | buildTree => exact hop _ rfl (sim_buildTree hR)
  | buildEncodingTable => exact hop (fun _ => .none) rfl (sim_buildEncodingTable hR)
  | totalBits => exact hop _ rfl (sim_totalBits hR)
  | serializeHeader T => exact hop _ rfl (sim_serializeHeader hR T)
  | parseHeader => exact hop _ rfl (hR.sim_parseHeader Moved.inLen_eq fun i _ => hread i)
  | checkPayloadLength u T => exact hop _ rfl (sim_checkPayloadLength Moved.inLen_eq u T)
  | decodeStream S T => exact hop _ rfl (sim_decodeStream hR fun t _ => hread _)
  | decodeStream1 S T => exact hop _ rfl (sim_decodeStream1 hR fun t _ => hread _)
  | seed => exact hop (fun _ => .none) rfl (sim_seed hR)
  | insert p c => exact hop (fun _ => .none) rfl (sim_dictInsert hR p c)
  | find w c => exact hop _ rfl (sim_dictFind hR w c)
  | encodeByte c => exact hop _ rfl (sim_encodeByte hR c)
  | encodeEnd => exact hop _ rfl (sim_encodeEnd hR)
  | lengthCheck => exact hop _ rfl (sim_lengthCheck Moved.inLen_eq)
  | decodeFirst => exact hop _ rfl (sim_decodeFirst hR fun i _ => hread i)
  | decodeNext j => exact hop _ rfl (sim_decodeNext hR fun i _ _ => hread i)
  | emitString k => exact hop _ rfl (sim_emitString hR k)
  | start irqEn lzwStrict => cases hi
  | softReset => cases hi
  | clearDone => cases hi
  | run op inBase inLen outBase outCap cfg => cases hi
  | waitdone => cases hi
  | clrdone => cases hi
  | sreset => cases hi

end Sys2Proof.Machine

/-! PROOFS. Loops that an error ends, reads on a platform that fails one (R74), and the family of 42_huffman.md's first
pass, header and parser (R190, R201, R205) with what each leaves when it is stopped. -/

namespace Sys2Proof.Machine

/-! Loops -/

/-- A loop in two parts. -/
theorem forFrom_add (body : Nat → Eng Unit) (i a b : Nat) (s : State) :
    forFrom body i (a + b) s = (forFrom body i a >>= fun _ => forFrom body (i + a) b) s := by
  induction a generalizing i s with
  | zero => rw [Nat.zero_add, Nat.add_zero, forFrom_zero]; rfl
  | succ a ih =>
    rw [Nat.add_right_comm, forFrom_succ, eng_bind, forFrom_succ]
    cases body i s with
    | error r t => rfl
    | ok _ t => exact (ih (i + 1) t).trans (by rw [eng_bind, Nat.add_assoc i, Nat.add_comm 1])

/-- A loop that its round j stops. -/
theorem forRange_error {body : Nat → Eng Unit} {n j : Nat} {s t u : State} {r : Raise} (hj : j < n)
    (hpre : forRange j body s = .ok () t) (herr : body j t = .error r u) : forRange n body s = .error r u := by
  obtain ⟨k, rfl⟩ := Nat.exists_eq_add_of_lt hj
  rw [forRange, Nat.add_assoc, forFrom_add]
  refine (bind_ok hpre).trans ?_
  rw [Nat.zero_add, forFrom_succ, herr]

/-- The rule of a loop whose rounds carry an assertion on or end the loop. -/
theorem forFrom_cases {body : Nat → Eng Unit} (P : Nat → State → Prop) (Q : Raise → State → Prop) {i n : Nat} {s : State}
    (h0 : P i s)
    (hstep : ∀ j t, i ≤ j → j < i + n → P j t →
      (∃ t', body j t = .ok () t' ∧ P (j + 1) t') ∨ ∃ r t', body j t = .error r t' ∧ Q r t') :
    (∃ t, forFrom body i n s = .ok () t ∧ P (i + n) t) ∨ ∃ r t, forFrom body i n s = .error r t ∧ Q r t := by
  induction n generalizing i s with
  | zero => exact .inl ⟨s, rfl, h0⟩
  | succ n ih =>
    rw [forFrom_succ]
    obtain ⟨t', hb, hp⟩ | ⟨r, t', hb, hq⟩ := hstep i s (Nat.le_refl i) (by omega) h0
    · rw [hb, show i + (n + 1) = i + 1 + n by omega]
      exact ih hp fun j u h1 h2 => hstep j u (by omega) (by omega)
    · rw [hb]
      exact .inr ⟨r, t', rfl, hq⟩

theorem forRange_cases {body : Nat → Eng Unit} (P : Nat → State → Prop) (Q : Raise → State → Prop) {n : Nat} {s : State}
    (h0 : P 0 s)
    (hstep : ∀ j t, j < n → P j t →
      (∃ t', body j t = .ok () t' ∧ P (j + 1) t') ∨ ∃ r t', body j t = .error r t' ∧ Q r t') :
    (∃ t, forRange n body s = .ok () t ∧ P n t) ∨ ∃ r t, forRange n body s = .error r t ∧ Q r t := by
  have h := forFrom_cases (body := body) (n := n) P Q h0 fun j t _ hj => hstep j t (by omega)
  rwa [Nat.zero_add] at h

/-! Reads that fail (R74) -/

section
variable {s : State} {k : Nat}

/-- What runs on a platform without errors runs alike on one whose failing read it does not reach. -/
theorem State.ReadFails.run {α : Type} {x : Eng α} {a : α} {u : State} (hx : Sim (Moved s s.regs.outCap) x)
    (hrun : x (s.calm s.regs.outCap) = .ok a u) :
    x s = .ok a (u.onPlatform s.cfg s.regs.outCap) ∧ u.draws = s.draws := by
  obtain ⟨u', e, hu⟩ := hx.ok (moved_calm (.inl rfl)) hrun
  exact ⟨by rw [e, hu.eq], hu.draws⟩

theorem State.ReadFails.inAddr_lt (hfail : s.ReadFails k) : inAddr s k < 2 ^ 32 := by
  obtain ⟨rs, -, -, -, -, hlt⟩ := hfail
  exact hlt

/-- A byte before the one that fails. -/
theorem State.ReadFails.get8 (hfail : s.ReadFails k) {p : Nat} (hp : p < k) :
    Machine.get8 p s = .ok (Memory.read s.mem (inAddr s p)) { s with cur := { s.cur with inPos := p + 1 } } := by
  have hlt := hfail.inAddr_lt
  have hcalm := inByte_ok (s := s.calm s.regs.outCap) p (noBusError_calm s _)
    (by simp only [inAddr] at hlt ⊢; exact (Nat.add_lt_add_left hp _).trans hlt)
  exact (State.ReadFails.run (sim_inByte_readFails hfail hp) hcalm).1

/-- A 32-bit field before it. -/
theorem State.ReadFails.get32 (hfail : s.ReadFails k) {p : Nat} (hp : p + 4 ≤ k) :
    ∃ c, Machine.get32 p s = .ok (s.inWord p) { s with cur := c }
      ∧ c.bitPos = s.cur.bitPos ∧ c.pass = s.cur.pass := by
  have hlt := hfail.inAddr_lt
  obtain ⟨c, d, hrun, hc⟩ := get32_ok (s := s.calm s.regs.outCap) p (noBusError_calm s _)
    (by simp only [inAddr] at hlt ⊢; exact (Nat.add_le_add_left hp _).trans hlt.le)
  obtain ⟨hrun', hd⟩ := State.ReadFails.run (sim_get32 fun i _ hi => sim_inByte_readFails hfail (hi.trans_le hp)) hrun
  obtain rfl : d = s.draws := hd
  exact ⟨c, hrun', hc⟩

/-- A field that holds the byte that fails. -/
theorem inBytes_readFails {n p : Nat} (hfail : s.ReadFails k) (hp : p ≤ k) (hk : k < p + n) :
    ∃ c, inBytes p n s = .error ⟨.ioRead, BitVec.ofNat 32 k⟩ { s with cur := c }
      ∧ c.bitPos = s.cur.bitPos ∧ c.pass = s.cur.pass := by
  induction n generalizing s p with
  | zero => omega
  | succ n ih =>
    obtain rfl | hlt := Nat.eq_or_lt_of_le hp
    · exact ⟨s.cur, bind_error (hfail.inByte rfl rfl), rfl, rfl⟩
    · obtain ⟨c, hrest, hc⟩ := ih (s := { s with cur := { s.cur with inPos := p + 1 } }) (hfail.congr rfl rfl) hlt
        (by omega)
      exact ⟨c, (bind_ok (hfail.get8 hlt)).trans (bind_error hrest), hc⟩

theorem get32_readFails {p : Nat} (hfail : s.ReadFails k) (hp : p ≤ k) (hk : k < p + 4) :
    ∃ c, Machine.get32 p s = .error ⟨.ioRead, BitVec.ofNat 32 k⟩ { s with cur := c }
      ∧ c.bitPos = s.cur.bitPos ∧ c.pass = s.cur.pass := by
  obtain ⟨c, hrun, hc⟩ := inBytes_readFails hfail hp hk
  exact ⟨c, bind_error hrun, hc⟩

theorem get64_readFails {p : Nat} (hfail : s.ReadFails k) (hp : p ≤ k) (hk : k < p + 8) :
    ∃ c, Machine.get64 p s = .error ⟨.ioRead, BitVec.ofNat 32 k⟩ { s with cur := c }
      ∧ c.bitPos = s.cur.bitPos ∧ c.pass = s.cur.pass := by
  obtain ⟨c, hrun, hc⟩ := inBytes_readFails hfail hp hk
  exact ⟨c, bind_error hrun, hc⟩

end

/-! BuildFrequencyTable (R190) -/

/-- Settles O32: the tables are those of the input, counted byte by byte. -/
theorem buildFrequencyTable_outcome : Obligations.BuildFrequencyTable := by
  unfold Obligations.BuildFrequencyTable
  intro s hbus hin hfreq hrank hu
  obtain ⟨c, d, hrun, hbit, hpass⟩ := buildFrequencyTable_ok hbus hin
  have hc := countedBytes_counted (bs := s.input) hfreq hrank hu (by rw [length_input]; exact s.regs.inLen.isLt)
  rw [hc.u_eq] at hrun
  exact ⟨_, _, _, c, d, _, hc.frame, runOp_ok (fun _ => .none) hrun, hc.freq, hc.ranked, hc.rank, hc.absent, hc.untaken,
    hbit, hpass⟩

/-- R57: the cursors after the first j bytes of a pass. -/
def Cursors.read (c : Cursors) (j : Nat) : Cursors := { c with inPos := if j = 0 then c.inPos else j }

theorem take_input (s : State) {k : Nat} (hk : k ≤ s.regs.inLen.toNat) :
    s.input.take k = Memory.readBytes s.mem s.regs.inBase.toNat k := by
  rw [State.input, ← Nat.add_sub_of_le hk, readBytes_append]
  exact List.take_left' (Memory.length_readBytes _ _ _)

/-- R190: the bytes before the one whose read fails are counted. -/
theorem countBytes_readFails {s : State} {k : Nat} (hfail : s.ReadFails k) (hk : k ≤ s.regs.inLen.toNat) :
    forRange k countByte s
      = .ok () { s with huff := countedBytes (s.input.take k) s.huff, cur := s.cur.read k } := by
  obtain ⟨t, hrun, rfl⟩ := forRange_ok countByte
    (fun j t => t = { s with huff := countedBytes (s.input.take j) s.huff, cur := s.cur.read j }) k s rfl
    fun j t hj ht => by
      obtain rfl := ht
      have hread := State.ReadFails.get8 (s := { s with
        huff := countedBytes (s.input.take j) s.huff, cur := s.cur.read j }) (hfail.congr rfl rfl) hj
      refine ⟨_, (bind_ok hread).trans (eng_modify _ _), ?_⟩
      rw [take_input_succ s (hj.trans_le hk), countedBytes_append]
      rfl
  exact hrun

theorem buildFrequencyTable_readFails {s : State} {k : Nat} (hfail : s.ReadFails k) (hk : k < s.regs.inLen.toNat) :
    buildFrequencyTable s = .error ⟨.ioRead, BitVec.ofNat 32 k⟩
      { s with huff := countedBytes (s.input.take k) s.huff, cur := s.cur.read k } :=
  (bind_ok (eng_get s)).trans
    (bind_error (forRange_error hk (countBytes_readFails hfail hk.le) (bind_error (hfail.inByte rfl rfl))))

/-- R190: with IN_LEN = k the failing byte is not read. -/
theorem buildFrequencyTable_before {s : State} {k : Nat} (hfail : s.ReadFails k) (hk : k < s.regs.inLen.toNat) :
    buildFrequencyTable { s with regs := { s.regs with inLen := BitVec.ofNat 32 k } } = .ok () { s with
      huff := countedBytes (s.input.take k) s.huff, cur := s.cur.read k
      regs := { s.regs with
        inLen := BitVec.ofNat 32 k
        huffUnique := BitVec.ofNat 9 (countedBytes (s.input.take k) s.huff).u } } := by
  have hk' : (BitVec.ofNat 32 k).toNat = k := Nat.mod_eq_of_lt (hk.trans s.regs.inLen.isLt)
  have hrun := countBytes_readFails (s := { s with regs := { s.regs with inLen := BitVec.ofNat 32 k } })
    (hfail.congr rfl rfl) hk'.ge
  rw [take_input _ hk'.ge, ← take_input s hk.le] at hrun
  refine (bind_ok (eng_get _)).trans ?_
  rw [show ({ s with regs := { s.regs with inLen := BitVec.ofNat 32 k } } : State).regs.inLen.toNat = k from hk']
  exact bind_ok hrun

/-! SerializeHeader (R201) -/

/-- Settles O41: the header is one byte string. -/
theorem serializeHeader_outcome : Obligations.SerializeHeader := by
  unfold Obligations.SerializeHeader
  intro T s hbus _ hroom
  have hlen : (headerBytes (headerPairs s.huff) T.toNat).length = 12 + 5 * s.huff.u := by
    rw [length_headerBytes, length_headerPairs]
  rw [← hlen] at hroom ⊢
  obtain ⟨m, d, hrun, hm⟩ := outBytes_ok _ hbus hroom
  exact ⟨m, d, runOp_ok (fun _ => .none) ((serializeHeader_eq T s).trans hrun), hm⟩

end Sys2Proof.Machine

/-! PROOFS. The family of 42_huffman.md, ParseHeader (R205): the pairs it accepts before a check or a read stops it. -/

namespace Sys2Proof.Machine

/-- ParseHeader from the field T on, when the header lists u pairs (R205). -/
def parseEnd (u : Nat) : Eng (Nat × BitVec 64) := do
  let T ← get64 (4 + 5 * u)
  if T.toInt < 0 then raise .corruptHeader (4 + 5 * u)
  else if u = 0 ∧ T ≠ 0#64 then raise .corruptHeader (4 + 5 * u)
  else
    modify (setHuffBits T)
    return (u, T)

/-- ParseHeader from the pairs on (R205). -/
def parseBody (u : Nat) : Eng (Nat × BitVec 64) := do
  forRange u parsePair
  parseEnd u

/-- ParseHeader of s has accepted j pairs out of u in state t (R205). -/
def State.Parsing (s : State) (u j : Nat) (t : State) : Prop :=
  ∃ h c d, t = { s with huff := h, cur := c, draws := d, regs := { s.regs with huffUnique := BitVec.ofNat 9 u } }
    ∧ s.PairsTaken j h ∧ c.bitPos = s.cur.bitPos ∧ c.pass = s.cur.pass

section
variable {s t v : State} {u j k : Nat}

/-- Reading input moves the read cursor and the draws only. -/
theorem State.Parsing.read (h : s.Parsing u j t) {c : Cursors} {d : Nat} (hbit : c.bitPos = t.cur.bitPos)
    (hpass : c.pass = t.cur.pass) : s.Parsing u j { t with cur := c, draws := d } := by
  obtain ⟨g, c', d', rfl, hp, hbit', hpass'⟩ := h
  exact ⟨g, c, d, rfl, hp, hbit.trans hbit', hpass.trans hpass'⟩

/-- R205, R307: an error of ParseHeader leaves the pairs accepted so far. -/
theorem parseEnds_of_error {e : ErrKind} {info n : Nat} {uniq : BitVec 9} {h : Huff} {c : Cursors} {d : Nat}
    (hrun : parseHeader s = .error ⟨e, BitVec.ofNat 32 info⟩
      { s with huff := h, cur := c, draws := d, regs := { s.regs with huffUnique := uniq } })
    (hp : s.PairsTaken n h) (hbit : c.bitPos = s.cur.bitPos) (hpass : c.pass = s.cur.pass) :
    s.ParseEnds e info uniq n := by
  refine ⟨_, runOp_error (fun r : Nat × BitVec 64 => .header r.1 r.2) hrun, hp, ?_, rfl, rfl, rfl, rfl, rfl, hbit, hpass⟩
  rfl

/-- R205: the count field is accepted, and the header fits in the input. -/
theorem parseHeader_counted (hu : u ≤ 256) (hlen : 12 + 5 * u ≤ s.regs.inLen.toNat)
    (hget : get32 0 s = .ok (BitVec.ofNat 32 u) t) :
    parseHeader s = parseBody u { t with regs := { t.regs with huffUnique := BitVec.ofNat 9 u } } := by
  have h4 : ¬s.regs.inLen.toNat < 4 := by omega
  have hu' : (BitVec.ofNat 32 u).toNat = u := Nat.mod_eq_of_lt (by omega)
  have hrange : ¬((BitVec.ofNat 32 u).toInt < 0 ∨ 256 < (BitVec.ofNat 32 u).toInt) := by
    rw [toInt_ofNat_of_le hu]
    omega
  rw [parseHeader]
  refine (bind_ok (eng_get s)).trans <| (congrFun (if_neg h4) s).trans <| (bind_ok hget).trans <|
    (congrFun (if_neg hrange) t).trans ?_
  rw [hu']
  exact (congrFun (if_neg hlen.not_gt) t).trans (bind_ok (eng_modify _ t))

/-- R205: ParseHeader reaches pair j (or, for j = u, the field T) of an input it can read. -/
structure State.Reaches (s : State) (u j : Nat) (t : State) : Prop where
  count : u ≤ 256
  pairs : ∃ t0, parseHeader s = parseBody u t0 ∧ forRange j parsePair t0 = .ok () t
  state : s.Parsing u j t

theorem State.Reaches.pair_error (h : s.Reaches u j t) (hj : j < u) {e : ErrKind} {info : Nat}
    (herr : parsePair j t = .error ⟨e, BitVec.ofNat 32 info⟩ v) (hv : s.Parsing u j v) :
    s.ParseEnds e info (BitVec.ofNat 9 u) j := by
  obtain ⟨-, ⟨t0, hrun, hpre⟩, -⟩ := h
  obtain ⟨g, c, d, rfl, hp, hbit, hpass⟩ := hv
  exact parseEnds_of_error (hrun.trans (bind_error (forRange_error hj hpre herr))) hp hbit hpass

theorem State.Reaches.end_error (h : s.Reaches u u t) {e : ErrKind} {info : Nat}
    (herr : parseEnd u t = .error ⟨e, BitVec.ofNat 32 info⟩ v) (hv : s.Parsing u u v) :
    s.ParseEnds e info (BitVec.ofNat 9 u) u := by
  obtain ⟨-, ⟨t0, hrun, hpre⟩, -⟩ := h
  obtain ⟨g, c, d, rfl, hp, hbit, hpass⟩ := hv
  exact parseEnds_of_error (hrun.trans ((bind_ok hpre).trans herr)) hp hbit hpass

/-! The input can be read (R205) -/

section
variable (hfreq : s.huff.freq = Vector.replicate 256 0#32) (hzero : s.huff.u = 0)
include hfreq hzero

theorem reaches_of_noBusError (hbus : s.NoBusError) (hin : s.regs.inBase.toNat + s.regs.inLen.toNat ≤ 2 ^ 32)
    (hu : u ≤ 256) (hlen : 12 + 5 * u ≤ s.regs.inLen.toNat) (hcount : s.inWord 0 = BitVec.ofNat 32 u) (hj : j ≤ u)
    (hok : s.PairsOk j) : ∃ t, s.Reaches u j t := by
  obtain ⟨c, d, hget, hbit, hpass⟩ := get32_ok (s := s) 0 hbus (by simp only [inAddr]; omega)
  rw [hcount] at hget
  obtain ⟨h, c', d', hpairs, hp, hbit', hpass'⟩ := parsePairs_ok
    (s := { s with cur := c, draws := d, regs := { s.regs with huffUnique := BitVec.ofNat 9 u } }) (n := j)
    (hbus.of_cfg rfl) (by simp only [inAddr]; omega) hfreq hzero (hj.trans hu) hok
  exact ⟨_, hu, ⟨_, parseHeader_counted hu hlen hget, hpairs⟩, h, c', d', rfl,
    ⟨hp.others, hp.taken, hp.bytes, hp.ranks⟩, hbit'.trans hbit, hpass'.trans hpass⟩

theorem reaches_of_readFails (hfail : s.ReadFails k) (hu : u ≤ 256) (hlen : 12 + 5 * u ≤ s.regs.inLen.toNat)
    (hcount : s.inWord 0 = BitVec.ofNat 32 u) (hj : j ≤ u) (hk : 4 + 5 * j ≤ k) (hok : s.PairsOk j) :
    ∃ t, s.Reaches u j t ∧ t.draws = s.draws := by
  have haddr := hfail.inAddr_lt
  obtain ⟨c, hget, hbit, hpass⟩ := hfail.get32 (p := 0) (by omega)
  rw [hcount] at hget
  have hfail' : State.ReadFails { s with cur := c, regs := { s.regs with huffUnique := BitVec.ofNat 9 u } } k :=
    hfail.congr rfl rfl
  obtain ⟨h, c', d', hpairs, hp, hbit', hpass'⟩ := parsePairs_ok
    (s := State.calm { s with cur := c, regs := { s.regs with huffUnique := BitVec.ofNat 9 u } } s.regs.outCap)
    (n := j) (noBusError_calm _ _)
    (by simp only [inAddr] at haddr ⊢; exact (Nat.add_le_add_left hk _).trans haddr.le) hfreq hzero (hj.trans hu) hok
  obtain ⟨hpairs', hd⟩ := State.ReadFails.run (sim_forRange fun i hi =>
    (readFails_engineRel hfail').sim_parsePair fun p _ hp => sim_inByte_readFails hfail' (by omega)) hpairs
  exact ⟨_, ⟨hu, ⟨_, parseHeader_counted hu hlen hget, hpairs'⟩, h, c', d', rfl,
    ⟨hp.others, hp.taken, hp.bytes, hp.ranks⟩, hbit'.trans hbit, hpass'.trans hpass⟩, hd⟩

end

/-! One pair (R205) -/

/-- The byte value of a pair is read; it is repeated. -/
theorem parsePair_repeated {sym : Byte} (hread : get8 (4 + 5 * j) t = .ok sym v)
    (hsym : tget v.huff.freq sym ≠ 0#32) :
    parsePair j t = .error ⟨.corruptHeader, BitVec.ofNat 32 (4 + 5 * j)⟩ v :=
  (bind_ok hread).trans ((bind_ok (eng_get v)).trans (congrFun (if_pos hsym) v))

/-- It is new, and its frequency is read next. -/
theorem parsePair_fresh {sym : Byte} (hread : get8 (4 + 5 * j) t = .ok sym v)
    (hsym : tget v.huff.freq sym = 0#32) :
    parsePair j t = ((get32 (5 + 5 * j)) >>= fun f =>
      if f.toInt < 1 then raise .corruptHeader (5 + 5 * j)
      else modify fun s => { s with huff := acceptPair j sym f s.huff } : Eng Unit) v :=
  (bind_ok hread).trans ((bind_ok (eng_get v)).trans (congrFun (if_neg (not_not.mpr hsym)) v))

/-- R205: the frequency of a byte value that the first j pairs do not list. -/
theorem State.Parsing.freq_fresh (h : s.Parsing u j t) (hfreq : s.huff.freq = Vector.replicate 256 0#32)
    (hfresh : ∀ i, i < j → s.pairSym i ≠ s.pairSym j) : tget t.huff.freq (s.pairSym j) = 0#32 := by
  obtain ⟨g, c, d, rfl, hp, -⟩ := h
  exact (hp.bytes _ hfresh).1.trans (by rw [hfreq, tget_replicate])

/-- R205: the frequency of one that they list is not 0. -/
theorem State.Parsing.freq_repeated (h : s.Parsing u j t) (hok : s.PairsOk j)
    (hold : ∃ i, i < j ∧ s.pairSym i = s.pairSym j) : tget t.huff.freq (s.pairSym j) ≠ 0#32 := by
  obtain ⟨g, c, d, rfl, hp, -⟩ := h
  obtain ⟨i, hi, he⟩ := hold
  rw [← he, (hp.taken i hi).2.2]
  intro h0
  have hpos := (hok i hi).2
  rw [h0] at hpos
  exact absurd hpos (by decide)

/-- With no bus error the fields of the header read as they stand in the input. -/
theorem State.Parsing.get8 (h : s.Parsing u j t) (hbus : s.NoBusError) (ha : inAddr s (4 + 5 * j) < 2 ^ 32) :
    ∃ v, Machine.get8 (4 + 5 * j) t = .ok (s.pairSym j) v ∧ s.Parsing u j v := by
  obtain ⟨g, c, d, rfl, hp, hbit, hpass⟩ := id h
  obtain ⟨c', d', hread, hbit', hpass'⟩ := get8_ok (s := { s with
    huff := g, cur := c, draws := d, regs := { s.regs with huffUnique := BitVec.ofNat 9 u } }) (4 + 5 * j)
    (hbus.of_cfg rfl) ha
  exact ⟨_, hread, h.read hbit' hpass'⟩

theorem State.Parsing.get32 (h : s.Parsing u j t) (hbus : s.NoBusError) (ha : inAddr s (5 + 5 * j) + 4 ≤ 2 ^ 32) :
    ∃ v, Machine.get32 (5 + 5 * j) t = .ok (s.pairFreq j) v ∧ s.Parsing u j v := by
  obtain ⟨g, c, d, rfl, hp, hbit, hpass⟩ := id h
  obtain ⟨c', d', hread, hbit', hpass'⟩ := get32_ok (s := { s with
    huff := g, cur := c, draws := d, regs := { s.regs with huffUnique := BitVec.ofNat 9 u } }) (5 + 5 * j)
    (hbus.of_cfg rfl) ha
  exact ⟨_, hread, h.read hbit' hpass'⟩

theorem State.Parsing.get64 (h : s.Parsing u j t) (hbus : s.NoBusError) (ha : inAddr s (4 + 5 * u) + 8 ≤ 2 ^ 32) :
    ∃ v, Machine.get64 (4 + 5 * u) t = .ok (s.inDouble (4 + 5 * u)) v ∧ s.Parsing u j v := by
  obtain ⟨g, c, d, rfl, hp, hbit, hpass⟩ := id h
  obtain ⟨c', d', hread, hbit', hpass'⟩ := get64_ok (s := { s with
    huff := g, cur := c, draws := d, regs := { s.regs with huffUnique := BitVec.ofNat 9 u } }) (4 + 5 * u)
    (hbus.of_cfg rfl) ha
  exact ⟨_, hread, h.read hbit' hpass'⟩

end

/-! ParseHeader with no bus error -/

section
variable {s : State} {u j : Nat} (hbus : s.NoBusError) (hin : s.regs.inBase.toNat + s.regs.inLen.toNat ≤ 2 ^ 32)
  (hfreq : s.huff.freq = Vector.replicate 256 0#32) (hzero : s.huff.u = 0)
include hzero

/-- R205: the checks that come before any pair. -/
theorem parseEnds_at_start {e : ErrKind} {info : Nat} {c : Cursors} {d : Nat}
    (hrun : parseHeader s = .error ⟨e, BitVec.ofNat 32 info⟩ { s with cur := c, draws := d })
    (hbit : c.bitPos = s.cur.bitPos) (hpass : c.pass = s.cur.pass) : s.ParseEnds e info s.regs.huffUnique 0 :=
  parseEnds_of_error (h := s.huff) hrun (pairsTaken_zero hzero) hbit hpass

theorem parseFails_noCount (hlen : s.regs.inLen.toNat < 4) : s.ParseFails 0 s.regs.huffUnique 0 :=
  parseEnds_at_start (c := s.cur) (d := s.draws) hzero ((bind_ok (eng_get s)).trans (congrFun (if_pos hlen) s)) rfl rfl

include hbus hin

theorem parseFails_count (hlen : 4 ≤ s.regs.inLen.toNat)
    (hrange : ((s.inWord 0).toInt < 0 ∨ 256 < (s.inWord 0).toInt)
      ∨ s.regs.inLen.toNat < 12 + 5 * (s.inWord 0).toNat) : s.ParseFails 0 s.regs.huffUnique 0 := by
  obtain ⟨c, d, hget, hbit, hpass⟩ := get32_ok (s := s) 0 hbus (by simp only [inAddr]; omega)
  refine parseEnds_at_start (c := c) (d := d) hzero ?_ hbit hpass
  rw [parseHeader]
  refine (bind_ok (eng_get s)).trans <| (congrFun (if_neg hlen.not_gt) s).trans <| (bind_ok hget).trans ?_
  by_cases hcount : (s.inWord 0).toInt < 0 ∨ 256 < (s.inWord 0).toInt
  · exact congrFun (if_pos hcount) _
  · exact (congrFun (if_neg hcount) _).trans (congrFun (if_pos (hrange.resolve_left hcount)) _)

include hfreq

variable (hu : u ≤ 256) (hlen : 12 + 5 * u ≤ s.regs.inLen.toNat) (hcount : s.inWord 0 = BitVec.ofNat 32 u)
include hu hlen hcount

theorem parseFails_repeated (hj : j < u) (hok : s.PairsOk j) (hold : ∃ i, i < j ∧ s.pairSym i = s.pairSym j) :
    s.ParseFails (4 + 5 * j) (BitVec.ofNat 9 u) j := by
  obtain ⟨t, ht⟩ := reaches_of_noBusError hfreq hzero hbus hin hu hlen hcount hj.le hok
  obtain ⟨v, hread, hv⟩ := ht.state.get8 hbus (by simp only [inAddr]; omega)
  exact ht.pair_error hj (parsePair_repeated hread (hv.freq_repeated hok hold)) hv

theorem parseFails_frequency (hj : j < u) (hok : s.PairsOk j) (hfresh : ∀ i, i < j → s.pairSym i ≠ s.pairSym j)
    (hpos : (s.pairFreq j).toInt < 1) : s.ParseFails (5 + 5 * j) (BitVec.ofNat 9 u) j := by
  obtain ⟨t, ht⟩ := reaches_of_noBusError hfreq hzero hbus hin hu hlen hcount hj.le hok
  obtain ⟨v, hread, hv⟩ := ht.state.get8 hbus (by simp only [inAddr]; omega)
  obtain ⟨w, hread', hw⟩ := hv.get32 hbus (by simp only [inAddr]; omega)
  exact ht.pair_error hj ((parsePair_fresh hread (hv.freq_fresh hfreq hfresh)).trans
    ((bind_ok hread').trans (congrFun (if_pos hpos) w))) hw

theorem parseFails_bits (hok : s.PairsOk u) (hT : (s.inDouble (4 + 5 * u)).toInt < 0
      ∨ (u = 0 ∧ s.inDouble (4 + 5 * u) ≠ 0#64)) : s.ParseFails (4 + 5 * u) (BitVec.ofNat 9 u) u := by
  obtain ⟨t, ht⟩ := reaches_of_noBusError hfreq hzero hbus hin hu hlen hcount (Nat.le_refl u) hok
  obtain ⟨v, hread, hv⟩ := ht.state.get64 hbus (by simp only [inAddr]; omega)
  refine ht.end_error ((bind_ok hread).trans ?_) hv
  by_cases hneg : (s.inDouble (4 + 5 * u)).toInt < 0
  · exact congrFun (if_pos hneg) v
  · exact (congrFun (if_neg hneg) v).trans (congrFun (if_pos (hT.resolve_left hneg)) v)

end

/-- Settles O42: each check stops ParseHeader after the pairs that it has accepted. -/
theorem parseHeader_outcome : Obligations.ParseHeader := by
  unfold Obligations.ParseHeader
  refine fun s u T hbus hin hfreq hzero => ⟨parseFails_noCount hzero, fun h4 hrange =>
    parseFails_count hbus hin hzero h4 (.inl hrange), fun h4 hcount hu => ⟨fun hlen => ?_, ?_⟩⟩
  · refine parseFails_count hbus hin hzero h4 (.inr ?_)
    rwa [hcount, BitVec.toNat_ofNat, Nat.mod_eq_of_lt (by omega)]
  rintro hlen rfl
  refine ⟨fun j hj hok => parseFails_repeated hbus hin hfreq hzero hu hlen hcount hj hok,
    fun j hj hok => parseFails_frequency hbus hin hfreq hzero hu hlen hcount hj hok,
    fun hok hneg => parseFails_bits hbus hin hfreq hzero hu hlen hcount hok (.inl hneg), fun h0 hpos => ?_,
    fun hok hsigned hempty => ?_⟩
  · subst h0
    refine parseFails_bits hbus hin hfreq hzero hu hlen hcount (fun j hj => absurd hj (Nat.not_lt_zero j))
      (.inr ⟨rfl, fun e => ?_⟩)
    rw [e] at hpos
    exact absurd hpos (by decide)
  · obtain ⟨h, c, d, hrun, hp, hc⟩ := parseHeader_ok hbus hin hfreq hzero hu hlen hcount hok hsigned hempty
    exact ⟨h, c, d, hp, runOp_ok (fun r : Nat × BitVec 64 => .header r.1 r.2) hrun, hc⟩

/-! ParseHeader when a read fails (R74, R303) -/

section
variable {s : State} {u j k : Nat} (hfail : s.ReadFails k) (hfreq : s.huff.freq = Vector.replicate 256 0#32)
  (hzero : s.huff.u = 0)
include hfail hzero

theorem parseEnds_count_read (hlen : 4 ≤ s.regs.inLen.toNat) (hk : k < 4) :
    s.ParseEnds .ioRead k s.regs.huffUnique 0 := by
  obtain ⟨c, hrun, hbit, hpass⟩ := get32_readFails hfail (Nat.zero_le k) (by rwa [Nat.zero_add])
  exact parseEnds_at_start (c := c) (d := s.draws) hzero
    ((bind_ok (eng_get s)).trans ((congrFun (if_neg hlen.not_gt) s).trans (bind_error hrun))) hbit hpass

include hfreq
variable (hu : u ≤ 256) (hlen : 12 + 5 * u ≤ s.regs.inLen.toNat) (hcount : s.inWord 0 = BitVec.ofNat 32 u)
include hu hlen hcount

theorem parseEnds_symbol_read (hj : j < u) (hok : s.PairsOk j) (hk : k = 4 + 5 * j) :
    s.ParseEnds .ioRead k (BitVec.ofNat 9 u) j := by
  obtain ⟨t, ht, -⟩ := reaches_of_readFails hfreq hzero hfail hu hlen hcount hj.le hk.ge hok
  obtain ⟨g, c, d, rfl, hp⟩ := id ht.state
  refine ht.pair_error hj (bind_error ?_) ht.state
  rw [get8, ← hk]
  exact hfail.inByte rfl rfl

theorem parseEnds_frequency_read (hj : j < u) (hok : s.PairsOk j) (hfresh : ∀ i, i < j → s.pairSym i ≠ s.pairSym j)
    (hlo : 5 + 5 * j ≤ k) (hhi : k < 9 + 5 * j) : s.ParseEnds .ioRead k (BitVec.ofNat 9 u) j := by
  obtain ⟨t, ht, -⟩ := reaches_of_readFails hfreq hzero hfail hu hlen hcount hj.le (by omega) hok
  obtain ⟨g, c, d, rfl, hp⟩ := id ht.state
  have hread := State.ReadFails.get8 (s := { s with
    huff := g, cur := c, draws := d, regs := { s.regs with huffUnique := BitVec.ofNat 9 u } }) (k := k) (p := 4 + 5 * j)
    (hfail.congr rfl rfl) (by omega)
  have hv : s.Parsing u j { s with
      huff := g, cur := { c with inPos := 4 + 5 * j + 1 }, draws := d,
      regs := { s.regs with huffUnique := BitVec.ofNat 9 u } } := ht.state.read rfl rfl
  obtain ⟨c', hfield, hbit, hpass⟩ := get32_readFails (s := { s with
      huff := g, cur := { c with inPos := 4 + 5 * j + 1 }, draws := d,
      regs := { s.regs with huffUnique := BitVec.ofNat 9 u } }) (hfail.congr rfl rfl) hlo (by omega)
  exact ht.pair_error hj ((parsePair_fresh hread (hv.freq_fresh hfreq hfresh)).trans (bind_error hfield))
    (hv.read hbit hpass)

theorem parseEnds_bits_read (hok : s.PairsOk u) (hlo : 4 + 5 * u ≤ k) (hhi : k < 12 + 5 * u) :
    s.ParseEnds .ioRead k (BitVec.ofNat 9 u) u := by
  obtain ⟨t, ht, -⟩ := reaches_of_readFails hfreq hzero hfail hu hlen hcount (Nat.le_refl u) hlo hok
  obtain ⟨g, c, d, rfl, hp⟩ := id ht.state
  obtain ⟨c', hfield, hbit, hpass⟩ := get64_readFails (s := { s with
    huff := g, cur := c, draws := d, regs := { s.regs with huffUnique := BitVec.ofNat 9 u } }) (hfail.congr rfl rfl) hlo
    (by omega)
  exact ht.end_error (bind_error hfield) (ht.state.read hbit hpass)

end

end Sys2Proof.Machine

/-! PROOFS. The family of 42_huffman.md, DecodeStream and DecodeStream1 (R208, R209) on code streams that end inside a
code, and what stops them. -/

namespace Sys2Proof.Machine

/-! The walk -/

theorem length_streamBits (s : State) (S n : Nat) : (streamBits s S n).length = n := by
  rw [streamBits, List.length_map, List.length_range]

/-- Bits xs stand in the code stream before bits ys. -/
theorem streamBit_of_streamBits {s : State} {S n : Nat} {xs ys : List Bool} (h : streamBits s S n = xs ++ ys) :
    n = xs.length + ys.length ∧ (∀ i (hi : i < xs.length), streamBit s S i = xs[i])
      ∧ ∀ i (hi : i < ys.length), streamBit s S (xs.length + i) = ys[i] := by
  have hlen : n = xs.length + ys.length := by
    rw [← length_streamBits s S n, h, List.length_append]
  have hget (i : Nat) (hi : i < n) : streamBit s S i = (xs ++ ys)[i]'(by rw [List.length_append]; omega) := by
    simp only [← h, streamBits, List.getElem_map, List.getElem_range]
  refine ⟨hlen, fun i hi => ?_, fun i hi => ?_⟩
  · rw [hget i (by omega), List.getElem_append_left hi]
  · rw [hget _ (by omega), List.getElem_append_right (Nat.le_add_right _ _)]
    simp only [Nat.add_sub_cancel_left]

/-- A walk in two parts. -/
theorem walk_add (S a b t n : Nat) (s : State) :
    walk S t (a + b) n s = (walk S t a n >>= fun m => walk S (t + a) b m) s := by
  induction a generalizing t n s with
  | zero => rw [Nat.zero_add]; rfl
  | succ a ih =>
    rw [Nat.add_right_comm, walk, walk, eng_bind, eng_bind, eng_bind]
    cases unpackBit S t s with
    | error r u => rfl
    | ok bit u =>
      simp only [eng_bind, eng_get]
      cases nodeAt u.huff (child u.huff n bit) with
      | internal l r w =>
        exact (ih (t + 1) _ u).trans (by rw [eng_bind, Nat.add_assoc t, Nat.add_comm 1])
      | leaf sym w =>
        simp only [eng_bind]
        cases outByte sym u with
        | error r v => rfl
        | ok _ v => exact (ih (t + 1) _ v).trans (by rw [eng_bind, Nat.add_assoc t, Nat.add_comm 1])

section
variable {s : State} {S t k : Nat}

/-- R208: bits that stay at internal nodes write nothing. -/
theorem walk_inside {n n' : Nat} {r : List Bool} (hbus : s.NoBusError) (hnode : nodeOn s.huff n r = some n')
    (hint : ∃ a b w, nodeAt s.huff n' = .internal a b w)
    (hbits : ∀ i (hi : i < r.length), streamBit s S (t + i) = r[i])
    (hin : ∀ i, i < r.length → inAddr s (S + (t + i) / 8) < 2 ^ 32) :
    ∃ c d, walk S t r.length n s = .ok n' { s with cur := c, draws := d } ∧ c.pass = s.cur.pass := by
  induction r generalizing n t s with
  | nil =>
    rw [nodeOn, Option.some.injEq] at hnode
    exact ⟨s.cur, s.draws, by rw [hnode]; rfl, rfl⟩
  | cons bit r ih =>
    rw [nodeOn] at hnode
    cases hn : nodeAt s.huff n with
    | leaf sym w => simp [hn] at hnode
    | internal a b w =>
      simp only [hn] at hnode
      obtain ⟨c, d, hread, hpass⟩ := unpackBit_ok (S := S) (t := t) hbus (hin 0 (Nat.succ_pos _))
      rw [show streamBit s S t = bit from hbits 0 (Nat.succ_pos _)] at hread
      obtain ⟨c', d', hrest, hpass'⟩ := ih (s := { s with cur := c, draws := d }) (t := t + 1) (hbus.of_cfg rfl) hnode
        hint (fun i hi => (congrArg (streamBit s S) (by omega)).trans (hbits (i + 1) (Nat.succ_lt_succ hi)))
        fun i hi => by
          have := hin (i + 1) (Nat.succ_lt_succ hi)
          rwa [show t + (i + 1) = t + 1 + i by omega] at this
      refine ⟨c', d', ?_, hpass'.trans hpass⟩
      rw [List.length_cons, walk_step hn hread]
      have hchild : ∃ a' b' w', nodeAt s.huff (if bit then b else a) = .internal a' b' w' := by
        cases r with
        | nil =>
          rw [nodeOn, Option.some.injEq] at hnode
          rwa [hnode]
        | cons bit' r =>
          rw [nodeOn] at hnode
          cases hc : nodeAt s.huff (if bit then b else a) with
          | leaf sym w' => simp [hc] at hnode
          | internal a' b' w' => exact ⟨a', b', w', rfl⟩
      obtain ⟨a', b', w', hc⟩ := hchild
      rw [hc]
      exact hrest

/-- R196, R208: a walk goes down. -/
theorem nodeOn_le {h : Huff} (htree : TreeOk h) {n n' : Nat} {r : List Bool} (hr : nodeOn h n r = some n') :
    n' + r.length ≤ n := by
  induction r generalizing n with
  | nil =>
    rw [nodeOn, Option.some.injEq] at hr
    exact hr.ge
  | cons bit r ih =>
    rw [nodeOn] at hr
    cases hn : nodeAt h n with
    | leaf sym w => simp [hn] at hr
    | internal a b w =>
      simp only [hn] at hr
      have hle := ih hr
      have hlt : (if bit then b else a) < n := htree n _ ⟨a, b, w, hn, by cases bit <;> simp⟩
      rw [List.length_cons]
      omega

/-! DecodeStream (R208) -/

/-- R208: the paths of msg, then bits r inside a path: the walk writes msg and ends at the node that r reaches. -/
theorem walk_stream {n n' : Nat} {paths : List (List Bool)} {msg : List Byte} {r : List Bool} (hreg : s.regs.RegionsOk)
    (hbus : s.NoBusError) (hroot : ∃ a b w, nodeAt s.huff s.huff.root = .internal a b w)
    (hpaths : paths.map (leafAt s.huff s.huff.root) = msg.map some) (hbits : streamBits s S n = paths.flatten ++ r)
    (hin : S + (n + 7) / 8 ≤ s.regs.inLen.toNat) (hroom : s.Room msg.length)
    (hnode : nodeOn s.huff s.huff.root r = some n') (hint : ∃ a b w, nodeAt s.huff n' = .internal a b w) :
    ∃ m d c, walk S 0 n s.huff.root s = .ok n' { s.afterOut m d msg.length with cur := c } ∧ s.Appends m msg
      ∧ c.pass = s.cur.pass := by
  obtain ⟨rfl, hpathBits, hrestBits⟩ := streamBit_of_streamBits hbits
  obtain ⟨m, d, c, hwalk, hm, hpass⟩ := walk_paths (S := S) (t := 0) (k := r.length) (bs := []) (d := s.draws)
    (c := s.cur) hreg hbus hroot hpaths (by simpa using hpathBits) (fun i hi => by omega) (by simpa using hroom)
    (appends_nil s)
  rw [List.length_nil, afterOut_zero, Nat.zero_add, List.nil_append] at hwalk
  have hpos : ∀ i, i < r.length → S + (paths.flatten.length + i) / 8 < s.regs.inLen.toNat := fun i hi => by omega
  obtain ⟨c', d', hrest, hpass'⟩ := walk_inside (s := { s.afterOut m d msg.length with cur := c }) (S := S)
    (t := paths.flatten.length) (hbus.of_cfg rfl) hnode hint (fun i hi => by
      rw [streamBit_decoded hreg hroom hm (hpos i hi), hrestBits i hi])
    fun i hi => inAddr_add_le (n := 1) hreg (hpos i hi)
  exact ⟨m, d', c', hwalk.trans hrest, hm, hpass'.trans hpass⟩

/-- R208: DecodeStream after its walk. -/
theorem decodeStream_walk {T : BitVec 64} {n : Nat} {u : State} (hwalk : walk S 0 T.toNat s.huff.root s = .ok n u) :
    decodeStream S T s
      = (if n ≠ u.huff.root then raise .corruptData (S + (T.toNat - 1) / 8) else pure () : Eng Unit) u :=
  (bind_ok (eng_get s)).trans ((bind_ok hwalk).trans (bind_ok (eng_get u)))

theorem decodeStream_walk_error {T : BitVec 64} {u : State} {e : Raise}
    (hwalk : walk S 0 T.toNat s.huff.root s = .error e u) : decodeStream S T s = .error e u :=
  (bind_ok (eng_get s)).trans (bind_error hwalk)

/-- R208: bits left over that end below the root. -/
theorem decodeStream_incomplete {T : BitVec 64} {n' : Nat} {paths : List (List Bool)} {msg : List Byte} {r : List Bool}
    (hreg : s.regs.RegionsOk) (hbus : s.NoBusError) (hroot : ∃ a b w, nodeAt s.huff s.huff.root = .internal a b w)
    (hpaths : paths.map (leafAt s.huff s.huff.root) = msg.map some)
    (hbits : streamBits s S T.toNat = paths.flatten ++ r) (hin : S + (T.toNat + 7) / 8 ≤ s.regs.inLen.toNat)
    (hroom : s.Room msg.length) (hnode : nodeOn s.huff s.huff.root r = some n')
    (hint : ∃ a b w, nodeAt s.huff n' = .internal a b w) (hne : n' ≠ s.huff.root) :
    ∃ m d c, decodeStream S T s = .error ⟨.corruptData, BitVec.ofNat 32 (S + (T.toNat - 1) / 8)⟩
        { s.afterOut m d msg.length with cur := c }
      ∧ s.Appends m msg ∧ c.pass = s.cur.pass := by
  obtain ⟨m, d, c, hwalk, hm, hpass⟩ := walk_stream hreg hbus hroot hpaths hbits hin hroom hnode hint
  exact ⟨m, d, c, (decodeStream_walk hwalk).trans (congrFun (if_pos hne) _), hm, hpass⟩

/-- A byte that has no room. -/
theorem outByte_noRoom {v : Byte} (hfull : s.regs.outLen.toNat = s.regs.outCap.toNat) :
    outByte v s = .error ⟨.ioWrite, BitVec.ofNat 32 s.regs.outCap.toNat⟩ s := by
  have he : s.regs.outLen = s.regs.outCap := BitVec.eq_of_toNat_eq hfull
  rw [outByte_run, if_pos he, he]

/-- The room of s is used up after n bytes. -/
theorem afterOut_noRoom {m : List Host.Cell} {d n : Nat} (hn : s.regs.outLen.toNat + n = s.regs.outCap.toNat) :
    (s.afterOut m d n).regs.outLen.toNat = (s.afterOut m d n).regs.outCap.toNat := by
  have hlt := s.regs.outCap.isLt
  simp only [State.afterOut, BitVec.toNat_add, BitVec.toNat_ofNat]
  omega

/-- The room of an output region inside memory (R142). -/
theorem room_of_add_eq {n : Nat} (hn : s.regs.outLen.toNat + n = s.regs.outCap.toNat)
    (hmem : s.regs.outBase.toNat + s.regs.outCap.toNat ≤ 2 ^ 32) : s.Room n := ⟨hn.le, by omega⟩

/-- R208, R302: a symbol that does not fit. -/
theorem decodeStream_noRoom {T : BitVec 64} {n : Nat} {paths : List (List Bool)} {msg : List Byte} {r : List Bool}
    (hreg : s.regs.RegionsOk) (hbus : s.NoBusError) (hroot : ∃ a b w, nodeAt s.huff s.huff.root = .internal a b w)
    (hpaths : paths.map (leafAt s.huff s.huff.root) = msg.map some)
    (hbits : streamBits s S T.toNat = paths.flatten ++ r) (hin : S + (T.toNat + 7) / 8 ≤ s.regs.inLen.toNat)
    (hn : s.regs.outLen.toNat + n = s.regs.outCap.toNat) (hlt : n < msg.length) :
    ∃ m d c, decodeStream S T s = .error ⟨.ioWrite, BitVec.ofNat 32 s.regs.outCap.toNat⟩
        { s.afterOut m d n with cur := c }
      ∧ s.Appends m (msg.take n) ∧ c.pass = s.cur.pass := by
  have hlen : paths.length = msg.length := by simpa using congrArg List.length hpaths
  have hroom : s.Room (msg.take n).length := by
    rw [List.length_take_of_le hlt.le]
    exact room_of_add_eq hn hreg.2.1
  have hn' : n < paths.length := hlen ▸ hlt
  have hsplit : paths.flatten = (paths.take n).flatten ++ (paths[n] ++ (paths.drop (n + 1)).flatten) := by
    rw [← List.flatten_cons, ← List.drop_eq_getElem_cons hn', ← List.flatten_append, List.take_append_drop]
  obtain ⟨hT, hpathBits, -⟩ := streamBit_of_streamBits hbits
  have hlenSplit := congrArg List.length hsplit
  rw [List.length_append, List.length_append] at hlenSplit
  have hleaf : leafAt s.huff s.huff.root paths[n] = some msg[n] := by
    have h := congrArg (·[n]?) hpaths
    simpa [hn', hlt] using h
  have hne : paths[n] ≠ [] := fun e => by
    obtain ⟨l, r, w, hroot⟩ := hroot
    simp [e, leafAt, hroot] at hleaf
  obtain ⟨m, d, c, hwalk, hm, hpass⟩ := walk_paths (S := S) (t := 0)
    (k := paths[n].length + (T.toNat - ((paths.take n).flatten.length + paths[n].length))) (bs := []) (d := s.draws)
    (c := s.cur) (paths := paths.take n) (msg := msg.take n) hreg hbus hroot (by rw [List.map_take, hpaths, List.map_take])
    (fun i hi => by
      rw [Nat.zero_add, hpathBits i (by omega)]
      simp only [hsplit, List.getElem_append_left hi])
    (fun i hi => by omega) (by simpa using hroom) (appends_nil s)
  obtain ⟨c', d', hpath, hpass'⟩ := walk_path (s := { s.afterOut m d (msg.take n).length with cur := c }) (S := S)
    (t := (paths.take n).flatten.length) (k := T.toNat - ((paths.take n).flatten.length + paths[n].length))
    (hbus.of_cfg rfl) hne hleaf (fun i hi => by
      rw [streamBit_decoded hreg hroom hm (by omega), hpathBits _ (by omega)]
      simp only [hsplit]
      rw [List.getElem_append_right (Nat.le_add_right _ _)]
      simp only [Nat.add_sub_cancel_left, List.getElem_append_left hi])
    fun i hi => inAddr_add_le (n := 1) hreg (by omega)
  refine ⟨m, d', c', ?_, hm, hpass'.trans hpass⟩
  rw [List.length_nil, afterOut_zero, Nat.zero_add, List.nil_append,
    show (paths.take n).flatten.length + (paths[n].length + (T.toNat - ((paths.take n).flatten.length + paths[n].length)))
      = T.toNat by omega] at hwalk
  rw [List.length_take_of_le hlt.le] at hwalk hpath
  refine decodeStream_walk_error (hwalk.trans (hpath.trans (bind_error ?_)))
  exact outByte_noRoom (afterOut_noRoom (m := m) (d := d') hn)

/-! DecodeStream1 (R209) -/

/-- R209: the first n bits, all 0. -/
theorem decodeBits1_ok {n : Nat} (hreg : s.regs.RegionsOk) (hbus : s.NoBusError)
    (hbits : ∀ i, i < n → streamBit s S i = false) (hn : n < 2 ^ 64) (hin : S + (n + 7) / 8 ≤ s.regs.inLen.toNat)
    (hroom : s.Room n) :
    ∃ m d c, forRange n (decodeBit1 S) s = .ok () { s.afterOut m d n with cur := c }
      ∧ s.Appends m (List.replicate n (orderAt s.huff 0)) ∧ c.pass = s.cur.pass := by
  have hn' : (BitVec.ofNat 64 n).toNat = n := Nat.mod_eq_of_lt hn
  have h := decodeStream1_ok (s := s) (S := S) (T := BitVec.ofNat 64 n) hreg hbus
  rw [hn', decodeStream1, hn'] at h
  exact h hbits hin hroom

/-- R209: the next bit, while output is written. -/
theorem unpackBit_decoded {m : List Host.Cell} {bs : List Byte} {d : Nat} {c : Cursors} (hreg : s.regs.RegionsOk)
    (hbus : s.NoBusError) (hroom : s.Room bs.length) (hm : s.Appends m bs) (hin : S + t / 8 < s.regs.inLen.toNat) :
    ∃ c' d', unpackBit S t { s.afterOut m d bs.length with cur := c }
        = .ok (streamBit s S t) { s.afterOut m d' bs.length with cur := c' } ∧ c'.pass = c.pass := by
  obtain ⟨c', d', hread, hpass⟩ := unpackBit_ok (S := S) (t := t) (s := { s.afterOut m d bs.length with cur := c })
    (hbus.of_cfg rfl) (inAddr_add_le (n := 1) hreg hin)
  rw [streamBit_decoded hreg hroom hm hin] at hread
  exact ⟨c', d', hread, hpass⟩

/-- R209: a bit 1 is no code. -/
theorem decodeStream1_corrupt {T : BitVec 64} {n : Nat} (hreg : s.regs.RegionsOk) (hbus : s.NoBusError)
    (hbits : ∀ i, i < n → streamBit s S i = false) (hone : streamBit s S n = true) (hn : n < T.toNat)
    (hin : S + (T.toNat + 7) / 8 ≤ s.regs.inLen.toNat) (hroom : s.Room n) :
    ∃ m d c, decodeStream1 S T s = .error ⟨.corruptData, BitVec.ofNat 32 (S + n / 8)⟩
        { s.afterOut m d n with cur := c }
      ∧ s.Appends m (List.replicate n (orderAt s.huff 0)) ∧ c.pass = s.cur.pass := by
  obtain ⟨m, d, c, hrun, hm, hpass⟩ := decodeBits1_ok hreg hbus hbits (hn.trans T.isLt) (by omega) hroom
  have hlen : (List.replicate n (orderAt s.huff 0)).length = n := List.length_replicate
  obtain ⟨c', d', hread, hpass'⟩ := unpackBit_decoded (S := S) (t := n) (d := d) (c := c) hreg hbus
    (by rwa [hlen]) hm (by omega)
  rw [hone, hlen] at hread
  exact ⟨m, d', c', forRange_error hn hrun (bind_ok hread), hm, hpass'.trans hpass⟩

/-- R209, R302: a symbol that does not fit. -/
theorem decodeStream1_noRoom {T : BitVec 64} {n : Nat} (hreg : s.regs.RegionsOk) (hbus : s.NoBusError)
    (hbits : ∀ i, i ≤ n → streamBit s S i = false) (hlt : n < T.toNat)
    (hin : S + (T.toNat + 7) / 8 ≤ s.regs.inLen.toNat) (hn : s.regs.outLen.toNat + n = s.regs.outCap.toNat) :
    ∃ m d c, decodeStream1 S T s = .error ⟨.ioWrite, BitVec.ofNat 32 s.regs.outCap.toNat⟩
        { s.afterOut m d n with cur := c }
      ∧ s.Appends m (List.replicate n (orderAt s.huff 0)) ∧ c.pass = s.cur.pass := by
  have hroom := room_of_add_eq hn hreg.2.1
  obtain ⟨m, d, c, hrun, hm, hpass⟩ := decodeBits1_ok hreg hbus (fun i hi => hbits i hi.le) (hlt.trans T.isLt) (by omega)
    hroom
  have hlen : (List.replicate n (orderAt s.huff 0)).length = n := List.length_replicate
  obtain ⟨c', d', hread, hpass'⟩ := unpackBit_decoded (S := S) (t := n) (d := d) (c := c) hreg hbus
    (by rwa [hlen]) hm (by omega)
  rw [hbits n (Nat.le_refl n), hlen] at hread
  exact ⟨m, d', c', forRange_error hlt hrun ((bind_ok hread).trans ((bind_ok (eng_get _)).trans
    (outByte_noRoom (afterOut_noRoom (m := m) (d := d') hn)))), hm, hpass'.trans hpass⟩

end

/-- Some bytes appended, when nothing is known of how. -/
theorem exists_appends {s : State} {bs : List Byte} (hbus : s.NoBusError) (hroom : s.Room bs.length) :
    ∃ m, s.Appends m bs := by
  obtain ⟨m, -, -, hm⟩ := outBytes_ok bs hbus hroom
  exact ⟨m, hm⟩

/-- Settles O43: the walk over the paths, then over the bits left over. -/
theorem decodeStream_outcome : Obligations.DecodeStream := by
  unfold Obligations.DecodeStream
  intro S T s paths msg r hbus hreg htree hroot hin hroom hpaths hbits
  by_cases hr : r = []
  · subst hr
    obtain ⟨hT, hpathBits, -⟩ := streamBit_of_streamBits hbits
    obtain ⟨m, d, c, hrun, hm, hpass⟩ := decodeStream_ok hreg hbus hroot hpaths hT hpathBits hin hroom
    exact ⟨m, d, c, hpass, hm, fun _ => runOp_ok (fun _ => .none) hrun, fun h => absurd rfl h⟩
  by_cases hend : ∃ n a b w, nodeOn s.huff s.huff.root r = some n ∧ nodeAt s.huff n = .internal a b w
  · obtain ⟨n, a, b, w, hnode, hint⟩ := hend
    obtain ⟨m, d, c, hrun, hm, hpass⟩ := decodeStream_incomplete hreg hbus hroot hpaths hbits hin hroom hnode
      ⟨a, b, w, hint⟩ fun e => by
        have hle := nodeOn_le htree hnode
        have hpos := List.length_pos_iff.mpr hr
        omega
    exact ⟨m, d, c, hpass, hm, fun h => absurd h hr, fun _ _ => runOp_error (fun _ => .none) hrun⟩
  · obtain ⟨m, hm⟩ := exists_appends hbus hroom
    exact ⟨m, 0, s.cur, rfl, hm, fun h => absurd h hr, fun _ h => absurd h hend⟩

/-- Settles O44: one symbol for each bit 0, up to a bit 1. -/
theorem decodeStream1_outcome : Obligations.DecodeStream1 := by
  unfold Obligations.DecodeStream1
  intro S T s n hbus hreg hin hn hroom hbits
  by_cases hone : n < T.toNat ∧ streamBit s S n = true
  · obtain ⟨m, d, c, hrun, hm, hpass⟩ := decodeStream1_corrupt hreg hbus hbits hone.2 hone.1 hin hroom
    exact ⟨m, d, c, hpass, hm, fun h => absurd hone.1 h.not_lt, fun _ _ => runOp_error (fun _ => .none) hrun⟩
  by_cases hall : n = T.toNat
  · subst hall
    obtain ⟨m, d, c, hrun, hm, hpass⟩ := decodeStream1_ok hreg hbus hbits hin hroom
    exact ⟨m, d, c, hpass, hm, fun _ => runOp_ok (fun _ => .none) hrun, fun h => absurd h (Nat.lt_irrefl _)⟩
  · obtain ⟨m, hm⟩ := exists_appends (bs := List.replicate n (orderAt s.huff 0)) hbus (by rwa [List.length_replicate])
    exact ⟨m, 0, s.cur, rfl, hm, fun h => absurd h hall, fun h1 h2 => absurd ⟨h1, h2⟩ hone⟩

end Sys2Proof.Machine

/-! PROOFS. An access that fails inside an operation (R75, R302, R303, R308). -/

namespace Sys2Proof.Machine

section
variable {s : State} {n : Nat} {bs : List Byte}

/-! No room (R75, R302) -/

section
variable (hbus : s.NoBusError) (hmem : s.regs.outBase.toNat + s.regs.outCap.toNat ≤ 2 ^ 32)
  (hn : s.regs.outLen.toNat + n = s.regs.outCap.toNat) (hlt : n < bs.length)
include hbus hmem hn hlt

/-- What begins by writing bs ends when the region is full. -/
theorem outBytes_bind_full (k : Unit → Eng Unit) :
    ∃ m d, (outBytes bs >>= k) s = .error ⟨.ioWrite, BitVec.ofNat 32 s.regs.outCap.toNat⟩ (s.afterOut m d n)
      ∧ s.Appends m (bs.take n) := by
  obtain ⟨m, d, hrun, hm⟩ := outBytes_full bs n hbus hmem hn hlt
  exact ⟨m, d, bind_error hrun, hm⟩

/-- R302: an operation that reads no input. -/
theorem exec_writesOnly_full {i : Instr} (hi : s.WritesOnly i bs) :
    ∃ m d, exec i s = .next ((s.afterOut m d n).endedBy .ioWrite s.regs.outCap.toNat)
      ∧ s.Appends m (bs.take n) := by
  obtain ⟨T, rfl, -, rfl⟩ | ⟨k, rfl, rfl⟩ | ⟨rfl, hv, rfl⟩ | ⟨c, rfl, hv, hfind, hstrict, rfl⟩ := hi
  · obtain ⟨m, d, hrun, hm⟩ := outBytes_full _ n hbus hmem hn hlt
    exact ⟨m, d, runOp_error (fun _ => .none) ((serializeHeader_eq T s).trans hrun), hm⟩
  · obtain ⟨m, d, hrun, hm⟩ := outBytes_full _ n hbus hmem hn hlt
    exact ⟨m, d, runOp_error (op := emitString k) (fun _ => .none) ((bind_ok (eng_get s)).trans hrun), hm⟩
  · obtain ⟨m, d, hrun, hm⟩ := emitCode_full s.lzw.w hbus hmem hn (by rwa [length_leBytes] at hlt)
    exact ⟨m, d, runOp_error (fun _ => .none) ((encodeEnd_match hv).trans hrun), hm⟩
  · obtain ⟨m, d, hrun, hm⟩ := emitCode_full s.lzw.w hbus hmem hn (by rwa [length_leBytes] at hlt)
    exact ⟨m, d, runOp_error (fun _ => .none)
      ((encodeByte_passes hv (findCode_of_exec hfind) hstrict).trans (bind_error hrun)), hm⟩

/-- R302: an operation that reads input. -/
theorem exec_readsAndWrites_full {i : Instr} (hi : s.ReadsAndWrites i bs) :
    ∃ m d c, exec i s = .next ({ s.afterOut m d n with cur := c }.endedBy .ioWrite s.regs.outCap.toNat)
      ∧ s.Appends m (bs.take n) ∧ c.pass = s.cur.pass := by
  obtain ⟨rfl, ha, hk, rfl⟩ | ⟨j, f, rfl, ha, hstrict, hentry⟩ | ⟨S, T, paths, r, rfl, hreg, -, hroot, hin, hpaths, hbits⟩
    | ⟨S, T, rfl, hreg, hin, hle, hbits, hbs⟩ := hi
  · obtain ⟨c, d, hrun, -, hpass⟩ := decodeFirst_seed hbus ha hk
    obtain ⟨m, d', hfull, hm⟩ := outBytes_bind_full (s := { s with cur := c, draws := d }) (hbus.of_cfg rfl) hmem hn hlt _
    exact ⟨m, d', c, runOp_error (fun _ => .none) (hrun.trans hfull), hm, hpass⟩
  · obtain ⟨c, d, hrun, -, hpass⟩ := decodeNext_entry hbus ha hentry hstrict
    obtain ⟨m, d', hfull, hm⟩ := outBytes_bind_full (s := { s with cur := c, draws := d }) (hbus.of_cfg rfl) hmem hn hlt _
    exact ⟨m, d', c, runOp_error (fun _ => .none) (hrun.trans hfull), hm, hpass⟩
  · obtain ⟨m, d, c, hrun, hm, hpass⟩ := decodeStream_noRoom hreg hbus hroot hpaths hbits hin hn hlt
    exact ⟨m, d, c, runOp_error (fun _ => .none) hrun, hm, hpass⟩
  · obtain ⟨m, d, c, hrun, hm, hpass⟩ := decodeStream1_noRoom hreg hbus (fun t ht => hbits t (ht.trans_lt hlt))
      (hlt.trans_le hle) hin hn
    refine ⟨m, d, c, runOp_error (fun _ => .none) hrun, ?_, hpass⟩
    rwa [hbs, List.take_replicate, Nat.min_eq_left hlt.le]

end

/-! A read that fails (R74, R303) -/

/-- R208: bits inside a path reach an internal node. -/
theorem Huff.Inside.node {h : Huff} {r : List Bool} (hr : h.Inside r)
    (hroot : ∃ a b w, nodeAt h h.root = .internal a b w) :
    ∃ n, nodeOn h h.root r = some n ∧ ∃ a b w, nodeAt h n = .internal a b w := by
  obtain rfl | ⟨n, a, b, w, hn, hint⟩ := hr
  · exact ⟨h.root, rfl, hroot⟩
  · exact ⟨n, hn, a, b, w, hint⟩

variable {k : Nat} (hfail : s.ReadFails k)
include hfail

/-- R208: the byte of a code stream that the platform fails. -/
theorem unpackBit_readFails {S q : Nat} (hk : k = S + q) {t : State} (hcfg : t.cfg = s.cfg)
    (hbase : t.regs.inBase = s.regs.inBase) :
    unpackBit S (8 * q) t = .error ⟨.ioRead, BitVec.ofNat 32 k⟩ t := by
  refine bind_error ?_
  rw [Nat.mul_div_cancel_left q (by decide), ← hk]
  exact hfail.inByte hcfg hbase

theorem decodeStream_readFails {S q : Nat} {T : BitVec 64} {paths : List (List Bool)} {r : List Bool}
    (hk : k = S + q) (hq : 8 * q < T.toNat) (hreg : s.regs.RegionsOk)
    (hin : S + (T.toNat + 7) / 8 ≤ s.regs.inLen.toNat) (hroot : ∃ a b w, nodeAt s.huff s.huff.root = .internal a b w)
    (hpaths : paths.map (leafAt s.huff s.huff.root) = bs.map some)
    (hbits : streamBits s S (8 * q) = paths.flatten ++ r) (hr : s.huff.Inside r) (hroom : s.Room bs.length) :
    ∃ m c, decodeStream S T s = .error ⟨.ioRead, BitVec.ofNat 32 k⟩ { s.afterOut m s.draws bs.length with cur := c }
      ∧ s.Appends m bs ∧ c.pass = s.cur.pass := by
  obtain ⟨n, hnode, hint⟩ := hr.node hroot
  obtain ⟨m, d, c, hwalk, hm, hpass⟩ := walk_stream (s := s.calm s.regs.outCap) hreg (noBusError_calm s _) hroot hpaths
    hbits (by show _ ≤ s.regs.inLen.toNat; omega) hroom hnode hint
  obtain ⟨hwalk', hd⟩ := State.ReadFails.run (sim_walk (readFails_engineRel hfail) (8 * q) 0 s.huff.root fun i hi =>
    sim_inByte_readFails hfail (by omega)) hwalk
  obtain rfl : d = s.draws := hd
  obtain ⟨rest, hT⟩ := Nat.exists_eq_add_of_lt hq
  refine ⟨m, c, decodeStream_walk_error ?_, hm, hpass⟩
  rw [hT, Nat.add_assoc, walk_add, bind_ok hwalk', Nat.zero_add]
  exact bind_error (unpackBit_readFails hfail hk rfl rfl)

theorem decodeStream1_readFails {S q : Nat} {T : BitVec 64} (hk : k = S + q) (hq : 8 * q < T.toNat)
    (hreg : s.regs.RegionsOk) (hin : S + (T.toNat + 7) / 8 ≤ s.regs.inLen.toNat)
    (hbits : ∀ t, t < 8 * q → streamBit s S t = false) (hroom : s.Room (8 * q)) :
    ∃ m c, decodeStream1 S T s = .error ⟨.ioRead, BitVec.ofNat 32 k⟩ { s.afterOut m s.draws (8 * q) with cur := c }
      ∧ s.Appends m (List.replicate (8 * q) (orderAt s.huff 0)) ∧ c.pass = s.cur.pass := by
  have hT := T.isLt
  obtain ⟨m, d, c, hrun, hm, hpass⟩ := decodeBits1_ok (s := s.calm s.regs.outCap) hreg (noBusError_calm s _) hbits
    (by omega) (by show _ ≤ s.regs.inLen.toNat; omega) hroom
  obtain ⟨hrun', hd⟩ := State.ReadFails.run (sim_forRange fun i hi =>
    sim_decodeBit1 (readFails_engineRel hfail) (sim_inByte_readFails hfail (by omega))) hrun
  obtain rfl : d = s.draws := hd
  exact ⟨m, c, forRange_error hq hrun' (bind_error (unpackBit_readFails hfail hk rfl rfl)), hm, hpass⟩

/-- R303: the operations that read codes. -/
theorem exec_readsUpTo {i : Instr} (hi : s.ReadsUpTo i k bs) (hroom : s.Room bs.length) :
    ∃ m c, s.Appends m bs ∧ c.pass = s.cur.pass
      ∧ exec i s = .next ({ s.afterOut m s.draws bs.length with cur := c }.endedBy .ioRead k) := by
  obtain ⟨rfl, hk, rfl⟩ | ⟨j, rfl, hlo, hhi, rfl⟩
    | ⟨S, T, q, paths, r, rfl, hk, hq, hreg, hin, ⟨-, hroot, -, hpaths, hbits⟩, hr⟩
    | ⟨S, T, q, rfl, hk, hq, hreg, hin, hbits, rfl⟩ := hi
  · obtain ⟨c, hrun, -, hpass⟩ := get32_readFails hfail (Nat.zero_le k) (by rwa [Nat.zero_add])
    refine ⟨s.mem, c, appends_nil s, hpass, runOp_error (fun _ => .none) (bind_error ?_)⟩
    rw [List.length_nil, afterOut_zero, hrun]
  · obtain ⟨c, hrun, -, hpass⟩ := get32_readFails hfail hlo hhi
    refine ⟨s.mem, c, appends_nil s, hpass, runOp_error (fun _ => .none) (bind_error ?_)⟩
    rw [List.length_nil, afterOut_zero, hrun]
  · obtain ⟨m, c, hrun, hm, hpass⟩ := decodeStream_readFails hfail hk hq hreg hin hroot hpaths hbits hr hroom
    exact ⟨m, c, hm, hpass, runOp_error (fun _ => .none) hrun⟩
  · rw [List.length_replicate] at hroom ⊢
    obtain ⟨m, c, hrun, hm, hpass⟩ := decodeStream1_readFails hfail hk hq hreg hin hbits hroom
    exact ⟨m, c, hm, hpass, runOp_error (fun _ => .none) hrun⟩

end

/-- Settles O57: by kind of access, operation by operation. -/
theorem outputFull : Obligations.OutputFull := by
  unfold Obligations.OutputFull
  refine ⟨fun s i bs n hbus hmem hn hlt => ⟨exec_writesOnly_full hbus hmem hn hlt,
      exec_readsAndWrites_full hbus hmem hn hlt⟩,
    fun s i n hi hreg hfail hmem hlen hn => exec_writeFails hi hreg hfail hmem hlen hn,
    fun s i k bs hfail hi hroom => exec_readsUpTo hfail hi hroom,
    fun s k hfail hk => ⟨_, runOp_ok (fun _ => .none) (buildFrequencyTable_before hfail hk),
      runOp_error (fun _ => .none) (buildFrequencyTable_readFails hfail hk)⟩,
    fun s k hfail hfreq hzero => ⟨parseEnds_count_read hfail hzero, fun u hu hlen hcount =>
      ⟨fun j hj hok hk => parseEnds_symbol_read hfail hfreq hzero hu hlen hcount hj hok hk,
        fun j hj hok hfresh hlo hhi => parseEnds_frequency_read hfail hfreq hzero hu hlen hcount hj hok hfresh hlo hhi,
        fun hok hlo hhi => parseEnds_bits_read hfail hfreq hzero hu hlen hcount hok hlo hhi⟩⟩⟩

end Sys2Proof.Machine

/-! PROOFS. The family of 43_lzw.md, LZW_COMPRESS up to whatever ends it (R254 to R257, R302, R303). -/

namespace Sys2Proof.Machine

/-! What a command of the codec leaves -/

section
variable {s : State} {m : List Host.Cell} {d k n : Nat} {c : Cursors} {l : Lzw} {bs : List Byte}

/-- R307: a command of the codec that an error ends fails with it, and its output is what it wrote. -/
theorem raised_coding {e : ErrKind} {info : Nat} (hlen : s.regs.outLen = 0#32) (hroom : s.Room bs.length)
    (hm : s.Appends m bs) :
    (raiseError ⟨e, BitVec.ofNat 32 info⟩ (s.coding m d c bs.length k l)).Failed e info
      ∧ (raiseError ⟨e, BitVec.ofNat 32 info⟩ (s.coding m d c bs.length k l)).output = bs :=
  ⟨raiseError_failed _ _ _, (output_of_appends (t := raiseError ⟨e, BitVec.ofNat 32 info⟩
    (s.coding m d c bs.length k l)) hlen hroom hm rfl rfl rfl).1⟩

/-- A count of at most OUT_CAP needs no more than 32 bits. -/
theorem toNat_count (hk : k ≤ s.regs.outCap.toNat) : (BitVec.ofNat 32 k).toNat = k :=
  Nat.mod_eq_of_lt (hk.trans_lt s.regs.outCap.isLt)

end

/-- The dictionary's invariant speaks of LZW_CAP alone of the platform. -/
theorem State.Holds.of_cap {s t : State} {D : List (List Byte)} (h : s.Holds D) (hlzw : t.lzw = s.lzw)
    (hcap : t.cfg.lzwCap = s.cfg.lzwCap) : t.Holds D where
  ok :=
    { rising := by rw [hlzw]; exact h.ok.rising
      valid := by rw [hlzw]; exact h.ok.valid
      next := by rw [hlzw, hcap]; exact h.ok.next
      seeds := by rw [hlzw]; exact h.ok.seeds
      longer := by rw [hlzw]; exact h.ok.longer }
  strings := by rw [hlzw, h.strings]

theorem length_grown (cap : Nat) (d : List (List Byte)) (x : List Byte) :
    (grown cap d x).length = if d.length < cap then d.length + 1 else d.length := by
  rw [grown]
  split_ifs
  · rw [List.length_append, List.length_singleton]
  · rfl

/-! A code that does not fit (R302) -/

/-- The command ended with IOWriteError: the region holds the beginning of the file of codes, the codes before it are
counted, and NEXT counts their insertions (R302). -/
def State.Truncated (s : State) (codes : List Nat) (r : Raise) (t : State) : Prop :=
  r = ⟨.ioWrite, BitVec.ofNat 32 s.regs.outCap.toNat⟩
    ∧ ∃ m d c l, t = s.coding m d c s.regs.outCap.toNat (s.regs.outCap.toNat / 4) l
      ∧ s.Appends m ((lzwFile codes).take s.regs.outCap.toNat)
      ∧ l.next.toNat = 256 + min (s.regs.outCap.toNat / 4) (s.cfg.lzwCap.toNat - 256)

/-- Strict mode ended the command where it would have skipped an insertion, the codes before it written (R256). -/
def State.StoppedStrict (s : State) (codes : List Nat) (r : Raise) (t : State) : Prop :=
  r = ⟨.unsupportedConfiguration, BitVec.ofNat 32 3⟩
    ∧ s.regs.lzwStrict = true ∧ s.cfg.lzwCap.toNat - 256 < codes.length - 1
    ∧ 4 * (s.cfg.lzwCap.toNat - 256) ≤ s.regs.outCap.toNat
    ∧ ∃ D w, s.Encoded (codes.take (s.cfg.lzwCap.toNat - 256)) D w t ∧ D.length = s.cfg.lzwCap.toNat

section
variable {s t : State} {es codes : List Nat} {D : List (List Byte)} {w : List Byte} {c : Byte}

/-- The room of an output region of which nothing is used (R142). -/
theorem room_of_le_outCap {n : Nat} (hreg : s.regs.RegionsOk) (hlen : s.regs.outLen = 0#32)
    (hn : n ≤ s.regs.outCap.toNat) : s.Room n := room_of_outLen_zero hreg hn hlen rfl rfl

theorem take_lzwFile_concat {k n : Nat} {rest : List Nat} (hn : n ≤ 4) :
    (lzwFile (es ++ k :: rest)).take (4 * es.length + n) = lzwFile es ++ (leBytes k 4).take n := by
  rw [lzwFile_append, ← List.singleton_append, lzwFile_append, lzwFile_singleton, ← length_lzwFile,
    List.take_length_add_append,
    List.take_append_of_le_length (by rwa [length_leBytes])]

/-- R302: the code of a match, when the region is too small for it. -/
theorem emitCode_truncated {m : List Host.Cell} {d : Nat} {cur : Cursors} {l : Lzw} {q : Code} {rest : List Nat}
    (hreg : s.regs.RegionsOk) (hbus : s.NoBusError) (hlen : s.regs.outLen = 0#32) (hm : s.Appends m (lzwFile es))
    (hlo : 4 * es.length ≤ s.regs.outCap.toNat) (hhi : s.regs.outCap.toNat < 4 * (es.length + 1))
    (hnext : l.next.toNat = 256 + min es.length (s.cfg.lzwCap.toNat - 256)) :
    ∃ r u, emitCode q (s.coding m d cur (lzwFile es).length es.length l) = .error r u
      ∧ s.Truncated (es ++ q.toNat :: rest) r u := by
  have hlenFile := length_lzwFile es
  have hfit : s.regs.outCap.toNat = (lzwFile es).length + (s.regs.outCap.toNat - 4 * es.length) := by omega
  have hdiv : s.regs.outCap.toNat / 4 = es.length := by omega
  have hroom : s.Room (lzwFile es).length := room_of_le_outCap hreg hlen (by omega)
  have hused : (s.coding m d cur (lzwFile es).length es.length l).regs.outLen.toNat = (lzwFile es).length :=
    (output_of_appends (t := s.coding m d cur (lzwFile es).length es.length l) hlen hroom hm rfl rfl rfl).2
  obtain ⟨m', d', hrun, hm'⟩ := emitCode_full (s := s.coding m d cur (lzwFile es).length es.length l) q
    (n := s.regs.outCap.toNat - 4 * es.length) (hbus.of_cfg rfl) hreg.2.1
    (by rw [hused]; exact hfit.symm) (by omega)
  refine ⟨_, _, hrun, rfl, m', d', cur, l, ?_, ?_, by rw [hdiv, hnext]⟩
  · rw [hdiv]
    refine (afterOut_coding s m m' d d' (lzwFile es).length _ es.length cur cur l).trans ?_
    rw [← hfit]
  · have hbytes := take_lzwFile_concat (es := es) (k := q.toNat) (n := s.regs.outCap.toNat - 4 * es.length)
      (rest := rest) (by omega)
    rw [show 4 * es.length + (s.regs.outCap.toNat - 4 * es.length) = s.regs.outCap.toNat by omega] at hbytes
    rw [hbytes]
    refine appends_append hm (d := d) ?_ hm'
    rw [hlen, BitVec.toNat_zero, Nat.zero_add]
    have := s.regs.outCap.isLt
    omega

/-- The match is not empty when the dictionary, which has every byte, does not extend it by c. -/
theorem State.Encoded.unextended (h : s.Encoded es D w t) (hD : D.Nodup) (hseeds : ∀ b : Byte, [b] ∈ D)
    (hnot : w ++ [c] ∉ D) : ∃ m d cur l, t = s.coding m d cur (lzwFile es).length es.length l
      ∧ s.Appends m (lzwFile es) ∧ l.wValid = true ∧ findCode l l.w c = none
      ∧ (stringCode D w).getD 0 = l.w.toNat ∧ l.next.toNat = D.length := by
  obtain ⟨m, d, cur, l, rfl, hm, hholds, hw⟩ := h
  obtain ⟨hv, rfl⟩ | ⟨hv, hlt, rfl⟩ := hw
  · exact absurd (hseeds c) hnot
  · have hcode : stringCode D (stringOf l l.w) = some l.w.toNat := hholds.stringCode_eq hD hlt
    exact ⟨m, d, cur, l, rfl, hm, hv,
      Option.not_isSome_iff_eq_none.mp ((hholds.findCode_isSome_iff hD hlt).not.mpr hnot), by rw [hcode]; rfl,
      hholds.length.symm⟩

/-- R256: the code of a match that strict mode does not let pass. -/
theorem encodeByte_encoded_strict (h : s.Encoded es D w t) (hD : D.Nodup) (hseeds : ∀ b : Byte, [b] ∈ D)
    (hnot : w ++ [c] ∉ D) (hs : s.regs.lzwStrict = true) (hfull : D.length = s.cfg.lzwCap.toNat) :
    encodeByte c t = .error ⟨.unsupportedConfiguration, BitVec.ofNat 32 3⟩ t := by
  obtain ⟨m, d, cur, l, rfl, -, hv, hfind, -, hnext⟩ := h.unextended hD hseeds hnot
  exact encodeByte_strict hv hfind ⟨BitVec.eq_of_toNat_eq (hnext.trans hfull), hs⟩

/-- R302: the code of a match that has no room. -/
theorem encodeByte_encoded_full {rest : List Nat} (hreg : s.regs.RegionsOk) (hbus : s.NoBusError)
    (hlen : s.regs.outLen = 0#32) (h : s.Encoded es D w t) (hD : D.Nodup) (hseeds : ∀ b : Byte, [b] ∈ D)
    (hnot : w ++ [c] ∉ D) (hsize : D.length = 256 + min es.length (s.cfg.lzwCap.toNat - 256))
    (hstrict : s.regs.lzwStrict = false ∨ D.length < s.cfg.lzwCap.toNat)
    (hlo : 4 * es.length ≤ s.regs.outCap.toNat) (hhi : s.regs.outCap.toNat < 4 * (es.length + 1)) :
    ∃ r u, encodeByte c t = .error r u ∧ s.Truncated (es ++ (stringCode D w).getD 0 :: rest) r u := by
  obtain ⟨m, d, cur, l, rfl, hm, hv, hfind, hcode, hnext⟩ := h.unextended hD hseeds hnot
  have hpass : ¬(l.next = s.cfg.lzwCap ∧ s.regs.lzwStrict = true) := fun ⟨hl, hs⟩ => by
    rw [← hnext, hl, hs] at hstrict
    exact hstrict.elim nofun (Nat.lt_irrefl _)
  obtain ⟨r, u, hrun, hu⟩ := emitCode_truncated (q := l.w) (d := d) (cur := cur) (l := l) (rest := rest) hreg hbus hlen
    hm hlo hhi (hnext.trans hsize)
  rw [hcode]
  exact ⟨r, u, (encodeByte_passes (s := s.coding m d cur (lzwFile es).length es.length l) hv hfind hpass).trans
    (bind_error hrun), hu⟩

/-- What a command leaves when a code does not fit (R302). -/
theorem State.Truncated.raised {r : Raise} (hreg : s.regs.RegionsOk) (hlen : s.regs.outLen = 0#32)
    (h : s.Truncated codes r t) (hroom : s.regs.outCap.toNat < 4 * codes.length) :
    (raiseError r t).Failed .ioWrite s.regs.outCap.toNat
      ∧ (raiseError r t).output = (lzwFile codes).take s.regs.outCap.toNat
      ∧ (raiseError r t).regs.lzwCodes.toNat = s.regs.outCap.toNat / 4
      ∧ (raiseError r t).regs.lzwNext.toNat = 256 + min (s.regs.outCap.toNat / 4) (s.cfg.lzwCap.toNat - 256)
      ∧ (raiseError r t).huff = s.huff ∧ (raiseError r t).regs.huffUnique = s.regs.huffUnique
      ∧ (raiseError r t).regs.huffBits = s.regs.huffBits := by
  obtain ⟨rfl, m, d, c, l, rfl, hm, hnext⟩ := h
  have htake : ((lzwFile codes).take s.regs.outCap.toNat).length = s.regs.outCap.toNat :=
    List.length_take_of_le (by rw [length_lzwFile]; exact hroom.le)
  obtain ⟨hfailed, hout⟩ := raised_coding (e := .ioWrite) (info := s.regs.outCap.toNat) (d := d)
    (k := s.regs.outCap.toNat / 4) (c := c) (l := l) hlen (room_of_le_outCap hreg hlen htake.le) hm
  rw [htake] at hout
  exact ⟨hfailed, hout, toNat_count (Nat.div_le_self _ _), hnext, rfl, rfl, rfl⟩

/-! The loop of LzwCompress (R257) -/

/-- The bytes bs of the input after i of them, in state t: the codes es are written, D is the dictionary, w the match;
with what is to come es are the codes of bs. -/
structure State.Encoding (s : State) (bs : List Byte) (i : Nat) (es : List Nat) (D : List (List Byte)) (w : List Byte)
    (t : State) : Prop where
  encoded : s.Encoded es D w t
  nodup   : D.Nodup
  seeds   : ∀ b : Byte, [b] ∈ D
  codes   : es ++ stringEncode s.cfg.lzwCap.toNat D w (bs.drop i) = lzwCodesOf s.cfg.lzwCap.toNat bs
  size    : D.length = 256 + min es.length (s.cfg.lzwCap.toNat - 256)
  fits    : 4 * es.length ≤ s.regs.outCap.toNat
  strict  : s.regs.lzwStrict = false ∨ es.length ≤ s.cfg.lzwCap.toNat - 256
  start   : w = [] → es = []

/-- What ends the loop of LzwCompress over an input with these codes (R256, R302): the strict check, or a code, not the
last one, without room. -/
def State.LoopStops (s : State) (codes : List Nat) (r : Raise) (t : State) : Prop :=
  s.StoppedStrict codes r t
    ∨ (s.regs.outCap.toNat < 4 * (codes.length - 1)
      ∧ (s.regs.lzwStrict = false ∨ s.regs.outCap.toNat / 4 < s.cfg.lzwCap.toNat - 256) ∧ s.Truncated codes r t)

variable {bs : List Byte} {i n : Nat}

/-- R254: a byte of the input that does not extend the match. -/
theorem encodeByte_encoding (hreg : s.regs.RegionsOk) (hbus : s.NoBusError) (hlen : s.regs.outLen = 0#32)
    (hcap : 256 ≤ s.cfg.lzwCap.toNat) (hi : i < bs.length) (h : s.Encoding bs i es D w t) :
    (∃ u, encodeByte bs[i] t = .ok () u ∧ ∃ es' D' w', s.Encoding bs (i + 1) es' D' w' u)
      ∨ ∃ r u, encodeByte bs[i] t = .error r u ∧ s.LoopStops (lzwCodesOf s.cfg.lzwCap.toNat bs) r u := by
  obtain ⟨hencoded, hD, hseeds, hcodes, hsize, hfits, hstrict, hstart⟩ := h
  rw [List.drop_eq_getElem_cons hi] at hcodes
  by_cases hin : w ++ [bs[i]] ∈ D
  · obtain ⟨u, hrun, hu⟩ := encodeByte_encoded_extend hencoded hD hin
    rw [stringEncode_extend hin] at hcodes
    exact .inl ⟨u, hrun, es, D, _, hu, hD, hseeds, hcodes, hsize, hfits, hstrict, fun e => by simp at e⟩
  rw [stringEncode_emit hin] at hcodes
  have hmore := List.length_pos_iff.mpr (stringEncode_ne_nil (cap := s.cfg.lzwCap.toNat)
    (d := grown s.cfg.lzwCap.toNat D (w ++ [bs[i]])) (rest := bs.drop (i + 1)) (List.cons_ne_nil bs[i] []))
  have hcount := congrArg List.length hcodes
  rw [List.length_append, List.length_cons] at hcount
  by_cases hfull : s.regs.lzwStrict = true ∧ D.length = s.cfg.lzwCap.toNat
  · have hes : es.length = s.cfg.lzwCap.toNat - 256 := by
      have := hstrict.resolve_left (by rw [hfull.1]; decide)
      omega
    refine .inr ⟨_, t, encodeByte_encoded_strict hencoded hD hseeds hin hfull.1 hfull.2, .inl
      ⟨rfl, hfull.1, by omega, by omega, D, w, ?_, hfull.2⟩⟩
    rw [← hcodes, ← hes, List.take_left]
    exact hencoded
  have hpass : s.regs.lzwStrict = false ∨ D.length < s.cfg.lzwCap.toNat := by
    cases hs : s.regs.lzwStrict with
    | false => exact .inl rfl
    | true =>
      have hne : D.length ≠ s.cfg.lzwCap.toNat := fun e => hfull ⟨hs, e⟩
      exact .inr (by omega)
  by_cases hroom : 4 * (es.length + 1) ≤ s.regs.outCap.toNat
  · obtain ⟨u, hrun, hu⟩ := encodeByte_encoded_emit hencoded hbus hD hseeds hin
      (room_of_le_outCap hreg hlen (by rw [length_lzwFile]; omega)) hpass
    refine .inl ⟨u, hrun, _, _, _, hu, nodup_grown hD hin, fun b => mem_grown_of_mem (hseeds b), ?_, ?_, ?_, ?_,
      fun e => by simp at e⟩
    · rw [List.append_assoc]
      exact hcodes
    · rw [length_grown, List.length_append, List.length_singleton]
      split_ifs <;> omega
    · rwa [List.length_append, List.length_singleton]
    · rw [List.length_append, List.length_singleton]
      exact hpass.imp_right fun hlt => by omega
  · obtain ⟨r, u, hrun, hu⟩ := encodeByte_encoded_full (rest := stringEncode s.cfg.lzwCap.toNat
      (grown s.cfg.lzwCap.toNat D (w ++ [bs[i]])) [bs[i]] (bs.drop (i + 1))) hreg hbus hlen hencoded hD hseeds hin hsize
      hpass hfits (Nat.lt_of_not_le hroom)
    rw [hcodes] at hu
    exact .inr ⟨r, u, hrun, .inr ⟨by omega, hpass.imp_right fun hlt => by omega, hu⟩⟩

theorem compressByte_encoding (hreg : s.regs.RegionsOk) (hbus : s.NoBusError) (hlen : s.regs.outLen = 0#32)
    (hcap : 256 ≤ s.cfg.lzwCap.toNat) (hbs : bs = s.input.take n) (hi : i < bs.length) (h : s.Encoding bs i es D w t) :
    (∃ u, compressByte i t = .ok () u ∧ ∃ es' D' w', s.Encoding bs (i + 1) es' D' w' u)
      ∨ ∃ r u, compressByte i t = .error r u ∧ s.LoopStops (lzwCodesOf s.cfg.lzwCap.toNat bs) r u := by
  have hi' : i < s.input.length := hi.trans_le (by rw [hbs]; exact List.length_take_le' _ _)
  obtain ⟨v, hread, hv⟩ := inByte_encoded hreg hbus hi' (room_of_le_outCap hreg hlen
    (by rw [length_lzwFile]; exact h.fits)) h.encoded
  have hbyte : s.input[i] = bs[i] := by simp only [hbs, List.getElem_take]
  rw [hbyte] at hread
  have hrun : compressByte i t = encodeByte bs[i] v := bind_ok hread
  rw [hrun]
  exact encodeByte_encoding hreg hbus hlen hcap hi { h with encoded := hv }

/-- R257: the first n bytes of the input, or what ends the loop. -/
theorem compressBytes_cases (hreg : s.regs.RegionsOk) (hbus : s.NoBusError) (hlen : s.regs.outLen = 0#32)
    (hcap : 256 ≤ s.cfg.lzwCap.toNat) (hbs : bs = s.input.take n) (hn : n = bs.length) :
    (∃ t, forRange n compressByte (s.coding s.mem s.draws s.cur 0 0 seededLzw) = .ok () t
      ∧ ∃ es D w, s.Encoding bs n es D w t)
    ∨ ∃ r t, forRange n compressByte (s.coding s.mem s.draws s.cur 0 0 seededLzw) = .error r t
      ∧ s.LoopStops (lzwCodesOf s.cfg.lzwCap.toNat bs) r t := by
  refine forRange_cases (fun i t => ∃ es D w, s.Encoding bs i es D w t) _ ⟨[], seedStrings, [], ?_⟩
    fun i t hi ⟨es, D, w, ht⟩ => compressByte_encoding hreg hbus hlen hcap hbs (hn ▸ hi) ht
  exact ⟨⟨s.mem, s.draws, s.cur, seededLzw, rfl, appends_nil s, holds_seeded hcap, .inl ⟨rfl, rfl⟩⟩,
    nodup_seedStrings, seed_mem_seedStrings, rfl, length_seedStrings, Nat.zero_le _, .inr (Nat.zero_le _), fun _ => rfl⟩

/-- R255: all codes but the last are written before EncodeEnd. -/
theorem State.Encoding.codes_dropLast (h : s.Encoding bs i es D w t) (hi : bs.length ≤ i) :
    es = (lzwCodesOf s.cfg.lzwCap.toNat bs).dropLast := by
  have hcodes := h.codes
  rw [List.drop_eq_nil_of_le hi] at hcodes
  by_cases hw : w = []
  · rw [hw, stringEncode, if_pos rfl, List.append_nil] at hcodes
    rw [← hcodes, h.start hw]
    rfl
  · rw [stringEncode_nil hw] at hcodes
    rw [← hcodes, List.dropLast_concat]

/-- R255, R302: the code of the last match, with room or without. -/
theorem encodeEnd_cases (hreg : s.regs.RegionsOk) (hbus : s.NoBusError) (hlen : s.regs.outLen = 0#32)
    (h : s.Encoding bs i es D w t) (hi : bs.length ≤ i) :
    (∃ u, encodeEnd t = .ok () u ∧ s.Encoded (lzwCodesOf s.cfg.lzwCap.toNat bs) D w u
      ∧ 4 * (lzwCodesOf s.cfg.lzwCap.toNat bs).length ≤ s.regs.outCap.toNat)
    ∨ ∃ r u, encodeEnd t = .error r u ∧ s.regs.outCap.toNat < 4 * (lzwCodesOf s.cfg.lzwCap.toNat bs).length
      ∧ s.Truncated (lzwCodesOf s.cfg.lzwCap.toNat bs) r u := by
  obtain ⟨hencoded, hD, -, hcodes, hsize, hfits, -, -⟩ := h
  rw [List.drop_eq_nil_of_le hi] at hcodes
  by_cases hroom : 4 * (lzwCodesOf s.cfg.lzwCap.toNat bs).length ≤ s.regs.outCap.toNat
  · rw [← hcodes] at hroom ⊢
    obtain ⟨u, hrun, hu⟩ := encodeEnd_encoded hencoded hbus hD (room_of_le_outCap hreg hlen (by rwa [length_lzwFile]))
    exact .inl ⟨u, hrun, hu, hroom⟩
  · obtain ⟨m, d, cur, l, rfl, hm, hholds, hw⟩ := hencoded
    obtain ⟨hv, rfl⟩ | ⟨hv, hlt, hs⟩ := hw
    · rw [stringEncode, if_pos rfl, List.append_nil] at hcodes
      rw [← hcodes] at hroom
      exact absurd hfits hroom
    · have hcode : stringCode D w = some l.w.toNat := by
        rw [← hs]
        exact hholds.stringCode_eq hD hlt
      rw [stringEncode_nil (hs ▸ hholds.ok.stringOf_ne_nil hlt), hcode, Option.getD_some] at hcodes
      rw [← hcodes] at hroom ⊢
      rw [List.length_append, List.length_singleton] at hroom
      obtain ⟨r, u, hrun, hu⟩ := emitCode_truncated (q := l.w) (d := d) (cur := cur) (l := l) (rest := []) hreg hbus hlen
        hm hfits (Nat.lt_of_not_le hroom) (hholds.length.symm.trans hsize)
      refine .inr ⟨r, u, (encodeEnd_match (s := s.coding m d cur (lzwFile es).length es.length l) hv).trans hrun, ?_, hu⟩
      rw [List.length_append, List.length_singleton]
      exact Nat.lt_of_not_le hroom

end

/-! The command (R257) -/

/-- LZW_COMPRESS of s when its operation begins (R141, R257). -/
def encoder (s : State) : State := { launched 3#3 s with phase := .lEncode }

section
variable {s t : State} {codes : List Nat} {r : Raise}

theorem exec_lzwCompress_raised (hreg : s.regs.RegionsOk) (hrun : compressAll (encoder s) = .error r t) :
    exec .lzwCompress s = .next (raiseError r t) :=
  (exec_decodeOp 3#3 s).trans
    (congrArg _ (runCommand_raised (op := 3#3) (by decide) hreg ((lzwCompress_eq _).trans hrun)))

theorem exec_lzwCompress_completed (hreg : s.regs.RegionsOk) (hrun : compressAll (encoder s) = .ok () t) :
    exec .lzwCompress s = .next (completed t) :=
  (exec_decodeOp 3#3 s).trans
    (congrArg _ (runCommand_completed (op := 3#3) (by decide) hreg ((lzwCompress_eq _).trans hrun)))

/-- The loop over the input, after Seed. -/
theorem compressAll_encoder (s : State) : compressAll (encoder s)
    = (forRange s.regs.inLen.toNat compressByte >>= fun _ => encodeEnd)
        ((encoder s).coding s.mem s.draws (encoder s).cur 0 0 seededLzw) :=
  (bind_ok (seed_coding (s := encoder s) rfl rfl)).trans ((bind_ok (eng_get _)).trans rfl)

/-- How LZW_COMPRESS ends (R257, R302). -/
theorem compressAll_cases (hreg : s.regs.RegionsOk) (hbus : s.NoBusError) (hcap : 256 ≤ s.cfg.lzwCap.toNat)
    (hcodes : codes = lzwCodesOf s.cfg.lzwCap.toNat s.input) :
    (∃ t D w, compressAll (encoder s) = .ok () t ∧ (encoder s).Encoded codes D w t
      ∧ D.length = 256 + min (codes.length - 1) (s.cfg.lzwCap.toNat - 256)
      ∧ 4 * codes.length ≤ s.regs.outCap.toNat
      ∧ (s.regs.lzwStrict = false ∨ codes.length - 1 ≤ s.cfg.lzwCap.toNat - 256))
    ∨ (∃ r t, compressAll (encoder s) = .error r t ∧ (encoder s).StoppedStrict codes r t)
    ∨ ∃ r t, compressAll (encoder s) = .error r t ∧ (encoder s).Truncated codes r t
      ∧ s.regs.outCap.toNat < 4 * codes.length
      ∧ (s.regs.lzwStrict = false ∨ s.regs.outCap.toNat / 4 < s.cfg.lzwCap.toNat - 256
        ∨ codes.length - 1 ≤ s.cfg.lzwCap.toNat - 256) := by
  have hlen : s.regs.inLen.toNat = s.input.length := (length_input s).symm
  rw [compressAll_encoder, hcodes]
  obtain ⟨v, hloop, es, D, w, hv⟩ | ⟨r, v, hloop, hstop⟩ := compressBytes_cases (s := encoder s)
    (n := s.regs.inLen.toNat) (bs := s.input) hreg (hbus.of_cfg rfl) rfl hcap
    (by rw [hlen]; exact (List.take_length).symm) hlen
  · have hes := congrArg List.length (hv.codes_dropLast hlen.ge)
    rw [List.length_dropLast] at hes
    have hsize := hv.size
    have hstrict := hv.strict
    rw [hes] at hsize hstrict
    obtain ⟨u, hrun, hu, hroom⟩ | ⟨r, u, hrun, hroom, hu⟩ := encodeEnd_cases (s := encoder s) hreg (hbus.of_cfg rfl) rfl hv
      hlen.ge
    · exact .inl ⟨u, D, w, (bind_ok hloop).trans hrun, hu, hsize, hroom, hstrict⟩
    · exact .inr (.inr ⟨r, u, (bind_ok hloop).trans hrun, hu, hroom, hstrict.imp_right .inr⟩)
  · obtain hstrict | ⟨hroom, hpass, hfull⟩ := hstop
    · exact .inr (.inl ⟨r, v, bind_error hloop, hstrict⟩)
    · exact .inr (.inr ⟨r, v, bind_error hloop, hfull,
        hroom.trans_le (Nat.mul_le_mul_left 4 (Nat.sub_le _ _)), hpass.imp_right .inl⟩)

/-- R267: the results of a command with these codes written. -/
theorem State.Encoded.results {D : List (List Byte)} {w : List Byte} (h : (encoder s).Encoded codes D w t)
    (hfits : 4 * codes.length ≤ s.regs.outCap.toNat) :
    t.huff = Huff.cleared ∧ t.regs.huffUnique = 0#9 ∧ t.regs.huffBits = 0 ∧ t.regs.lzwCodes.toNat = codes.length
      ∧ t.regs.lzwNext.toNat = D.length := by
  obtain ⟨m, d, c, l, rfl, -, hholds, -⟩ := h
  exact ⟨rfl, rfl, rfl, toNat_count (s := s) (by omega), hholds.length.symm⟩

/-- What LZW_COMPRESS ended by an error leaves, with these codes written (R307). -/
theorem State.Encoded.raised {D : List (List Byte)} {w : List Byte} {e : ErrKind} {info : Nat}
    (hreg : s.regs.RegionsOk) (h : (encoder s).Encoded codes D w t) (hfits : 4 * codes.length ≤ s.regs.outCap.toNat) :
    (raiseError ⟨e, BitVec.ofNat 32 info⟩ t).Failed e info
      ∧ (raiseError ⟨e, BitVec.ofNat 32 info⟩ t).output = lzwFile codes := by
  obtain ⟨m, d, c, l, rfl, hm, -⟩ := h
  exact raised_coding (s := encoder s) rfl
    (room_of_le_outCap (s := encoder s) hreg rfl (by rw [length_lzwFile]; exact hfits)) hm

/-- R303: LZW_COMPRESS when the platform fails the read of input byte k. -/
theorem compressAll_readFails {k : Nat} (hreg : s.regs.RegionsOk) (hfail : s.ReadFails k) (hk : k < s.regs.inLen.toNat)
    (hcap : 256 ≤ s.cfg.lzwCap.toNat) (hcodes : codes = (lzwCodesOf s.cfg.lzwCap.toNat (s.input.take k)).dropLast)
    (hstrict : s.regs.lzwStrict = false ∨ codes.length ≤ s.cfg.lzwCap.toNat - 256)
    (hfits : 4 * codes.length ≤ s.regs.outCap.toNat) :
    ∃ t D w, compressAll (encoder s) = .error ⟨.ioRead, BitVec.ofNat 32 k⟩ t ∧ (encoder s).Encoded codes D w t
      ∧ D.length = 256 + min codes.length (s.cfg.lzwCap.toNat - 256) := by
  have hfail' : (encoder s).ReadFails k := hfail.congr rfl rfl
  have hlen : (s.input.take k).length = k := List.length_take_of_le (by rw [length_input]; exact hk.le)
  have hcount := congrArg List.length hcodes
  rw [List.length_dropLast] at hcount
  have hdrop : codes = (lzwCodesOf s.cfg.lzwCap.toNat (s.input.take k)).dropLast := hcodes
  obtain ⟨v, hloop, es, D, w, hv⟩ | ⟨r, v, -, hstop⟩ := compressBytes_cases
    (s := (encoder s).calm s.regs.outCap) (n := k) (bs := s.input.take k) hreg (noBusError_calm _ _) rfl hcap rfl hlen.symm
  · have hes := hv.codes_dropLast hlen.le
    rw [show lzwCodesOf ((encoder s).calm s.regs.outCap).cfg.lzwCap.toNat (s.input.take k)
      = lzwCodesOf s.cfg.lzwCap.toNat (s.input.take k) from rfl, ← hdrop] at hes
    subst hes
    obtain ⟨m, d, c, l, rfl, hm, hholds, hw⟩ := hv.encoded
    have hstart : ((encoder s).coding s.mem s.draws (encoder s).cur 0 0 seededLzw).ReadFails k := hfail'.congr rfl rfl
    have hrun := (State.ReadFails.run (sim_forRange fun i hi =>
      sim_compressByte (readFails_engineRel hstart) (sim_inByte_readFails hstart hi)) hloop).1
    refine ⟨_, D, w, (compressAll_encoder s).trans (bind_error (forRange_error hk hrun
      (bind_error (hfail'.inByte rfl rfl)))), ⟨m, d, c, l, rfl, hm, hholds.of_cap rfl rfl, hw⟩, hv.size⟩
  · obtain ⟨-, hs, hlt, -⟩ | ⟨hroom, -, -⟩ := hstop
    · have hle := hstrict.resolve_left (fun e => by
        rw [show s.regs.lzwStrict = true from hs] at e
        cases e)
      rw [hcount] at hle
      exact absurd hlt hle.not_gt
    · rw [hcount] at hfits
      exact absurd hroom hfits.not_gt

end

end Sys2Proof.Machine

/-! PROOFS. The family of 43_lzw.md, LZW_COMPRESS (R257, R267, R256, R302, R303) as one statement. -/

namespace Sys2Proof.Machine

section
variable {s : State} {codes : List Nat}

/-- R257, R267: the command that succeeds. -/
theorem State.Encoded.completed {t : State} {D : List (List Byte)} {w : List Byte} (hreg : s.regs.RegionsOk)
    (h : (encoder s).Encoded codes D w t) (hfits : 4 * codes.length ≤ s.regs.outCap.toNat) :
    (Machine.completed t).Succeeded ∧ (Machine.completed t).output = lzwFile codes
      ∧ (Machine.completed t).regs.outLen.toNat = 4 * codes.length := by
  obtain ⟨m, d, c, l, rfl, hm, -⟩ := h
  have hroom : (encoder s).Room (lzwFile codes).length :=
    room_of_le_outCap (s := encoder s) hreg rfl (by rw [length_lzwFile]; exact hfits)
  obtain ⟨hsucc, hout⟩ := completed_coding (s := encoder s) (d := d) (c := c) (l := l) (k := codes.length) rfl rfl rfl rfl
    hroom hm
  refine ⟨hsucc, hout, ?_⟩
  have hlen := (output_of_appends (t := Machine.completed ((encoder s).coding m d c (lzwFile codes).length codes.length l))
    (s := encoder s) rfl hroom hm rfl rfl rfl).2
  rw [hlen, length_lzwFile]

end

/-- Settles O58: the loop follows the string algorithm up to the strict check, a code without room, or a byte that
cannot be read. -/
theorem lzwCompress_outcome : Obligations.LzwCompress := by
  unfold Obligations.LzwCompress
  refine ⟨?_, ?_⟩
  · rintro s codes n hreg hbus hcap - hcodes rfl
    obtain ⟨t, D, w, hrun, ht, hsize, hfits, hpass⟩ | ⟨r, t, hrun, hr, hs, hlt, hle, D, w, ht, hfull⟩
      | ⟨r, t, hrun, ht, hroom, hpass⟩ := compressAll_cases hreg hbus hcap hcodes
    · obtain ⟨hhuff, huniq, hbits, hcount, hnext⟩ := ht.results hfits
      obtain ⟨hsucc, hout, hlen⟩ := ht.completed hreg hfits
      refine ⟨_, exec_lzwCompress_completed hreg hrun, hhuff, huniq, hbits, fun _ _ =>
        ⟨hsucc, hout, hcount, hlen, hnext.trans hsize⟩, fun hs hlt => ?_, fun _ hroom => absurd hfits hroom.not_ge⟩
      rw [hs] at hpass
      exact absurd (hpass.resolve_left (by decide)) hlt.not_ge
    · obtain rfl := hr
      have htake : (codes.take (s.cfg.lzwCap.toNat - 256)).length = s.cfg.lzwCap.toNat - 256 :=
        List.length_take_of_le (Nat.le_of_lt (hlt.trans_le (Nat.sub_le _ _)))
      have hfits : 4 * (codes.take (s.cfg.lzwCap.toNat - 256)).length ≤ s.regs.outCap.toNat := by rw [htake]; exact hle
      have hs' : ¬ s.regs.lzwStrict = false := by rw [show s.regs.lzwStrict = true from hs]; decide
      have hlt' : ¬ codes.length - 1 ≤ s.cfg.lzwCap.toNat - 256 := Nat.not_le.mpr hlt
      obtain ⟨hhuff, huniq, hbits, hcount, hnext⟩ := ht.results hfits
      obtain ⟨hfailed, hout⟩ := ht.raised (e := .unsupportedConfiguration) (info := 3) hreg hfits
      refine ⟨_, exec_lzwCompress_raised hreg hrun, hhuff, huniq, hbits, fun hno => absurd hno (not_or.mpr ⟨hs', hlt'⟩),
        fun _ _ _ => ⟨hfailed, hout, hcount.trans htake, BitVec.eq_of_toNat_eq (hnext.trans hfull)⟩, fun hno => ?_⟩
      exact absurd hno (not_or.mpr ⟨hs', not_or.mpr ⟨hlt', Nat.not_lt.mpr hle⟩⟩)
    · obtain ⟨hfailed, hout, hcount, hnext, hhuff, huniq, hbits⟩ := ht.raised (s := encoder s) hreg rfl hroom
      refine ⟨_, exec_lzwCompress_raised hreg hrun, hhuff, huniq, hbits, fun _ hfits => absurd hfits hroom.not_ge,
        fun hs hlt hle => ?_, fun _ _ => ⟨hfailed, hout, hcount, hnext⟩⟩
      rw [hs] at hpass
      have hpass' := hpass.resolve_left (by decide)
      omega
  · intro s k codes hreg hfail hk hcap _ hcodes hstrict hfits
    obtain ⟨t, D, w, hrun, ht, hsize⟩ := compressAll_readFails hreg hfail hk hcap hcodes hstrict hfits
    obtain ⟨-, -, -, hcount, hnext⟩ := ht.results hfits
    obtain ⟨hfailed, hout⟩ := ht.raised (e := .ioRead) (info := k) hreg hfits
    exact ⟨_, exec_lzwCompress_raised hreg hrun, hfailed, hout, hcount, hnext.trans hsize⟩

end Sys2Proof.Machine

/-! PROOFS. The family of 43_lzw.md, LZW_DECOMPRESS up to whatever ends it (R258 to R263, R256, R302, R303). -/

namespace Sys2Proof.Machine

/-! The string algorithm, code by code (R259, R260) -/

section
variable {cap : Nat} {D : List (List Byte)} {p r : List Byte}

/-- Codes that decode do so from their beginning on. -/
theorem stringDecode_prefix {xs ys : List Nat} (h : stringDecode cap D p (xs ++ ys) = some r) :
    ∃ r', stringDecode cap D p xs = some r' ∧ r' <+: r := by
  induction xs generalizing D p r with
  | nil => exact ⟨[], rfl, List.nil_prefix⟩
  | cons k xs ih =>
    rw [List.cons_append] at h
    obtain ⟨e, r1, he, hr1, rfl⟩ := stringDecode_cons_eq_some h
    obtain ⟨r2, hr2, hpre⟩ := ih hr1
    exact ⟨e ++ r2, by rw [stringDecode_cons he, hr2]; rfl, (List.prefix_append_right_inj e).mpr hpre⟩

theorem lzwBytesOf_prefix {xs ys : List Nat} (h : lzwBytesOf cap (xs ++ ys) = some r) :
    ∃ r', lzwBytesOf cap xs = some r' ∧ r' <+: r := by
  cases xs with
  | nil => exact ⟨[], rfl, List.nil_prefix⟩
  | cons k xs =>
    rw [List.cons_append, lzwBytesOf] at h
    by_cases hk : k < 256
    · rw [if_pos hk] at h
      obtain ⟨r1, hr1, rfl⟩ := Option.map_eq_some_iff.mp h
      obtain ⟨r2, hr2, hpre⟩ := stringDecode_prefix hr1
      exact ⟨_ :: r2, by rw [lzwBytesOf, if_pos hk, hr2]; rfl, (List.prefix_cons_inj _).mpr hpre⟩
    · rw [if_neg hk] at h
      cases h

/-- The string of code j: a seed when it is the first, then as R260 says. -/
def codeEntry (cap j : Nat) (D : List (List Byte)) (p : List Byte) (k : Nat) : Option (List Byte) :=
  if j = 0 then (if k < 256 then some [BitVec.ofNat 8 k] else none) else stringEntry cap D p k

theorem stringEntry_none {k : Nat} (h : stringEntry cap D p k = none) :
    D.length < k ∨ (k = D.length ∧ cap ≤ D.length) := by
  rw [stringEntry] at h
  split_ifs at h with hlt heq
  omega

theorem stringDecode_singleton (k : Nat) :
    stringDecode cap D p [k] = stringEntry cap D p k := by
  cases h : stringEntry cap D p k with
  | none =>
    rw [stringEntry] at h
    rw [stringDecode, h]
  | some e => rw [stringDecode_cons h, stringDecode, Option.map_some, List.append_nil]

end

/-- DecodeFirst for code 0, DecodeNext for a later one (R263). -/
def decodeCode (j : Nat) : Eng Unit := if j = 0 then decodeFirst else decodeNext j

/-- The codes of s before code j have been decoded, in state t, to the bytes bs; D is the dictionary, p the previous
string, and they decode what is to come (R263). -/
structure State.DecodedTo (s : State) (j : Nat) (bs : List Byte) (D : List (List Byte)) (p : List Byte) (t : State) :
    Prop where
  decoded : s.Decoded bs j D p t
  size    : D.length = 256 + min (j - 1) (s.cfg.lzwCap.toNat - 256)
  first   : j = 0 → bs = [] ∧ D = seedStrings ∧ t = s.coding s.mem s.draws s.cur 0 0 seededLzw
  later   : 0 < j → ∀ rest, lzwBytesOf s.cfg.lzwCap.toNat (s.inCodes.take j ++ rest)
    = (stringDecode s.cfg.lzwCap.toNat D p rest).map (bs ++ ·)

section
variable {s t : State} {bs e p : List Byte} {D : List (List Byte)} {j : Nat}

theorem length_inCodes (s : State) : s.inCodes.length = s.regs.inLen.toNat / 4 := by
  rw [State.inCodes, List.length_map, List.length_range]

theorem getElem_inCodes (s : State) (hj : j < s.inCodes.length) : s.inCodes[j] = (s.inWord (4 * j)).toNat := by
  simp only [State.inCodes, List.getElem_map, List.getElem_range]

theorem code_in_input (hj : j < s.inCodes.length) : 4 * j + 4 ≤ s.regs.inLen.toNat := by
  rw [length_inCodes] at hj
  omega

/-- R263: what the codes up to code j decode to. -/
theorem State.DecodedTo.bytes_succ (h : s.DecodedTo j bs D p t) (hj : j < s.inCodes.length) :
    lzwBytesOf s.cfg.lzwCap.toNat (s.inCodes.take (j + 1))
      = (codeEntry s.cfg.lzwCap.toNat j D p s.inCodes[j]).map (bs ++ ·) := by
  rw [List.take_succ_eq_append_getElem hj, codeEntry]
  obtain rfl | hpos := Nat.eq_zero_or_pos j
  · obtain ⟨rfl, -⟩ := h.first rfl
    rw [if_pos rfl, List.take_zero, List.nil_append, lzwBytesOf]
    split_ifs <;> rfl
  · rw [h.later hpos, stringDecode_singleton, if_neg (Nat.pos_iff_ne_zero.mp hpos)]

theorem decodedTo_zero (hcap : 256 ≤ s.cfg.lzwCap.toNat) :
    s.DecodedTo 0 [] seedStrings [BitVec.ofNat 8 0] (s.coding s.mem s.draws s.cur 0 0 seededLzw) where
  decoded := ⟨s.mem, s.draws, s.cur, seededLzw, rfl, appends_nil s, holds_seeded hcap, by decide,
    (holds_seeded (s := s) hcap).ok.stringOf_seed (k := 0#32) (by decide)⟩
  size := by rw [length_seedStrings, Nat.zero_sub, Nat.zero_min]
  first := fun _ => ⟨rfl, rfl, rfl⟩
  later := fun h => absurd h (Nat.lt_irrefl 0)

/-- A word below 256 is a byte. -/
theorem word_eq_byte {w : Word} (h : w.toNat < 256) : w = (BitVec.ofNat 8 w.toNat).setWidth 32 := by
  refine BitVec.eq_of_toNat_eq ?_
  rw [byte_toNat_setWidth, BitVec.toNat_ofNat, Nat.mod_eq_of_lt h]

section
variable (hreg : s.regs.RegionsOk) (hbus : s.NoBusError) (hcap : 256 ≤ s.cfg.lzwCap.toNat)
  (hlen : s.regs.outLen = 0#32)
include hreg hbus hcap hlen

/-- R259, R261: code j is decoded. -/
theorem decodeCode_ok (h : s.DecodedTo j bs D p t) (hj : j < s.inCodes.length)
    (he : codeEntry s.cfg.lzwCap.toNat j D p s.inCodes[j] = some e) (hfits : (bs ++ e).length ≤ s.regs.outCap.toNat)
    (hstrict : s.regs.lzwStrict = false ∨ j ≤ s.cfg.lzwCap.toNat - 256) :
    ∃ u D', decodeCode j t = .ok () u ∧ s.DecodedTo (j + 1) (bs ++ e) D' e u := by
  have hroom := room_of_le_outCap hreg hlen hfits
  have hin := code_in_input hj
  rw [getElem_inCodes] at he
  obtain rfl | hpos := Nat.eq_zero_or_pos j
  · obtain ⟨rfl, rfl, rfl⟩ := h.first rfl
    rw [codeEntry, if_pos rfl] at he
    split_ifs at he with hk
    obtain rfl := Option.some.inj he
    obtain ⟨u, hrun, hu⟩ := decodeFirst_decoded hreg hbus hcap (by omega) (word_eq_byte hk) hroom
    refine ⟨u, seedStrings, by rw [decodeCode, if_pos rfl]; exact hrun, hu, ?_, nofun, fun _ rest => ?_⟩
    · rw [length_seedStrings, Nat.zero_add, Nat.sub_self, Nat.zero_min]
    · rw [List.take_succ_eq_append_getElem hj, List.take_zero, List.nil_append, getElem_inCodes, List.singleton_append,
        lzwBytesOf, if_pos hk]
      rfl
  · rw [codeEntry, if_neg (Nat.pos_iff_ne_zero.mp hpos)] at he
    have hsize := h.size
    have hlt : s.regs.lzwStrict = false ∨ D.length < s.cfg.lzwCap.toNat := hstrict.imp_right fun hle => by omega
    obtain ⟨u, hrun, hu⟩ := decodeNext_decoded (j := j) hreg hbus h.decoded hin he hroom hlt
    refine ⟨u, _, by rw [decodeCode, if_neg (Nat.pos_iff_ne_zero.mp hpos)]; exact hrun, hu, ?_, nofun, fun _ rest => ?_⟩
    · rw [length_grown]
      split_ifs <;> omega
    · rw [List.take_succ_eq_append_getElem hj, List.append_assoc, h.later hpos, getElem_inCodes, List.singleton_append,
        stringDecode_cons he, Option.map_map]
      refine congrArg (Option.map · _) (funext fun x => ?_)
      exact (List.append_assoc bs e x).symm

omit hcap in
/-- R259, R260: code j is undefined. -/
theorem decodeCode_corrupt (h : s.DecodedTo j bs D p t) (hj : j < s.inCodes.length)
    (he : codeEntry s.cfg.lzwCap.toNat j D p s.inCodes[j] = none) (hfits : bs.length ≤ s.regs.outCap.toNat) :
    ∃ u, decodeCode j t = .error ⟨.corruptData, BitVec.ofNat 32 (4 * j)⟩ u ∧ s.Decoded bs j D p u := by
  have hroom := room_of_le_outCap hreg hlen hfits
  have hin := code_in_input hj
  obtain ⟨m, d, c, l, rfl, hm, hholds, hprev⟩ := id h.decoded
  have hword := inWord_coding (d := d) (n := bs.length) (c := c) (k := j) (l := l) hreg hroom hm hin
  rw [getElem_inCodes] at he
  obtain rfl | hpos := Nat.eq_zero_or_pos j
  · rw [codeEntry, if_pos rfl] at he
    split_ifs at he with hk
    obtain ⟨c', d', hrun, -⟩ := decodeFirst_corrupt (s := s.coding m d c bs.length 0 l) (hbus.of_cfg rfl)
      (inAddr_add_le hreg hin) (by rw [hword]; exact Nat.le_of_not_lt hk)
    exact ⟨_, by rw [decodeCode, if_pos rfl]; exact hrun, m, d', c', l, rfl, hm, hholds.congr rfl rfl rfl, hprev⟩
  · rw [codeEntry, if_neg (Nat.pos_iff_ne_zero.mp hpos)] at he
    have hk := stringEntry_none he
    rw [hholds.length] at hk
    obtain ⟨c', d', hrun, -⟩ := decodeNext_corrupt (s := s.coding m d c bs.length j l) (j := j) (hbus.of_cfg rfl)
      (inAddr_add_le hreg hin) (by rw [hword]; exact hk.imp_right fun hk => ⟨BitVec.eq_of_toNat_eq hk.1, hk.2⟩)
    exact ⟨_, by rw [decodeCode, if_neg (Nat.pos_iff_ne_zero.mp hpos)]; exact hrun, m, d', c', l, rfl, hm,
      hholds.congr rfl rfl rfl, hprev⟩

omit hcap in
/-- R256: code j is one where strict mode would skip an insertion. -/
theorem decodeCode_strict (h : s.DecodedTo j bs D p t) (hj : j < s.inCodes.length)
    (he : codeEntry s.cfg.lzwCap.toNat j D p s.inCodes[j] = some e) (hfits : bs.length ≤ s.regs.outCap.toNat)
    (hs : s.regs.lzwStrict = true) (hlt : s.cfg.lzwCap.toNat - 256 < j) (hcap : 256 ≤ s.cfg.lzwCap.toNat) :
    ∃ u, decodeCode j t = .error ⟨.unsupportedConfiguration, BitVec.ofNat 32 3⟩ u ∧ s.Decoded bs j D p u
      ∧ D.length = s.cfg.lzwCap.toNat := by
  have hroom := room_of_le_outCap hreg hlen hfits
  have hin := code_in_input hj
  have hsize := h.size
  have hfull : D.length = s.cfg.lzwCap.toNat := by omega
  obtain ⟨m, d, c, l, rfl, hm, hholds, hprev⟩ := id h.decoded
  have hword := inWord_coding (d := d) (n := bs.length) (c := c) (k := j) (l := l) hreg hroom hm hin
  have hpos : ¬ j = 0 := by omega
  rw [getElem_inCodes, codeEntry, if_neg hpos] at he
  obtain ⟨hk, -⟩ | ⟨-, hk, -⟩ := stringEntry_cases he
  · obtain ⟨c', d', hrun, -⟩ := decodeNext_strict (s := s.coding m d c bs.length j l) (j := j) (hbus.of_cfg rfl)
      (inAddr_add_le hreg hin) (by rw [hword, ← hholds.length]; exact hk)
      ⟨BitVec.eq_of_toNat_eq (hholds.length.symm.trans hfull), hs⟩
    exact ⟨_, by rw [decodeCode, if_neg hpos]; exact hrun, ⟨m, d', c', l, rfl, hm, hholds.congr rfl rfl rfl, hprev⟩,
      hfull⟩
  · exact absurd hk (hfull ▸ Nat.lt_irrefl _)

/-- R302: the string of code j does not fit. -/
theorem decodeCode_full (h : s.DecodedTo j bs D p t) (hj : j < s.inCodes.length)
    (he : codeEntry s.cfg.lzwCap.toNat j D p s.inCodes[j] = some e) (hfits : bs.length ≤ s.regs.outCap.toNat)
    (hstrict : s.regs.lzwStrict = false ∨ j ≤ s.cfg.lzwCap.toNat - 256)
    (hfull : s.regs.outCap.toNat < (bs ++ e).length) :
    ∃ u, decodeCode j t = .error ⟨.ioWrite, BitVec.ofNat 32 s.regs.outCap.toNat⟩ u
      ∧ ∃ m d c l, u = s.coding m d c ((bs ++ e).take s.regs.outCap.toNat).length j l
        ∧ s.Appends m ((bs ++ e).take s.regs.outCap.toNat) ∧ l.next.toNat = D.length := by
  have hroom := room_of_le_outCap hreg hlen hfits
  have hin := code_in_input hj
  have hsize := h.size
  obtain ⟨m, d, c, l, rfl, hm, hholds, hprev, rfl⟩ := id h.decoded
  have hword := inWord_coding (d := d) (n := bs.length) (c := c) (k := j) (l := l) hreg hroom hm hin
  have hused : (s.regs.outLen + BitVec.ofNat 32 bs.length).toNat = bs.length :=
    (output_of_appends (t := s.coding m d c bs.length j l) hlen hroom hm rfl rfl rfl).2
  have hstart : ∃ c' d' k, decodeCode j (s.coding m d c bs.length j l)
      = (outBytes e >>= k : Eng Unit) (s.coding m d' c' bs.length j l) := by
    rw [getElem_inCodes] at he
    obtain rfl | hpos := Nat.eq_zero_or_pos j
    · rw [codeEntry, if_pos rfl] at he
      split_ifs at he with hk
      obtain rfl := Option.some.inj he
      obtain ⟨c', d', hrun, -⟩ := decodeFirst_seed (s := s.coding m d c bs.length 0 l) (hbus.of_cfg rfl)
        (inAddr_add_le hreg hin) (by rw [hword]; exact hk)
      rw [hword, hholds.ok.stringOf_seed hk] at hrun
      exact ⟨c', d', _, by rw [decodeCode, if_pos rfl]; exact hrun⟩
    · rw [codeEntry, if_neg (Nat.pos_iff_ne_zero.mp hpos), ← hword] at he
      obtain ⟨f, hentry, -⟩ := hholds.entryIs hprev he
      obtain ⟨c', d', hrun, -⟩ := decodeNext_entry (s := s.coding m d c bs.length j l) (hbus.of_cfg rfl)
        (inAddr_add_le hreg hin) hentry (hholds.not_strictFull (hstrict.imp_right fun hle => by
          show D.length < s.cfg.lzwCap.toNat
          omega))
      exact ⟨c', d', _, by rw [decodeCode, if_neg (Nat.pos_iff_ne_zero.mp hpos)]; exact hrun⟩
  obtain ⟨c', d', k, hrun⟩ := hstart
  rw [List.length_append] at hfull
  obtain ⟨m', d'', herr, hm'⟩ := outBytes_bind_full (s := s.coding m d' c' bs.length j l) (bs := e)
    (n := s.regs.outCap.toNat - bs.length) (hbus.of_cfg rfl) hreg.2.1
    ((congrArg (· + _) hused).trans (Nat.add_sub_of_le hfits)) (by omega) k
  have htake : (bs ++ e).take s.regs.outCap.toNat = bs ++ e.take (s.regs.outCap.toNat - bs.length) := by
    rw [List.take_append, List.take_of_length_le hfits]
  have hlenTake : ((bs ++ e).take s.regs.outCap.toNat).length = bs.length + (s.regs.outCap.toNat - bs.length) := by
    rw [List.length_take_of_le (by rw [List.length_append]; omega)]
    omega
  refine ⟨_, hrun.trans herr, m', d'', c', l, ?_, ?_, hholds.length.symm⟩
  · rw [hlenTake]
    exact afterOut_coding s m m' d' d'' bs.length _ j c' c' l
  · rw [htake]
    refine appends_append hm (d := d') ?_ hm'
    rw [hlen, BitVec.toNat_zero, Nat.zero_add]
    exact hfits.trans_lt s.regs.outCap.isLt

/-- R263: codes that decode, fit, and skip no insertion that strict mode forbids are decoded one after the other. -/
theorem decodeCodes_ok (hj : j ≤ s.inCodes.length)
    (hbytes : lzwBytesOf s.cfg.lzwCap.toNat (s.inCodes.take j) = some bs) (hfits : bs.length ≤ s.regs.outCap.toNat)
    (hstrict : s.regs.lzwStrict = false ∨ j - 1 ≤ s.cfg.lzwCap.toNat - 256) :
    ∃ t D p, forRange j decodeCode (s.coding s.mem s.draws s.cur 0 0 seededLzw) = .ok () t
      ∧ s.DecodedTo j bs D p t := by
  induction j generalizing bs with
  | zero =>
    obtain rfl : [] = bs := Option.some.inj hbytes
    exact ⟨_, _, _, rfl, decodedTo_zero hcap⟩
  | succ j ih =>
    rw [List.take_succ_eq_append_getElem hj] at hbytes
    obtain ⟨bs', hbytes', hpre⟩ := lzwBytesOf_prefix hbytes
    obtain ⟨t, D, p, hrun, ht⟩ := ih (Nat.le_of_succ_le hj) hbytes' (hpre.length_le.trans hfits)
      (hstrict.imp_right fun hle => by omega)
    rw [← List.take_succ_eq_append_getElem hj, ht.bytes_succ hj] at hbytes
    obtain ⟨e, he, rfl⟩ := Option.map_eq_some_iff.mp hbytes
    obtain ⟨u, D', hstep, hu⟩ := decodeCode_ok hreg hbus hcap hlen ht hj he hfits (hstrict.imp_right fun hle => by omega)
    refine ⟨u, D', e, ?_, hu⟩
    rw [forRange, forFrom_add]
    refine (bind_ok hrun).trans ?_
    rw [Nat.zero_add, forFrom_succ, hstep]
    rfl

end

end

end Sys2Proof.Machine

/-! PROOFS. The family of 43_lzw.md, LZW_DECOMPRESS (R263, R267, R256, R302, R303, R305) as one statement. -/

namespace Sys2Proof.Machine

/-- LZW_DECOMPRESS of s when its operation begins (R141, R263). -/
def decoder (s : State) : State := { launched 4#3 s with phase := .lDecode }

theorem forFrom_congr {body body' : Nat → Eng Unit} {i n : Nat} (h : ∀ j, i ≤ j → body j = body' j) :
    forFrom body i n = forFrom body' i n := by
  induction n generalizing i with
  | zero => rfl
  | succ n ih => rw [forFrom, forFrom, h i (Nat.le_refl i), ih fun j hj => h j (Nat.le_of_succ_le hj)]

section
variable {s t u : State} {bs e p : List Byte} {D : List (List Byte)} {j : Nat} {r : Raise}

theorem exec_lzwDecompress_raised (hreg : s.regs.RegionsOk) (hrun : decompressAll (decoder s) = .error r t) :
    exec .lzwDecompress s = .next (raiseError r t) :=
  (exec_decodeOp 4#3 s).trans
    (congrArg _ (runCommand_raised (op := 4#3) (by decide) hreg ((lzwDecompress_eq _).trans hrun)))

theorem exec_lzwDecompress_completed (hreg : s.regs.RegionsOk) (hrun : decompressAll (decoder s) = .ok () t) :
    exec .lzwDecompress s = .next (completed t) :=
  (exec_decodeOp 4#3 s).trans
    (congrArg _ (runCommand_completed (op := 4#3) (by decide) hreg ((lzwDecompress_eq _).trans hrun)))

/-- R258: a partial code. -/
theorem decompressAll_partial (hmod : s.regs.inLen.toNat % 4 ≠ 0) : decompressAll (decoder s)
    = .error ⟨.corruptData, BitVec.ofNat 32 (s.regs.inLen.toNat - s.regs.inLen.toNat % 4)⟩
        ((decoder s).coding s.mem s.draws (decoder s).cur 0 0 seededLzw) :=
  (bind_ok (seed_coding (s := decoder s) rfl rfl)).trans
    (bind_error ((lengthCheck_run _).trans (if_pos hmod)))

/-- R263: whole codes are decoded one after the other. -/
theorem decompressAll_codes (hmod : s.regs.inLen.toNat % 4 = 0) : decompressAll (decoder s)
    = forRange s.inCodes.length decodeCode ((decoder s).coding s.mem s.draws (decoder s).cur 0 0 seededLzw) := by
  have hstart : decompressAll (decoder s) = (if s.regs.inLen = 0#32 then pure ()
      else decodeFirst >>= fun _ => forFrom decodeNext 1 (s.regs.inLen.toNat / 4 - 1) : Eng Unit)
        ((decoder s).coding s.mem s.draws (decoder s).cur 0 0 seededLzw) :=
    (bind_ok (seed_coding (s := decoder s) rfl rfl)).trans <|
      (bind_ok (lengthCheck_coding (s := decoder s) hmod _ _ _ _ _ _)).trans ((bind_ok (eng_get _)).trans rfl)
  rw [hstart, length_inCodes]
  by_cases hzero : s.regs.inLen = 0#32
  · rw [if_pos hzero, hzero]
    rfl
  · have hpos : s.regs.inLen.toNat ≠ 0 := fun e => hzero (BitVec.eq_of_toNat_eq e)
    have hcount : s.regs.inLen.toNat / 4 = s.regs.inLen.toNat / 4 - 1 + 1 := by omega
    rw [if_neg hzero, hcount, forRange, forFrom, Nat.add_sub_cancel, decodeCode, if_pos rfl,
      forFrom_congr (body := decodeCode) (body' := decodeNext) fun i hi => if_neg (Nat.pos_iff_ne_zero.mp hi)]

/-- R307: an error at code j of whole codes. -/
theorem exec_lzwDecompress_code_error (hreg : s.regs.RegionsOk) (hmod : s.regs.inLen.toNat % 4 = 0)
    (hj : j < s.inCodes.length)
    (hpre : forRange j decodeCode ((decoder s).coding s.mem s.draws (decoder s).cur 0 0 seededLzw) = .ok () t)
    (herr : decodeCode j t = .error r u) : exec .lzwDecompress s = .next (raiseError r u) :=
  exec_lzwDecompress_raised hreg ((decompressAll_codes hmod).trans (forRange_error hj hpre herr))

/-! The tables of the other codec (R267) -/

/-- t is a state of the command s on its way, or just ended by an error. -/
def State.OnItsWay (s t : State) : Prop := ∃ m d c n k l, t = s.coding m d c n k l

theorem State.Decoded.onItsWay (h : s.Decoded bs j D p t) : s.OnItsWay t := by
  obtain ⟨m, d, c, l, rfl, -⟩ := h
  exact ⟨m, d, c, _, _, l, rfl⟩

/-- Whatever the codes are, the loop keeps to the states of the command. -/
theorem decodeCodes_onItsWay (hreg : s.regs.RegionsOk) (hbus : s.NoBusError) (hcap : 256 ≤ s.cfg.lzwCap.toNat)
    (hlen : s.regs.outLen = 0#32) :
    (∃ t, forRange s.inCodes.length decodeCode (s.coding s.mem s.draws s.cur 0 0 seededLzw) = .ok () t ∧ s.OnItsWay t)
    ∨ ∃ r t, forRange s.inCodes.length decodeCode (s.coding s.mem s.draws s.cur 0 0 seededLzw) = .error r t
      ∧ s.OnItsWay t := by
  obtain ⟨t, hrun, bs, D, p, ht, -⟩ | hstop := forRange_cases (body := decodeCode)
    (fun j t => ∃ bs D p, s.DecodedTo j bs D p t ∧ bs.length ≤ s.regs.outCap.toNat) (fun _ t => s.OnItsWay t)
    (n := s.inCodes.length) ⟨_, _, _, decodedTo_zero hcap, Nat.zero_le _⟩ fun j t hj ⟨bs, D, p, ht, hfits⟩ => by
      cases he : codeEntry s.cfg.lzwCap.toNat j D p s.inCodes[j] with
      | none =>
        obtain ⟨u, hrun, hu⟩ := decodeCode_corrupt hreg hbus hlen ht hj he hfits
        exact .inr ⟨_, u, hrun, hu.onItsWay⟩
      | some e =>
        by_cases hstrict : s.regs.lzwStrict = false ∨ j ≤ s.cfg.lzwCap.toNat - 256
        · by_cases hroom : (bs ++ e).length ≤ s.regs.outCap.toNat
          · obtain ⟨u, D', hrun, hu⟩ := decodeCode_ok hreg hbus hcap hlen ht hj he hroom hstrict
            exact .inl ⟨u, hrun, _, _, _, hu, hroom⟩
          · obtain ⟨u, hrun, m, d, c, l, hu, -⟩ := decodeCode_full hreg hbus hcap hlen ht hj he hfits hstrict
              (Nat.lt_of_not_le hroom)
            exact .inr ⟨_, u, hrun, m, d, c, _, _, l, hu⟩
        · obtain ⟨hs, hlt⟩ := not_or.mp hstrict
          obtain ⟨u, hrun, hu, -⟩ := decodeCode_strict hreg hbus hlen ht hj he hfits (Bool.not_eq_false _ ▸ hs)
            (Nat.lt_of_not_le hlt) hcap
          exact .inr ⟨_, u, hrun, hu.onItsWay⟩
  · exact .inl ⟨t, hrun, ht.decoded.onItsWay⟩
  · exact .inr hstop

/-- R267: the Huffman results are 0 and HUFF is cleared. -/
theorem exec_lzwDecompress_tables (hreg : s.regs.RegionsOk) (hbus : s.NoBusError) (hcap : 256 ≤ s.cfg.lzwCap.toNat) :
    ∃ t, exec .lzwDecompress s = .next t ∧ t.huff = Huff.cleared ∧ t.regs.huffUnique = 0#9 ∧ t.regs.huffBits = 0 := by
  by_cases hmod : s.regs.inLen.toNat % 4 = 0
  · obtain ⟨t, hrun, m, d, c, n, k, l, rfl⟩ | ⟨r, t, hrun, m, d, c, n, k, l, rfl⟩ :=
      decodeCodes_onItsWay (s := decoder s) hreg (hbus.of_cfg rfl) hcap rfl
    · exact ⟨_, exec_lzwDecompress_completed hreg ((decompressAll_codes hmod).trans hrun), rfl, rfl, rfl⟩
    · exact ⟨_, exec_lzwDecompress_raised hreg ((decompressAll_codes hmod).trans hrun), rfl, rfl, rfl⟩
  · exact ⟨_, exec_lzwDecompress_raised hreg (decompressAll_partial hmod), rfl, rfl, rfl⟩

/-! What the command leaves (R144, R267, R307) -/

theorem toNat_codeCount (hj : j ≤ s.inCodes.length) : (BitVec.ofNat 32 j).toNat = j := by
  have := s.regs.inLen.isLt
  rw [length_inCodes] at hj
  exact Nat.mod_eq_of_lt (by omega)

theorem State.Decoded.raised {k : ErrKind} {info : Nat} (hreg : s.regs.RegionsOk) (h : (decoder s).Decoded bs j D p t)
    (hfits : bs.length ≤ s.regs.outCap.toNat) (hj : j ≤ s.inCodes.length) :
    (raiseError ⟨k, BitVec.ofNat 32 info⟩ t).Failed k info ∧ (raiseError ⟨k, BitVec.ofNat 32 info⟩ t).output = bs
      ∧ (raiseError ⟨k, BitVec.ofNat 32 info⟩ t).regs.lzwCodes.toNat = j
      ∧ (raiseError ⟨k, BitVec.ofNat 32 info⟩ t).regs.lzwNext.toNat = D.length := by
  obtain ⟨m, d, c, l, rfl, hm, hholds, -⟩ := h
  obtain ⟨hfailed, hout⟩ := raised_coding (s := decoder s) (e := k) (info := info) (d := d) (c := c) (l := l) (k := j) rfl
    (room_of_le_outCap (s := decoder s) hreg rfl hfits) hm
  exact ⟨hfailed, hout, toNat_codeCount hj, hholds.length.symm⟩

theorem State.Decoded.completed (hreg : s.regs.RegionsOk) (h : (decoder s).Decoded bs j D p t)
    (hfits : bs.length ≤ s.regs.outCap.toNat) (hj : j ≤ s.inCodes.length) :
    (Machine.completed t).Succeeded ∧ (Machine.completed t).output = bs
      ∧ (Machine.completed t).regs.lzwCodes.toNat = j ∧ (Machine.completed t).regs.lzwNext.toNat = D.length := by
  obtain ⟨m, d, c, l, rfl, hm, hholds, -⟩ := h
  obtain ⟨hsucc, hout⟩ := completed_coding (s := decoder s) (d := d) (c := c) (l := l) (k := j) rfl rfl rfl rfl
    (room_of_le_outCap (s := decoder s) hreg rfl hfits) hm
  exact ⟨hsucc, hout, toNat_codeCount hj, hholds.length.symm⟩

theorem sim_decodeCode {R : State → State → Prop} (hR : EngineRel R) (h : ∀ i, i < 4 * j + 4 → Sim R (inByte i)) :
    Sim R (decodeCode j) :=
  sim_ite (fun _ => sim_decodeFirst hR fun i hi => h i (by omega)) fun _ => sim_decodeNext hR fun i _ hi => h i hi

/-- R303: LZW_DECOMPRESS when the platform fails the read of a byte of code k / 4. -/
theorem decompressAll_readFails {k : Nat} (hreg : s.regs.RegionsOk) (hfail : s.ReadFails k)
    (hk : k < s.regs.inLen.toNat) (hcap : 256 ≤ s.cfg.lzwCap.toNat) (hmod : s.regs.inLen.toNat % 4 = 0)
    (hbytes : lzwBytesOf s.cfg.lzwCap.toNat (s.inCodes.take (k / 4)) = some bs)
    (hfits : bs.length ≤ s.regs.outCap.toNat)
    (hstrict : s.regs.lzwStrict = false ∨ k / 4 - 1 ≤ s.cfg.lzwCap.toNat - 256) :
    ∃ t D p, decompressAll (decoder s) = .error ⟨.ioRead, BitVec.ofNat 32 k⟩ t
      ∧ (decoder s).Decoded bs (k / 4) D p t
      ∧ D.length = 256 + min (k / 4 - 1) (s.cfg.lzwCap.toNat - 256) := by
  have hj : k / 4 < s.inCodes.length := by
    rw [length_inCodes]
    omega
  have hfail' : (decoder s).ReadFails k := hfail.congr rfl rfl
  obtain ⟨t, D, p, hrun, ht⟩ := decodeCodes_ok (s := (decoder s).calm s.regs.outCap) hreg (noBusError_calm _ _) hcap rfl
    hj.le hbytes hfits hstrict
  have hstart : ((decoder s).coding s.mem s.draws (decoder s).cur 0 0 seededLzw).ReadFails k := hfail'.congr rfl rfl
  have hrun' := (State.ReadFails.run (sim_forRange fun i hi =>
    sim_decodeCode (readFails_engineRel hstart) fun b hb => sim_inByte_readFails hstart (by omega)) hrun).1
  obtain ⟨m, d, c, l, rfl, hm, hholds, hprev⟩ := ht.decoded
  obtain ⟨c', hread, -⟩ := get32_readFails (s := (decoder s).coding m d c bs.length (k / 4) l) (k := k) (p := 4 * (k / 4))
    (hfail'.congr rfl rfl) (by omega) (by omega)
  have herr : decodeCode (k / 4) ((decoder s).coding m d c bs.length (k / 4) l)
      = .error ⟨.ioRead, BitVec.ofNat 32 k⟩ ((decoder s).coding m d c' bs.length (k / 4) l) := by
    rw [decodeCode]
    split_ifs with h0
    · rw [h0] at hread ⊢
      exact bind_error hread
    · exact bind_error hread
  exact ⟨_, D, p, (decompressAll_codes hmod).trans (forRange_error hj hrun' herr),
    ⟨m, d, c', l, rfl, hm, hholds.of_cap rfl rfl, hprev⟩, ht.size⟩

end

/-- Settles O59: the loop follows the string algorithm up to the code that ends it. -/
theorem lzwDecompress_outcome : Obligations.LzwDecompress := by
  unfold Obligations.LzwDecompress
  refine ⟨?_, ?_⟩
  · intro s hreg hbus hcap _
    obtain ⟨t, hexec, htables⟩ := exec_lzwDecompress_tables hreg hbus hcap
    have hend {v : State} (h : exec .lzwDecompress s = .next v) : t = v := by
      rw [hexec] at h
      injection h
    refine ⟨t, hexec, htables.1, htables.2.1, htables.2.2, fun hmod => ?_, fun j bs hmod hj hbytes hfits hstrict => ?_⟩
    · rw [hend (exec_lzwDecompress_raised hreg (decompressAll_partial hmod))]
      exact ⟨raiseError_failed _ _ _, rfl, rfl, rfl⟩
    obtain ⟨u, D, p, hrun, hu⟩ := decodeCodes_ok (s := decoder s) hreg (hbus.of_cfg rfl) hcap rfl hj hbytes hfits hstrict
    refine ⟨fun hall => ?_, fun hlt hnone => ?_, fun more hlt hmore => ?_⟩
    · subst hall
      rw [hend (exec_lzwDecompress_completed hreg ((decompressAll_codes hmod).trans hrun))]
      obtain ⟨hsucc, hout, hcount, hnext⟩ := hu.decoded.completed hreg hfits hj
      exact ⟨hsucc, hout, hcount, hnext.trans hu.size⟩
    · obtain ⟨v, herr, hv⟩ := decodeCode_corrupt (s := decoder s) hreg (hbus.of_cfg rfl) rfl hu hlt
        (Option.map_eq_none_iff.mp ((hu.bytes_succ hlt).symm.trans hnone)) hfits
      rw [hend (exec_lzwDecompress_code_error hreg hmod hlt hrun herr)]
      obtain ⟨hfailed, hout, hcount, hnext⟩ := hv.raised (k := .corruptData) (info := 4 * j) hreg hfits hj
      exact ⟨hfailed, hout, hcount, hnext.trans hu.size⟩
    · obtain ⟨e, he, rfl⟩ := Option.map_eq_some_iff.mp ((hu.bytes_succ hlt).symm.trans hmore)
      refine ⟨fun hs hfull => ?_, fun hpass hroom => ?_⟩
      · obtain ⟨v, herr, hv, hD⟩ := decodeCode_strict (s := decoder s) hreg (hbus.of_cfg rfl) rfl hu hlt he hfits hs hfull
          hcap
        rw [hend (exec_lzwDecompress_code_error hreg hmod hlt hrun herr)]
        obtain ⟨hfailed, hout, hcount, hnext⟩ := hv.raised (k := .unsupportedConfiguration) (info := 3) hreg hfits hj
        exact ⟨hfailed, hout, hcount, BitVec.eq_of_toNat_eq (hnext.trans hD)⟩
      · obtain ⟨v, herr, m, d, c, l, rfl, hm, hnext⟩ := decodeCode_full (s := decoder s) hreg (hbus.of_cfg rfl) hcap rfl hu
          hlt he hfits hpass hroom
        rw [hend (exec_lzwDecompress_code_error hreg hmod hlt hrun herr)]
        obtain ⟨hfailed, hout⟩ := raised_coding (s := decoder s) (e := .ioWrite) (info := s.regs.outCap.toNat) (d := d)
          (c := c) (l := l) (k := j) rfl
          (room_of_le_outCap (s := decoder s) hreg rfl (List.length_take_le _ _)) hm
        exact ⟨hfailed, hout, toNat_codeCount hj, hnext.trans hu.size⟩
  · intro s k bs hreg hfail hk hcap _ hmod hbytes hfits hstrict
    obtain ⟨t, D, p, hrun, ht, hsize⟩ := decompressAll_readFails hreg hfail hk hcap hmod hbytes hfits hstrict
    obtain ⟨hfailed, hout, hcount, hnext⟩ := ht.raised (k := .ioRead) (info := k) hreg hfits (by
      rw [length_inCodes]
      omega)
    exact ⟨_, exec_lzwDecompress_raised hreg hrun, hfailed, hout, hcount, hnext.trans hsize⟩

end Sys2Proof.Machine

/-! PROOFS. The family of 42_huffman.md, the code stream of HUFF_DECOMPRESS (R208, R209): what DecodeStream or
DecodeStream1 leaves when the tables are made of an accepted header. -/

namespace Sys2Proof.Machine

/-! Paths inside the tree (R196, R199) -/

section
variable {h t : Huff}

/-- R196: the root of a tree of two or more byte values. -/
theorem IsTree.root_internal (ht : IsTree h t) (hu : 2 ≤ h.u) : ∃ a b w, nodeAt t t.root = .internal a b w := by
  obtain ⟨hlt, -⟩ | ⟨-, l, r, w, hint, -⟩ := ht.node_cases ht.root_lt
  · have := ht.root
    omega
  · exact ⟨l, r, w, hint⟩

/-- A path that goes on is at an internal node. -/
theorem internal_of_nodeOn_cons {n m : Nat} {c : Bool} {p : List Bool} (hp : nodeOn t n (c :: p) = some m) :
    ∃ a b w, nodeAt t n = .internal a b w := by
  rw [nodeOn] at hp
  cases hn : nodeAt t n with
  | leaf sym w => simp [hn] at hp
  | internal a b w => exact ⟨a, b, w, rfl⟩

/-- R208: a proper beginning of a path to a leaf ends at an internal node. -/
theorem inside_of_isPrefix {n : Nat} {p r : List Bool} {b : Byte} (hp : leafAt t n p = some b) (hr : r <+: p)
    (hne : r ≠ p) : ∃ m, nodeOn t n r = some m ∧ ∃ a b w, nodeAt t m = .internal a b w := by
  obtain ⟨q, rfl⟩ := hr
  obtain ⟨k, w, hk, -⟩ := leafAt_eq_some_iff.mp hp
  rw [nodeOn_append] at hk
  obtain ⟨m, hm, hq⟩ := Option.bind_eq_some_iff.mp hk
  cases q with
  | nil => exact absurd (List.append_nil r).symm hne
  | cons c q => exact ⟨m, hm, internal_of_nodeOn_cons hq⟩

theorem nodeOn_congr (e : t.node = h.node) (n : Nat) (p : List Bool) : nodeOn t n p = nodeOn h n p := by
  induction p generalizing n with
  | nil => rfl
  | cons c p ih =>
    rw [nodeOn, nodeOn, nodeAt, nodeAt, e]
    cases (sparseGet? h.node n).getD (.leaf 0#8 0) with
    | leaf sym w => rfl
    | internal l r w => exact ih _

end

/-- s is about to decode a code stream of T bits at S with the tree and the codes of g (R211). -/
structure State.Decoding (s : State) (g : Huff) (S : Nat) (T : BitVec 64) : Prop where
  tables  : s.huff = encodingTable (builtTree g)
  queue   : g.queue = []
  count   : g.u ≤ 256
  nodup   : (ranked g).Nodup
  regions : s.regs.RegionsOk
  stream  : S + (T.toNat + 7) / 8 ≤ s.regs.inLen.toNat
  fresh   : s.regs.outLen = 0#32

section
variable {s : State} {g : Huff} {S : Nat} {T : BitVec 64} {msg : List Byte} {r : List Bool} {b : Byte}
  (hs : s.Decoding g S T)
include hs

theorem State.Decoding.u_eq : s.huff.u = g.u := by rw [hs.tables, u_coded hs.queue]

theorem State.Decoding.ranked_eq : ranked s.huff = ranked g := by
  rw [ranked, ranked, hs.u_eq, hs.tables]
  exact List.map_congr_left fun j _ => orderAt_coded hs.queue j

theorem State.Decoding.node_eq : s.huff.node = (builtTree g).node := by rw [hs.tables, coded_frame hs.queue]

theorem State.Decoding.root_eq : s.huff.root = (builtTree g).root := by rw [hs.tables, coded_frame hs.queue]

theorem State.Decoding.nodeAt_eq (n : Nat) : nodeAt s.huff n = nodeAt (builtTree g) n := by
  rw [nodeAt, nodeAt, hs.node_eq]

theorem State.Decoding.isTree (hpos : 1 ≤ g.u) : IsTree g (builtTree g) := builtTree_isTree hs.queue hpos

theorem State.Decoding.nil_of_none (hu : g.u = 0) : ranked s.huff = [] := by
  rw [hs.ranked_eq, ranked, hu, List.range_zero, List.map_nil]

theorem State.Decoding.room (hfits : msg.length ≤ s.regs.outCap.toNat) : s.Room msg.length :=
  room_of_le_outCap hs.regions hs.fresh hfits

/-! Two or more byte values (R208) -/

section
variable (hu : 2 ≤ g.u)
include hu

theorem State.Decoding.many : decodeSymbols S T s = decodeStream S T s := by
  rw [← hs.u_eq] at hu
  exact (bind_ok (eng_get s)).trans (congrFun (if_pos hu) s)

theorem State.Decoding.root_internal : ∃ a b w, nodeAt s.huff s.huff.root = .internal a b w := by
  rw [hs.nodeAt_eq, hs.root_eq]
  exact (hs.isTree (Nat.le_of_succ_le hu)).root_internal hu

/-- R199: a code is the path to the leaf of its byte value. -/
theorem State.Decoding.leafAt_code (hb : b ∈ ranked s.huff) :
    leafAt s.huff s.huff.root (codeOf s.huff b) = some b := by
  have ht := hs.isTree (Nat.le_of_succ_le hu)
  rw [hs.ranked_eq] at hb
  obtain ⟨p, hp⟩ := ht.exists_leaf_path hb
  rw [hs.tables, ht.codeOf_eq_path hu hs.count hs.nodup hp, ← hs.tables, leafAt_congr hs.node_eq, hs.root_eq]
  exact hp

theorem State.Decoding.paths (hmsg : ∀ b ∈ msg, b ∈ ranked s.huff) :
    (msg.map (codeOf s.huff)).map (leafAt s.huff s.huff.root) = msg.map some := by
  rw [List.map_map]
  exact List.map_congr_left fun b hb => hs.leafAt_code hu (hmsg b hb)

/-- R196: no path but the empty one ends at the root. -/
theorem State.Decoding.ne_root {n : Nat} (hr : nodeOn s.huff s.huff.root r = some n) (hne : r ≠ []) :
    n ≠ s.huff.root := fun e => by
  rw [nodeOn_congr hs.node_eq, e, hs.root_eq] at hr
  exact hne ((hs.isTree (Nat.le_of_succ_le hu)).path_unique hr (q := []) rfl)

end

/-! One byte value (R209) -/

section
variable (hu : g.u = 1)
include hu

theorem State.Decoding.one : decodeSymbols S T s = decodeStream1 S T s := by
  rw [← hs.u_eq] at hu
  exact (bind_ok (eng_get s)).trans ((congrFun (if_neg (by omega)) s).trans (congrFun (if_pos hu) s))

theorem State.Decoding.codeOf_one (hb : b ∈ ranked s.huff) : codeOf s.huff b = [false] := by
  rw [hs.tables]
  exact (hs.isTree hu.ge).codeOf_one hu (hs.ranked_eq ▸ hb)

/-- R198: the codes of n symbols are n bits 0. -/
theorem State.Decoding.codes_one (hmsg : ∀ b ∈ msg, b ∈ ranked s.huff) :
    msg.flatMap (codeOf s.huff) = List.replicate msg.length false := by
  rw [List.flatMap_def, List.map_congr_left fun b hb => hs.codeOf_one hu (hmsg b hb), List.map_const',
    List.flatten_replicate_singleton]

theorem State.Decoding.symbols_one (hmsg : ∀ b ∈ msg, b ∈ ranked s.huff) :
    List.replicate msg.length (orderAt s.huff 0) = msg := by
  refine (List.eq_replicate_of_mem fun b hb => ?_).symm
  obtain ⟨j, hj, rfl⟩ := mem_ranked.mp (hmsg b hb)
  rw [hs.u_eq, hu] at hj
  rw [Nat.lt_one_iff.mp hj]

/-- R209: the code stream begins with a bit 0 for each symbol. -/
theorem State.Decoding.bits_one {n : Nat} (hmsg : ∀ b ∈ msg, b ∈ ranked s.huff)
    (hbits : streamBits s S n = msg.flatMap (codeOf s.huff) ++ r) :
    n = msg.length + r.length ∧ (∀ i, i < msg.length → streamBit s S i = false)
      ∧ ∀ i (hi : i < r.length), streamBit s S (msg.length + i) = r[i] := by
  rw [hs.codes_one hu hmsg] at hbits
  obtain ⟨hn, hzero, hrest⟩ := streamBit_of_streamBits hbits
  rw [List.length_replicate] at hn
  simp only [List.length_replicate, List.getElem_replicate] at hzero hrest
  exact ⟨hn, hzero, hrest⟩

/-- A proper beginning of the one-bit code is empty. -/
theorem State.Decoding.prefix_one (hb : b ∈ ranked s.huff) (hr : r <+: codeOf s.huff b) (hne : r ≠ codeOf s.huff b) :
    r = [] := by
  rw [hs.codeOf_one hu hb] at hr hne
  exact (List.prefix_cons_iff.mp hr).resolve_right fun ⟨q, hq, hnil⟩ => hne (by rw [hq, List.prefix_nil.mp hnil])

end

/-! What ends the code stream -/

section
variable (hmsg : ∀ b ∈ msg, b ∈ ranked s.huff)
include hmsg

theorem State.Decoding.eq_nil (hu : g.u = 0) : msg = [] :=
  List.eq_nil_iff_forall_not_mem.mpr fun b hb => by
    have := hmsg b hb
    rw [hs.nil_of_none hu] at this
    exact absurd this List.not_mem_nil

/-- R211: the codes of a string give the string. -/
theorem State.Decoding.complete (hbus : s.NoBusError) (hbits : streamBits s S T.toNat = msg.flatMap (codeOf s.huff))
    (hfits : msg.length ≤ s.regs.outCap.toNat) :
    ∃ m d c, decodeSymbols S T s = .ok () { s.afterOut m d msg.length with cur := c } ∧ s.Appends m msg := by
  rw [← List.append_nil (msg.flatMap _)] at hbits
  obtain hu | hu | hu : g.u = 0 ∨ g.u = 1 ∨ 2 ≤ g.u := by omega
  · obtain rfl := hs.eq_nil hmsg hu
    have h0 : s.huff.u = 0 := hs.u_eq.trans hu
    refine ⟨s.mem, s.draws, s.cur, (bind_ok (eng_get s)).trans ?_, appends_nil s⟩
    rw [List.length_nil, afterOut_zero, h0]
    rfl
  · obtain ⟨hT, hzero, -⟩ := hs.bits_one hu hmsg hbits
    rw [List.length_nil, Nat.add_zero] at hT
    obtain ⟨m, d, c, hrun, hm, -⟩ := decodeStream1_ok (S := S) (T := T) hs.regions hbus (fun i hi => hzero i (hT ▸ hi))
      hs.stream (hT ▸ hs.room hfits)
    rw [hT, hs.symbols_one hu hmsg] at hm
    rw [hT] at hrun
    exact ⟨m, d, c, (hs.one hu).trans hrun, hm⟩
  · obtain ⟨hT, hpaths, -⟩ := streamBit_of_streamBits hbits
    rw [List.flatMap_def] at hT hpaths
    obtain ⟨m, d, c, hrun, hm, -⟩ := decodeStream_ok (S := S) (T := T) hs.regions hbus (hs.root_internal hu)
      (hs.paths hu hmsg) hT hpaths hs.stream (hs.room hfits)
    exact ⟨m, d, c, (hs.many hu).trans hrun, hm⟩

variable (hbits : streamBits s S T.toNat = msg.flatMap (codeOf s.huff) ++ r)
include hbits

/-- R208: a proper beginning of a code is left over. -/
theorem State.Decoding.incomplete (hbus : s.NoBusError) (hne : r ≠ []) (hb : b ∈ ranked s.huff)
    (hr : r <+: codeOf s.huff b) (hr' : r ≠ codeOf s.huff b) (hfits : msg.length ≤ s.regs.outCap.toNat) :
    ∃ m d c, decodeSymbols S T s = .error ⟨.corruptData, BitVec.ofNat 32 (S + (T.toNat - 1) / 8)⟩
        { s.afterOut m d msg.length with cur := c } ∧ s.Appends m msg := by
  obtain hu | hu | hu : g.u = 0 ∨ g.u = 1 ∨ 2 ≤ g.u := by omega
  · rw [hs.nil_of_none hu] at hb
    exact absurd hb List.not_mem_nil
  · exact absurd (hs.prefix_one hu hb hr hr') hne
  · rw [List.flatMap_def] at hbits
    obtain ⟨n, hnode, hint⟩ := inside_of_isPrefix (hs.leafAt_code hu hb) hr hr'
    obtain ⟨m, d, c, hrun, hm, -⟩ := decodeStream_incomplete hs.regions hbus (hs.root_internal hu) (hs.paths hu hmsg)
      hbits hs.stream (hs.room hfits) hnode hint (hs.ne_root hu hnode hne)
    exact ⟨m, d, c, (hs.many hu).trans hrun, hm⟩

/-- R209: with one symbol, a bit 1. -/
theorem State.Decoding.bitOne (hbus : s.NoBusError) (hu : g.u = 1) (hone : r.head? = some true)
    (hfits : msg.length ≤ s.regs.outCap.toNat) :
    ∃ m d c, decodeSymbols S T s = .error ⟨.corruptData, BitVec.ofNat 32 (S + msg.length / 8)⟩
        { s.afterOut m d msg.length with cur := c } ∧ s.Appends m msg := by
  obtain ⟨r', rfl⟩ := List.head?_eq_some_iff.mp hone
  obtain ⟨hT, hzero, hrest⟩ := hs.bits_one hu hmsg hbits
  rw [List.length_cons] at hT
  obtain ⟨m, d, c, hrun, hm, -⟩ := decodeStream1_corrupt (T := T) hs.regions hbus hzero (hrest 0 (Nat.succ_pos _))
    (by omega) hs.stream (hs.room hfits)
  rw [hs.symbols_one hu hmsg] at hm
  exact ⟨m, d, c, (hs.one hu).trans hrun, hm⟩

/-- R302: a symbol that does not fit. -/
theorem State.Decoding.noRoom (hbus : s.NoBusError) (hfull : s.regs.outCap.toNat < msg.length) :
    ∃ m d c, decodeSymbols S T s = .error ⟨.ioWrite, BitVec.ofNat 32 s.regs.outCap.toNat⟩
        { s.afterOut m d s.regs.outCap.toNat with cur := c } ∧ s.Appends m (msg.take s.regs.outCap.toNat) := by
  have hlen : s.regs.outLen.toNat + s.regs.outCap.toNat = s.regs.outCap.toNat := by
    rw [hs.fresh, BitVec.toNat_zero, Nat.zero_add]
  obtain hu | hu | hu : g.u = 0 ∨ g.u = 1 ∨ 2 ≤ g.u := by omega
  · rw [hs.eq_nil hmsg hu] at hfull
    exact absurd hfull (Nat.not_lt_zero _)
  · obtain ⟨hT, hzero, -⟩ := hs.bits_one hu hmsg hbits
    obtain ⟨m, d, c, hrun, hm, -⟩ := decodeStream1_noRoom (T := T) hs.regions hbus
      (fun i hi => hzero i (hi.trans_lt hfull)) (by omega) hs.stream hlen
    rw [← hs.symbols_one hu hmsg, List.take_replicate, Nat.min_eq_left hfull.le]
    exact ⟨m, d, c, (hs.one hu).trans hrun, hm⟩
  · rw [List.flatMap_def] at hbits
    obtain ⟨m, d, c, hrun, hm, -⟩ := decodeStream_noRoom hs.regions hbus (hs.root_internal hu) (hs.paths hu hmsg) hbits
      hs.stream hlen hfull
    exact ⟨m, d, c, (hs.many hu).trans hrun, hm⟩

omit hbits

/-- R303: a byte whose read the platform fails. -/
theorem State.Decoding.readFails {k q : Nat} (hfail : s.ReadFails k) (hk : k = S + q) (hq : 8 * q < T.toNat)
    (hbits : streamBits s S (8 * q) = msg.flatMap (codeOf s.huff) ++ r) (hb : b ∈ ranked s.huff)
    (hr : r <+: codeOf s.huff b) (hr' : r ≠ codeOf s.huff b) (hfits : msg.length ≤ s.regs.outCap.toNat) :
    ∃ m d c, decodeSymbols S T s = .error ⟨.ioRead, BitVec.ofNat 32 k⟩ { s.afterOut m d msg.length with cur := c }
      ∧ s.Appends m msg := by
  obtain hu | hu | hu : g.u = 0 ∨ g.u = 1 ∨ 2 ≤ g.u := by omega
  · rw [hs.nil_of_none hu] at hb
    exact absurd hb List.not_mem_nil
  · obtain rfl := hs.prefix_one hu hb hr hr'
    obtain ⟨hlen, hzero, -⟩ := hs.bits_one hu hmsg hbits
    rw [List.length_nil, Nat.add_zero] at hlen
    rw [← hlen] at hzero
    obtain ⟨m, c, hrun, hm, -⟩ := decodeStream1_readFails hfail hk hq hs.regions hs.stream hzero
      (hlen ▸ hs.room hfits)
    rw [hlen, hs.symbols_one hu hmsg] at hm
    rw [hlen] at hrun
    exact ⟨m, _, c, (hs.one hu).trans hrun, hm⟩
  · rw [List.flatMap_def] at hbits
    obtain ⟨n, hnode, a, l, w, hint⟩ := inside_of_isPrefix (hs.leafAt_code hu hb) hr hr'
    obtain ⟨m, c, hrun, hm, -⟩ := decodeStream_readFails hfail hk hq hs.regions hs.stream (hs.root_internal hu)
      (hs.paths hu hmsg) hbits (.inr ⟨n, a, l, w, hnode, hint⟩) (hs.room hfits)
    exact ⟨m, _, c, (hs.many hu).trans hrun, hm⟩

end

end

end Sys2Proof.Machine

/-! PROOFS. The family of 42_huffman.md, HUFF_DECOMPRESS (R211, R302, R303, R307, R309) as one statement. -/

namespace Sys2Proof.Machine

/-! ParseHeader in the command and on its own (R205, R307) -/

/-- t' is t in phase p of the command op on L input bytes; nothing is written yet. -/
structure InCommand (op : BitVec 3) (p : Phase) (L : Word) (t t' : State) : Prop where
  eq    : t' = { t with phase := p, regs := { t.regs with op := op } }
  inLen : t.regs.inLen = L
  fresh : t.regs.outLen = 0#32
  error : t.regs.error = false

section
variable {op : BitVec 3} {p : Phase} {L : Word}

theorem inCommand_inLen {t t' : State} (h : InCommand op p L t t') : t.regs.inLen = L ∧ t'.regs.inLen = L := by
  obtain ⟨rfl, hlen, -, -⟩ := h
  exact ⟨hlen, hlen⟩

theorem inCommand_readRel (op : BitVec 3) (p : Phase) (L : Word) : ReadRel (InCommand op p L) where
  view := fun ⟨h, _, _, _⟩ => by rw [h]; rfl
  set := fun ⟨h, hlen, hfresh, herror⟩ v => ⟨by rw [h]; rfl, hlen, hfresh, herror⟩

/-- The platform draws alike. -/
theorem drawn_inCommand (t : State) (a : Nat) :
    drawn { t with phase := p, regs := { t.regs with op := op } } a
      = { drawn t a with phase := p, regs := { (drawn t a).regs with op := op } } := by
  simp only [drawn]
  split_ifs
  · rfl
  · cases t.cfg.busErr <;> rfl

theorem sim_inByte_inCommand (i : Nat) : Sim (InCommand op p L) (inByte i) := fun t t' h => by
  obtain ⟨rfl, hlen, hfresh, herror⟩ := h
  obtain ⟨d, -, hd⟩ := drawn_eq t (inAddr t i)
  have hd' := drawn_inCommand (op := op) (p := p) t (inAddr t i)
  rw [hd] at hd'
  rw [inByte_run, inByte_run, hd,
    show inAddr { t with phase := p, regs := { t.regs with op := op } } i = inAddr t i from rfl, hd',
    show State.busAnswer { t with phase := p, regs := { t.regs with op := op } } (inAddr t i) .read
      = t.busAnswer (inAddr t i) .read from rfl]
  split_ifs
  · exact ⟨rfl, rfl, hlen, hfresh, herror⟩
  · exact ⟨rfl, rfl, hlen, hfresh, herror⟩

theorem sim_parseHeader_inCommand : Sim (InCommand op p L) parseHeader :=
  (inCommand_readRel op p L).sim_parseHeader inCommand_inLen fun i _ => sim_inByte_inCommand i

end

/-- HUFF_DECOMPRESS of s when it parses the header (R211). -/
def parser (s : State) : State := { launched 2#3 s with phase := .hParse }

theorem inCommand_parser (s : State) : InCommand 2#3 .hParse s.regs.inLen (launch s) (parser s) := ⟨rfl, rfl, rfl, rfl⟩

section
variable {s : State} {u : Nat} {T : BitVec 64}

/-! The tables of an accepted header (R205 to R207) -/

/-- R205: what ParseHeader leaves of a header that it accepts, from START's cleared state. -/
structure State.Parsed (s : State) (u : Nat) (g : Huff) : Prop where
  count  : g.u = u
  queue  : g.queue = []
  ranked : ranked g = (List.range u).map s.pairSym
  freq   : ∀ j, j < u → tget g.freq (s.pairSym j) = s.pairFreq j

theorem State.PairsTaken.parsed {g : Huff} (hp : s.PairsTaken u g) (hqueue : s.huff.queue = []) : s.Parsed u g where
  count := by rw [hp.others]
  queue := by rw [hp.others, hqueue]
  ranked := by
    rw [Machine.ranked, show g.u = u by rw [hp.others]]
    exact List.map_congr_left fun j hj => (hp.taken j (List.mem_range.mp hj)).1
  freq := fun j hj => (hp.taken j hj).2.2

/-- R205: an accepted header lists a byte value once. -/
theorem State.HeaderIs.nodup (hh : s.HeaderIs u T) : ((List.range u).map s.pairSym).Nodup := by
  refine List.Nodup.map_on (fun i hi j hj e => ?_) List.nodup_range
  obtain hlt | heq | hgt := Nat.lt_trichotomy i j
  · exact absurd e ((hh.pairs j (List.mem_range.mp hj)).1 i hlt)
  · exact heq
  · exact absurd e.symm ((hh.pairs i (List.mem_range.mp hi)).1 j hgt)

/-- HUFF_DECOMPRESS of s when it decodes the code stream, the header having given the tables g and T bits (R211). -/
def symbolDecoder (s : State) (u : Nat) (T : BitVec 64) (g : Huff) (c : Cursors) (d : Nat) : State :=
  { launched 2#3 s with
    phase := .hDecode, huff := encodingTable (builtTree g), cur := c, draws := d
    regs := parsedRegs u T (launched 2#3 s).regs }

theorem symbolDecoder_decoding (hreg : s.regs.RegionsOk) (hh : s.HeaderIs u T) {g : Huff} (hg : s.Parsed u g)
    (c : Cursors) (d : Nat) : (symbolDecoder s u T g c d).Decoding g (12 + 5 * u) T where
  tables := rfl
  queue := hg.queue
  count := hg.count.trans_le hh.count
  nodup := hg.ranked ▸ hh.nodup
  regions := hreg
  stream := by
    have h1 := hh.length
    have h2 := hh.payload
    show 12 + 5 * u + (T.toNat + 7) / 8 ≤ s.regs.inLen.toNat
    omega
  fresh := rfl

/-- R206, R207, R211: from an accepted header on. -/
theorem huffDecompress_decodes (hh : s.HeaderIs u T) {g : Huff} {c : Cursors} {d : Nat}
    (hparse : parseHeader (parser s) = .ok (u, T) { parser s with
      huff := g, cur := c, draws := d, regs := parsedRegs u T (parser s).regs }) :
    huffDecompress (launched 2#3 s) = decodeSymbols (12 + 5 * u) T (symbolDecoder s u T g c d) := by
  have hne : s.regs.inLen ≠ 0#32 := fun e => by
    have := hh.length
    rw [e, BitVec.toNat_zero] at this
    omega
  have hpay : checkPayloadLength u T { parser s with
      huff := g, cur := c, draws := d, regs := parsedRegs u T (parser s).regs }
      = .ok (12 + 5 * u) { parser s with
        huff := g, cur := c, draws := d, regs := parsedRegs u T (parser s).regs } := by
    rw [checkPayloadLength_run, toInt_of_lt hh.signed, if_neg]
    have h1 := hh.length
    have h2 := hh.payload
    show ¬8 * ((s.regs.inLen.toNat : Int) - (12 + 5 * u : Nat)) < (T.toNat : Int)
    omega
  rw [huffDecompress]
  refine (bind_ok (eng_get _)).trans <| (congrFun (if_neg hne) _).trans <| (bind_ok (eng_setPhase _ _)).trans <|
    (bind_ok hparse).trans <| (bind_ok hpay).trans <| (bind_ok (buildTree_run _)).trans <|
    (bind_ok (buildEncodingTable_run _)).trans <| (bind_ok (eng_setPhase _ _)).trans ?_
  rfl

/-! How the command ends -/

theorem leavesTables_unpackBit (S t : Nat) : LeavesTables (unpackBit S t) :=
  leavesTables_bind (leavesTables_inByte _) fun _ =>
    leavesTables_bind (leavesTables_modify fun _ => rfl) fun _ => leavesTables_pure _

theorem leavesTables_walk (S : Nat) : ∀ n t node, LeavesTables (walk S t n node)
  | 0, _, _ => leavesTables_pure _
  | n + 1, t, node => leavesTables_bind (leavesTables_unpackBit S t) fun bit =>
    leavesTables_bind leavesTables_get fun s => by
      cases nodeAt s.huff (child s.huff node bit) with
      | leaf sym w => exact leavesTables_bind (leavesTables_outByte sym) fun _ => leavesTables_walk S n _ _
      | internal l r w => exact leavesTables_walk S n _ _

theorem leavesTables_decodeSymbols (S : Nat) (T : BitVec 64) : LeavesTables (decodeSymbols S T) :=
  leavesTables_bind leavesTables_get fun _ =>
    leavesTables_ite
      (leavesTables_bind leavesTables_get fun _ => leavesTables_bind (leavesTables_walk S _ _ _) fun _ =>
        leavesTables_bind leavesTables_get fun _ => leavesTables_ite (leavesTables_raise _ _) (leavesTables_pure _))
      (leavesTables_ite
        (leavesTables_forFrom (fun t => leavesTables_bind (leavesTables_unpackBit S t) fun _ =>
          leavesTables_ite (leavesTables_raise _ _)
            (leavesTables_bind leavesTables_get fun _ => leavesTables_outByte _)) _ 0)
        (leavesTables_pure _))

/-- What the result registers and HUFF of a command hold. -/
structure SameTables (t v : State) : Prop where
  huff       : t.huff = v.huff
  huffUnique : t.regs.huffUnique = v.regs.huffUnique
  huffBits   : t.regs.huffBits = v.regs.huffBits
  lzwCodes   : t.regs.lzwCodes = v.regs.lzwCodes
  lzwNext    : t.regs.lzwNext = v.regs.lzwNext

theorem sameTables_of_tables {t v w : State} (h : w.tables = v.tables) (ht : SameTables t w) : SameTables t v := by
  have hregs : { w.regs with outLen := 0#32 } = { v.regs with outLen := 0#32 } := congrArg Prod.snd h
  have hreg {α : Type} (f : Regs → α) (hf : ∀ r : Regs, f { r with outLen := 0#32 } = f r) : f w.regs = f v.regs := by
    rw [← hf w.regs, hregs, hf]
  exact ⟨ht.huff.trans (huff_of_tables h), ht.huffUnique.trans (hreg Regs.huffUnique fun _ => rfl),
    ht.huffBits.trans (hreg Regs.huffBits fun _ => rfl), ht.lzwCodes.trans (hreg Regs.lzwCodes fun _ => rfl),
    ht.lzwNext.trans (hreg Regs.lzwNext fun _ => rfl)⟩

/-- R307: whatever ends a command whose last part x leaves the tables, they are those that x began with. -/
theorem runCommand_sameTables {op : BitVec 3} {x : Eng Unit} {v : State} (hop : ¬(op.toNat = 0 ∨ 4 < op.toNat))
    (hreg : s.regs.RegionsOk) (hx : LeavesTables x) (hrun : commandOf op (launched op s) = x v) :
    SameTables (runCommand op s) v := by
  cases hend : x v with
  | ok _ w =>
    rw [runCommand_completed hop hreg (hrun.trans hend)]
    exact sameTables_of_tables (hx.ok hend) ⟨rfl, rfl, rfl, rfl, rfl⟩
  | error e w =>
    rw [runCommand_raised hop hreg (hrun.trans hend)]
    exact sameTables_of_tables (hx.error hend) ⟨rfl, rfl, rfl, rfl, rfl⟩

section
variable {v : State} {m : List Host.Cell} {d : Nat} {c : Cursors} {x : Eng Unit} {bs : List Byte}
  (hreg : s.regs.RegionsOk) (hrun : huffDecompress (launched 2#3 s) = x v)
  (hlen : v.regs.outLen = 0#32) (hroom : v.Room bs.length) (hm : v.Appends m bs)
include hreg hrun hlen hroom hm

/-- R144: the command completes after it wrote bs. -/
theorem huffDecompress_completed (herr : v.regs.error = false) (hcode : v.regs.errCode = 0#3)
    (hinfo : v.regs.errInfo = 0#32) (hx : x v = .ok () { v.afterOut m d bs.length with cur := c }) :
    (runCommand 2#3 s).Succeeded ∧ (runCommand 2#3 s).output = bs := by
  rw [runCommand_completed (op := 2#3) (by decide) hreg (hrun.trans hx)]
  exact ⟨completed_succeeded herr hcode hinfo,
    (output_of_appends (t := completed { v.afterOut m d bs.length with cur := c }) hlen hroom hm rfl rfl rfl).1⟩

/-- R307: it ends on an error after it wrote bs. -/
theorem huffDecompress_raised {k : ErrKind} {info : Nat}
    (hx : x v = .error ⟨k, BitVec.ofNat 32 info⟩ { v.afterOut m d bs.length with cur := c }) :
    (runCommand 2#3 s).Failed k info ∧ (runCommand 2#3 s).output = bs := by
  rw [runCommand_raised (op := 2#3) (by decide) hreg (hrun.trans hx)]
  exact ⟨raiseError_failed _ _ _, (output_of_appends
    (t := raiseError ⟨k, BitVec.ofNat 32 info⟩ { v.afterOut m d bs.length with cur := c }) hlen hroom hm rfl rfl rfl).1⟩

end

/-! The header is accepted (R205) -/

theorem State.HeaderIs.toInt_nonneg (hh : s.HeaderIs u T) : 0 ≤ T.toInt := by
  rw [toInt_of_lt hh.signed]
  exact Int.natCast_nonneg _

theorem parseHeader_accepted (hreg : s.regs.RegionsOk) (hbus : s.NoBusError) (hh : s.HeaderIs u T) :
    ∃ g c d, parseHeader (launch s) = .ok (u, T) { launch s with
        huff := g, cur := c, draws := d, regs := parsedRegs u T (launch s).regs }
      ∧ s.Parsed u g := by
  obtain rfl := hh.bits
  obtain ⟨g, c, d, hrun, hp, -⟩ := parseHeader_ok (s := launch s) (hbus.of_cfg rfl) hreg.1 rfl rfl hh.count hh.length
    hh.field hh.pairs hh.toInt_nonneg hh.empty
  obtain ⟨hcount, hqueue, hranked, hfreq⟩ := hp.parsed rfl
  exact ⟨g, c, d, hrun, hcount, hqueue, hranked, hfreq⟩

/-- A 64-bit field before the byte whose read the platform fails. -/
theorem State.ReadFails.get64 {k p : Nat} (hfail : s.ReadFails k) (hp : p + 8 ≤ k) :
    ∃ c, Machine.get64 p s = .ok (s.inDouble p) { s with cur := c } := by
  have hlt := hfail.inAddr_lt
  obtain ⟨c, d, hrun, -⟩ := get64_ok (s := s.calm s.regs.outCap) p (noBusError_calm s _)
    (by simp only [inAddr] at hlt ⊢; exact (Nat.add_le_add_left hp _).trans hlt.le)
  obtain ⟨hrun', hd⟩ := State.ReadFails.run (sim_get64 fun i _ hi => sim_inByte_readFails hfail (hi.trans_le hp)) hrun
  obtain rfl : d = s.draws := hd
  exact ⟨c, hrun'⟩

/-- R205: on a platform that fails a read behind it, too. -/
theorem parseHeader_accepted_readFails {k : Nat} (hfail : s.ReadFails k) (hk : 12 + 5 * u ≤ k) (hh : s.HeaderIs u T) :
    ∃ g c d, parseHeader (parser s) = .ok (u, T) { parser s with
        huff := g, cur := c, draws := d, regs := parsedRegs u T (parser s).regs }
      ∧ s.Parsed u g := by
  have hfail' : (parser s).ReadFails k := hfail.congr rfl rfl
  obtain ⟨t, ⟨-, ⟨t0, hrun, hpairs⟩, g, c, d, rfl, hp, -⟩, -⟩ := reaches_of_readFails (s := parser s) rfl rfl hfail'
    hh.count hh.length hh.field (Nat.le_refl u) (by omega) hh.pairs
  obtain ⟨c', hread⟩ := State.ReadFails.get64 (s := { parser s with
    huff := g, cur := c, draws := d, regs := { (parser s).regs with huffUnique := BitVec.ofNat 9 u } }) (k := k)
    (p := 4 + 5 * u) (hfail.congr rfl rfl) (by omega)
  obtain ⟨hcount, hqueue, hranked, hfreq⟩ := hp.parsed rfl
  refine ⟨g, c', d, hrun.trans ((bind_ok hpairs).trans ((bind_ok hread).trans ?_)), hcount, hqueue, hranked, hfreq⟩
  obtain rfl := hh.bits
  refine (congrFun (if_neg hh.toInt_nonneg.not_gt) _).trans ((congrFun (if_neg fun h => h.2 (hh.empty h.1)) _).trans ?_)
  rfl

end

/-- Settles O46: ParseHeader accepts or ends the command; after it the code stream is what State.Decoding describes. -/
theorem huffDecompress_outcome : Obligations.HuffDecompress := by
  unfold Obligations.HuffDecompress
  refine ⟨?_, ?_, ?_⟩
  · intro s u T hreg hbus hh
    obtain ⟨g, c, d, hparse, hg⟩ := parseHeader_accepted hreg hbus hh
    obtain ⟨t', hparse', rfl, -⟩ := sim_parseHeader_inCommand.ok (inCommand_parser s) hparse
    have hrun : commandOf 2#3 (launched 2#3 s) = decodeSymbols (12 + 5 * u) T (symbolDecoder s u T g c d) :=
      huffDecompress_decodes hh hparse'
    have hs := symbolDecoder_decoding hreg hh hg c d
    have hbus' : (symbolDecoder s u T g c d).NoBusError := hbus.of_cfg rfl
    obtain ⟨hhuff, hunique, hbits, hcodes, hnext⟩ := runCommand_sameTables (by decide) hreg
      (leavesTables_decodeSymbols _ _) hrun
    refine ⟨_, _, _, _, exec_decodeOp 2#3 s, runOp_ok _ hparse, exec_buildTree _, exec_buildEncodingTable _, hhuff, ?_, ?_,
      hcodes, hnext, ?_, ?_, ?_⟩
    · rw [hunique]
      exact Nat.mod_eq_of_lt (by have := hh.count; omega)
    · rw [hbits]
      exact huffBits_setHuffBits T (launched 2#3 s)
    · rw [hhuff]
      exact hs.ranked_eq.trans hg.ranked
    · intro j hj
      rw [hhuff, hs.tables, freq_coded hg.queue]
      exact hg.freq j hj
    · intro msg r hmsg hstream
      rw [hhuff] at hmsg hstream ⊢
      refine ⟨fun hfits hr => ?_, fun hfits hr ⟨b, hb, hpre, hne⟩ => ?_, fun hfits hu hone => ?_, fun hfull => ?_⟩
      · rw [hr, List.append_nil] at hstream
        obtain ⟨m, d', c', hx, hm⟩ := hs.complete hmsg hbus' hstream hfits
        exact huffDecompress_completed hreg hrun rfl (hs.room hfits) hm rfl rfl rfl hx
      · obtain ⟨m, d', c', hx, hm⟩ := hs.incomplete hmsg hstream hbus' hr hb hpre hne hfits
        exact huffDecompress_raised hreg hrun rfl (hs.room hfits) hm hx
      · obtain ⟨m, d', c', hx, hm⟩ := hs.bitOne hmsg hstream hbus' (hg.count.trans hu) hone hfits
        exact huffDecompress_raised hreg hrun rfl (hs.room hfits) hm hx
      · obtain ⟨m, d', c', hx, hm⟩ := hs.noRoom hmsg hstream hbus' hfull
        have hlen : (msg.take s.regs.outCap.toNat).length = s.regs.outCap.toNat := List.length_take_of_le hfull.le
        refine huffDecompress_raised (c := c') (d := d') hreg hrun rfl (hs.room hlen.le) hm ?_
        rw [hlen]
        exact hx
  · intro s u T q hreg hh hfail hq
    obtain ⟨g, c, d, hparse, hg⟩ := parseHeader_accepted_readFails hfail (Nat.le_add_right _ q) hh
    have hrun : commandOf 2#3 (launched 2#3 s) = decodeSymbols (12 + 5 * u) T (symbolDecoder s u T g c d) :=
      huffDecompress_decodes hh hparse
    have hs := symbolDecoder_decoding hreg hh hg c d
    have hhuff := (runCommand_sameTables (by decide) hreg (leavesTables_decodeSymbols _ _) hrun).huff
    refine ⟨_, exec_decodeOp 2#3 s, ?_, fun msg r hmsg hstream ⟨b, hb, hpre, hne⟩ hfits => ?_⟩
    · rw [hhuff]
      exact hs.ranked_eq.trans hg.ranked
    · rw [hhuff] at hmsg hstream hb hpre hne
      obtain ⟨m, d', c', hx, hm⟩ := hs.readFails hmsg (hfail.congr rfl rfl) rfl hq hstream hb hpre hne hfits
      exact huffDecompress_raised hreg hrun rfl (hs.room hfits) hm hx
  · intro s v hreg hlen hexec herr
    cases hparse : parseHeader (launch s) with
    | ok r t =>
      obtain ⟨-, -, -, -, -, herror⟩ := sim_parseHeader_inCommand.ok (inCommand_parser s) hparse
      cases (runOp_ok (fun r : Nat × BitVec 64 => .header r.1 r.2) hparse).symm.trans hexec
      exact absurd (herror.symm.trans herr) (by decide)
    | error e t =>
      obtain ⟨t', hparse', rfl, -, hfresh, -⟩ := sim_parseHeader_inCommand.error (inCommand_parser s) hparse
      have hv : v = { raiseError e t with ret := .none } := by
        have hrun : exec .parseHeader (launch s) = .next { raiseError e t with ret := .none } := by
          show runOp parseHeader _ _ = _
          rw [runOp, hparse]
        exact Host.Outcome.next.inj (hexec.symm.trans hrun)
      refine ⟨_, exec_decodeOp 2#3 s, ?_⟩
      rw [runCommand_raised (op := 2#3) (by decide) hreg
        (huffDecompress_parse_error (s := launched 2#3 s) hlen hparse'), hv]
      exact ⟨rfl, rfl, rfl, rfl, hfresh, rfl⟩

end Sys2Proof.Machine

/-! PROOFS. The family of 42_huffman.md, the file of HUFF_COMPRESS when the output region has no room for it (R171,
R172, R302). -/

namespace Sys2Proof.Machine

/-! Beginnings of a code stream (R170) -/

theorem getD_of_isPrefix {bs bits : List Bool} (h : bs <+: bits) {k : Nat} (hk : k < bs.length) :
    bs.getD k false = bits.getD k false := by
  obtain ⟨rest, rfl⟩ := h
  exact (List.getD_append _ _ _ _ hk).symm

/-- R170: the bytes that a beginning fills are the first bytes of the stream. -/
theorem take_packedBytes {bs bits : List Bool} (h : bs <+: bits) :
    (packedBytes bits).take (bs.length / 8) = fullBytes bs := by
  have hle := h.length_le
  rw [packedBytes_eq, ← List.map_take, List.take_range, Nat.min_eq_left (by omega), fullBytes]
  refine List.map_congr_left fun m hm => BitVec.eq_of_getLsbD_eq fun i hi => ?_
  have := List.mem_range.mp hm
  rw [getLsbD_packedByte _ _ hi, getLsbD_packedByte _ _ hi, getD_of_isPrefix h (by omega)]

/-- R302: packing the stream bits from s filled the output region, and t is left; bs is packed of it. -/
def State.PackFull (s : State) (bits : List Bool) (t : State) : Prop :=
  ∃ (bs : List Bool) (m : List Host.Cell) (d : Nat) (p : Packer) (r : Ret) (c : Cursors) (ph : Phase),
    bs <+: bits ∧ s.regs.outLen.toNat + (fullBytes bs).length = s.regs.outCap.toNat
      ∧ t = { s.packing m d (fullBytes bs).length p r with cur := c, phase := ph } ∧ s.Appends m (fullBytes bs)

/-- The state of the packer that has room for what it wrote (R171, R75). -/
def State.PackedIn (s : State) (bits : List Bool) (t : State) : Prop :=
  s.Packed bits t ∧ s.Room (fullBytes bits).length

/-- The error of a byte that has no room in the output region of s (R75). -/
def State.fullRaise (s : State) : Raise := ⟨.ioWrite, BitVec.ofNat 32 s.regs.outCap.toNat⟩

section
variable {s t : State} {bits more : List Bool}

theorem State.PackFull.mono (h : s.PackFull bits t) (hpre : bits <+: more) : s.PackFull more t := by
  obtain ⟨bs, m, d, p, r, c, ph, hbs, hrest⟩ := h
  exact ⟨bs, m, d, p, r, c, ph, hbs.trans hpre, hrest⟩

/-- The read cursor and the phase of s are no part of it. -/
theorem State.PackFull.of_phase {c : Cursors} {ph : Phase} (h : { s with cur := c, phase := ph }.PackFull bits t) :
    s.PackFull bits t := h

/-- Bytes that do not fit, where fewer did, fill the region by one byte at most. -/
theorem full_of_not_room {n : Nat} (hmem : s.regs.outBase.toNat + s.regs.outCap.toNat ≤ 2 ^ 32) (hroom : s.Room n)
    (hfull : ¬s.Room (n + 1)) : s.regs.outLen.toNat + n = s.regs.outCap.toNat := by
  have hle := hroom.1
  by_contra hne
  exact hfull ⟨by omega, by omega⟩

section
variable (hbus : s.NoBusError) (herr : s.regs.error = false)
  (hmem : s.regs.outBase.toNat + s.regs.outCap.toNat ≤ 2 ^ 32)
include hbus herr hmem

/-- R171, R302: one more bit is packed, or its byte has no room. -/
theorem packBit_cases (b : Bool) (ht : s.PackedIn bits t) :
    (∃ u, packBit b t = .ok () u ∧ s.PackedIn (bits ++ [b]) u)
      ∨ ∃ u, packBit b t = .error s.fullRaise u ∧ s.PackFull bits u := by
  obtain ⟨hpacked, hroom⟩ := ht
  by_cases hroom' : s.Room (fullBytes (bits ++ [b])).length
  · obtain ⟨u, hrun, hu⟩ := packBit_packed b hbus herr hroom' hpacked
    exact .inl ⟨u, hrun, hu, hroom'⟩
  · have h7 : bits.length % 8 = 7 := by
      by_contra h7
      rw [fullBytes_append_free b h7] at hroom'
      exact hroom' hroom
    rw [fullBytes_append_eighth b h7, List.length_append, List.length_singleton] at hroom'
    have hlen := full_of_not_room hmem hroom hroom'
    obtain ⟨m, d, r, rfl, hm⟩ := hpacked
    refine .inr ⟨_, ?_, bits, m, d, packerPlace b (packerAfter s.pack.nbits bits), r, s.cur, s.phase,
      List.prefix_refl _, hlen, rfl, hm⟩
    refine (bind_ok (eng_modify _ _)).trans ((bind_ok (eng_get _)).trans ((congrFun (if_pos ?_) _).trans
      (bind_error (outByte_noRoom (afterOut_noRoom (m := m) (d := d) hlen)))))
    exact (packerAfter_pcnt_eq_iff s.pack.nbits bits 7#3).mpr h7

/-- R202: the code of a byte value, bit by bit. -/
theorem packCode_cases (b : Byte) (ht : s.PackedIn bits t) :
    (∃ u, forRange (tget s.huff.codeLen b).toNat (packCodeBit b) t = .ok () u
        ∧ s.PackedIn (bits ++ codeOf s.huff b) u)
      ∨ ∃ u, forRange (tget s.huff.codeLen b).toNat (packCodeBit b) t = .error s.fullRaise u
        ∧ s.PackFull (bits ++ codeOf s.huff b) u := by
  have hrun := forRange_cases (body := packCodeBit b) (fun k u => s.PackedIn (bits ++ (codeOf s.huff b).take k) u)
    (fun r u => r = s.fullRaise ∧ s.PackFull (bits ++ codeOf s.huff b) u) (n := (tget s.huff.codeLen b).toNat) (s := t)
    (by simpa using ht) fun k u hk hu => by
      have hk' : k < (codeOf s.huff b).length := by rwa [length_codeOf]
      have hhuff : u.huff = s.huff := by
        obtain ⟨⟨m, d, r, rfl, -⟩, -⟩ := hu
        rfl
      have hbit : (codeOf s.huff b)[k] = (tget s.huff.codeBits b).getLsbD k := by simp [codeOf]
      have hstep : packCodeBit b k u = packBit (codeOf s.huff b)[k] u := by
        rw [hbit, ← hhuff]
        exact bind_ok (eng_get u)
      rw [hstep, List.take_succ_eq_append_getElem hk', ← List.append_assoc]
      refine (packBit_cases hbus herr hmem _ hu).imp_right fun ⟨v, hv, hfull⟩ => ⟨_, v, hv, rfl, hfull.mono ?_⟩
      exact List.prefix_append_right_inj _ |>.mpr (List.take_prefix _ _)
  rw [← length_codeOf, List.take_length, length_codeOf] at hrun
  obtain hok | ⟨r, u, hu, rfl, hfull⟩ := hrun
  · exact .inl hok
  · exact .inr ⟨u, hu, hfull⟩

omit hbus herr in
/-- R172, R302: the rest of the stream has no room. -/
theorem packFlush_full (ht : s.PackedIn bits t) (hfull : ¬s.Room ((bits.length + 7) / 8)) :
    ∃ u, packFlush t = .error s.fullRaise u ∧ s.PackFull bits u := by
  obtain ⟨⟨m, d, r, rfl, hm⟩, hroom⟩ := ht
  rw [length_fullBytes] at hroom
  have h0 : bits.length % 8 ≠ 0 := fun h0 => hfull (by rwa [show (bits.length + 7) / 8 = bits.length / 8 by omega])
  rw [show (bits.length + 7) / 8 = bits.length / 8 + 1 by omega] at hfull
  have hlen := full_of_not_room hmem hroom hfull
  rw [← length_fullBytes] at hlen
  refine ⟨_, ?_, bits, m, d, packerAfter s.pack.nbits bits, r, s.cur, s.phase, List.prefix_refl _, hlen, rfl,
      hm⟩
  refine (bind_ok (eng_get _)).trans ((congrFun (if_neg ?_) _).trans
    (bind_error (outByte_noRoom (afterOut_noRoom (m := m) (d := d) hlen))))
  exact (packerAfter_pcnt_eq_iff s.pack.nbits bits 0#3).not.mpr h0

end

/-- R202, R203: one input byte of the second pass is read and checked. -/
theorem encodeInput_read {c : Cursors} {T : BitVec 64} {i : Nat} {b : Byte} (hreg : s.regs.RegionsOk)
    (hbus : s.NoBusError) (hi : i < s.regs.inLen.toNat) (hb : Memory.read s.mem (inAddr s i) = b)
    (hcode : 1 ≤ (codeOf s.huff b).length) (hT : s.pack.nbits + (bits ++ codeOf s.huff b).length ≤ T.toNat)
    (ht : { s with cur := c }.PackedIn bits t) :
    ∃ c' u, encodeInput T i t = forRange (tget s.huff.codeLen b).toNat (packCodeBit b) u
      ∧ { s with cur := c' }.PackedIn bits u := by
  obtain ⟨hpacked, hroom⟩ := ht
  obtain ⟨hhuff, hcfg, haddr, hbits, hbyte⟩ : t.huff = s.huff ∧ t.cfg = s.cfg ∧ inAddr t i = inAddr s i
      ∧ t.pack.nbits = s.pack.nbits + bits.length ∧ Memory.read t.mem (inAddr s i) = b := by
    obtain ⟨m, d, r, rfl, hm⟩ := hpacked
    exact ⟨rfl, rfl, rfl, rfl, (read_input_of_appends hreg hroom hm hi).trans hb⟩
  obtain ⟨c', d', hread, -⟩ := get8_ok i (hbus.of_cfg hcfg) (haddr ▸ inAddr_add_le (n := 1) hreg hi)
  rw [haddr, hbyte] at hread
  refine ⟨c', _, ?_, hpacked.read c' d', hroom⟩
  rw [List.length_append, length_codeOf] at hT
  rw [length_codeOf] at hcode
  rw [← hhuff] at hT hcode ⊢
  have hcheck : ¬(tget t.huff.codeLen b = 0#8 ∨ T.toNat < t.pack.nbits + (tget t.huff.codeLen b).toNat) := by
    rintro (h0 | hlt)
    · rw [h0] at hcode
      exact absurd hcode (by decide)
    · omega
  refine (bind_ok hread).trans ((bind_ok ((bind_ok (eng_get _)).trans (congrFun (if_neg hcheck) _))).trans
    ((bind_ok (eng_get _)).trans ?_))
  rfl

/-! The second pass and the file (R202) -/

section
variable {T : BitVec 64} (hreg : s.regs.RegionsOk) (hbus : s.NoBusError) (herr : s.regs.error = false)
  (hpack : s.pack = Packer.cleared) (hcode : ∀ b ∈ s.input, 1 ≤ (codeOf s.huff b).length)
  (hT : T.toNat = (s.input.flatMap (codeOf s.huff)).length)
include hreg hbus herr hpack hcode hT

/-- R202, R302: the second pass packs the codes of the input, or a byte of theirs has no room. -/
theorem encodePass_cases (hroom : s.Room 0) :
    (∃ c u, forRange s.regs.inLen.toNat (encodeInput T) s = .ok () u
        ∧ { s with cur := c }.PackedIn (s.input.flatMap (codeOf s.huff)) u)
      ∨ ∃ u, forRange s.regs.inLen.toNat (encodeInput T) s = .error s.fullRaise u
        ∧ s.PackFull (s.input.flatMap (codeOf s.huff)) u := by
  have hpre (k : Nat) : (s.input.take k).flatMap (codeOf s.huff) <+: s.input.flatMap (codeOf s.huff) := by
    obtain ⟨rest, hrest⟩ := List.take_prefix k s.input
    exact ⟨rest.flatMap (codeOf s.huff), by rw [← List.flatMap_append, hrest]⟩
  obtain ⟨u, hrun, c, hu⟩ | ⟨r, u, hrun, rfl, hfull⟩ := forRange_cases (body := encodeInput T) (n := s.regs.inLen.toNat)
    (fun k u => ∃ c, { s with cur := c }.PackedIn ((s.input.take k).flatMap (codeOf s.huff)) u)
    (fun r u => r = s.fullRaise ∧ s.PackFull (s.input.flatMap (codeOf s.huff)) u) (s := s)
    ⟨s.cur, packed_nil (by rw [hpack]; rfl) (by rw [hpack]; rfl), hroom.of_le (by simp)⟩ fun i t hi ⟨c, ht⟩ => by
      have hbyte : Memory.read s.mem (inAddr s i) ∈ s.input := by
        rw [← getElem_input s i (by simpa using hi)]
        exact List.getElem_mem _
      have hpre' := hpre (i + 1)
      rw [take_input_succ s hi, List.flatMap_append, List.flatMap_singleton] at hpre' ⊢
      have hle := hpre'.length_le
      rw [← hT] at hle
      obtain ⟨c', v, hv, hin⟩ := encodeInput_read hreg hbus hi rfl (hcode _ hbyte)
        (by rwa [hpack, show Packer.cleared.nbits = 0 from rfl, Nat.zero_add]) ht
      rw [hv]
      obtain ⟨w, hw, hpacked⟩ | ⟨w, hw, hfull⟩ := packCode_cases (s := { s with cur := c' }) (hbus.of_cfg rfl) herr
        hreg.2.1 _ hin
      · exact .inl ⟨w, hw, c', hpacked⟩
      · exact .inr ⟨_, w, hw, rfl, (State.PackFull.of_phase hfull).mono hpre'⟩
  · rw [← length_input, List.take_length] at hu
    exact .inl ⟨c, u, hrun, hu⟩
  · exact .inr ⟨u, hrun, hfull⟩

/-- R202, R302: a code stream that has no room is written as far as there is room. -/
theorem writeCodes_full (hroom : s.Room 0) (hfull : ¬s.Room ((T.toNat + 7) / 8)) :
    ∃ u, writeCodes T s = .error s.fullRaise u
      ∧ s.PackFull (s.input.flatMap (codeOf s.huff)) u := by
  have hstart : writeCodes T s = (forRange s.regs.inLen.toNat (encodeInput T) >>= fun _ => checkPass2End T >>= fun _ =>
      setPhase .hFlush >>= fun _ => packFlush) { s with
        phase := .hEncode, cur := { s.cur with pass := true, inPos := 0 } } := by
    refine (bind_ok (eng_setPhase _ _)).trans ((bind_ok (eng_modify _ _)).trans ((bind_ok (eng_get _)).trans ?_))
    rfl
  rw [hstart]
  obtain ⟨c, u, hrun, hu⟩ | ⟨u, hrun, hu⟩ := encodePass_cases (T := T)
    (s := { s with phase := .hEncode, cur := { s.cur with pass := true, inPos := 0 } }) hreg (hbus.of_cfg rfl) herr
    hpack hcode hT hroom
  · obtain ⟨v, hflush, hv⟩ := packFlush_full (s := { s with phase := .hFlush, cur := c }) hreg.2.1
      ⟨hu.1.phase .hFlush, hu.2⟩ (by rw [hT] at hfull; exact hfull)
    have hbits : u.pack.nbits = T.toNat := by
      obtain ⟨⟨m, d, r, rfl, -⟩, -⟩ := hu
      show s.pack.nbits + _ = _
      rw [hpack, hT]
      exact Nat.zero_add _
    refine ⟨v, (bind_ok hrun).trans ((bind_ok ((bind_ok (eng_get _)).trans
      (congrFun (if_neg (not_not.mpr hbits)) _))).trans ((bind_ok (eng_setPhase _ _)).trans hflush)), ?_⟩
    exact State.PackFull.of_phase hv
  · exact ⟨u, bind_error hrun, State.PackFull.of_phase hu⟩

/-- R201, R202, R302: a file that has no room is written as far as there is room. -/
theorem writeFile_full {n : Nat} (hn : s.regs.outLen.toNat + n = s.regs.outCap.toNat)
    (hlt : n < (huffFile s.huff s.input).length) :
    ∃ u, writeFile T s = .error s.fullRaise u ∧ s.Appends u.mem ((huffFile s.huff s.input).take n)
      ∧ u.regs.outBase = s.regs.outBase ∧ u.regs.outLen = s.regs.outLen + BitVec.ofNat 32 n := by
  have hfile : huffFile s.huff s.input
      = headerBytes (headerPairs s.huff) T.toNat ++ packedBytes (s.input.flatMap (codeOf s.huff)) := by rw [huffFile, hT]
  rw [hfile] at hlt ⊢
  by_cases hhead : n < (headerBytes (headerPairs s.huff) T.toNat).length
  · obtain ⟨m, d, hrun, hm⟩ := outBytes_full _ n hbus hreg.2.1 hn hhead
    refine ⟨_, bind_error ((serializeHeader_eq T s).trans hrun), ?_, rfl, rfl⟩
    rw [List.take_append_of_le_length hhead.le]
    exact hm
  obtain ⟨k, rfl⟩ := Nat.exists_eq_add_of_le (Nat.le_of_not_lt hhead)
  rw [List.length_append, length_packedBytes, ← hT] at hlt
  have hroom : s.Room ((headerBytes (headerPairs s.huff) T.toNat).length + k) := room_of_add_eq hn hreg.2.1
  obtain ⟨m, d, hrun, hm⟩ := outBytes_ok (headerBytes (headerPairs s.huff) T.toNat) hbus
    (hroom.of_le (Nat.le_add_right _ k))
  have hlen : (s.afterOut m d (headerBytes (headerPairs s.huff) T.toNat).length).regs.outLen.toNat
      = s.regs.outLen.toNat + (headerBytes (headerPairs s.huff) T.toNat).length := by
    have := s.regs.outCap.isLt
    simp only [State.afterOut, BitVec.toNat_add, BitVec.toNat_ofNat]
    omega
  have hinput : (s.afterOut m d (headerBytes (headerPairs s.huff) T.toNat).length).input = s.input := by
    refine readBytes_congr fun x hx1 hx2 => ?_
    obtain ⟨i, rfl⟩ := Nat.exists_eq_add_of_le hx1
    exact read_input_of_appends hreg (hroom.of_le (Nat.le_add_right _ k)) hm (Nat.lt_of_add_lt_add_left hx2)
  obtain ⟨u, hcodes, bs, m', d', p, r, c, ph, hbs, hfull, rfl, hm'⟩ := writeCodes_full (T := T)
    (s := s.afterOut m d (headerBytes (headerPairs s.huff) T.toNat).length) hreg (hbus.of_cfg rfl) herr hpack
    (by rw [hinput]; exact hcode) (by rw [hinput]; exact hT) ((hroom.after m d).of_le (Nat.zero_le k)) fun hr => by
      have := hr.1
      rw [hlen] at this
      change _ ≤ s.regs.outCap.toNat at this
      omega
  rw [hinput] at hbs
  change bs <+: s.input.flatMap (codeOf s.huff) at hbs
  rw [hlen] at hfull
  change _ = s.regs.outCap.toNat at hfull
  obtain rfl : (fullBytes bs).length = k := by omega
  refine ⟨_, (bind_ok ((serializeHeader_eq T s).trans hrun)).trans hcodes, ?_, rfl, ?_⟩
  · rw [List.take_length_add_append, length_fullBytes, take_packedBytes hbs]
    exact appends_append_of_room hm hroom hm'
  · show s.regs.outLen + _ + _ = _
    rw [BitVec.add_assoc, BitVec.ofNat_add]

end

end

end Sys2Proof.Machine

/-! PROOFS. The family of 42_huffman.md, HUFF_COMPRESS (R202, R204, R191, R302, R303) as one statement. -/

namespace Sys2Proof.Machine

/-- HUFF_COMPRESS of s when it begins its first pass (R190). -/
def counter (s : State) : State := { launched 1#3 s with
  phase := .hCount, cur := { (launched 1#3 s).cur with pass := false, inPos := 0 } }

section
variable {s t : State} {e : Raise}

/-- R307: an error in the first pass. -/
theorem huffCompress_count_error (h : buildFrequencyTable (counter s) = .error e t) :
    huffCompress (launched 1#3 s) = .error e t := by
  rw [huffCompress]
  exact (bind_ok (eng_setPhase _ _)).trans ((bind_ok (eng_modify _ _)).trans (bind_error h))

/-- R191: a frequency above 2^31 - 1. -/
theorem huffCompress_tooLarge (h : buildFrequencyTable (counter s) = .ok () t) (hlarge : frequencyTooLarge t.huff = true) :
    huffCompress (launched 1#3 s) = .error ⟨.unsupportedConfiguration, BitVec.ofNat 32 2⟩ t := by
  have hcheck : checkFrequencyRange t = .error ⟨.unsupportedConfiguration, BitVec.ofNat 32 2⟩ t :=
    (checkFrequencyRange_run t).trans (if_pos hlarge)
  rw [huffCompress]
  exact (bind_ok (eng_setPhase _ _)).trans ((bind_ok (eng_modify _ _)).trans ((bind_ok h).trans (bind_error hcheck)))

/-- R190: BuildFrequencyTable in START's cleared state, on its own. -/
theorem exec_buildFrequencyTable_launch (hreg : s.regs.RegionsOk) (hbus : s.NoBusError) :
    ∃ f, exec .buildFrequencyTable (launch s) = .next f ∧ f.huff = countedBytes s.input Huff.cleared := by
  obtain ⟨c, d, hrun, -⟩ := buildFrequencyTable_ok (s := launch s) (hbus.of_cfg rfl) hreg.1
  exact ⟨_, runOp_ok (fun _ => .none) hrun, rfl⟩

/-! The results of the first pass (R190, R204) -/

theorem ranked_commandHuff (bs : List Byte) (hlen : bs.length < 2 ^ 32) :
    ranked (commandHuff bs) = firstAppearances bs := by
  have hc := counted_cleared hlen
  rw [commandHuff, codedHuff, ranked, u_coded hc.queue_eq, ← hc.ranked, ranked]
  exact List.map_congr_left fun j _ => orderAt_coded hc.queue_eq j

theorem freq_commandHuff (bs : List Byte) (hlen : bs.length < 2 ^ 32) (b : Byte) :
    (tget (commandHuff bs).freq b).toNat = bs.count b := by
  rw [commandHuff, codedHuff, freq_coded (counted_cleared hlen).queue_eq]
  exact (counted_cleared hlen).freq b

theorem u_commandHuff (bs : List Byte) (hlen : bs.length < 2 ^ 32) :
    (commandHuff bs).u = (firstAppearances bs).length :=
  (u_coded (counted_cleared hlen).queue_eq).trans (counted_cleared hlen).u_eq

/-- R50: HUFF_UNIQUE holds U. -/
theorem huffUnique_counted (bs : List Byte) (hlen : bs.length < 2 ^ 32) :
    (BitVec.ofNat 9 (countedBytes bs Huff.cleared).u).toNat = (firstAppearances bs).length := by
  have hc := counted_cleared hlen
  rw [← hc.u_eq]
  exact Nat.mod_eq_of_lt (by have := hc.u_le; omega)

/-! The file (R202) -/

section
variable (hreg : s.regs.RegionsOk) (hbus : s.NoBusError) (hcount : ∀ b, s.input.count b ≤ 2 ^ 31 - 1)
include hreg hbus hcount

/-- R202: with every frequency in range the command comes to write its file. -/
theorem huffCompress_files : ∃ c d, commandOf 1#3 (launched 1#3 s)
    = writeFile (BitVec.ofNat 64 (bitCount (commandHuff s.input))) (filingState s c d) :=
  huffCompress_tables (s := launched 1#3 s) (hbus.of_cfg rfl) hreg.1
    ((counted_cleared (length_input_lt s)).frequencyTooLarge_eq hcount)

/-- R302: a file that does not fit. -/
theorem huffCompress_full (hfull : s.regs.outCap.toNat < (huffFile (commandHuff s.input) s.input).length) :
    (runCommand 1#3 s).Failed .ioWrite s.regs.outCap.toNat
      ∧ (runCommand 1#3 s).output = (huffFile (commandHuff s.input) s.input).take s.regs.outCap.toNat := by
  have hc := counted_cleared (length_input_lt s)
  have hT : (BitVec.ofNat 64 (bitCount (commandHuff s.input))).toNat
      = (s.input.flatMap (codeOf (commandHuff s.input))).length := by
    rw [BitVec.toNat_ofNat, Nat.mod_eq_of_lt (bitCount_lt _)]
    exact hc.bitCount_eq rfl
  obtain ⟨c, d, hrun⟩ := huffCompress_files hreg hbus hcount
  have hwrites := writeFile_full (s := filingState s c d) (T := BitVec.ofNat 64 (bitCount (commandHuff s.input)))
    (n := s.regs.outCap.toNat) hreg (hbus.of_cfg rfl) rfl rfl
  rw [filingState_huff, filingState_input] at hwrites
  obtain ⟨u, hwrite, hm, hbase, hlen⟩ := hwrites (fun b hb => hc.length_code_pos rfl hb) hT
    (Nat.zero_add s.regs.outCap.toNat) hfull
  have htake := List.length_take_of_le hfull.le
  rw [runCommand_raised (op := 1#3) (by decide) hreg (hrun.trans hwrite)]
  refine ⟨raiseError_failed _ _ _, (output_of_appends (s := filingState s c d) (t := raiseError _ u) rfl ?_ hm rfl hbase
    ?_).1⟩
  · exact room_of_outLen_zero hreg htake.le rfl rfl rfl
  · rw [htake]
    exact hlen

end

end

/-- Settles O45: the first pass ends the command or gives the tables; then the file is written, or what fits of it. -/
theorem huffCompress_outcome : Obligations.HuffCompress := by
  unfold Obligations.HuffCompress
  refine ⟨?_, ?_, ?_⟩
  · intro s hreg hbus hcount
    have hlen := length_input_lt s
    obtain ⟨c, d, hrun⟩ := huffCompress_files hreg hbus hcount
    obtain ⟨hhuff, hunique, hbits, hcodes, hnext⟩ := runCommand_sameTables (by decide) hreg (leavesTables_writeFile _) hrun
    obtain ⟨f, hf, hfhuff⟩ := exec_buildFrequencyTable_launch hreg hbus
    obtain ⟨t, hexec, -, hfit⟩ := huffCompress_file hreg hbus hcount
    have hfile := length_huffFile (commandHuff s.input) s.input
    rw [u_commandHuff s.input hlen] at hfile
    refine ⟨_, f, _, _, _, _, exec_decodeOp 1#3 s, hf, exec_buildTree f, exec_buildEncodingTable _, ?_, rfl, rfl, ?_⟩
    · rw [hhuff, hfhuff]
      rfl
    rw [hhuff, hunique, hbits, hcodes, hnext, filingState_huffBits, filingState_huff]
    refine ⟨ranked_commandHuff s.input hlen, freq_commandHuff s.input hlen, huffUnique_counted s.input hlen, rfl, rfl, rfl,
      fun hle => ?_, huffCompress_full hreg hbus hcount, fun hcap => ?_⟩
    · cases hexec.symm.trans (exec_decodeOp 1#3 s)
      obtain ⟨hsucc, hout, houtLen⟩ := hfit hle
      exact ⟨hsucc, hout, houtLen.trans hfile⟩
    · have h1 := length_codes_le (commandHuff s.input) s.input
      have h2 := length_firstAppearances_le s.input
      rw [length_input] at h1
      change (huffFile (commandHuff s.input) s.input).length ≤ _
      omega
  · intro s hreg hbus ⟨b, hb⟩
    have hlen := length_input_lt s
    have hc := counted_cleared hlen
    obtain ⟨f, hf, hfhuff⟩ := exec_buildFrequencyTable_launch hreg hbus
    obtain ⟨c, d, hrun, -⟩ := buildFrequencyTable_ok (s := counter s) (hbus.of_cfg rfl) hreg.1
    have hlarge : frequencyTooLarge (countedBytes s.input Huff.cleared) = true :=
      (frequencyTooLarge_iff _).mpr ⟨b, by rwa [hc.freq]⟩
    refine ⟨_, f, exec_decodeOp 1#3 s, ?_⟩
    rw [runCommand_raised (op := 1#3) (by decide) hreg (huffCompress_tooLarge hrun hlarge)]
    exact ⟨raiseError_failed _ _ _, rfl, rfl, hf, hfhuff.symm, hc.ranked, hc.freq, huffUnique_counted s.input hlen, rfl,
      rfl, rfl⟩
  · intro s k hreg hfail hk
    have hrun := buildFrequencyTable_readFails (s := counter s) (hfail.congr rfl rfl) hk
    have hlaunch : exec .buildFrequencyTable (launch s) = _ := runOp_error (fun _ => .none)
      (buildFrequencyTable_readFails (s := launch s) (hfail.congr rfl rfl) hk)
    have hend := runCommand_raised (op := 1#3) (by decide) hreg (huffCompress_count_error hrun)
    exact ⟨_, _, (exec_decodeOp 1#3 s).trans (congrArg _ hend), raiseError_failed _ _ _, rfl, hlaunch, rfl⟩

end Sys2Proof.Machine
